-- ==== Sys2Proof/Word.lean ====
section
/-! DEFINITION. The words and the numbered things of the CB416: bytes, epoch values, tags, ports, tracks, lanes, sense inputs, pool slots, bundle numbers. -/

namespace Sys2Proof

/-- One byte of a frame (12 R180). -/
abbrev Byte := BitVec 8

/-- An epoch value: a 64-bit unsigned count of ticks (00 "Terms", 09 R138). Sums and comparisons of epoch values are made on `toNat`. -/
abbrev Epoch := BitVec 64

/-- A tag, chosen by the controller (01 R5). -/
abbrev Tag := BitVec 16

/-- A handle as it stands on the wire: low byte the slot, high byte the use count (01 R8). -/
abbrev Handle := BitVec 16

/-- The sequence number of a request frame (12 R180). -/
abbrev Seq := BitVec 4

/-- Ports P0 to P3 (00 "Signals"). -/
abbrev Port := Fin 4

/-- Tracks 0 to 23; 0 to 15 are the lanes, 16 to 23 the sense inputs (01 R1). -/
abbrev Track := Fin 24

/-- Lanes 0 to 15; lane k is track k (01 R1). -/
abbrev Lane := Fin 16

/-- Sense inputs 0 to 7; sense input k is track 16 + k (01 R1). -/
abbrev Sense := Fin 8

/-- Pool slots 0 to 191 (01 R10). -/
abbrev Slot := Fin 192

/-- Bundle records 0 to 7 within a port (04 R58). -/
abbrev BundleNo := Fin 8

end Sys2Proof
end

