-- ==== Sys2Proof/Syntax.lean ====
section
/-! DEFINITION. The commands the CB416 takes: one constructor of Instr for each row of spec/opcode_table.json, with the row's operands. -/

namespace Sys2Proof

/-- A level on an input pin. -/
inductive Level where
  | low
  | high
  deriving DecidableEq, Repr

/-- The ten bytes of a member descriptor, as sent (12 R181). -/
structure Descriptor where
  /-- Byte 0. -/
  track : Byte
  /-- Byte 1: kind and shape. -/
  kind : Byte
  b2 : Byte
  b3 : Byte
  b4 : Byte
  b5 : Byte
  b6 : Byte
  b7 : Byte
  b8 : Byte
  b9 : Byte
  deriving DecidableEq, Repr

/-- The common operands of RESERVE and RESERVE_BUNDLE, as sent (02 R21, 12 R180). -/
structure Booking where
  start : Epoch
  /-- The operand "end". -/
  stop : Epoch
  priority : Byte
  notify : Byte
  tag : Tag
  deriving DecidableEq, Repr

/-- A request with its operands as sent (12 R180): every value of every operand byte can be asked for. CLOSE has one code and two modes. -/
inductive Request where
  | openSession (quota : Byte) (silence : BitVec 16)
  | closeGraceful
  | closeAbrupt
  | readEpoch
  | queryPool
  | claim (track : Byte)
  | release (track : Byte)
  | queryTrack (track : Byte)
  | setLane (lane polarity idle : Byte)
  | reserve (booking : Booking) (member : Descriptor)
  | reserveBundle (booking : Booking) (members : List Descriptor)
  | cancel (handle : Handle)
  | amendEnd (handle : Handle) (newEnd : Epoch)
  | flush (target : Byte)
  | queryWindow (handle : Handle)
  deriving DecidableEq, Repr

/-- The commands, one constructor per row of spec/opcode_table.json. A request row carries the requesting port and the sequence number of its frame; it is a well-formed request frame judged at that port (log entry 8). -/
inductive Instr where
  /-- OPEN (10 R147, R148). -/
  | openSession (port : Port) (seq : Seq) (quota : Byte) (silence : BitVec 16)
  /-- CLOSE_GRACEFUL (10 R150, R151). -/
  | closeGraceful (port : Port) (seq : Seq)
  /-- CLOSE_ABRUPT (10 R150, R153). -/
  | closeAbrupt (port : Port) (seq : Seq)
  /-- READ_EPOCH (09 R144). -/
  | readEpoch (port : Port) (seq : Seq)
  /-- QUERY_POOL (10 R161). -/
  | queryPool (port : Port) (seq : Seq)
  /-- CLAIM (06 R91, R92). -/
  | claim (port : Port) (seq : Seq) (track : Byte)
  /-- RELEASE (06 R94). -/
  | release (port : Port) (seq : Seq) (track : Byte)
  /-- QUERY_TRACK (06 R99). -/
  | queryTrack (port : Port) (seq : Seq) (track : Byte)
  /-- SET_LANE (07 R117 to R119). -/
  | setLane (port : Port) (seq : Seq) (lane polarity idle : Byte)
  /-- RESERVE (02 R23). -/
  | reserve (port : Port) (seq : Seq) (booking : Booking) (member : Descriptor)
  /-- RESERVE_BUNDLE (04 R60). -/
  | reserveBundle (port : Port) (seq : Seq) (booking : Booking) (members : List Descriptor)
  /-- CANCEL (05 R76, R77). -/
  | cancel (port : Port) (seq : Seq) (handle : Handle)
  /-- AMEND_END (05 R79). -/
  | amendEnd (port : Port) (seq : Seq) (handle : Handle) (newEnd : Epoch)
  /-- FLUSH (05 R84). -/
  | flush (port : Port) (seq : Seq) (target : Byte)
  /-- QUERY_WINDOW (05 R86). -/
  | queryWindow (port : Port) (seq : Seq) (handle : Handle)
  /-- TRANSACTION_BEGIN (12 R173): PnCSn taken low. -/
  | transactionBegin (port : Port)
  /-- TRANSACTION_END (12 R173, R174): PnCSn taken high. `received` are the levels sampled on PnSDI, one for each rising edge of PnSCK since PnCSn was taken low, in order. -/
  | transactionEnd (port : Port) (received : List Level)
  /-- RESETN_ASSERT (01 R19). -/
  | resetnAssert
  /-- RESETN_RELEASE (09 R138), with the levels on TDIV1, TDIV0, FREEZE and SENSE7 to SENSE0 (bit k is SENSEk) at the release. -/
  | resetnRelease (tdiv1 tdiv0 freeze : Level) (sense : Byte)
  /-- PORT_RESET_ASSERT (10 R157). -/
  | portResetAssert (port : Port)
  /-- PORT_RESET_RELEASE (12 R178). -/
  | portResetRelease (port : Port)
  /-- FREEZE_ASSERT (09 R140). -/
  | freezeAssert
  /-- FREEZE_RELEASE (09 R140). -/
  | freezeRelease
  /-- SENSE_EDGE (08 R123): the pin of the sense input comes to the level given. -/
  | senseEdge (input : Sense) (level : Level)
  /-- TICK (09 R139). -/
  | tick
  /-- SILENCE_TIMER_EXPIRY (10 R156). -/
  | silenceTimerExpiry (port : Port)
  /-- WINDOW_START (01 R12) of the head of a track's list. -/
  | windowStart (track : Track)
  /-- WINDOW_END_DUE (01 R14) of the ACTIVE window of a track. -/
  | windowEndDue (track : Track)
  /-- BUNDLE_JOINT_START (04 R65) of a bundle of a port. -/
  | bundleJointStart (port : Port) (bundle : BundleNo)
  /-- BUNDLE_JOINT_END (04 R68) of a bundle of a port. -/
  | bundleJointEnd (port : Port) (bundle : BundleNo)
  /-- PULSE_END (07 R111) of the ACTIVE TRIGGERED window of a lane. -/
  | pulseEnd (lane : Lane)
  deriving DecidableEq, Repr

end Sys2Proof
end

