-- ==== Sys2Proof/Decode.lean ====
section
/-! DEFINITION. The command a table word spells. spec/opcode_table.json gives no row any bits, so no word spells a command (log entry 22). Request frames, which do carry commands in bytes, are read in Machine/Wire.lean. -/

namespace Sys2Proof

/-- The command that a word of the opcode table spells: none, for the table gives no row any bits. -/
def decodeTableWord (_nbits _w : Nat) : Option Instr := none

end Sys2Proof
end

