-- ==== Sys2Proof/Config.lean ====
section
/-! DEFINITION. What the spec leaves open: the free values. Each is a constant with no body, so no proof can see its value. The model applies them to the counter `freeCount` of State. -/

namespace Sys2Proof

/-- Free value (log entry 4): where, in the records of one change that the spec leaves unordered (11 R163), the next record goes. Arguments: the draw and the number of records already placed. The model takes it modulo the number of places. -/
opaque Config.recordPlace : Nat → Nat → Nat

/-- Free value (log entry 5): whether the report of a limiting edge to the lanes is taken before its count (08 R129). -/
opaque Config.reportFirst : Nat → Bool

/-- Free value (log entry 6): which of several due events the part takes first on its own (01 R4). The model takes it modulo their number. -/
opaque Config.dueChoice : Nat → Nat

/-- Free value (log entry 7): an epoch value past 2^64 − 1, of which no rule treats (09 R139). Arguments: the draw and the reader (0 to 15 a lane's pulse end, 16 the timebase). -/
opaque Config.epochPastTop : Nat → Nat → Epoch

end Sys2Proof
end

