-- ==== Sys2Proof/Machine/State.lean ====
section
/-! DEFINITION. The state of the CB416 as plain data: window records, claims, lanes, tally units, the timebase and the four Port Units, with the queue of waiting commands; and the state right after reset. -/

namespace Sys2Proof.Machine

/-- The edges a consumer takes (01 R6, 08 R124). -/
inductive EdgeKind where
  | rise
  | fall
  | both
  deriving DecidableEq, Repr

/-- The level of a shape: ACTIVE or INACTIVE (07 R106). -/
inductive ShapeLevel where
  | inactive
  | active
  deriving DecidableEq, Repr

/-- Kind, shape and shape parameters of a window (01 R5, R6). `tally` is the kind TALLY; the others are the shapes of the kind DRIVE. -/
inductive Shape where
  | steady
  | train (period active : BitVec 16)
  | toggle (interval : BitVec 16) (initial : ShapeLevel)
  | triggered (source : Sense) (edge : EdgeKind) (width : BitVec 16) (budget : Byte)
  | tally (edge : EdgeKind) (limit : Option (BitVec 24))
  deriving DecidableEq, Repr

/-- PENDING or ACTIVE (01 R5). -/
inductive WindowState where
  | pending
  | active
  deriving DecidableEq, Repr

/-- The arming of a TRIGGERED window (07 R109). -/
inductive Arming where
  | armed
  | done
  deriving DecidableEq, Repr

/-- The run-time part of a TRIGGERED window (01 R7). -/
structure TriggerRun where
  /-- Pulses emitted, 0 to N. -/
  emitted : Nat
  /-- Current pulse end; present exactly while a pulse is in progress (07 R109). -/
  pulseEnd : Option Epoch
  arming : Arming
  deriving DecidableEq, Repr

/-- The run-time part of a TALLY window (01 R7). -/
structure TallyRun where
  /-- Count, 0 to 16,777,215. -/
  count : Nat
  saturated : Bool
  firstEdge : Option Epoch
  lastEdge : Option Epoch
  deriving DecidableEq, Repr

/-- The run-time part (01 R7): absent for STEADY, TRAIN and TOGGLE. -/
inductive RunTime where
  | absent
  | trigger (run : TriggerRun)
  | tally (run : TallyRun)
  deriving DecidableEq, Repr

/-- The bundle reference of a member (01 R5): the bundle number of the owner port and the leader flag. -/
structure BundleRef where
  number : BundleNo
  leader : Bool
  deriving DecidableEq, Repr

/-- A window record (01 R5). Its handle is made of `slot` and `useCount` (01 R8). -/
structure Window where
  slot : Slot
  /-- The use count of the slot at this allocation: the high byte of the handle (01 R8). -/
  useCount : Byte
  owner : Port
  track : Track
  start : Epoch
  /-- The field "end". -/
  stop : Epoch
  priority : Fin 4
  shape : Shape
  noteStart : Bool
  noteEnd : Bool
  tag : Tag
  bundle : Option BundleRef
  state : WindowState
  run : RunTime
  deriving DecidableEq, Repr

/-- A used bundle record (04 R58). The member count is the number of handles. -/
structure BundleRecord where
  /-- Member handles in member order; the first is the leader. -/
  handles : List Handle
  /-- Common start. -/
  start : Epoch
  /-- Common end. -/
  stop : Epoch
  state : WindowState
  deriving DecidableEq, Repr

/-- The session states (10 R146). -/
inductive SessionState where
  | down
  | opened
  | closing
  | lapsed
  deriving DecidableEq, Repr

/-- RUNNING or HELD (09 R138). -/
inductive FreezeState where
  | running
  | held
  deriving DecidableEq, Repr

/-- The tick divider: 1, 2, 4 or 8 REFCLK periods (09 R138). -/
inductive Divider where
  | one
  | two
  | four
  | eight
  deriving DecidableEq, Repr

/-- Reasons of END and TALLY records (11 R170). -/
inductive Reason where
  | complete
  | cancelled
  | limit
  | bundleLimit
  deriving DecidableEq, Repr

/-- Causes of LAPSED (11 R171). -/
inductive LapseCause where
  | silence
  | portReset
  deriving DecidableEq, Repr

/-- Event records (11 R170, R171). -/
inductive EventRecord where
  | start (handle : Handle) (tag : Tag) (epoch : Epoch)
  /-- END; the pulses emitted are present for a TRIGGERED window. -/
  | ended (handle : Handle) (tag : Tag) (epoch : Epoch) (reason : Reason) (pulses : Option Nat)
  | tally (handle : Handle) (tag : Tag) (epoch : Epoch) (reason : Reason) (count : Nat) (saturated : Bool)
      (firstEdge lastEdge : Option Epoch)
  /-- DISPLACED BUMPED (03 R53). -/
  | bumped (handle : Handle) (tag : Tag) (epoch : Epoch) (priority : Fin 4)
  /-- DISPLACED TRUNCATED, with the new end (03 R53). -/
  | truncated (handle : Handle) (tag : Tag) (epoch : Epoch) (priority : Fin 4) (newEnd : Epoch)
  | closed (epoch : Epoch)
  | lapsed (epoch : Epoch) (cause : LapseCause)
  | freezeOn (epoch : Epoch)
  | freezeOff (epoch : Epoch)
  | lost (count : Nat)
  deriving DecidableEq, Repr

/-- Reply statuses (12 R182). -/
inductive Status where
  | ok
  | badFrame
  | badRequest
  | badRange
  | wrongTrackKind
  | noSession
  | sessionOpen
  | closing
  | noQuota
  | quotaFull
  | noBundleRecord
  | tooLate
  | tooFar
  | claimed
  | triggerUnavailable
  | overlap
  | conflict
  | heldByOthers
  | notClaimant
  | trackBusy
  | noSuchWindow
  deriving DecidableEq, Repr

/-- The polarity of a lane (07 R103). -/
inductive Polarity where
  | activeHigh
  | activeLow
  deriving DecidableEq, Repr

/-- The idle drive of a lane (07 R103). -/
inductive IdleDrive where
  | inactive
  | active
  | float
  deriving DecidableEq, Repr

/-- The drive state of a lane (07 R103). -/
inductive DriveState where
  | active
  | inactive
  | idle
  deriving DecidableEq, Repr

/-- The level on a lane pin (07 R103). -/
inductive PinLevel where
  | high
  | low
  | highImpedance
  deriving DecidableEq, Repr

/-- The results of a reply, by request and status (12 R183). -/
inductive Results where
  | none
  /-- OPEN, OK. -/
  | opened (epoch : Epoch) (freeze : FreezeState) (quota : Nat) (silence : Nat)
  /-- CLOSE GRACEFUL, OK: state reached, records removed, records left running. -/
  | closedGraceful (reached : SessionState) (removed left : Nat)
  /-- CLOSE ABRUPT, OK: records torn down, epoch. -/
  | closedAbrupt (tornDown : Nat) (epoch : Epoch)
  /-- READ_EPOCH, OK. -/
  | epochRead (epoch : Epoch) (freeze : FreezeState) (divider : Divider)
  /-- QUERY_POOL, OK. -/
  | pool (free inUse : Nat) (session : SessionState) (held quota freeBundles : Nat)
  /-- QUERY_TRACK, OK. -/
  | trackReport (claimant : Option Port) (windows : Nat) (headStart : Option Epoch) (triggerRefs : Option Nat)
      (attributes : Option (Polarity × IdleDrive))
  /-- RESERVE, OK. -/
  | reserved (handle : Handle)
  /-- RESERVE_BUNDLE, OK. -/
  | bundled (number : BundleNo) (handles : List Handle)
  /-- CANCEL, OK, outcome REMOVED. -/
  | removed (records : Nat)
  /-- CANCEL, OK, outcome ENDED. -/
  | ended (records : Nat) (epoch : Epoch)
  /-- AMEND_END, OK: the end in force. -/
  | amended (endInForce : Epoch)
  /-- FLUSH, OK. -/
  | flushed (records : Nat)
  /-- QUERY_WINDOW, OK. -/
  | windowReport (state : WindowState) (start stop : Epoch) (track : Track) (priority : Fin 4) (bundle : Option BundleNo)
  /-- OPEN, NO_QUOTA: the quota available. -/
  | quotaAvailable (records : Nat)
  /-- The epoch of a TOO_LATE or TOO_FAR, or the start of a CONFLICT. -/
  | value (epoch : Epoch)
  /-- A member index (none: a step that concerns the bundle) and, for some statuses, one value more. -/
  | member (index : Option Nat) (further : Option Epoch)
  deriving DecidableEq, Repr

/-- What a block answers to a request: the status and the results. -/
structure Answer where
  status : Status
  results : Results
  deriving DecidableEq, Repr

/-- A reply with its flags (12 R172, R182). -/
structure Reply where
  /-- The sequence of the request answered. -/
  seq : Seq
  /-- The request code echoed, 0x00 for BAD_FRAME. -/
  code : Byte
  answer : Answer
  /-- The flag RETRY. -/
  retry : Bool
  /-- The flag OVERRUN. -/
  overrun : Bool
  deriving DecidableEq, Repr

/-- The outbound item of a transaction (12 R173). -/
inductive OutboundItem where
  | reply (r : Reply)
  | event (e : EventRecord)
  | idle
  deriving DecidableEq, Repr

/-- A transaction in progress (12 R172). -/
structure Transaction where
  item : OutboundItem
  /-- Set where a lapse cleared the chosen reply or record (10 R159, 12 R174). -/
  cleared : Bool
  /-- The whole bytes exchanged so far, as clocked in on PnSDI. -/
  exchanged : List Byte
  deriving DecidableEq, Repr

/-- A Port Unit (10 R146, 11 R162, 12 R172). -/
structure PortUnit where
  session : SessionState
  quota : Nat
  /-- Held count. -/
  held : Nat
  /-- Silence limit in silence units. -/
  silenceLimit : Option Nat
  /-- REFCLK periods remaining; none while stopped. -/
  silenceTimer : Option Nat
  /-- The eight bundle records; none is free. -/
  bundles : Vector (Option BundleRecord) 8
  /-- Event queue, oldest first. -/
  queue : List EventRecord
  /-- Lost count. -/
  lost : Nat
  transaction : Option Transaction
  replySlot : Option Reply
  retained : Option Reply
  /-- Request identity: sequence and CRC of the last request taken. -/
  identity : Option (Seq × Byte)
  /-- PnRSTn is held asserted. -/
  resetHeld : Bool
  deriving DecidableEq, Repr

/-- A Lane Driver (07 R103). The pin level follows from these. -/
structure LaneDriver where
  polarity : Polarity
  idleDrive : IdleDrive
  drive : DriveState
  deriving DecidableEq, Repr

/-- A Tally Unit (08 R122). -/
structure TallyUnit where
  /-- Seen level. -/
  seen : Level
  /-- Counting window. -/
  counting : Option Slot
  /-- The waiting window of an open handover hold (08 R134; log entry 14). -/
  hold : Option Slot
  /-- Carried edges. -/
  carried : Nat
  deriving DecidableEq, Repr

/-- The state of the CB416. -/
structure State where
  /-- Allocated window records in list order; the list of a track is its entries on that track (01 R2, R10). -/
  windows : List Window
  useCounts : Vector Byte 192
  claimants : Vector (Option Port) 24
  /-- Trigger reference counts, by sense input and port (06 R89). -/
  trigRefs : Vector (Vector Nat 4) 8
  lanes : Vector LaneDriver 16
  tallies : Vector TallyUnit 8
  epoch : Epoch
  divider : Divider
  freeze : FreezeState
  /-- Tick progress. -/
  progress : Nat
  ports : Vector PortUnit 4
  /-- RESETn is asserted. -/
  resetHeld : Bool
  /-- The model's own counter, from which free values are drawn (log entry 4); no register of the part. -/
  freeCount : Nat
  /-- The commands that wait, first in first out. -/
  pending : List Instr
  deriving DecidableEq, Repr

/-- The faults of a step. There is none: the spec describes no event that stops the part (log entry 20). Safe. -/
inductive Fault where
  deriving DecidableEq, Repr

/-- The refusals of a step. -/
inductive Refusal where
  /-- Raised by Dispatch.exec for a row that has no meaning yet; no arm raises it in this model. Safe: the model stops where the part goes on. -/
  | notModelled (mnemonic : String)
  deriving DecidableEq, Repr

/-- A Port Unit at the release of RESETn (10 R146, 11 R162, 12 R172). -/
def PortUnit.reset : PortUnit where
  session := .down
  quota := 0
  held := 0
  silenceLimit := none
  silenceTimer := none
  bundles := Vector.replicate 8 none
  queue := []
  lost := 0
  transaction := none
  replySlot := none
  retained := none
  identity := none
  resetHeld := false

/-- A Lane Driver at the release of RESETn (07 R104). -/
def LaneDriver.reset : LaneDriver where
  polarity := .activeHigh
  idleDrive := .inactive
  drive := .idle

/-- A Tally Unit at a release of RESETn with its pin low (08 R122). -/
def TallyUnit.reset : TallyUnit where
  seen := .low
  counting := none
  hold := none
  carried := 0

/-- The machine right after the release of RESETn. DESIGN CHOICE (log entry 1): the pins at that release are TDIV1 and TDIV0 low, FREEZE deasserted, every SENSE low, every PnRSTn deasserted. -/
def State.reset : State where
  windows := []
  useCounts := Vector.replicate 192 0
  claimants := Vector.replicate 24 none
  trigRefs := Vector.replicate 8 (Vector.replicate 4 0)
  lanes := Vector.replicate 16 LaneDriver.reset
  tallies := Vector.replicate 8 TallyUnit.reset
  epoch := 0
  divider := .one
  freeze := .running
  progress := 0
  ports := Vector.replicate 4 PortUnit.reset
  resetHeld := false
  freeCount := 0
  pending := []

end Sys2Proof.Machine
end

