-- ==== Sys2Proof/Machine/Params.lean ====
section
/-! DEFINITION. The numbers of the spec, the tracks as lanes and sense inputs, and sums of epoch values. -/

namespace Sys2Proof.Machine

/-- LEAD: 64 ticks (00 "Terms", 02 R26). -/
def lead : Nat := 64

/-- The horizon, in ticks (00 "Terms", 02 R27). -/
def horizon : Nat := 2 ^ 40

/-- The least length at admission (02 R27). -/
def minLength : Nat := 4

/-- The records of the pool, and the most the quotas may sum to (01 R10, R11). -/
def poolSize : Nat := 192

/-- The most event records a queue holds (11 R162). -/
def queueDepth : Nat := 32

/-- Where the lost count stays (11 R164). -/
def lostMax : Nat := 255

/-- Where a tally count and the carried edges stay (08 R122, R125). -/
def tallyMax : Nat := 16777215

/-- REFCLK periods in one silence unit (10 R155). -/
def silenceUnit : Nat := 65536

/-- REFCLK periods in one tick (09 R138). -/
def Divider.periods : Divider → Nat
  | .one => 1
  | .two => 2
  | .four => 4
  | .eight => 8

/-- The divider the straps choose (09 R138). -/
def dividerOfStraps : Level → Level → Divider
  | .low, .low => .one
  | .low, .high => .two
  | .high, .low => .four
  | .high, .high => .eight

/-- The level of a bit. -/
def levelOf (b : Bool) : Level := if b then .high else .low

/-- The lane that a track is, if it is one (01 R1). -/
def laneOf (t : Track) : Option Lane :=
  if h : t.val < 16 then some ⟨t.val, h⟩ else none

/-- The sense input that a track is, if it is one (01 R1). -/
def senseOf (t : Track) : Option Sense :=
  if 16 ≤ t.val then some ⟨t.val - 16, by omega⟩ else none

/-- Lane k is track k (01 R1). -/
def laneTrack (l : Lane) : Track := ⟨l.val, by omega⟩

/-- Sense input k is track 16 + k (01 R1). -/
def senseTrack (k : Sense) : Track := ⟨16 + k.val, by omega⟩

/-- The epoch value `n` ticks after `e`; past 2^64 − 1 a free value (09 R139; log entry 7). -/
def epochPlus (draw reader : Nat) (e : Epoch) (n : Nat) : Epoch :=
  if e.toNat + n < 2 ^ 64 then e + BitVec.ofNat 64 n else Config.epochPastTop draw reader

/-- Two intervals from start up to but not including end intersect (02 R31). -/
def intersects (start stop start' stop' : Epoch) : Bool :=
  decide (start < stop') && decide (start' < stop)

end Sys2Proof.Machine
end

