-- ==== Sys2Proof/Machine/Shapes.lean ====
section
/-! DEFINITION. The shapes: the level at a phase, edges that qualify, the run-time parts of TRIGGERED and TALLY windows. -/

namespace Sys2Proof.Machine

/-- The direction of an edge taken as a pin comes to a level: true is rising (08 R123). An edge qualifies by its consumer's edge kind (08 R124, 07 R110). -/
def EdgeKind.qualifies : EdgeKind → Level → Bool
  | .rise, .high => true
  | .rise, .low => false
  | .fall, .high => false
  | .fall, .low => true
  | .both, _ => true

/-- The other level (07 R108). -/
def ShapeLevel.opposite : ShapeLevel → ShapeLevel
  | .active => .inactive
  | .inactive => .active

/-- The drive state that shows a level (07 R106). -/
def ShapeLevel.drive : ShapeLevel → DriveState
  | .active => .active
  | .inactive => .inactive

/-- The level of a shape at a phase (07 R107, R108, R109). A TRIGGERED window is ACTIVE while a pulse is in progress. TALLY windows drive no lane. -/
def shapeLevel : Shape → RunTime → Nat → ShapeLevel
  | .steady, _, _ => .active
  | .train period active, _, phase => if phase % period.toNat < active.toNat then .active else .inactive
  | .toggle interval initial, _, phase => if phase / interval.toNat % 2 = 0 then initial else initial.opposite
  | .triggered .., .trigger r, _ => if r.pulseEnd.isSome then .active else .inactive
  | .triggered .., _, _ => .inactive
  | .tally .., _, _ => .inactive

/-- The run-time part at allocation (01 R7). -/
def Shape.firstRun : Shape → RunTime
  | .triggered .. => .trigger { emitted := 0, pulseEnd := none, arming := .armed }
  | .tally .. => .tally { count := 0, saturated := false, firstEdge := none, lastEdge := none }
  | .steady | .train .. | .toggle .. => .absent

/-- TALLY, as against DRIVE (01 R5). -/
def Shape.isTally : Shape → Bool
  | .tally .. => true
  | _ => false

/-- The trigger sense input of a TRIGGERED shape (01 R6). -/
def Shape.source : Shape → Option Sense
  | .triggered k .. => some k
  | _ => none

/-- `n` counted edges, one after another at `te` (08 R125): the count saturates, the first-edge epoch is kept once present, the last-edge epoch is te. A limit is not passed: the window ends at it, and edges beyond it are discarded (08 R134). -/
def TallyRun.countEdges (r : TallyRun) (te : Epoch) (limit : Option (BitVec 24)) (n : Nat) : TallyRun :=
  let m := match limit with
    | some l => min n (l.toNat - r.count)
    | none => n
  if m = 0 then r else
    { count := min (r.count + m) tallyMax
      saturated := r.saturated || decide (tallyMax < r.count + m)
      firstEdge := r.firstEdge <|> some te
      lastEdge := some te }

/-- A window's run-time part after `n` counted edges at `te`; other shapes than TALLY count nothing. -/
def Window.countEdges (w : Window) (te : Epoch) (n : Nat) : Window :=
  match w.shape, w.run with
  | .tally _ limit, .tally r => { w with run := .tally (r.countEdges te limit n) }
  | _, _ => w

/-- The count of a TALLY window equals its limit (08 R125 step 4). -/
def Window.limitReached (w : Window) : Bool :=
  match w.shape, w.run with
  | .tally _ (some l), .tally r => decide (r.count = l.toNat)
  | _, _ => false

/-- A TALLY window counts an edge to this level (08 R124). -/
def Window.counts (w : Window) (level : Level) : Bool :=
  match w.shape with
  | .tally edge _ => edge.qualifies level
  | _ => false

/-- An edge to `level` on sense input `k` starts a pulse of this window: it is ACTIVE and TRIGGERED on `k`, the edge qualifies, no pulse is in progress and the arming is ARMED (07 R110). -/
def Window.startsPulse (w : Window) (k : Sense) (level : Level) : Bool :=
  match w.state, w.shape, w.run with
  | .active, .triggered k' edge _ _, .trigger r =>
      decide (k' = k) && edge.qualifies level && r.pulseEnd.isNone && decide (r.arming = .armed)
  | _, _, _ => false

/-- The pulse that an edge starts (07 R110): pulses emitted rises by one and the pulse ends at `pulseEnd`. -/
def Window.withPulse (w : Window) (pulseEnd : Epoch) : Window :=
  match w.run with
  | .trigger r => { w with run := .trigger { r with emitted := r.emitted + 1, pulseEnd := some pulseEnd } }
  | _ => w

/-- The width W of a TRIGGERED window, in ticks (01 R6). -/
def Shape.width : Shape → Nat
  | .triggered _ _ w _ => w.toNat
  | _ => 0

/-- The end of the current pulse (07 R111): it becomes absent, and the arming DONE once N pulses were emitted. -/
def Window.endPulse (w : Window) : Window :=
  match w.shape, w.run with
  | .triggered _ _ _ budget, .trigger r =>
      let arming := if r.emitted = budget.toNat then .done else r.arming
      { w with run := .trigger { r with pulseEnd := none, arming := arming } }
  | _, _ => w

/-- The current pulse end of an ACTIVE TRIGGERED window, present while a pulse is in progress (07 R109). -/
def Window.pulseEnd (w : Window) : Option Epoch :=
  match w.state, w.shape, w.run with
  | .active, .triggered .., .trigger r => r.pulseEnd
  | _, _, _ => none

/-- The pulses an END record reports: present for a TRIGGERED window (11 R170). -/
def Window.pulses (w : Window) : Option Nat :=
  match w.shape, w.run with
  | .triggered .., .trigger r => some r.emitted
  | .triggered .., _ => some 0
  | _, _ => none

/-- The drive state a window shows at an epoch value: the level of its shape at the phase, the epoch minus the start (07 R106). -/
def Window.driveAt (w : Window) (epoch : Epoch) : DriveState :=
  (shapeLevel w.shape w.run (epoch.toNat - w.start.toNat)).drive

end Sys2Proof.Machine
end

