-- ==== Sys2Proof/Machine/Ops.lean ====
section
/-! DEFINITION. The named operations every command is built from: accessors, the event queue, the window lists, a window's leaving, retirement and removal, the start, the end at a limit, the end of a session. -/

namespace Sys2Proof.Machine

/-! ### Accessors -/

def State.port (s : State) (p : Port) : PortUnit := s.ports[p]

def State.setPort (s : State) (p : Port) (u : PortUnit) : State := { s with ports := s.ports.set p u }

def State.claimant (s : State) (t : Track) : Option Port := s.claimants[t]

def State.setClaimant (s : State) (t : Track) (c : Option Port) : State := { s with claimants := s.claimants.set t c }

/-- The trigger reference count of a port on a sense input (06 R89). -/
def State.refs (s : State) (k : Sense) (p : Port) : Nat := s.trigRefs[k][p]

def State.setRefs (s : State) (k : Sense) (p : Port) (n : Nat) : State :=
  { s with trigRefs := s.trigRefs.set k (s.trigRefs[k].set p n) }

def State.lane (s : State) (l : Lane) : LaneDriver := s.lanes[l]

def State.setLane (s : State) (l : Lane) (d : LaneDriver) : State := { s with lanes := s.lanes.set l d }

def State.setDrive (s : State) (l : Lane) (d : DriveState) : State := s.setLane l { s.lane l with drive := d }

def State.tally (s : State) (k : Sense) : TallyUnit := s.tallies[k]

def State.setTally (s : State) (k : Sense) (u : TallyUnit) : State := { s with tallies := s.tallies.set k u }

def State.useCount (s : State) (i : Slot) : Byte := s.useCounts[i]

def State.setUseCount (s : State) (i : Slot) (n : Byte) : State := { s with useCounts := s.useCounts.set i n }

/-- One draw of free values: the counter goes on. -/
def State.draw (s : State) : State := { s with freeCount := s.freeCount + 1 }

/-! ### Lists and records -/

/-- A handle: low byte the slot, high byte the use count at the allocation (01 R8). -/
def Window.handle (w : Window) : Handle := w.useCount ++ BitVec.ofNat 8 w.slot.val

/-- The list of a track (01 R2). -/
def State.trackList (s : State) (t : Track) : List Window := s.windows.filter (fun w => decide (w.track = t))

/-- The head of a track's list (01 R2). -/
def State.head (s : State) (t : Track) : Option Window := (s.trackList t).head?

/-- The window a track is running: its head, when ACTIVE (01 R3). -/
def State.running (s : State) (t : Track) : Option Window :=
  (s.head t).filter (fun w => decide (w.state = .active))

/-- The record in a slot, if the slot is allocated. -/
def State.windowAt (s : State) (i : Slot) : Option Window := s.windows.find? (fun w => decide (w.slot = i))

/-- The windows of a port, in list order. -/
def State.owned (s : State) (p : Port) : List Window := s.windows.filter (fun w => decide (w.owner = p))

/-- The free list in ascending order (01 R10). -/
def State.freeSlots (s : State) : List Slot :=
  (List.finRange 192).filter (fun i => s.windows.all (fun w => decide (w.slot ≠ i)))

/-- Free records: 192 minus the sum of the four held counts (01 R11, 10 R161). -/
def State.freeRecords (s : State) : Nat := poolSize - ((List.finRange 4).map (fun p => (s.port p).held)).sum

/-- The quotas in use: the sum of the four quotas (10 R146). -/
def State.quotasInUse (s : State) : Nat := ((List.finRange 4).map (fun p => (s.port p).quota)).sum

/-- A record inserted just before the first window whose start is greater (02 R34). -/
def insertByStart (w : Window) : List Window → List Window
  | [] => [w]
  | v :: vs => if w.start < v.start then w :: v :: vs else v :: insertByStart w vs

/-- Two records are the same window, or members of one bundle (03 R49). -/
def sameUnit (w v : Window) : Bool :=
  decide (w.slot = v.slot) ||
    match w.bundle, v.bundle with
    | some a, some b => decide (w.owner = v.owner) && decide (a.number = b.number)
    | _, _ => false

/-- The window with the other members of its bundle, in member order: the members were inserted in that order with one start (04 R64). -/
def State.unitOf (s : State) (w : Window) : List Window := s.windows.filter (sameUnit w)

/-- The members of a bundle of a port, in member order. -/
def State.members (s : State) (p : Port) (b : BundleNo) : List Window :=
  s.windows.filter (fun w => decide (w.owner = p) && decide (w.bundle.map BundleRef.number = some b))

/-- A change of the record in one slot. -/
def State.updateWindow (s : State) (i : Slot) (f : Window → Window) : State :=
  { s with windows := s.windows.map (fun w => if w.slot = i then f w else w) }

def State.bundle (s : State) (p : Port) (b : BundleNo) : Option BundleRecord := (s.port p).bundles[b]

def State.setBundle (s : State) (p : Port) (b : BundleNo) (r : Option BundleRecord) : State :=
  s.setPort p { s.port p with bundles := (s.port p).bundles.set b r }

/-- A record taken out of `Window.bundle` as its number. -/
def Window.bundleNo (w : Window) : Option BundleNo := w.bundle.map BundleRef.number

/-! ### Event queues -/

/-- A record appended to a queue (11 R163), or discarded and counted where the queue holds 32 (11 R164). -/
def PortUnit.append (u : PortUnit) (r : EventRecord) : PortUnit :=
  if u.queue.length < queueDepth then { u with queue := u.queue ++ [r] }
  else { u with lost := min (u.lost + 1) lostMax }

/-- The head record consumed (11 R165), with the LOST record of 11 R166. -/
def PortUnit.consume (u : PortUnit) : PortUnit :=
  if u.queue.tail.length = queueDepth - 1 ∧ 0 < u.lost then
    { u with queue := u.queue.tail ++ [.lost u.lost], lost := 0 }
  else { u with queue := u.queue.tail }

def State.post (s : State) (p : Port) (r : EventRecord) : State := s.setPort p ((s.port p).append r)

/-- Records posted one after another. -/
def State.postAll (s : State) (rs : List (Port × EventRecord)) : State := rs.foldl (fun s r => s.post r.1 r.2) s

/-- An order of a list that the draw decides: each record goes to a free place among those before it. Every order is one of some draw (log entry 4). -/
def arrange {α : Type} (draw : Nat) : List α → List α
  | [] => []
  | x :: xs =>
    let ys := arrange draw xs
    ys.insertIdx (Config.recordPlace draw ys.length % (ys.length + 1)) x

/-- Records of one change posted in an order the part does not fix (11 R163; log entry 4). -/
def State.postUnordered (s : State) (rs : List (Port × EventRecord)) : State :=
  if rs.length ≤ 1 then s.postAll rs else (s.postAll (arrange s.freeCount rs)).draw

/-! ### A window leaves its list -/

/-- The lane of a window that left: IDLE, unless a window runs there or the next one starts at this epoch value (07 R105, R114; log entry 13). That the next one keeps the level also where it is a bundle member that waits for another member's track (04 R65, R66) is the model's choice (log entry 28). -/
def State.settleLane (s : State) (l : Lane) : State :=
  match s.head (laneTrack l) with
  | some w => if w.state = .active ∨ w.start = s.epoch then s else s.setDrive l .idle
  | none => s.setDrive l .idle

/-- The Tally Unit of a window that left. A retirement ends the counting and opens a handover hold where the next window starts at this epoch value; the removal of the waiting window closes the hold (08 R122, R134). -/
def State.settleTally (s : State) (k : Sense) (w : Window) : State :=
  match w.state with
  | .active =>
    let next := (s.head (senseTrack k)).filter (fun v => decide (v.start = s.epoch))
    s.setTally k { s.tally k with counting := none, hold := next.map Window.slot, carried := 0 }
  | .pending =>
    if (s.tally k).hold = some w.slot then s.setTally k { s.tally k with hold := none, carried := 0 } else s

/-- The track of a window that left its list (01 R15 step 2, R16). -/
def State.settleTrack (s : State) (w : Window) : State :=
  match laneOf w.track, senseOf w.track with
  | some l, _ => s.settleLane l
  | none, some k => s.settleTally k w
  | none, none => s

/-- The trigger reference of a record that leaves or enters a list (06 R97). -/
def State.lowerRef (s : State) (w : Window) : State :=
  match w.shape.source with
  | some k => s.setRefs k w.owner (s.refs k w.owner - 1)
  | none => s

def State.raiseRef (s : State) (w : Window) : State :=
  match w.shape.source with
  | some k => s.setRefs k w.owner (s.refs k w.owner + 1)
  | none => s

/-- The freeing of a record (01 R11): out of the lists, its slot free with the use count it has, the owner's held count one lower. A member's bundle record is freed with it, since all members leave in one change (04 R58, R71). -/
def State.freeRecord (s : State) (w : Window) : State :=
  let u := s.port w.owner
  { s with windows := s.windows.filter (fun v => decide (v.slot ≠ w.slot)) }.setPort w.owner
    { u with
      held := u.held - 1
      bundles := match w.bundle with
        | some b => u.bundles.set b.number none
        | none => u.bundles }

/-- A window leaves its list: freeing, trigger reference, track (01 R15, R16). -/
def State.leave (s : State) (w : Window) : State := ((s.freeRecord w).lowerRef w).settleTrack w

/-- Windows leave their lists in one change: removal where they are PENDING (01 R16, 04 R71). -/
def State.leaveAll (s : State) (ws : List Window) : State := ws.foldl State.leave s

/-! ### The end of a session -/

/-- Every claim of a port is released (06 R95). -/
def State.releaseClaims (s : State) (p : Port) : State :=
  { s with claimants := s.claimants.map (fun c => if c = some p then none else c) }

/-- A session ends in DOWN (10 R152, R154): claims released, quota 0, no silence limit, timer stopped, CLOSED posted. -/
def State.sessionDown (s : State) (p : Port) : State :=
  let t := s.releaseClaims p
  (t.setPort p { t.port p with session := .down, quota := 0, silenceLimit := none, silenceTimer := none }).post p
    (.closed s.epoch)

/-- A CLOSING session whose held count reached 0 ends (01 R18, 10 R152). -/
def State.endIfClosed (s : State) (p : Port) : State :=
  if (s.port p).session = .closing ∧ (s.port p).held = 0 then s.sessionDown p else s

/-- The teardown of a port's windows, bundles, trigger references and counts (10 R153 steps 1 to 4): no window record is posted. -/
def State.teardown (s : State) (p : Port) : State :=
  let ws := s.owned p
  let u := s.port p
  let t := { s with
      windows := s.windows.filter (fun w => decide (w.owner ≠ p))
      trigRefs := s.trigRefs.map (fun (v : Vector Nat 4) => v.set p 0) }.setPort p
    { u with held := 0, bundles := Vector.replicate 8 none }
  ws.foldl State.settleTrack t

/-- A lapse (10 R158): teardown, claims released, queue cleared and LAPSED placed, reply slot, retained reply and request identity cleared, LAPSED. A transaction in progress keeps its chosen item, which is consumed no more (10 R159). -/
def State.lapse (s : State) (p : Port) (cause : LapseCause) : State :=
  let t := (s.teardown p).releaseClaims p
  t.setPort p { t.port p with
    session := .lapsed
    quota := 0
    silenceLimit := none
    silenceTimer := none
    queue := [.lapsed s.epoch cause]
    lost := 0
    transaction := (t.port p).transaction.map (fun x => { x with cleared := true })
    replySlot := none
    retained := none
    identity := none }

/-! ### Retirement -/

/-- The record a retirement posts (01 R15, 08 R128, 11 R170): END for a DRIVE window with NOTE_END, TALLY for every TALLY window. -/
def endingRecord (epoch : Epoch) (reason : Reason) (w : Window) : Option (Port × EventRecord) :=
  match w.shape, w.run with
  | .tally .., .tally r =>
    some (w.owner, .tally w.handle w.tag epoch reason r.count r.saturated r.firstEdge r.lastEdge)
  | .tally .., _ => some (w.owner, .tally w.handle w.tag epoch reason 0 false none none)
  | _, _ => if w.noteEnd then some (w.owner, .ended w.handle w.tag epoch reason w.pulses) else none

/-- The retirement of a window, or of a bundle's members, of one owner in one change (01 R15, R18, 04 R68, R69, R72): records first, then the windows leave, then a CLOSING session that holds nothing more ends. -/
def State.retire (s : State) (reason : Window → Reason) (ws : List Window) : State :=
  let t := (s.postUnordered (ws.filterMap (fun w => endingRecord s.epoch (reason w) w))).leaveAll ws
  match ws with
  | [] => t
  | w :: _ => t.endIfClosed w.owner

/-- The end of a window, or of its whole bundle, at its limit (08 R126, R127, 04 R69): the window's reason is LIMIT, the other members' BUNDLE_LIMIT. -/
def State.endByLimit (s : State) (w : Window) : State :=
  s.retire (fun v => if v.slot = w.slot then .limit else .bundleLimit) (s.unitOf w)

/-- The window in a slot ends where its count stands at its limit (08 R125 step 4). -/
def State.checkLimit (s : State) (i : Slot) : State :=
  match s.windowAt i with
  | some w => if w.limitReached then s.endByLimit w else s
  | none => s

/-! ### The start -/

/-- A window that starts becomes ACTIVE and is handed to its track (01 R13, 04 R66): the lane shows its shape at this phase; the Tally Unit counts into it, first the carried edges of a hold that waited for it (08 R134). -/
def State.handOver (s : State) (w : Window) : State :=
  let t := s.updateWindow w.slot (fun v => { v with state := .active })
  match laneOf w.track, senseOf w.track with
  | some l, _ => t.setDrive l (w.driveAt s.epoch)
  | none, some k =>
    let carried := if (s.tally k).hold = some w.slot then (s.tally k).carried else 0
    (t.updateWindow w.slot (fun v => v.countEdges s.epoch carried)).setTally k
      { s.tally k with counting := some w.slot, hold := none, carried := 0 }
  | none, none => t

/-- The START record of a window with NOTE_START (01 R13). -/
def startRecord (epoch : Epoch) (w : Window) : Option (Port × EventRecord) :=
  if w.noteStart then some (w.owner, .start w.handle w.tag epoch) else none

/-- The start of a window, or the joint start of a bundle's members, in one change (01 R13, 04 R66): hand over, START records, and the end at a limit that carried edges alone may reach (08 R134). Where a bundle starts and ends so, every START stands before every ending record; the spec orders only each window's own two (11 R163, R169), so the order across members is the model's choice (log entry 25). -/
def State.startAll (s : State) (ws : List Window) : State :=
  ws.foldl (fun t w => t.checkLimit w.slot)
    ((ws.foldl State.handOver s).postUnordered (ws.filterMap (startRecord s.epoch)))

/-! ### Ends and lanes -/

/-- A new end for the windows given and for their bundle records, in one change (03 R46, R51, 05 R82). -/
def State.setStops (s : State) (ws : List Window) (stop : Epoch) : State :=
  ws.foldl
    (fun t w => match w.bundleNo with
      | some b => t.setBundle w.owner b ((t.bundle w.owner b).map (fun r => { r with stop := stop }))
      | none => t)
    { s with windows := s.windows.map (fun v => if ws.any (fun w => decide (w.slot = v.slot)) then { v with stop := stop } else v) }

/-- The level a lane shows, computed anew (07 R106): that of the window it runs, as long as the window's end is not reached; at its end the lane keeps the level it has until the retirement (07 R114; log entry 12). -/
def State.refreshedLane (s : State) (l : Lane) : LaneDriver :=
  match s.running (laneTrack l) with
  | some w => if s.epoch < w.stop then { s.lane l with drive := w.driveAt s.epoch } else s.lane l
  | none => s.lane l

/-- Every lane computes its level anew, as at each advance of the epoch (07 R106). -/
def State.refreshLanes (s : State) : State := { s with lanes := Vector.ofFn s.refreshedLane }

end Sys2Proof.Machine
end

