-- ==== Sys2Proof/Machine/Flags.lean ====
section
/-! DEFINITION. Flags and pins: the flag bytes of frames, PnATTNn, the lane pins. -/

namespace Sys2Proof.Machine

/-- Bit `i` of a flag byte. -/
def flagBit (i : Nat) (b : Bool) : Byte := if b then BitVec.ofNat 8 (2 ^ i) else 0

/-- The reply flags: bit 0 RETRY, bit 1 OVERRUN (12 R182). -/
def Reply.flags (r : Reply) : Byte := flagBit 0 r.retry ||| flagBit 1 r.overrun

/-- The presence byte of QUERY_TRACK: bit 0 head start, bit 1 trigger references, bit 2 lane attributes (12 R183). -/
def presenceFlags (headStart triggerRefs attributes : Bool) : Byte :=
  flagBit 0 headStart ||| flagBit 1 triggerRefs ||| flagBit 2 attributes

/-- The tally flags: bit 0 saturated, bit 1 edge epochs present (12 R184). -/
def tallyFlags (saturated epochsPresent : Bool) : Byte := flagBit 0 saturated ||| flagBit 1 epochsPresent

/-- The notify flags byte: bit 0 NOTE_START, bit 1 NOTE_END, any other bit set is ill formed (12 R180). -/
def notifyFlags (b : Byte) : Option (Bool × Bool) :=
  if b.toNat < 4 then some (b.getLsbD 0, b.getLsbD 1) else none

/-- PnATTNn is asserted while the port's queue holds a record (11 R167). -/
def State.attention (s : State) (p : Port) : Bool := !(s.port p).queue.isEmpty

/-- The pin level of a lane from its attributes and drive state (07 R103). -/
def LaneDriver.pin (d : LaneDriver) : PinLevel :=
  match d.drive, d.idleDrive, d.polarity with
  | .active, _, .activeHigh => .high
  | .active, _, .activeLow => .low
  | .inactive, _, .activeHigh => .low
  | .inactive, _, .activeLow => .high
  | .idle, .active, .activeHigh => .high
  | .idle, .active, .activeLow => .low
  | .idle, .inactive, .activeHigh => .low
  | .idle, .inactive, .activeLow => .high
  | .idle, .float, _ => .highImpedance

/-- The level on LANEk: low while RESETn is asserted (07 R104), else as the Lane Driver decides. -/
def State.lanePin (s : State) (l : Lane) : PinLevel := if s.resetHeld then .low else (s.lane l).pin

end Sys2Proof.Machine
end

