-- ==== Sys2Proof/Machine/Operands.lean ====
section
/-! DEFINITION. Every operand form: tracks, priorities, member descriptors in their three parts of judgement (form, range, track kind), lane attributes, FLUSH targets, handles. -/

namespace Sys2Proof.Machine

/-- A track operand, 0 to 23 (12 R181). -/
def trackOperand (b : Byte) : Option Track := if h : b.toNat < 24 then some ⟨b.toNat, h⟩ else none

/-- A lane operand, 0 to 15 (07 R117). -/
def laneOperand (b : Byte) : Option Lane := if h : b.toNat < 16 then some ⟨b.toNat, h⟩ else none

/-- A priority operand, 0 to 3 (02 R25). -/
def priorityOperand (b : Byte) : Option (Fin 4) := if h : b.toNat < 4 then some ⟨b.toNat, h⟩ else none

/-- Edge codes (12 R181). -/
def edgeOperand (b : Byte) : Option EdgeKind :=
  if b = 0x01 then some .rise else if b = 0x02 then some .fall else if b = 0x03 then some .both else none

/-- Initial level codes (12 R181). -/
def initialOperand (b : Byte) : Option ShapeLevel :=
  if b = 0x00 then some .inactive else if b = 0x01 then some .active else none

/-- Polarity codes (12 R180). -/
def polarityOperand (b : Byte) : Option Polarity :=
  if b = 0x00 then some .activeHigh else if b = 0x01 then some .activeLow else none

/-- Idle drive codes (12 R180). -/
def idleOperand (b : Byte) : Option IdleDrive :=
  if b = 0x00 then some .inactive else if b = 0x01 then some .active else if b = 0x02 then some .float else none

/-- A descriptor whose form is good (02 R25 part 1), with its values as sent. -/
inductive Draft where
  | steady
  | train (period active : BitVec 16)
  | toggle (interval : BitVec 16) (initial : ShapeLevel)
  | triggered (source : Byte) (edge : EdgeKind) (width : BitVec 16) (budget : Byte)
  | tally (edge : EdgeKind) (limit : Option (BitVec 24))
  deriving DecidableEq, Repr

/-- A limit place: present 0x00 with three zero bytes, or present 0x01 (12 R181). -/
def limitOperand (present high middle low : Byte) : Option (Option (BitVec 24)) :=
  if present = 0x00 then
    if high = 0 ∧ middle = 0 ∧ low = 0 then some none else none
  else if present = 0x01 then some (some (high ++ middle ++ low))
  else none

/-- The form of a descriptor (02 R25 part 1, 12 R181): a known kind and shape, known codes, zero in every place its shape does not use. -/
def descriptorForm (d : Descriptor) : Option Draft :=
  if d.b7 ≠ 0 ∨ d.b8 ≠ 0 ∨ d.b9 ≠ 0 then none
  else if d.kind = 0x01 then
    if d.b2 = 0 ∧ d.b3 = 0 ∧ d.b4 = 0 ∧ d.b5 = 0 ∧ d.b6 = 0 then some .steady else none
  else if d.kind = 0x02 then
    if d.b6 = 0 then some (.train (d.b2 ++ d.b3) (d.b4 ++ d.b5)) else none
  else if d.kind = 0x03 then
    if d.b5 = 0 ∧ d.b6 = 0 then (initialOperand d.b4).map (fun i => .toggle (d.b2 ++ d.b3) i) else none
  else if d.kind = 0x04 then
    (edgeOperand d.b3).map (fun e => .triggered d.b2 e (d.b4 ++ d.b5) d.b6)
  else if d.kind = 0x08 then
    match edgeOperand d.b2, limitOperand d.b3 d.b4 d.b5 d.b6 with
    | some e, some l => some (.tally e l)
    | _, _ => none
  else none

/-- The range of the shape parameters (02 R25 part 2, 01 R6): the shape, where every value lies in its range. -/
def Draft.ranged : Draft → Option Shape
  | .steady => some .steady
  | .train p d => if 2 ≤ p.toNat then some (.train p d) else none
  | .toggle i l => if 1 ≤ i.toNat then some (.toggle i l) else none
  | .triggered k e w n =>
    if h : k.toNat < 8 then
      if 1 ≤ w.toNat ∧ 1 ≤ n.toNat then some (.triggered ⟨k.toNat, h⟩ e w n) else none
    else none
  | .tally e none => some (.tally e none)
  | .tally e (some l) => if 1 ≤ l.toNat then some (.tally e (some l)) else none

/-- The track kind (02 R25 part 3): DRIVE on a lane, TALLY on a sense input. -/
def kindFits (t : Track) (sh : Shape) : Bool := if sh.isTally then decide (16 ≤ t.val) else decide (t.val < 16)

/-- A window to be booked, judged good in form, range and track kind. -/
structure Member where
  track : Track
  shape : Shape
  priority : Fin 4
  noteStart : Bool
  noteEnd : Bool
  deriving DecidableEq, Repr

/-- Check 2 of an admission on one descriptor (02 R25): form, then range, then track kind. -/
def judgeMember (b : Booking) (d : Descriptor) : Except Status Member :=
  match notifyFlags b.notify, descriptorForm d with
  | some (noteStart, noteEnd), some draft =>
    match trackOperand d.track, priorityOperand b.priority, draft.ranged with
    | some track, some priority, some shape =>
      if kindFits track shape then .ok { track, shape, priority, noteStart, noteEnd }
      else .error .wrongTrackKind
    | _, _, _ => .error .badRange
  | _, _ => .error .badRequest

/-- A descriptor that carries a tally limit (04 R61). -/
def hasLimit (d : Descriptor) : Bool :=
  match descriptorForm d with
  | some (.tally _ (some _)) => true
  | _ => false

/-- Step 2b of RESERVE_BUNDLE (04 R61): each member in order, the first that fails with its index. `earlier` are the track bytes of the members before it. -/
def judgeMembers (b : Booking) : Nat → List Byte → List Descriptor → Except (Nat × Status) (List Member)
  | _, _, [] => .ok []
  | i, earlier, d :: ds =>
    if (i ≠ 0 ∧ hasLimit d) ∨ d.track ∈ earlier then .error (i, .badRequest)
    else
      match judgeMember b d with
      | .error st => .error (i, st)
      | .ok m =>
        match judgeMembers b (i + 1) (d.track :: earlier) ds with
        | .error e => .error e
        | .ok ms => .ok (m :: ms)

/-- What a FLUSH names (12 R180). -/
inductive FlushTarget where
  | all
  | track (t : Track)
  deriving DecidableEq, Repr

/-- The FLUSH target byte in its three ranges (05 R84, 12 R180). -/
def flushOperand (b : Byte) : Except Status FlushTarget :=
  if b = 0xFF then .ok .all
  else if 0x80 ≤ b.toNat then .error .badRequest
  else
    match trackOperand b with
    | some t => .ok (.track t)
    | none => .error .badRange

/-- A handle resolved for a port (01 R9): slot number in range, slot allocated, use count equal, owner the requesting port. -/
def State.resolve (s : State) (p : Port) (h : Handle) : Option Window :=
  if hs : (h.extractLsb' 0 8).toNat < 192 then
    let i : Slot := ⟨(h.extractLsb' 0 8).toNat, hs⟩
    (s.windowAt i).filter (fun w => decide (h.extractLsb' 8 8 = s.useCount i) && decide (w.owner = p))
  else none

end Sys2Proof.Machine
end

