-- ==== Sys2Proof/Machine/Wire.lean ====
section
/-! DEFINITION. Every wire layout: bytes of multi-byte fields, the CRC, inbound request frames read and written, outbound frames. -/

namespace Sys2Proof.Machine

/-! ### Fields, most significant byte first -/

def bytes16 (x : BitVec 16) : List Byte := [x.extractLsb' 8 8, x.extractLsb' 0 8]

def bytes24 (x : BitVec 24) : List Byte := [x.extractLsb' 16 8, x.extractLsb' 8 8, x.extractLsb' 0 8]

def bytes64 (x : BitVec 64) : List Byte :=
  [x.extractLsb' 56 8, x.extractLsb' 48 8, x.extractLsb' 40 8, x.extractLsb' 32 8,
    x.extractLsb' 24 8, x.extractLsb' 16 8, x.extractLsb' 8 8, x.extractLsb' 0 8]

def word16 (a b : Byte) : BitVec 16 := a ++ b

def word64 (a b c d e f g h : Byte) : BitVec 64 := a ++ b ++ c ++ d ++ e ++ f ++ g ++ h

/-! ### Bits on the link (12 R173) -/

/-- The levels of a byte on PnSDI or PnSDO, most significant bit first (12 R173). -/
def bitLevels (b : Byte) : List Level := (List.range 8).map (fun i => levelOf (b.getMsbD i))

/-- The byte that eight sampled levels spell, the first being its most significant bit (12 R173). -/
def byteOfLevels (l7 l6 l5 l4 l3 l2 l1 l0 : Level) : Byte :=
  [l7, l6, l5, l4, l3, l2, l1, l0].foldl (fun (b : Byte) l => (b <<< 1) ||| (if l = .high then 1 else 0)) 0

/-- The whole bytes among the levels sampled: a byte that PnCSn cuts short before its eighth clock is not counted (12 R173). -/
def wholeBytes : List Level → List Byte
  | l7 :: l6 :: l5 :: l4 :: l3 :: l2 :: l1 :: l0 :: rest => byteOfLevels l7 l6 l5 l4 l3 l2 l1 l0 :: wholeBytes rest
  | _ => []

/-! ### Counts -/

/-- A one-byte count. -/
def byteOf (n : Nat) : Byte := BitVec.ofNat 8 n

/-! ### The CRC (12 R179) -/

/-- One shift of the CRC register: left, and XORed with 0x07 when the bit shifted out was 1. -/
def crcShift (r : Byte) : Byte := if r.msb then (r <<< 1) ^^^ 0x07 else r <<< 1

/-- One byte into the CRC register: XORed, then eight shifts. -/
def crcByte (r b : Byte) : Byte :=
  crcShift (crcShift (crcShift (crcShift (crcShift (crcShift (crcShift (crcShift (r ^^^ b))))))))

/-- The CRC over the bytes of a frame before the CRC byte; initial value 0x00. -/
def crc (bs : List Byte) : Byte := bs.foldl crcByte 0x00

/-! ### Requests -/

/-- The requests of the part: one code each (12 R180). -/
inductive RequestName where
  | openSession
  | close
  | readEpoch
  | queryPool
  | claim
  | release
  | queryTrack
  | setLane
  | reserve
  | reserveBundle
  | cancel
  | amendEnd
  | flush
  | queryWindow
  deriving DecidableEq, Repr

def RequestName.code : RequestName → Byte
  | .openSession => 0x01
  | .close => 0x02
  | .readEpoch => 0x03
  | .queryPool => 0x04
  | .claim => 0x10
  | .release => 0x11
  | .queryTrack => 0x12
  | .setLane => 0x18
  | .reserve => 0x20
  | .reserveBundle => 0x21
  | .cancel => 0x28
  | .amendEnd => 0x29
  | .flush => 0x2A
  | .queryWindow => 0x2B

/-- The request a code names (12 R175, R180). -/
def RequestName.ofCode (c : Byte) : Option RequestName :=
  [.openSession, .close, .readEpoch, .queryPool, .claim, .release, .queryTrack, .setLane, .reserve, .reserveBundle,
    .cancel, .amendEnd, .flush, .queryWindow].find? (fun n => decide (n.code = c))

def requestName : Request → RequestName
  | .openSession .. => .openSession
  | .closeGraceful | .closeAbrupt => .close
  | .readEpoch => .readEpoch
  | .queryPool => .queryPool
  | .claim .. => .claim
  | .release .. => .release
  | .queryTrack .. => .queryTrack
  | .setLane .. => .setLane
  | .reserve .. => .reserve
  | .reserveBundle .. => .reserveBundle
  | .cancel .. => .cancel
  | .amendEnd .. => .amendEnd
  | .flush .. => .flush
  | .queryWindow .. => .queryWindow

def bookingBytes (b : Booking) : List Byte :=
  bytes64 b.start ++ bytes64 b.stop ++ [b.priority, b.notify] ++ bytes16 b.tag

def descriptorBytes (d : Descriptor) : List Byte :=
  [d.track, d.kind, d.b2, d.b3, d.b4, d.b5, d.b6, d.b7, d.b8, d.b9]

/-- The operand bytes of a request (12 R180). -/
def operandBytes : Request → List Byte
  | .openSession quota silence => quota :: bytes16 silence
  | .closeGraceful => [0x01]
  | .closeAbrupt => [0x02]
  | .readEpoch | .queryPool => []
  | .claim t | .release t | .queryTrack t | .flush t => [t]
  | .setLane l p i => [l, p, i]
  | .reserve b d => bookingBytes b ++ descriptorBytes d
  | .reserveBundle b ds => bookingBytes b ++ byteOf ds.length :: ds.flatMap descriptorBytes
  | .cancel h | .queryWindow h => bytes16 h
  | .amendEnd h e => bytes16 h ++ bytes64 e

/-- The bytes of a request frame before its CRC: length, sequence, code, operands (12 R180). The low four bits of byte 1 are free to the sender; that a request row sends them as 0 is the model's choice (log entry 8). -/
def frameBody (seq : Seq) (r : Request) : List Byte :=
  byteOf (3 + (operandBytes r).length) :: (seq ++ (0 : BitVec 4)) :: (requestName r).code :: operandBytes r

/-- A request frame (12 R180). -/
def requestFrame (seq : Seq) (r : Request) : List Byte := frameBody seq r ++ [crc (frameBody seq r)]

/-- Exactly `n` member descriptors. -/
def readDescriptors : Nat → List Byte → Option (List Descriptor)
  | 0, [] => some []
  | n + 1, t :: k :: b2 :: b3 :: b4 :: b5 :: b6 :: b7 :: b8 :: b9 :: rest =>
    (readDescriptors n rest).map
      (fun ds => { track := t, kind := k, b2, b3, b4, b5, b6, b7, b8, b9 } :: ds)
  | _, _ => none

/-- The common operands of RESERVE and RESERVE_BUNDLE, and what follows them. -/
def readBooking : List Byte → Option (Booking × List Byte)
  | a0 :: a1 :: a2 :: a3 :: a4 :: a5 :: a6 :: a7 :: b0 :: b1 :: b2 :: b3 :: b4 :: b5 :: b6 :: b7 :: pr :: fl :: t0 :: t1 :: rest =>
    some ({ start := word64 a0 a1 a2 a3 a4 a5 a6 a7, stop := word64 b0 b1 b2 b3 b4 b5 b6 b7, priority := pr, notify := fl,
            tag := word16 t0 t1 }, rest)
  | _ => none

/-- The operands of a request read from its bytes: none where the length is not that of the request, where the length does not match the member count, or where a CLOSE mode is unknown; the owning block answers these with BAD_REQUEST (12 R180). -/
def readOperands : RequestName → List Byte → Option Request
  | .openSession, [q, s1, s0] => some (.openSession q (word16 s1 s0))
  | .close, [m] => if m = 0x01 then some .closeGraceful else if m = 0x02 then some .closeAbrupt else none
  | .readEpoch, [] => some .readEpoch
  | .queryPool, [] => some .queryPool
  | .claim, [t] => some (.claim t)
  | .release, [t] => some (.release t)
  | .queryTrack, [t] => some (.queryTrack t)
  | .setLane, [l, p, i] => some (.setLane l p i)
  | .reserve, bs =>
    match readBooking bs with
    | some (b, rest) =>
      match readDescriptors 1 rest with
      | some [d] => some (.reserve b d)
      | _ => none
    | none => none
  | .reserveBundle, bs =>
    match readBooking bs with
    | some (b, n :: rest) => (readDescriptors n.toNat rest).map (fun ds => .reserveBundle b ds)
    | _ => none
  | .cancel, [h1, h0] => some (.cancel (word16 h1 h0))
  | .amendEnd, [h1, h0, a0, a1, a2, a3, a4, a5, a6, a7] =>
    some (.amendEnd (word16 h1 h0) (word64 a0 a1 a2 a3 a4 a5 a6 a7))
  | .flush, [t] => some (.flush t)
  | .queryWindow, [h1, h0] => some (.queryWindow (word16 h1 h0))
  | _, _ => none

/-- A well-formed request frame, read (12 R175). `name` is none for a code that names no request; `request` is none for operands that cannot be read. -/
structure Frame where
  seq : Seq
  crc : Byte
  code : Byte
  name : Option RequestName
  request : Option Request
  deriving DecidableEq, Repr

/-- The frame of a request, as it is judged. -/
def Frame.ofRequest (seq : Seq) (r : Request) : Frame where
  seq := seq
  crc := Machine.crc (frameBody seq r)
  code := (requestName r).code
  name := some (requestName r)
  request := some r

/-- What an inbound frame is (12 R175). -/
inductive Inbound where
  | none
  | nop
  | incomplete
  | bad (seq : Seq)
  | request (f : Frame)
  deriving DecidableEq, Repr

/-- The inbound bytes of a transaction read, by the first case of 12 R175 that applies. -/
def readInbound : List Byte → Inbound
  | [] => .none
  | b0 :: rest =>
    if b0 = 0x00 then .nop
    else
      match rest with
      | [] => .incomplete
      | b1 :: rest' =>
        let seq : Seq := b1.extractLsb' 4 4
        let body := (b0 :: b1 :: rest').take b0.toNat
        let last := (b0 :: b1 :: rest').getD b0.toNat 0
        if b0.toNat < 3 ∨ 126 < b0.toNat then .bad seq
        else if (b1 :: rest').length < b0.toNat then .incomplete
        else if crc body ≠ last then .bad seq
        else
          let code := body.getD 2 0
          let name := RequestName.ofCode code
          .request { seq, crc := last, code, name, request := name.bind (fun n => readOperands n (body.drop 3)) }

/-! ### Outbound frames (12 R182 to R184) -/

def Status.code : Status → Byte
  | .ok => 0x00
  | .badFrame => 0x01
  | .badRequest => 0x02
  | .badRange => 0x03
  | .wrongTrackKind => 0x04
  | .noSession => 0x05
  | .sessionOpen => 0x06
  | .closing => 0x07
  | .noQuota => 0x08
  | .quotaFull => 0x09
  | .noBundleRecord => 0x0A
  | .tooLate => 0x0B
  | .tooFar => 0x0C
  | .claimed => 0x0E
  | .triggerUnavailable => 0x0F
  | .overlap => 0x10
  | .conflict => 0x11
  | .heldByOthers => 0x12
  | .notClaimant => 0x13
  | .trackBusy => 0x14
  | .noSuchWindow => 0x15

def FreezeState.code : FreezeState → Byte
  | .running => 0x00
  | .held => 0x01

def SessionState.code : SessionState → Byte
  | .down => 0x00
  | .opened => 0x01
  | .closing => 0x02
  | .lapsed => 0x03

def WindowState.code : WindowState → Byte
  | .pending => 0x00
  | .active => 0x01

def Polarity.code : Polarity → Byte
  | .activeHigh => 0x00
  | .activeLow => 0x01

def IdleDrive.code : IdleDrive → Byte
  | .inactive => 0x00
  | .active => 0x01
  | .float => 0x02

def Reason.code : Reason → Byte
  | .complete => 0x01
  | .cancelled => 0x02
  | .limit => 0x03
  | .bundleLimit => 0x04

def LapseCause.code : LapseCause → Byte
  | .silence => 0x01
  | .portReset => 0x02

/-- An absent epoch field is sent as zero (12 R182). -/
def optionalEpoch (e : Option Epoch) : List Byte := bytes64 (e.getD 0)

/-- A claimant or bundle number that is none is sent as 0xFF (12 R182). -/
def numberOrNone {n : Nat} (x : Option (Fin n)) : Byte :=
  match x with
  | some i => byteOf i.val
  | none => 0xFF

/-- A member index, or 0xFF for a step that concerns the bundle (12 R183). -/
def memberByte : Option Nat → Byte
  | some n => byteOf n
  | none => 0xFF

/-- The value that follows a member index, for the statuses that carry one (12 R183). -/
def furtherBytes : Option Epoch → List Byte
  | some e => bytes64 e
  | none => []

/-- The results of a reply as bytes (12 R183). -/
def Results.bytes : Results → List Byte
  | .none => []
  | .opened e f q l => bytes64 e ++ [f.code, byteOf q] ++ bytes16 (BitVec.ofNat 16 l)
  | .closedGraceful st r l => [st.code, byteOf r, byteOf l]
  | .closedAbrupt n e => byteOf n :: bytes64 e
  | .epochRead e f d => bytes64 e ++ [f.code, byteOf d.periods]
  | .pool f u st h q b => [byteOf f, byteOf u, st.code, byteOf h, byteOf q, byteOf b]
  | .trackReport c n hs tr at' =>
    [numberOrNone c, byteOf n, presenceFlags hs.isSome tr.isSome at'.isSome] ++ optionalEpoch hs ++
      [byteOf (tr.getD 0), (at'.map (fun x => x.1.code)).getD 0, (at'.map (fun x => x.2.code)).getD 0]
  | .reserved h => bytes16 h
  | .bundled b hs => byteOf b.val :: byteOf hs.length :: hs.flatMap bytes16
  | .removed n => [0x01, byteOf n] ++ bytes64 0
  | .ended n e => [0x02, byteOf n] ++ bytes64 e
  | .amended e => bytes64 e
  | .flushed n => [byteOf n]
  | .windowReport st a b t p n => [st.code] ++ bytes64 a ++ bytes64 b ++ [byteOf t.val, byteOf p.val, numberOrNone n]
  | .quotaAvailable n => [byteOf n]
  | .value e => bytes64 e
  | .member i v =>
    memberByte i :: furtherBytes v

/-- A frame from its bytes after the length byte and before the CRC (12 R182). -/
def frameOf (inner : List Byte) : List Byte :=
  let body := byteOf (inner.length + 1) :: inner
  body ++ [crc body]

/-- A reply frame (12 R182). -/
def Reply.frame (r : Reply) : List Byte :=
  frameOf ([(0x1 : BitVec 4) ++ r.seq, r.code, r.answer.status.code, r.flags] ++ r.answer.results.bytes)

/-- The record kind and the fields of an event record (12 R184). -/
def EventRecord.bytes : EventRecord → List Byte
  | .start h t e => 0x01 :: (bytes16 h ++ bytes16 t ++ bytes64 e)
  | .ended h t e r p =>
    0x02 :: (bytes16 h ++ bytes16 t ++ bytes64 e ++ [r.code, flagBit 0 p.isSome, byteOf (p.getD 0)])
  | .tally h t e r n sat a b =>
    0x03 :: (bytes16 h ++ bytes16 t ++ bytes64 e ++ [r.code] ++ bytes24 (BitVec.ofNat 24 n) ++
      [tallyFlags sat a.isSome] ++ optionalEpoch a ++ optionalEpoch b)
  | .bumped h t e p => 0x04 :: (bytes16 h ++ bytes16 t ++ bytes64 e ++ [0x01, byteOf p.val] ++ bytes64 0)
  | .truncated h t e p n => 0x04 :: (bytes16 h ++ bytes16 t ++ bytes64 e ++ [0x02, byteOf p.val] ++ bytes64 n)
  | .closed e => 0x08 :: bytes64 e
  | .lapsed e c => 0x09 :: (bytes64 e ++ [c.code])
  | .freezeOn e => 0x0A :: bytes64 e
  | .freezeOff e => 0x0B :: bytes64 e
  | .lost n => [0x0F, byteOf n]

/-- An event frame (12 R182): frame kind 0x2, sequence zero. -/
def EventRecord.frame (e : EventRecord) : List Byte := frameOf (0x20 :: e.bytes)

/-- The IDLE frame (12 R182). -/
def idleFrame : List Byte := frameOf [0x30]

/-- The frame of the chosen item (12 R173). -/
def OutboundItem.frame : OutboundItem → List Byte
  | .reply r => r.frame
  | .event e => e.frame
  | .idle => idleFrame

/-- The byte a transaction shifts out at place `n`: its frame from byte 0, then 0x00 fill (12 R173). -/
def Transaction.sdoByte (x : Transaction) (n : Nat) : Byte := x.item.frame.getD n 0x00

/-- The level a transaction drives on PnSDO after `clocks` pulses of PnSCK: the bits of its bytes, most significant first; bit 0 from the selection on, the next one after each falling edge (12 R173). -/
def Transaction.sdoBit (x : Transaction) (clocks : Nat) : Level := levelOf ((x.sdoByte (clocks / 8)).getMsbD (clocks % 8))

/-- PnSDO is driven while a transaction is in progress, else high impedance (12 R173, R178). That it is not driven while PnCSn stays low from an abandoned transaction, once PnRSTn is released, is the model's choice (log entry 26). -/
def State.sdoDriven (s : State) (p : Port) : Bool := (s.port p).transaction.isSome

/-- The level on PnSDO after `clocks` pulses of PnSCK in the transaction (12 R173). -/
def State.sdo (s : State) (p : Port) (clocks : Nat) : PinLevel :=
  match (s.port p).transaction with
  | none => .highImpedance
  | some x => if x.sdoBit clocks = .high then .high else .low

end Sys2Proof.Machine
end

