-- ==== Sys2Proof/Machine/Admission.lean ====
section
/-! DEFINITION. Admission: the ordered checks of RESERVE and RESERVE_BUNDLE, displacement by priority, allocation and insertion. -/

namespace Sys2Proof.Machine

/-! ### Checks (02 R23, 04 R60) -/

/-- Checks 3 and 4 (02 R26, R27): lead, horizon, least and greatest length, against the epoch at which the request is taken. -/
def judgeTime (epoch start stop : Epoch) : Option Status :=
  if start.toNat < epoch.toNat + lead then some .tooLate
  else if epoch.toNat + horizon < start.toNat then some .tooFar
  else if stop.toNat < start.toNat + minLength then some .badRange
  else if start.toNat + horizon < stop.toNat then some .tooFar
  else none

/-- TOO_LATE and TOO_FAR replies carry the epoch at which the request was taken (02 R23). -/
def epochFor (st : Status) (epoch : Epoch) : Option Epoch :=
  if st = .tooLate ∨ st = .tooFar then some epoch else none

/-- The track is claimed by a port other than `p` (02 R28). -/
def State.claimedByOther (s : State) (p : Port) (t : Track) : Bool :=
  match s.claimant t with
  | some q => decide (q ≠ p)
  | none => false

/-- The trigger sense input of a TRIGGERED shape is claimed by a port other than `p` (02 R29). -/
def State.triggerClaimed (s : State) (p : Port) (sh : Shape) : Bool :=
  match sh.source with
  | some k => s.claimedByOther p (senseTrack k)
  | none => false

/-- A window of the port on the track intersects the interval (02 R31). -/
def State.ownOverlap (s : State) (p : Port) (t : Track) (start stop : Epoch) : Bool :=
  (s.trackList t).any (fun w => decide (w.owner = p) && intersects w.start w.stop start stop)

/-- The first window of another port, in list order, that intersects the interval with equal or higher priority (02 R32). -/
def State.firstConflict (s : State) (p : Port) (t : Track) (priority : Fin 4) (start stop : Epoch) : Option Window :=
  (s.trackList t).find?
    (fun w => decide (w.owner ≠ p) && intersects w.start w.stop start stop && decide (priority ≤ w.priority))

/-- A status without further value. -/
def plainAnswer (st : Status) : Answer := { status := st, results := .none }

/-- RESERVE, checks 2 to 9 in their order (02 R23 to R32): the member to be booked, or the answer of the first check that fails. Check 1 is the session gate of the Port Unit. -/
def judgeReserve (p : Port) (b : Booking) (d : Descriptor) (s : State) : Except Answer Member :=
  match judgeMember b d with
  | .error st => .error (plainAnswer st)
  | .ok m =>
    match judgeTime s.epoch b.start b.stop with
    | some st => .error { status := st, results := ((epochFor st s.epoch).map Results.value).getD .none }
    | none =>
      if s.claimedByOther p m.track then .error (plainAnswer .claimed)
      else if s.triggerClaimed p m.shape then .error (plainAnswer .triggerUnavailable)
      else if (s.port p).quota < (s.port p).held + 1 then .error (plainAnswer .quotaFull)
      else if s.ownOverlap p m.track b.start b.stop then .error (plainAnswer .overlap)
      else
        match s.firstConflict p m.track m.priority b.start b.stop with
        | some w => .error { status := .conflict, results := .value w.start }
        | none => .ok m

/-- The lowest-numbered free bundle record of a port (04 R62, R64). -/
def PortUnit.freeBundle (u : PortUnit) : Option BundleNo :=
  (List.finRange 8).find? (fun b => (u.bundles[b]).isNone)

/-- A refusal of RESERVE_BUNDLE: the member index, none for a step that concerns the bundle, and the further value (12 R183). -/
def bundleRefusal (st : Status) (index : Option Nat) (further : Option Epoch) : Answer :=
  { status := st, results := .member index further }

/-- Step 9 of RESERVE_BUNDLE: the lowest member index in conflict, with the start of the first conflicting window on its track (04 R60, R64). -/
def State.firstConflictOf (s : State) (p : Port) (b : Booking) : Nat → List Member → Option (Nat × Epoch)
  | _, [] => none
  | i, m :: ms =>
    match s.firstConflict p m.track m.priority b.start b.stop with
    | some w => some (i, w.start)
    | none => s.firstConflictOf p b (i + 1) ms

/-- RESERVE_BUNDLE, steps 2a to 9 in their order (04 R60 to R64): the members and the free bundle record, or the answer of the first step that fails. -/
def judgeBundle (p : Port) (b : Booking) (ds : List Descriptor) (s : State) : Except Answer (List Member × BundleNo) :=
  if ds.length = 0 ∨ 8 < ds.length then .error (bundleRefusal .badRequest none none)
  else
    match judgeMembers b 0 [] ds with
    | .error (i, st) => .error (bundleRefusal st (some i) none)
    | .ok ms =>
      match judgeTime s.epoch b.start b.stop with
      | some st => .error (bundleRefusal st none (epochFor st s.epoch))
      | none =>
        match (s.port p).freeBundle with
        | none => .error (bundleRefusal .noBundleRecord none none)
        | some n =>
          match ms.findIdx? (fun m => s.claimedByOther p m.track) with
          | some i => .error (bundleRefusal .claimed (some i) none)
          | none =>
            match ms.findIdx? (fun m => s.triggerClaimed p m.shape) with
            | some i => .error (bundleRefusal .triggerUnavailable (some i) none)
            | none =>
              if (s.port p).quota < (s.port p).held + ms.length then .error (bundleRefusal .quotaFull none none)
              else
                match ms.findIdx? (fun m => s.ownOverlap p m.track b.start b.stop) with
                | some i => .error (bundleRefusal .overlap (some i) none)
                | none =>
                  match s.firstConflictOf p b 0 ms with
                  | some (i, start) => .error (bundleRefusal .conflict (some i) (some start))
                  | none => .ok (ms, n)

/-! ### Displacement (03 R42 to R53) -/

/-- A victim of an admission (03 R42): another port's window on one of the tracks, intersecting, of strictly lower priority. -/
def isVictim (p : Port) (priority : Fin 4) (tracks : List Track) (start stop : Epoch) (w : Window) : Bool :=
  decide (w.owner ≠ p) && decide (w.track ∈ tracks) && intersects w.start w.stop start stop && decide (w.priority < priority)

/-- The windows an admission displaces: its victims with their whole bundles, each once (03 R49, R52). -/
def State.displaced (s : State) (p : Port) (priority : Fin 4) (tracks : List Track) (start stop : Epoch) : List Window :=
  let victims := s.windows.filter (isVictim p priority tracks start stop)
  s.windows.filter (fun w => victims.any (fun v => sameUnit v w))

/-- The DISPLACED record of a window (03 R53): TRUNCATED where it starts before the new start, else BUMPED (03 R43). -/
def displacedRecord (epoch : Epoch) (priority : Fin 4) (newStart : Epoch) (w : Window) : Port × EventRecord :=
  if w.start < newStart then (w.owner, .truncated w.handle w.tag epoch priority newStart)
  else (w.owner, .bumped w.handle w.tag epoch priority)

/-- Step 10 of an admission (03 R42 to R53): the displaced windows are told to their owners; those that start at or after the new start are removed, the others end at it. -/
def State.displace (s : State) (p : Port) (priority : Fin 4) (tracks : List Track) (start stop : Epoch) : State :=
  let ws := s.displaced p priority tracks start stop
  ((s.postUnordered (ws.map (displacedRecord s.epoch priority start))).leaveAll
      (ws.filter (fun w => decide (¬ w.start < start)))).setStops
    (ws.filter (fun w => decide (w.start < start))) start

/-! ### Allocation and insertion (01 R10, 02 R34, 04 R64) -/

/-- A new record for a member in a slot (02 R34): state PENDING, run-time part as at allocation, the use count of the slot advanced by one. -/
def newWindow (s : State) (p : Port) (b : Booking) (ref : Option BundleRef) (m : Member) (i : Slot) : Window where
  slot := i
  useCount := s.useCount i + 1
  owner := p
  track := m.track
  start := b.start
  stop := b.stop
  priority := m.priority
  shape := m.shape
  noteStart := m.noteStart
  noteEnd := m.noteEnd
  tag := b.tag
  bundle := ref
  state := .pending
  run := m.shape.firstRun

/-- New records for the members of a bundle, in member order with the slots given; the first is the leader (01 R10, 04 R64). -/
def newMembers (s : State) (p : Port) (b : Booking) (n : BundleNo) : Bool → List Member → List Slot → List Window
  | leader, m :: ms, i :: is =>
    newWindow s p b (some { number := n, leader }) m i :: newMembers s p b n false ms is
  | _, _, _ => []

/-- A new record allocated and inserted (01 R10, 02 R34, R35). -/
def State.insertWindow (s : State) (w : Window) : State :=
  let u := s.port w.owner
  (({ s with windows := insertByStart w s.windows }.setUseCount w.slot w.useCount).setPort w.owner
    { u with held := u.held + 1 }).raiseRef w

/-- RESERVE on a port (02 R21 to R36). -/
def reserve (p : Port) (b : Booking) (d : Descriptor) (s : State) : State × Answer :=
  match judgeReserve p b d s with
  | .error a => (s, a)
  | .ok m =>
    let t := s.displace p m.priority [m.track] b.start b.stop
    match t.freeSlots with
    | i :: _ =>
      let w := newWindow t p b none m i
      (t.insertWindow w, { status := .ok, results := .reserved w.handle })
    | [] => (s, plainAnswer .quotaFull)

/-- RESERVE_BUNDLE on a port (04 R59 to R64). -/
def reserveBundle (p : Port) (b : Booking) (ds : List Descriptor) (s : State) : State × Answer :=
  match judgeBundle p b ds s with
  | .error a => (s, a)
  | .ok (ms, n) =>
    let priority := (ms.head?.map Member.priority).getD 0
    let t := s.displace p priority (ms.map Member.track) b.start b.stop
    let ws := newMembers t p b n true ms t.freeSlots
    let handles := ws.map Window.handle
    ((ws.foldl State.insertWindow t).setBundle p n
        (some { handles, start := b.start, stop := b.stop, state := .pending }),
      { status := .ok, results := .bundled n handles })

end Sys2Proof.Machine
end

