-- ==== Sys2Proof/Machine/Amendment.lean ====
section
/-! DEFINITION. CANCEL, AMEND_END, FLUSH and QUERY_WINDOW. -/

namespace Sys2Proof.Machine

/-- CANCEL (05 R75 to R77): a PENDING window or bundle is removed, an ACTIVE one retired with CANCELLED. -/
def cancel (p : Port) (h : Handle) (s : State) : State × Answer :=
  match s.resolve p h with
  | none => (s, plainAnswer .noSuchWindow)
  | some w =>
    let ws := s.unitOf w
    match w.state with
    | .pending => (s.leaveAll ws, { status := .ok, results := .removed ws.length })
    | .active =>
      (s.retire (fun _ => .cancelled) ws, { status := .ok, results := .ended ws.length s.epoch })

/-- A window on `v`'s track, other than `v`, that intersects the added time from `v`'s current end to the new end (05 R81). -/
def State.inAddedTime (s : State) (newEnd : Epoch) (v : Window) (f : Window → Bool) : Option Window :=
  (s.trackList v.track).find?
    (fun x => decide (x.slot ≠ v.slot) && intersects x.start x.stop v.stop newEnd && f x)

/-- Step 5 of AMEND_END: the lowest member index in conflict and the start of the first conflicting window (05 R81). -/
def State.extensionConflict (s : State) (p : Port) (newEnd : Epoch) : Nat → List Window → Option (Nat × Epoch)
  | _, [] => none
  | i, v :: vs =>
    match s.inAddedTime newEnd v (fun x => decide (x.owner ≠ p)) with
    | some x => some (i, x.start)
    | none => s.extensionConflict p newEnd (i + 1) vs

/-- The steps of AMEND_END after the acceptance (05 R79 to R81): the refusal, if any. -/
def State.amendRefusal (s : State) (p : Port) (w : Window) (newEnd : Epoch) : Option Answer :=
  if newEnd.toNat ≤ w.start.toNat then some (plainAnswer .badRange)
  else if newEnd.toNat < s.epoch.toNat + lead then some { status := .tooLate, results := .value s.epoch }
  else if w.start.toNat + horizon < newEnd.toNat then some { status := .tooFar, results := .value s.epoch }
  else if w.stop < newEnd then
    match (s.unitOf w).findIdx? (fun v => (s.inAddedTime newEnd v (fun x => decide (x.owner = p))).isSome) with
    | some i => some { status := .overlap, results := .member (some i) none }
    | none =>
      match s.extensionConflict p newEnd 0 (s.unitOf w) with
      | some (i, start) => some { status := .conflict, results := .member (some i) (some start) }
      | none => none
  else none

/-- The lanes of the windows given compute their level anew (07 R106; log entry 12). -/
def State.refreshLanesOf (s : State) (ws : List Window) : State :=
  ws.foldl
    (fun t w => match laneOf w.track with
      | some l => t.setLane l (t.refreshedLane l)
      | none => t)
    s

/-- AMEND_END (05 R79 to R82): the new end in every member and in the bundle record, in one change. A new end equal to the current end changes nothing. -/
def amendEnd (p : Port) (h : Handle) (newEnd : Epoch) (s : State) : State × Answer :=
  match s.resolve p h with
  | none => (s, plainAnswer .noSuchWindow)
  | some w =>
    match s.amendRefusal p w newEnd with
    | some a => (s, a)
    | none =>
      if newEnd = w.stop then (s, { status := .ok, results := .amended newEnd })
      else
        let ws := s.unitOf w
        ((s.setStops ws newEnd).refreshLanesOf ws, { status := .ok, results := .amended newEnd })

/-- The windows a FLUSH takes (05 R84): the port's PENDING windows on the target, with their whole bundles. -/
def State.flushed (s : State) (p : Port) (target : FlushTarget) : List Window :=
  let named := s.windows.filter (fun w => decide (w.owner = p) && decide (w.state = .pending) &&
    match target with
    | .all => true
    | .track t => decide (w.track = t))
  s.windows.filter (fun w => named.any (fun v => sameUnit v w))

/-- FLUSH (05 R84). -/
def flush (p : Port) (target : Byte) (s : State) : State × Answer :=
  match flushOperand target with
  | .error st => (s, plainAnswer st)
  | .ok tgt =>
    let ws := s.flushed p tgt
    (s.leaveAll ws, { status := .ok, results := .flushed ws.length })

/-- QUERY_WINDOW (05 R86). -/
def queryWindow (p : Port) (h : Handle) (s : State) : State × Answer :=
  match s.resolve p h with
  | none => (s, plainAnswer .noSuchWindow)
  | some w =>
    (s, { status := .ok, results := .windowReport w.state w.start w.stop w.track w.priority w.bundleNo })

end Sys2Proof.Machine
end

