-- ==== Sys2Proof/Machine/Claims.lean ====
section
/-! DEFINITION. CLAIM, RELEASE, QUERY_TRACK and SET_LANE. -/

namespace Sys2Proof.Machine

/-- Another port than `p` holds a trigger reference on a sense input (06 R92 step 4). -/
def State.othersRefs (s : State) (k : Sense) (p : Port) : Bool :=
  (List.finRange 4).any (fun q => decide (q ≠ p) && decide (0 < s.refs k q))

/-- Another port than `p` has business on a track: a window in its list, or a trigger reference on it (06 R92 steps 3 and 4). -/
def State.heldByOthers (s : State) (p : Port) (t : Track) : Bool :=
  (s.trackList t).any (fun w => decide (w.owner ≠ p)) ||
    match senseOf t with
    | some k => s.othersRefs k p
    | none => false

/-- CLAIM (06 R91, R92). -/
def claim (p : Port) (track : Byte) (s : State) : State × Answer :=
  match trackOperand track with
  | none => (s, plainAnswer .badRange)
  | some t =>
    match s.claimant t with
    | some q => if q = p then (s, plainAnswer .ok) else (s, plainAnswer .claimed)
    | none =>
      if s.heldByOthers p t then (s, plainAnswer .heldByOthers)
      else (s.setClaimant t (some p), plainAnswer .ok)

/-- RELEASE (06 R94). -/
def release (p : Port) (track : Byte) (s : State) : State × Answer :=
  match trackOperand track with
  | none => (s, plainAnswer .badRange)
  | some t =>
    if s.claimant t = some p then (s.setClaimant t none, plainAnswer .ok) else (s, plainAnswer .notClaimant)

/-- The trigger references of a sense input, summed over the four ports (06 R98). -/
def State.refSum (s : State) (k : Sense) : Nat := ((List.finRange 4).map (s.refs k)).sum

/-- The fields of QUERY_TRACK, one snapshot (06 R99). -/
def State.trackReport (s : State) (t : Track) : Results :=
  .trackReport (s.claimant t) (s.trackList t).length ((s.head t).map Window.start)
    ((senseOf t).map s.refSum)
    ((laneOf t).map (fun l => ((s.lane l).polarity, (s.lane l).idleDrive)))

/-- QUERY_TRACK (06 R99). -/
def queryTrack (track : Byte) (s : State) : State × Answer :=
  match trackOperand track with
  | none => (s, plainAnswer .badRange)
  | some t => (s, { status := .ok, results := s.trackReport t })

/-- The judgement of a SET_LANE against the lane's claimant and list (07 R118): the status of the refusal, if any. -/
def State.laneRefusal (s : State) (p : Port) (l : Lane) : Option Status :=
  match s.claimant (laneTrack l) with
  | some q => if q = p then none else some .claimed
  | none => if (s.trackList (laneTrack l)).isEmpty then none else some .trackBusy

/-- SET_LANE (07 R117 to R119): both attributes, taken at once; the drive state is not touched. -/
def setLane (p : Port) (lane polarity idle : Byte) (s : State) : State × Answer :=
  match polarityOperand polarity, idleOperand idle with
  | some pol, some idl =>
    match laneOperand lane with
    | none => (s, plainAnswer .badRange)
    | some l =>
      match s.laneRefusal p l with
      | some st => (s, plainAnswer st)
      | none => (s.setLane l { s.lane l with polarity := pol, idleDrive := idl }, plainAnswer .ok)
  | _, _ => (s, plainAnswer .badRequest)

end Sys2Proof.Machine
end

