-- ==== Sys2Proof/Machine/Session.lean ====
section
/-! DEFINITION. OPEN, CLOSE, QUERY_POOL and READ_EPOCH as their owning blocks answer them, and the reload of the silence timer. -/

namespace Sys2Proof.Machine

/-- The silence timer reloaded by a well-formed frame in OPEN or CLOSING (10 R155). -/
def State.reloadTimer (s : State) (p : Port) : State :=
  let u := s.port p
  match u.session, u.silenceLimit with
  | .opened, some l => s.setPort p { u with silenceTimer := some (l * silenceUnit) }
  | .closing, some l => s.setPort p { u with silenceTimer := some (l * silenceUnit) }
  | _, _ => s

/-- OPEN, steps 4 and 5 and its effect (10 R147, R148). Steps 1 to 3 are the session gate and the form. -/
def openSession (p : Port) (quota : Byte) (silence : BitVec 16) (s : State) : State × Answer :=
  let q := quota.toNat
  let l := silence.toNat
  if q < 1 ∨ 192 < q ∨ l < 1 ∨ 4095 < l then (s, plainAnswer .badRange)
  else if poolSize < s.quotasInUse + q then
    (s, { status := .noQuota, results := .quotaAvailable (poolSize - s.quotasInUse) })
  else
    (s.setPort p { s.port p with
        session := .opened
        quota := q
        held := 0
        silenceLimit := some l
        silenceTimer := some (l * silenceUnit)
        bundles := Vector.replicate 8 none },
      { status := .ok, results := .opened s.epoch s.freeze q l })

/-- The PENDING windows of a port (10 R151 step 1). -/
def State.pendingOf (s : State) (p : Port) : List Window :=
  (s.owned p).filter (fun w => decide (w.state = .pending))

/-- CLOSE GRACEFUL, with a session OPEN or CLOSING (10 R150, R151). -/
def closeGraceful (p : Port) (s : State) : State × Answer :=
  if (s.port p).session = .closing then (s, plainAnswer .closing)
  else
    let ws := s.pendingOf p
    let t := s.leaveAll ws
    if (t.port p).held = 0 then
      (t.sessionDown p, { status := .ok, results := .closedGraceful .down ws.length 0 })
    else
      (t.setPort p { t.port p with session := .closing },
        { status := .ok, results := .closedGraceful .closing ws.length (t.port p).held })

/-- CLOSE ABRUPT, with a session OPEN or CLOSING (10 R153). -/
def closeAbrupt (p : Port) (s : State) : State × Answer :=
  ((s.teardown p).sessionDown p, { status := .ok, results := .closedAbrupt (s.owned p).length s.epoch })

/-- The free bundle records of a port (10 R161). -/
def PortUnit.freeBundles (u : PortUnit) : Nat := (u.bundles.toList.filter Option.isNone).length

/-- QUERY_POOL (10 R161). -/
def queryPool (p : Port) (s : State) : State × Answer :=
  let u := s.port p
  (s, { status := .ok, results := .pool s.freeRecords s.quotasInUse u.session u.held u.quota u.freeBundles })

/-- READ_EPOCH (09 R144). -/
def readEpoch (s : State) : State × Answer :=
  (s, { status := .ok, results := .epochRead s.epoch s.freeze s.divider })

end Sys2Proof.Machine
end

