-- ==== Sys2Proof/Machine/Link.lean ====
section
/-! DEFINITION. The port link: the session gate, the taking of a request, retry and overrun, the settling of the outbound item, the judgement of the inbound frame; and the meanings of the request rows and of TRANSACTION_BEGIN and TRANSACTION_END. -/

namespace Sys2Proof.Machine

/-- What a command answers. -/
abbrev StepOutcome := Host.Outcome State Fault Refusal

/-- The port takes frames: neither RESETn nor its PnRSTn is asserted (12 R173, R178). -/
def State.inService (s : State) (p : Port) : Bool := !s.resetHeld && !(s.port p).resetHeld

/-- The session check of a request, before its form (10 R146 table, R147, R150): the status of the refusal, if the session state refuses it. CLOSE GRACEFUL in CLOSING is refused after its form. -/
def sessionGate : RequestName → SessionState → Option Status
  | .openSession, .opened => some .sessionOpen
  | .openSession, .closing => some .closing
  | .openSession, .down | .openSession, .lapsed => none
  | .close, .down | .close, .lapsed => some .noSession
  | .close, .opened | .close, .closing => none
  | .readEpoch, _ | .queryPool, _ | .queryTrack, _ => none
  | .queryWindow, .down | .queryWindow, .lapsed => some .noSession
  | .queryWindow, .opened | .queryWindow, .closing => none
  | .claim, st | .release, st | .setLane, st | .reserve, st | .reserveBundle, st | .cancel, st | .amendEnd, st | .flush, st =>
    match st with
    | .opened => none
    | .closing => some .closing
    | .down | .lapsed => some .noSession

/-- A refusal at the gate or for the form: RESERVE_BUNDLE carries its member index in any refusal (12 R183). -/
def gateRefusal (n : RequestName) (st : Status) : Answer :=
  if n = .reserveBundle then bundleRefusal st none none else plainAnswer st

/-- The owning block's answer to a request that passed its gate and form. -/
def answerRequest (p : Port) : Request → State → State × Answer
  | .openSession q l, s => openSession p q l s
  | .closeGraceful, s => closeGraceful p s
  | .closeAbrupt, s => closeAbrupt p s
  | .readEpoch, s => readEpoch s
  | .queryPool, s => queryPool p s
  | .claim t, s => claim p t s
  | .release t, s => release p t s
  | .queryTrack t, s => queryTrack t s
  | .setLane l pol i, s => setLane p l pol i s
  | .reserve b d, s => reserve p b d s
  | .reserveBundle b ds, s => reserveBundle p b ds s
  | .cancel h, s => cancel p h s
  | .amendEnd h e, s => amendEnd p h e s
  | .flush t, s => flush p t s
  | .queryWindow h, s => queryWindow p h s

/-- The answer to a frame: an unknown code is BAD_REQUEST in every session state; then the session gate, the form, the owning block (12 R175). -/
def answerFrame (p : Port) (f : Frame) (s : State) : State × Answer :=
  match f.name with
  | none => (s, plainAnswer .badRequest)
  | some n =>
    match sessionGate n (s.port p).session with
    | some st => (s, gateRefusal n st)
    | none =>
      match f.request with
      | none => (s, gateRefusal n .badRequest)
      | some r => answerRequest p r s

/-- The reply slot filled with a fresh reply, RETRY and OVERRUN clear (12 R175). -/
def State.fillSlot (s : State) (p : Port) (seq : Seq) (code : Byte) (a : Answer) : State :=
  s.setPort p { s.port p with replySlot := some { seq, code, answer := a, retry := false, overrun := false } }

/-- OVERRUN set on the reply in the slot (12 R175, R176, R177). -/
def State.setOverrun (s : State) (p : Port) : State :=
  s.setPort p { s.port p with replySlot := (s.port p).replySlot.map (fun r => { r with overrun := true }) }

/-- The request identity set (12 R175). -/
def State.setIdentity (s : State) (p : Port) (f : Frame) : State :=
  s.setPort p { s.port p with identity := some (f.seq, f.crc) }

/-- The taking of a request (12 R175): identity, owning block, reply. -/
def takeFrame (p : Port) (f : Frame) (s : State) : State :=
  let r := answerFrame p f (s.setIdentity p f)
  r.1.fillSlot p f.seq f.code r.2

/-- A retry (12 R176): answered from the slot, or by the retained reply placed again with RETRY set; behind a BAD_FRAME reply it is discarded and OVERRUN set. -/
def retryFrame (p : Port) (s : State) : State :=
  match (s.port p).replySlot with
  | some r => if r.answer.status = .badFrame then s.setOverrun p else s
  | none =>
    s.setPort p { s.port p with
      replySlot := (s.port p).retained.map (fun r => { r with retry := true, overrun := false }) }

/-- The judgement of a well-formed request frame (12 R175 to R177): the silence timer is reloaded; then retry, overrun, or taken. -/
def judgeFrame (p : Port) (f : Frame) (s : State) : State :=
  let t := s.reloadTimer p
  if (t.port p).identity = some (f.seq, f.crc) then retryFrame p t
  else if (t.port p).replySlot.isSome then t.setOverrun p
  else takeFrame p f t

/-- A bad frame (12 R175): a BAD_FRAME reply in an empty slot, else OVERRUN on the reply in it. -/
def badFrame (p : Port) (seq : Seq) (s : State) : State :=
  if (s.port p).replySlot.isSome then s.setOverrun p else s.fillSlot p seq 0x00 (plainAnswer .badFrame)

/-- The judgement of the inbound bytes of a transaction (12 R175). -/
def judgeInbound (p : Port) (received : List Byte) (s : State) : State :=
  match readInbound received with
  | .none => s
  | .nop => s.reloadTimer p
  | .incomplete => s
  | .bad seq => badFrame p seq s
  | .request f => judgeFrame p f s

/-- The outbound item chosen at selection (12 R173). -/
def PortUnit.choose (u : PortUnit) : OutboundItem :=
  match u.replySlot, u.queue with
  | some r, _ => .reply r
  | none, e :: _ => .event e
  | none, [] => .idle

/-- The settling of a fully clocked item (12 R174): a reply leaves the slot and becomes the retained reply, unless it is BAD_FRAME; a record is consumed. -/
def PortUnit.settle (u : PortUnit) : OutboundItem → PortUnit
  | .reply _ =>
    { u with
      replySlot := none
      retained := match u.replySlot with
        | some r => if r.answer.status = .badFrame then u.retained else some r
        | none => u.retained }
  | .event _ => u.consume
  | .idle => u

/-- The end of a transaction (12 R173, R174): the levels sampled are read as whole bytes; the item is settled where its frame was fully clocked and no lapse cleared it; then the inbound frame is judged. -/
def endTransaction (p : Port) (received : List Level) (s : State) : State :=
  match (s.port p).transaction with
  | none => s
  | some x =>
    let bytes := x.exchanged ++ wholeBytes received
    let u := { s.port p with transaction := none }
    let v := if !x.cleared && decide (x.item.frame.length ≤ bytes.length) then u.settle x.item else u
    judgeInbound p bytes (s.setPort p v)

/-- A request command: a well-formed request frame judged at a port in service (log entries 8 and 9). -/
def requestCommand (p : Port) (seq : Seq) (r : Request) (s : State) : State :=
  if s.inService p then judgeFrame p (Frame.ofRequest seq r) s else s

/-- OPEN (10 R147, R148). -/
def execOpenSession (p : Port) (seq : Seq) (quota : Byte) (silence : BitVec 16) (s : State) : StepOutcome :=
  .next (requestCommand p seq (.openSession quota silence) s)

/-- CLOSE GRACEFUL (10 R150, R151). -/
def execCloseGraceful (p : Port) (seq : Seq) (s : State) : StepOutcome :=
  .next (requestCommand p seq .closeGraceful s)

/-- CLOSE ABRUPT (10 R150, R153). -/
def execCloseAbrupt (p : Port) (seq : Seq) (s : State) : StepOutcome :=
  .next (requestCommand p seq .closeAbrupt s)

/-- READ_EPOCH (09 R144). -/
def execReadEpoch (p : Port) (seq : Seq) (s : State) : StepOutcome :=
  .next (requestCommand p seq .readEpoch s)

/-- QUERY_POOL (10 R161). -/
def execQueryPool (p : Port) (seq : Seq) (s : State) : StepOutcome :=
  .next (requestCommand p seq .queryPool s)

/-- CLAIM (06 R91, R92). -/
def execClaim (p : Port) (seq : Seq) (track : Byte) (s : State) : StepOutcome :=
  .next (requestCommand p seq (.claim track) s)

/-- RELEASE (06 R94). -/
def execRelease (p : Port) (seq : Seq) (track : Byte) (s : State) : StepOutcome :=
  .next (requestCommand p seq (.release track) s)

/-- QUERY_TRACK (06 R99). -/
def execQueryTrack (p : Port) (seq : Seq) (track : Byte) (s : State) : StepOutcome :=
  .next (requestCommand p seq (.queryTrack track) s)

/-- SET_LANE (07 R117 to R119). -/
def execSetLane (p : Port) (seq : Seq) (lane polarity idle : Byte) (s : State) : StepOutcome :=
  .next (requestCommand p seq (.setLane lane polarity idle) s)

/-- RESERVE (02 R21 to R36). -/
def execReserve (p : Port) (seq : Seq) (b : Booking) (d : Descriptor) (s : State) : StepOutcome :=
  .next (requestCommand p seq (.reserve b d) s)

/-- RESERVE_BUNDLE (04 R59 to R64). -/
def execReserveBundle (p : Port) (seq : Seq) (b : Booking) (ds : List Descriptor) (s : State) : StepOutcome :=
  .next (requestCommand p seq (.reserveBundle b ds) s)

/-- CANCEL (05 R75 to R77). -/
def execCancel (p : Port) (seq : Seq) (h : Handle) (s : State) : StepOutcome :=
  .next (requestCommand p seq (.cancel h) s)

/-- AMEND_END (05 R79 to R82). -/
def execAmendEnd (p : Port) (seq : Seq) (h : Handle) (newEnd : Epoch) (s : State) : StepOutcome :=
  .next (requestCommand p seq (.amendEnd h newEnd) s)

/-- FLUSH (05 R84). -/
def execFlush (p : Port) (seq : Seq) (target : Byte) (s : State) : StepOutcome :=
  .next (requestCommand p seq (.flush target) s)

/-- QUERY_WINDOW (05 R86). -/
def execQueryWindow (p : Port) (seq : Seq) (h : Handle) (s : State) : StepOutcome :=
  .next (requestCommand p seq (.queryWindow h) s)

/-- TRANSACTION_BEGIN (12 R173): the outbound item is chosen; no effect on a port out of service or selected already. -/
def execTransactionBegin (p : Port) (s : State) : StepOutcome :=
  if s.inService p && (s.port p).transaction.isNone then
    .next (s.setPort p { s.port p with
      transaction := some { item := (s.port p).choose, cleared := false, exchanged := [] } })
  else .next s

/-- TRANSACTION_END (12 R174, R175): no effect where no transaction is in progress. -/
def execTransactionEnd (p : Port) (received : List Level) (s : State) : StepOutcome :=
  if s.inService p then .next (endTransaction p received s) else .next s

end Sys2Proof.Machine
end

