-- ==== Sys2Proof/Machine/Reset.lean ====
section
/-! DEFINITION. RESETN_ASSERT, RESETN_RELEASE, PORT_RESET_ASSERT, PORT_RESET_RELEASE. -/

namespace Sys2Proof.Machine

/-- What RESETn leaves, asserted and at its release (01 R19, 04 R58, 06 R89, 07 R104, 08 R122, 09 R138, 10 R146, 11 R162, 12 R172). The divider, the freeze state and the seen levels, which are taken at the release, and the level of every PnRSTn stay (log entry 17). -/
def State.cleared (s : State) : State :=
  { s with
    windows := []
    useCounts := Vector.replicate 192 0
    claimants := Vector.replicate 24 none
    trigRefs := Vector.replicate 8 (Vector.replicate 4 0)
    lanes := Vector.replicate 16 LaneDriver.reset
    tallies := s.tallies.map (fun u => { TallyUnit.reset with seen := u.seen })
    epoch := 0
    progress := 0
    ports := s.ports.map (fun u => { PortUnit.reset with resetHeld := u.resetHeld }) }

/-- RESETN_ASSERT (01 R19). -/
def execResetnAssert (s : State) : StepOutcome := .next { s.cleared with resetHeld := true }

/-- RESETN_RELEASE (09 R138, 08 R122): the divider is latched from the straps, the freeze state takes the level of FREEZE, each Tally Unit takes the level on its pin, and the epoch starts from 0. No effect where RESETn is not asserted. -/
def execResetnRelease (tdiv1 tdiv0 freeze : Level) (sense : Byte) (s : State) : StepOutcome :=
  if s.resetHeld then
    .next { s.cleared with
      resetHeld := false
      divider := dividerOfStraps tdiv1 tdiv0
      freeze := if freeze = .high then .held else .running
      tallies := Vector.ofFn (fun k => { TallyUnit.reset with seen := levelOf (sense.getLsbD k.val) }) }
  else .next s

/-- The link state cleared by a port reset (12 R178), which is held from here on. -/
def PortUnit.linkReset (u : PortUnit) : PortUnit :=
  { u with transaction := none, replySlot := none, retained := none, identity := none, resetHeld := true }

/-- PORT_RESET_ASSERT (10 R157, 12 R178): an OPEN or CLOSING session lapses with cause PORT_RESET; the link is cleared in every session state. It takes effect once. -/
def execPortResetAssert (p : Port) (s : State) : StepOutcome :=
  if (s.port p).resetHeld then .next s
  else
    let t := if (s.port p).session = .opened ∨ (s.port p).session = .closing then s.lapse p .portReset else s
    .next (t.setPort p (t.port p).linkReset)

/-- PORT_RESET_RELEASE (12 R178). -/
def execPortResetRelease (p : Port) (s : State) : StepOutcome :=
  .next (s.setPort p { s.port p with resetHeld := false })

end Sys2Proof.Machine
end

