-- ==== Sys2Proof/Machine/Sense.lean ====
section
/-! DEFINITION. SENSE_EDGE: an edge counted by the counting window, or carried in a handover hold, and reported to the lanes. -/

namespace Sys2Proof.Machine

/-- The counting of an edge (08 R125, R126, R127): into the counting window, which may end at its limit; in a handover hold, into the carried edges where it qualifies for the waiting window (08 R134); else by no window (08 R130). -/
def State.countEdge (s : State) (k : Sense) (level : Level) : State :=
  match (s.tally k).counting, (s.tally k).hold with
  | some i, _ =>
    match s.windowAt i with
    | some w =>
      if w.counts level then (s.updateWindow i (fun v => v.countEdges s.epoch 1)).checkLimit i else s
    | none => s
  | none, some i =>
    match s.windowAt i with
    | some w =>
      if w.counts level then s.setTally k { s.tally k with carried := min ((s.tally k).carried + 1) tallyMax } else s
    | none => s
  | none, none => s

/-- The end of a pulse that an edge starts at this epoch value (07 R110); past 2^64 − 1 a free value (log entry 7). -/
def State.pulseEndOf (s : State) (w : Window) : Epoch :=
  epochPlus s.freeCount w.track.val s.epoch w.shape.width

/-- A lane on which this edge starts a pulse (07 R110). -/
def State.pulseOn (s : State) (k : Sense) (level : Level) (l : Lane) : Bool :=
  match s.running (laneTrack l) with
  | some w => w.startsPulse k level
  | none => false

/-- The report of an edge to the lanes (08 R129, 07 R110): every lane whose ACTIVE window is TRIGGERED on this input judges it; where a pulse starts the drive state becomes ACTIVE at once. -/
def State.reportEdge (s : State) (k : Sense) (level : Level) : State :=
  { s with
    windows := s.windows.map (fun w => if w.startsPulse k level then w.withPulse (s.pulseEndOf w) else w)
    lanes := Vector.ofFn (fun l => if s.pulseOn k level l then { s.lane l with drive := .active } else s.lane l) }

/-- This edge would bring a bundle's counting leader to its limit, so the order of its count and its report matters (08 R129). -/
def State.endsBundle (s : State) (k : Sense) (level : Level) : Bool :=
  match (s.tally k).counting.bind s.windowAt with
  | some w => w.bundle.isSome && w.counts level && (w.countEdges s.epoch 1).limitReached
  | none => false

/-- An edge taken (08 R123 to R130). The count and the report are not ordered; where the order matters it is a free value (log entry 5). Near the top of the epoch a draw is spent (log entry 7). -/
def State.takeEdge (s : State) (k : Sense) (level : Level) : State :=
  let seen := s.setTally k { s.tally k with seen := level }
  let t :=
    if seen.endsBundle k level then
      (if Config.reportFirst s.freeCount then (seen.reportEdge k level).countEdge k level
      else (seen.countEdge k level).reportEdge k level).draw
    else (seen.countEdge k level).reportEdge k level
  if s.epoch.toNat + 65535 < 2 ^ 64 then t else t.draw

/-- SENSE_EDGE (08 R123): a change of the seen level is one edge; while RESETn is asserted no edge is taken (08 R122). -/
def execSenseEdge (k : Sense) (level : Level) (s : State) : StepOutcome :=
  if s.resetHeld || decide ((s.tally k).seen = level) then .next s else .next (s.takeEdge k level)

end Sys2Proof.Machine
end

