-- ==== Sys2Proof/Machine/Clock.lean ====
section
/-! DEFINITION. Events that are due, the passing of REFCLK periods, and what the part does by itself. -/

namespace Sys2Proof.Machine

/-- The window whose unbundled start is due on a track (01 R12): the PENDING head, unbundled, its start reached. -/
def State.startDue (s : State) (t : Track) : Option Window :=
  (s.head t).filter
    (fun w => decide (w.state = .pending) && w.bundle.isNone && decide (w.start ≤ s.epoch))

/-- The window whose unbundled end is due on a track (01 R14). -/
def State.endDue (s : State) (t : Track) : Option Window :=
  (s.running t).filter (fun w => w.bundle.isNone && decide (w.stop ≤ s.epoch))

/-- The joint start of a bundle is due (04 R65): PENDING, its common start reached, every member the head of its list. -/
def State.jointStartDue (s : State) (p : Port) (b : BundleNo) : Bool :=
  match s.bundle p b with
  | some r =>
    decide (r.state = .pending) && decide (r.start ≤ s.epoch) &&
      (s.members p b).all (fun w => decide (s.head w.track = some w))
  | none => false

/-- The joint end of a bundle is due (04 R68): ACTIVE, its common end reached. -/
def State.jointEndDue (s : State) (p : Port) (b : BundleNo) : Bool :=
  match s.bundle p b with
  | some r => decide (r.state = .active) && decide (r.stop ≤ s.epoch)
  | none => false

/-- The window whose pulse end is due on a lane (07 R111). -/
def State.pulseDue (s : State) (l : Lane) : Option Window :=
  (s.running (laneTrack l)).filter (fun w =>
    match w.pulseEnd with
    | some e => decide (e ≤ s.epoch)
    | none => false)

/-- The silence timer of an OPEN or CLOSING session stands at 0 (10 R156). -/
def State.expiryDue (s : State) (p : Port) : Bool :=
  (decide ((s.port p).session = .opened) || decide ((s.port p).session = .closing)) &&
    decide ((s.port p).silenceTimer = some 0)

/-- A command listed when its event is due. -/
def listed (due : Bool) (c : Instr) : List Instr := if due then [c] else []

/-- The events that are due, as the commands that take them. While RESETn is asserted none is. -/
def State.dueCommands (s : State) : List Instr :=
  if s.resetHeld then [] else
  (List.finRange 24).flatMap (fun t =>
      listed (s.endDue t).isSome (.windowEndDue t) ++ listed (s.startDue t).isSome (.windowStart t)) ++
    (List.finRange 4).flatMap (fun p => (List.finRange 8).flatMap (fun b =>
      listed (s.jointEndDue p b) (.bundleJointEnd p b) ++ listed (s.jointStartDue p b) (.bundleJointStart p b))) ++
    (List.finRange 16).flatMap (fun l => listed (s.pulseDue l).isSome (.pulseEnd l)) ++
    (List.finRange 4).flatMap (fun p => listed (s.expiryDue p) (.silenceTimerExpiry p))

/-- Every running silence timer falls by one REFCLK period (10 R155). -/
def State.countTimers (s : State) : State :=
  { s with ports := s.ports.map (fun u => { u with silenceTimer := u.silenceTimer.map (fun n => n - 1) }) }

/-- A tick taken (09 R139): the epoch rises by one, the tick progress returns to 0, and the lanes compute their levels anew (07 R106). Past 2^64 − 1 the epoch is a free value (log entry 7). -/
def State.takeTick (s : State) : State :=
  let t := { s with epoch := epochPlus s.freeCount 16 s.epoch 1, progress := 0 }.refreshLanes
  if s.epoch.toNat + 1 < 2 ^ 64 then t else t.draw

/-- The next REFCLK period completes a tick: RUNNING, and the tick progress reaches the divider with it (09 R139). -/
def State.tickCompletes (s : State) : Bool :=
  !s.resetHeld && decide (s.freeze = .running) && decide (s.divider.periods ≤ s.progress + 1)

/-- One REFCLK period (09 R139, 10 R155): the silence timers fall; while RUNNING the tick progress rises, and at the divider a tick is taken. While RESETn is asserted nothing is counted. -/
def refclkPeriod (s : State) : State :=
  if s.resetHeld then s
  else if s.tickCompletes then s.takeTick.countTimers
  else if s.freeze = .running then { s with progress := s.progress + 1 }.countTimers
  else s.countTimers

/-- What the part does by itself next (log entries 2 and 6): one of the due events, which one the draw decides; none where no event is due. -/
def autonomous (s : State) : Option (Instr × State) :=
  match s.dueCommands with
  | [] => none
  | [c] => some (c, s)
  | c :: c' :: cs => some ((c :: c' :: cs).getD (Config.dueChoice s.freeCount % (cs.length + 2)) c, s.draw)

end Sys2Proof.Machine
end

