-- ==== Sys2Proof/Machine/Timebase.lean ====
section
/-! DEFINITION. TICK, FREEZE_ASSERT, FREEZE_RELEASE and SILENCE_TIMER_EXPIRY. -/

namespace Sys2Proof.Machine

/-- TICK (09 R139): the REFCLK period in which the tick progress reaches the divider while RUNNING. It passes only when no event is due, since an event that is due is taken at its epoch value (01 R12, 09 R139; log entry 3). -/
def execTick (s : State) : StepOutcome :=
  if s.tickCompletes && s.dueCommands.isEmpty then .next s.takeTick.countTimers else .next s

/-- A record appended to the queue of every OPEN or CLOSING port (09 R141). -/
def State.fanOut (s : State) (r : EventRecord) : State :=
  { s with ports := s.ports.map (fun u => if u.session = .opened ∨ u.session = .closing then u.append r else u) }

/-- FREEZE_ASSERT (09 R140): RUNNING becomes HELD, partial tick progress is discarded, FREEZE_ON fans out. That it is taken even while a start, an end or a pulse end at the held epoch is due and untaken is the model's choice (09 R143; log entry 27). -/
def execFreezeAssert (s : State) : StepOutcome :=
  if s.resetHeld then .next s
  else if s.freeze = .running then
    .next ({ s with freeze := .held, progress := 0 }.fanOut (.freezeOn s.epoch))
  else .next s

/-- FREEZE_RELEASE (09 R140): HELD becomes RUNNING, the tick progress starts from 0, FREEZE_OFF fans out. -/
def execFreezeRelease (s : State) : StepOutcome :=
  if s.resetHeld then .next s
  else if s.freeze = .held then
    .next ({ s with freeze := .running, progress := 0 }.fanOut (.freezeOff s.epoch))
  else .next s

/-- SILENCE_TIMER_EXPIRY (10 R156): the session lapses with cause SILENCE when its timer stands at 0. -/
def execSilenceTimerExpiry (p : Port) (s : State) : StepOutcome :=
  if s.expiryDue p && !s.resetHeld then .next (s.lapse p .silence) else .next s

end Sys2Proof.Machine
end

