-- ==== Sys2Proof/Machine/Timeline.lean ====
section
/-! DEFINITION. The events of windows and bundles: WINDOW_START, WINDOW_END_DUE, BUNDLE_JOINT_START, BUNDLE_JOINT_END, PULSE_END. An event that is not due is not taken (log entry 3). -/

namespace Sys2Proof.Machine

/-- WINDOW_START (01 R12, R13). -/
def execWindowStart (t : Track) (s : State) : StepOutcome :=
  match s.startDue t with
  | some w => .next (s.startAll [w])
  | none => .next s

/-- WINDOW_END_DUE (01 R14, R15): retirement with reason COMPLETE. -/
def execWindowEndDue (t : Track) (s : State) : StepOutcome :=
  match s.endDue t with
  | some w => .next (s.retire (fun _ => .complete) [w])
  | none => .next s

/-- BUNDLE_JOINT_START (04 R65, R66). -/
def execBundleJointStart (p : Port) (b : BundleNo) (s : State) : StepOutcome :=
  if s.jointStartDue p b then
    let t := s.setBundle p b ((s.bundle p b).map (fun r => { r with state := .active }))
    .next (t.startAll (s.members p b))
  else .next s

/-- BUNDLE_JOINT_END (04 R68): every member retires with reason COMPLETE and the bundle record is freed. -/
def execBundleJointEnd (p : Port) (b : BundleNo) (s : State) : StepOutcome :=
  if s.jointEndDue p b then
    .next ((s.setBundle p b none).retire (fun _ => .complete) (s.members p b))
  else .next s

/-- PULSE_END (07 R111): the current pulse end becomes absent, the drive state INACTIVE, the arming DONE once the budget is spent. -/
def execPulseEnd (l : Lane) (s : State) : StepOutcome :=
  match s.pulseDue l with
  | some w => .next ((s.updateWindow w.slot Window.endPulse).setDrive l .inactive)
  | none => .next s

end Sys2Proof.Machine
end

