-- ==== Sys2Proof/Machine/Dispatch.lean ====
section
/-! DEFINITION. The meaning of each command, one arm a row of spec/opcode_table.json. -/

namespace Sys2Proof.Machine

def exec (i : Instr) (s : State) : Host.Outcome State Fault Refusal :=
  match i with
  | .openSession p q quota silence => Sys2Proof.Machine.execOpenSession p q quota silence s
  | .closeGraceful p q => Sys2Proof.Machine.execCloseGraceful p q s
  | .closeAbrupt p q => Sys2Proof.Machine.execCloseAbrupt p q s
  | .readEpoch p q => Sys2Proof.Machine.execReadEpoch p q s
  | .queryPool p q => Sys2Proof.Machine.execQueryPool p q s
  | .claim p q track => Sys2Proof.Machine.execClaim p q track s
  | .release p q track => Sys2Proof.Machine.execRelease p q track s
  | .queryTrack p q track => Sys2Proof.Machine.execQueryTrack p q track s
  | .setLane p q lane polarity idle => Sys2Proof.Machine.execSetLane p q lane polarity idle s
  | .reserve p q b d => Sys2Proof.Machine.execReserve p q b d s
  | .reserveBundle p q b ds => Sys2Proof.Machine.execReserveBundle p q b ds s
  | .cancel p q h => Sys2Proof.Machine.execCancel p q h s
  | .amendEnd p q h newEnd => Sys2Proof.Machine.execAmendEnd p q h newEnd s
  | .flush p q target => Sys2Proof.Machine.execFlush p q target s
  | .queryWindow p q h => Sys2Proof.Machine.execQueryWindow p q h s
  | .transactionBegin p => Sys2Proof.Machine.execTransactionBegin p s
  | .transactionEnd p received => Sys2Proof.Machine.execTransactionEnd p received s
  | .resetnAssert => Sys2Proof.Machine.execResetnAssert s
  | .resetnRelease tdiv1 tdiv0 freeze sense => Sys2Proof.Machine.execResetnRelease tdiv1 tdiv0 freeze sense s
  | .portResetAssert p => Sys2Proof.Machine.execPortResetAssert p s
  | .portResetRelease p => Sys2Proof.Machine.execPortResetRelease p s
  | .freezeAssert => Sys2Proof.Machine.execFreezeAssert s
  | .freezeRelease => Sys2Proof.Machine.execFreezeRelease s
  | .senseEdge input level => Sys2Proof.Machine.execSenseEdge input level s
  | .tick => Sys2Proof.Machine.execTick s
  | .silenceTimerExpiry p => Sys2Proof.Machine.execSilenceTimerExpiry p s
  | .windowStart t => Sys2Proof.Machine.execWindowStart t s
  | .windowEndDue t => Sys2Proof.Machine.execWindowEndDue t s
  | .bundleJointStart p b => Sys2Proof.Machine.execBundleJointStart p b s
  | .bundleJointEnd p b => Sys2Proof.Machine.execBundleJointEnd p b s
  | .pulseEnd l => Sys2Proof.Machine.execPulseEnd l s

end Sys2Proof.Machine
end

