-- ==== Sys2Proof/Machine/Step.lean ====
section
/-! DEFINITION. One step: the command at the front of the queue; on an empty queue one due event, or one REFCLK period. -/

namespace Sys2Proof.Machine

/-- One step of the part. A waiting command is taken from the front of the queue. On an empty queue the part acts by itself (log entry 2): it takes a due event, or, where none is due, one REFCLK period passes. -/
def step (s : State) : Host.Outcome State Fault Refusal :=
  match s.pending with
  | c :: rest => exec c { s with pending := rest }
  | [] =>
    match autonomous s with
    | some (c, t) => exec c t
    | none => .next (refclkPeriod s)

/-- The command that a table word spells, put at the front of the queue; the table gives no row any bits, so the state is unchanged (log entry 22). -/
def State.withFetchWord (s : State) (nbits w : Nat) : State :=
  match decodeTableWord nbits w with
  | some c => { s with pending := c :: s.pending }
  | none => s

end Sys2Proof.Machine
end

