-- ==== Sys2Proof/Safety.lean ====
section
/-! DEFINITION. What the part keeps true (its laws), and the words in which statements about it are written: a fresh request, the state with a reply in the slot, the state with a record posted. -/

namespace Sys2Proof.Machine

/-! ### Words -/

/-- The session is OPEN or CLOSING. -/
def PortUnit.inSession (u : PortUnit) : Bool := decide (u.session = .opened) || decide (u.session = .closing)

/-- The request frame of `r` with sequence `seq` will be taken at port `p`: the port is in service, its reply slot is empty, and the frame is no retry (12 R175 to R177). -/
abbrev Fresh (p : Port) (seq : Seq) (r : Request) (s : State) : Prop :=
  s.inService p = true ∧ (s.port p).replySlot = none ∧ (s.port p).identity ≠ some (seq, crc (frameBody seq r))

/-- The silence timer after a well-formed frame (10 R155). -/
def PortUnit.reloadedTimer (u : PortUnit) : Option Nat :=
  if u.inSession then
    match u.silenceLimit with
    | some l => some (l * silenceUnit)
    | none => u.silenceTimer
  else u.silenceTimer

/-- A Port Unit that took a request and answered it (12 R175). -/
def PortUnit.answered (u : PortUnit) (seq : Seq) (r : Request) (a : Answer) : PortUnit :=
  { u with
    silenceTimer := u.reloadedTimer
    identity := some (seq, crc (frameBody seq r))
    replySlot := some { seq, code := (requestName r).code, answer := a, retry := false, overrun := false } }

/-- A state in which port `p` took a request and answered it, and nothing else changed. -/
def State.answered (s : State) (p : Port) (seq : Seq) (r : Request) (a : Answer) : State :=
  { s with ports := s.ports.set p ((s.port p).answered seq r a) }

/-- The answer OK with results. -/
def okAnswer (r : Results) : Answer := { status := .ok, results := r }

/-- The command row of a request. -/
def rowOf (p : Port) (seq : Seq) : Request → Instr
  | .openSession q l => .openSession p seq q l
  | .closeGraceful => .closeGraceful p seq
  | .closeAbrupt => .closeAbrupt p seq
  | .readEpoch => .readEpoch p seq
  | .queryPool => .queryPool p seq
  | .claim t => .claim p seq t
  | .release t => .release p seq t
  | .queryTrack t => .queryTrack p seq t
  | .setLane l pol i => .setLane p seq l pol i
  | .reserve b d => .reserve p seq b d
  | .reserveBundle b ds => .reserveBundle p seq b ds
  | .cancel h => .cancel p seq h
  | .amendEnd h e => .amendEnd p seq h e
  | .flush t => .flush p seq t
  | .queryWindow h => .queryWindow p seq h

/-- TRANSACTION_END at port `p` settles its item into the unit `u` and judges what was clocked in as it judges it behind an IDLE frame on that unit; a NOP reloads the silence timer and does no more (12 R174, R175). -/
abbrev EndsAs (p : Port) (earlier : List Byte) (received : List Level) (s : State) (u : PortUnit) : Prop :=
  exec (.transactionEnd p received) s = exec (.transactionEnd p received)
      { s with ports := s.ports.set p { u with
        transaction := some { item := .idle, cleared := false, exchanged := earlier } } } ∧
    ((earlier ++ wholeBytes received).head? = some 0x00 →
      exec (.transactionEnd p received) s = .next
        { s with ports := s.ports.set p { u with transaction := none, silenceTimer := u.reloadedTimer } })

/-- The operand bytes of a request frame do not fit its code: the length L, three more than the operand bytes, is not that of the table, or a CLOSE mode is neither 0x01 nor 0x02 (12 R180). -/
def misfits (n : RequestName) (operands : List Byte) : Bool :=
  let L := operands.length + 3
  match n with
  | .openSession | .setLane => decide (L ≠ 6)
  | .close => decide (L ≠ 4) || decide (operands ≠ [0x01] ∧ operands ≠ [0x02])
  | .readEpoch | .queryPool => decide (L ≠ 3)
  | .claim | .release | .queryTrack | .flush => decide (L ≠ 4)
  | .reserve => decide (L ≠ 33)
  | .reserveBundle => decide (operands.length < 21) || decide (L ≠ 24 + 10 * (operands.getD 20 0).toNat)
  | .cancel | .queryWindow => decide (L ≠ 5)
  | .amendEnd => decide (L ≠ 13)

/-- The body of the request frame of `r` whose byte 1 carries `low` in its low four bits: length, sequence, code, operands (12 R180). -/
def bodyWithLow (seq : Seq) (low : BitVec 4) (r : Request) : List Byte :=
  BitVec.ofNat 8 (3 + (operandBytes r).length) :: (seq ++ low) :: (requestName r).code :: operandBytes r

/-- A field of an outbound frame as its bytes, big-endian: its width in bytes and its value (12 "Frame layouts"). -/
def fieldBytes (f : Nat × Nat) : List Byte :=
  (List.range f.1).map (fun i => BitVec.ofNat 8 (f.2 / 256 ^ (f.1 - 1 - i)))

/-- The number of a flag byte with the flags given, bit 0 first. -/
def flagsNumber : List Bool → Nat
  | [] => 0
  | b :: bs => (if b then 1 else 0) + 2 * flagsNumber bs

/-- The number of a session state in a reply (12 R183). -/
def sessionNumber : SessionState → Nat
  | .down => 0
  | .opened => 1
  | .closing => 2
  | .lapsed => 3

/-- The number of an idle drive in a reply (12 R180, R183). -/
def idleDriveNumber : IdleDrive → Nat
  | .inactive => 0
  | .active => 1
  | .float => 2

/-- The fields of the results of a reply, in order, each with its width in bytes and its value; an absent field is zero, a claimant or bundle number that is none 0xFF, as is the member index of a step that concerns the bundle (12 R182, R183). -/
def resultFields : Results → List (Nat × Nat)
  | .none => []
  | .opened e f q l => [(8, e.toNat), (1, if f = .held then 1 else 0), (1, q), (2, l)]
  | .closedGraceful st r l => [(1, sessionNumber st), (1, r), (1, l)]
  | .closedAbrupt n e => [(1, n), (8, e.toNat)]
  | .epochRead e f d => [(8, e.toNat), (1, if f = .held then 1 else 0), (1, d.periods)]
  | .pool f u st h q b => [(1, f), (1, u), (1, sessionNumber st), (1, h), (1, q), (1, b)]
  | .trackReport c n hs tr at' =>
    [(1, (c.map Fin.val).getD 0xFF), (1, n), (1, flagsNumber [hs.isSome, tr.isSome, at'.isSome]),
      (8, (hs.map BitVec.toNat).getD 0), (1, tr.getD 0), (1, if at'.map Prod.fst = some .activeLow then 1 else 0),
      (1, (at'.map (fun x => idleDriveNumber x.2)).getD 0)]
  | .reserved h => [(2, h.toNat)]
  | .bundled b hs => (1, b.val) :: (1, hs.length) :: hs.map (fun h => (2, h.toNat))
  | .removed n => [(1, 1), (1, n), (8, 0)]
  | .ended n e => [(1, 2), (1, n), (8, e.toNat)]
  | .amended e | .value e => [(8, e.toNat)]
  | .flushed n | .quotaAvailable n => [(1, n)]
  | .windowReport st a b t p n =>
    [(1, if st = .active then 1 else 0), (8, a.toNat), (8, b.toNat), (1, t.val), (1, p.val), (1, (n.map Fin.val).getD 0xFF)]
  | .member i v => (1, i.getD 0xFF) :: (v.map (fun e => (8, e.toNat))).toList

/-- The number of a reason in an event record (12 R184). -/
def reasonNumber : Reason → Nat
  | .complete => 1
  | .cancelled => 2
  | .limit => 3
  | .bundleLimit => 4

/-- The fields of an event record behind its kind, in order, each with its width in bytes and its value (12 R184). -/
def recordFields : EventRecord → List (Nat × Nat)
  | .start h t e => [(2, h.toNat), (2, t.toNat), (8, e.toNat)]
  | .ended h t e r p =>
    [(2, h.toNat), (2, t.toNat), (8, e.toNat), (1, reasonNumber r), (1, flagsNumber [p.isSome]), (1, p.getD 0)]
  | .tally h t e r n sat a b =>
    [(2, h.toNat), (2, t.toNat), (8, e.toNat), (1, reasonNumber r), (3, n), (1, flagsNumber [sat, a.isSome]),
      (8, (a.map BitVec.toNat).getD 0), (8, (b.map BitVec.toNat).getD 0)]
  | .bumped h t e p => [(2, h.toNat), (2, t.toNat), (8, e.toNat), (1, 1), (1, p.val), (8, 0)]
  | .truncated h t e p n => [(2, h.toNat), (2, t.toNat), (8, e.toNat), (1, 2), (1, p.val), (8, n.toNat)]
  | .closed e => [(8, e.toNat)]
  | .lapsed e c => [(8, e.toNat), (1, if c = .silence then 1 else 2)]
  | .freezeOn e => [(8, e.toNat)]
  | .freezeOff e => [(8, e.toNat)]
  | .lost n => [(1, n)]

/-- The epoch timebase, RESETn and the waiting commands are as they were. -/
abbrev SameTimebase (s t : State) : Prop :=
  t.epoch = s.epoch ∧ t.divider = s.divider ∧ t.freeze = s.freeze ∧ t.progress = s.progress ∧
    t.resetHeld = s.resetHeld ∧ t.pending = s.pending

/-- Records appended one after another to a Port Unit (11 R163, R164). -/
def PortUnit.appendAll (u : PortUnit) (rs : List EventRecord) : PortUnit := rs.foldl PortUnit.append u

/-- A port whose session reaches DOWN by closing (10 R152 to R154). -/
def PortUnit.closedDown (u : PortUnit) (epoch : Epoch) : PortUnit :=
  { u with session := .down, quota := 0, silenceLimit := none, silenceTimer := none }.append (.closed epoch)

/-- A port whose session lapsed (10 R158); a transaction in progress keeps its item, which is consumed no more (10 R159). -/
def PortUnit.lapsed (u : PortUnit) (epoch : Epoch) (cause : LapseCause) : PortUnit :=
  { u with
    session := .lapsed
    quota := 0
    held := 0
    silenceLimit := none
    silenceTimer := none
    bundles := Vector.replicate 8 none
    queue := [.lapsed epoch cause]
    lost := 0
    transaction := u.transaction.map (fun x => { x with cleared := true })
    replySlot := none
    retained := none
    identity := none }

/-- The record that tells the owner of a window's end (01 R15, 08 R128, 11 R170). -/
def endRecords (epoch : Epoch) (reason : Reason) (w : Window) : List EventRecord :=
  match w.shape, w.run with
  | .tally .., .tally r => [.tally w.handle w.tag epoch reason r.count r.saturated r.firstEdge r.lastEdge]
  | .triggered .., .trigger r => if w.noteEnd then [.ended w.handle w.tag epoch reason (some r.emitted)] else []
  | .steady, _ | .train .., _ | .toggle .., _ => if w.noteEnd then [.ended w.handle w.tag epoch reason none] else []
  | _, _ => []

/-- The record that tells the owner of a window's start (01 R13). -/
def startRecords (epoch : Epoch) (w : Window) : List EventRecord :=
  if w.noteStart then [.start w.handle w.tag epoch] else []

/-- The windows that act with a window: all members of its bundle, or the window alone (04 R58, 05 R75). -/
def State.wholeOf (s : State) (w : Window) : List Window :=
  match w.bundle with
  | none => [w]
  | some r => s.members w.owner r.number

/-- A window is one of those given. -/
def Window.among (w : Window) (ws : List Window) : Bool := ws.any (fun v => decide (v.slot = w.slot))

/-- The bundle records of a Port Unit after the windows given left: those of their bundles are free (04 R58). -/
def PortUnit.bundlesWithout (u : PortUnit) (ws : List Window) : Vector (Option BundleRecord) 8 :=
  Vector.ofFn (fun b : BundleNo => if ws.any (fun w => decide (w.bundleNo = some b)) then none else u.bundles[b])

/-- A lane after windows left lists, `base` before (07 R105, R114, R115): as it was where a window runs or the next one starts at this epoch value, a waiting bundle member included (log entry 28), else IDLE. -/
def State.settledLane (t : State) (base : LaneDriver) (l : Lane) : LaneDriver :=
  match t.head (laneTrack l) with
  | some h => if h.state = .active ∨ h.start = t.epoch then base else { base with drive := .idle }
  | none => { base with drive := .idle }

/-- A Tally Unit after windows left lists, from `s` to `t` (08 R122, R134): where the counting window left, none, with a handover hold where the next window starts at this epoch value; where the head it waited for left, no hold; carried edges discarded. -/
def settledTally (s t : State) (k : Sense) : TallyUnit :=
  match s.running (senseTrack k) with
  | some w =>
    if w.slot ∈ (t.trackList (senseTrack k)).map Window.slot then s.tally k
    else { s.tally k with
      counting := none
      hold := ((t.head (senseTrack k)).filter (fun h => decide (h.start = s.epoch))).map Window.slot
      carried := 0 }
  | none =>
    if t.head (senseTrack k) = s.head (senseTrack k) then s.tally k
    else { s.tally k with hold := none, carried := 0 }

/-- Windows of port `p` left their lists in one change (01 R11, R15, R16): what becomes of everything besides the port's own unit, the claims and the free-value counter. -/
abbrev Left (s t : State) (ws : List Window) (p : Port) : Prop :=
  t.windows = s.windows.filter (fun v => !v.among ws) ∧ t.useCounts = s.useCounts ∧
    (∀ k q, t.refs k q = s.refs k q - (if q = p then (ws.filter (fun w => decide (w.shape.source = some k))).length else 0)) ∧
    (∀ l, t.lane l = t.settledLane (s.lane l) l) ∧ (∀ k, t.tally k = settledTally s t k) ∧
    (∀ q, q ≠ p → t.port q = s.port q) ∧ SameTimebase s t

/-- The claims of port `p` are released, or not (06 R95). -/
abbrev ClaimsReleased (s t : State) (p : Port) (released : Bool) : Prop :=
  ∀ x, t.claimant x = if released = true ∧ s.claimant x = some p then none else s.claimant x

/-- The session of a port ends as its last `n` records leave: it is CLOSING and holds no more (10 R152). -/
def PortUnit.endsWith (u : PortUnit) (n : Nat) : Bool := decide (u.session = .closing) && decide (u.held = n)

/-- A Port Unit whose windows retired with the records given: held count, bundle records, queue, and the end of a CLOSING session that holds no more (01 R11, R18, 10 R152). -/
def PortUnit.retired (u : PortUnit) (ws : List Window) (rs : List EventRecord) (epoch : Epoch) : PortUnit :=
  let v := { u.appendAll rs with held := u.held - ws.length, bundles := u.bundlesWithout ws }
  if u.endsWith ws.length then v.closedDown epoch else v

/-- Windows of port `p` retired in one change with the records given (01 R15, R18). -/
abbrev Retired (s t : State) (ws : List Window) (p : Port) (rs : List EventRecord) : Prop :=
  Left s t ws p ∧ t.port p = (s.port p).retired ws rs s.epoch ∧ ClaimsReleased s t p ((s.port p).endsWith ws.length)

/-- The part of an admission's windows that are bumped (03 R43). -/
def bumpedOf (start : Epoch) (ws : List Window) : List Window := ws.filter (fun w => decide (start ≤ w.start))

/-- The part of an admission's windows that are truncated (03 R43). -/
def truncatedOf (start : Epoch) (ws : List Window) : List Window := ws.filter (fun w => decide (w.start < start))

/-- The bundle records of a port after an admission displaced the windows given (03 R50, R51). -/
def PortUnit.bundlesDisplaced (u : PortUnit) (start : Epoch) (ws : List Window) : Vector (Option BundleRecord) 8 :=
  Vector.ofFn (fun b : BundleNo =>
    if (bumpedOf start ws).any (fun w => decide (w.bundleNo = some b)) then none
    else if (truncatedOf start ws).any (fun w => decide (w.bundleNo = some b)) then
      (u.bundles[b]).map (fun r => { r with stop := start })
    else u.bundles[b])

/-- The slots an admission may take, ascending: those that no window holds once the bumped ones are gone (01 R10, 03 R44). -/
def State.slotsWithout (s : State) (gone : List Window) : List Slot :=
  (List.finRange 192).filter (fun i => s.windows.all (fun v => decide (v.slot ≠ i) || v.among gone))

/-- The new records `news` of port `p` were admitted and the windows `ws` displaced, in one change (01 R10, 02 R33 to R35, 03 R43 to R53, 04 R64): what becomes of everything besides the port's own unit and the free-value counter. -/
abbrev Admitted (s t : State) (p : Port) (priority : Fin 4) (start : Epoch) (ws news : List Window) : Prop :=
  t.windows = news.foldl (fun l w => insertByStart w l)
      ((s.windows.filter (fun v => !v.among (bumpedOf start ws))).map
        (fun v => if v.among (truncatedOf start ws) then { v with stop := start } else v)) ∧
    news.map Window.slot = (s.slotsWithout (bumpedOf start ws)).take news.length ∧
    (∀ i, t.useCount i = if i ∈ news.map Window.slot then s.useCount i + 1 else s.useCount i) ∧
    (∀ k q, t.refs k q =
      s.refs k q - ((bumpedOf start ws).filter (fun w => decide (w.owner = q) && decide (w.shape.source = some k))).length +
        (if q = p then (news.filter (fun w => decide (w.shape.source = some k))).length else 0)) ∧
    t.lanes = s.lanes ∧ t.tallies = s.tallies ∧ t.claimants = s.claimants ∧ SameTimebase s t ∧
    ∀ q, q ≠ p → ∃ rs : List EventRecord,
      rs.Perm ((ws.filter (fun w => decide (w.owner = q))).map (fun w =>
        if w.start < start then .truncated w.handle w.tag s.epoch priority start
        else .bumped w.handle w.tag s.epoch priority)) ∧
      t.port q = { (s.port q).appendAll rs with
        held := (s.port q).held - ((bumpedOf start ws).filter (fun w => decide (w.owner = q))).length
        bundles := (s.port q).bundlesDisplaced start (ws.filter (fun w => decide (w.owner = q))) }

/-- An admission at port `p` finds nothing that refuses it: time, claims, trigger sense inputs, quota, own windows, other ports' windows of equal or higher priority (02 R23 checks 3 to 9). -/
abbrev Admissible (s : State) (p : Port) (b : Booking) (ms : List Member) : Prop :=
  s.epoch.toNat + 64 ≤ b.start.toNat ∧ b.start.toNat ≤ s.epoch.toNat + 2 ^ 40 ∧
    b.start.toNat + 4 ≤ b.stop.toNat ∧ b.stop.toNat ≤ b.start.toNat + 2 ^ 40 ∧
    (s.port p).held + ms.length ≤ (s.port p).quota ∧
    ∀ m ∈ ms, s.claimedByOther p m.track = false ∧ s.triggerClaimed p m.shape = false ∧
      ∀ w ∈ s.trackList m.track, intersects w.start w.stop b.start b.stop = true →
        w.owner ≠ p ∧ w.priority < m.priority

/-- Checks 3 to 9 of RESERVE on a well-formed member, in their order, each with the answer of its failure (02 R23, R26 to R32). -/
def State.reserveChecks (s : State) (p : Port) (b : Booking) (m : Member) : List (Bool × Answer) :=
  let meets := fun (w : Window) => intersects w.start w.stop b.start b.stop
  let conflicting := (s.trackList m.track).find? (fun w =>
    decide (w.owner ≠ p) && meets w && decide (m.priority ≤ w.priority))
  [(decide (b.start.toNat < s.epoch.toNat + 64), { status := .tooLate, results := .value s.epoch }),
    (decide (s.epoch.toNat + 2 ^ 40 < b.start.toNat), { status := .tooFar, results := .value s.epoch }),
    (decide (b.stop.toNat < b.start.toNat + 4), { status := .badRange, results := .none }),
    (decide (b.start.toNat + 2 ^ 40 < b.stop.toNat), { status := .tooFar, results := .value s.epoch }),
    (s.claimedByOther p m.track, { status := .claimed, results := .none }),
    (s.triggerClaimed p m.shape, { status := .triggerUnavailable, results := .none }),
    (decide ((s.port p).quota ≤ (s.port p).held), { status := .quotaFull, results := .none }),
    ((s.trackList m.track).any (fun w => decide (w.owner = p) && meets w), { status := .overlap, results := .none }),
    (conflicting.isSome, { status := .conflict, results := .value ((conflicting.map Window.start).getD 0) })]

/-- Step 2b of RESERVE_BUNDLE on the member with index `i` alone: the status of its failure, if it fails (04 R61). A limit off the leader and a track that a lower-numbered member names are failures of form. -/
def memberFailure (b : Booking) (ds : List Descriptor) (i : Nat) : Option Status :=
  match ds[i]? with
  | none => none
  | some d =>
    if (i ≠ 0 ∧ d.kind = 0x08 ∧ d.b3 = 0x01) ∨ ∃ e ∈ ds.take i, e.track = d.track then some .badRequest
    else
      match judgeMember b d with
      | .error st => some st
      | .ok _ => none

/-- Every member passes step 2b of RESERVE_BUNDLE, as the member given (04 R61). -/
abbrev MembersPass (b : Booking) (ds : List Descriptor) (ms : List Member) : Prop :=
  (∀ i, i < ds.length → memberFailure b ds i = none) ∧ ds.map (judgeMember b) = ms.map Except.ok

/-- Steps 3 to 9 of RESERVE_BUNDLE on well-formed members, in their order, each with the status, the member index and the further value of its failure (04 R60 to R64, 12 R183). -/
def State.bundleSteps (s : State) (p : Port) (b : Booking) (ms : List Member) :
    List (Bool × Status × Option Nat × Option Epoch) :=
  let meets := fun (w : Window) => intersects w.start w.stop b.start b.stop
  let conflicting := fun (m : Member) => (s.trackList m.track).find? (fun w =>
    decide (w.owner ≠ p) && meets w && decide (m.priority ≤ w.priority))
  let claimed := ms.findIdx? (fun m => s.claimedByOther p m.track)
  let taken := ms.findIdx? (fun m => s.triggerClaimed p m.shape)
  let own := ms.findIdx? (fun m => (s.trackList m.track).any (fun w => decide (w.owner = p) && meets w))
  let conflict := ms.findIdx? (fun m => (conflicting m).isSome)
  [(decide (b.start.toNat < s.epoch.toNat + 64), .tooLate, none, some s.epoch),
    (decide (s.epoch.toNat + 2 ^ 40 < b.start.toNat), .tooFar, none, some s.epoch),
    (decide (b.stop.toNat < b.start.toNat + 4), .badRange, none, none),
    (decide (b.start.toNat + 2 ^ 40 < b.stop.toNat), .tooFar, none, some s.epoch),
    (decide (∀ n, s.bundle p n ≠ none), .noBundleRecord, none, none),
    (claimed.isSome, .claimed, claimed, none),
    (taken.isSome, .triggerUnavailable, taken, none),
    (decide ((s.port p).quota < (s.port p).held + ms.length), .quotaFull, none, none),
    (own.isSome, .overlap, own, none),
    (conflict.isSome, .conflict, conflict,
      some (((conflict.bind (fun i => ms[i]?)).bind conflicting |>.map Window.start).getD 0))]

/-- The steps of AMEND_END on a window of the port, in their order, each with the answer of its failure (05 R79, R81). -/
def State.amendSteps (s : State) (p : Port) (w : Window) (newEnd : Epoch) : List (Bool × Answer) :=
  let inWay := fun (f : Window → Bool) (v : Window) => (s.trackList v.track).find? (fun x =>
    decide (x.slot ≠ v.slot) && intersects x.start x.stop v.stop newEnd && f x)
  let others := inWay (fun x => decide (x.owner ≠ p))
  let own := (s.wholeOf w).findIdx? (fun v => (inWay (fun x => decide (x.owner = p)) v).isSome)
  let conflict := (s.wholeOf w).findIdx? (fun v => (others v).isSome)
  let start := (((conflict.bind (fun i => (s.wholeOf w)[i]?)).bind others).map Window.start).getD 0
  [(decide (newEnd.toNat ≤ w.start.toNat), { status := .badRange, results := .none }),
    (decide (newEnd.toNat < s.epoch.toNat + 64), { status := .tooLate, results := .value s.epoch }),
    (decide (w.start.toNat + 2 ^ 40 < newEnd.toNat), { status := .tooFar, results := .value s.epoch }),
    (decide (w.stop < newEnd) && own.isSome, { status := .overlap, results := .member own none }),
    (decide (w.stop < newEnd) && conflict.isSome, { status := .conflict, results := .member conflict (some start) })]

/-- The record of a new window (02 R34). -/
def bookedWindow (p : Port) (b : Booking) (m : Member) (ref : Option BundleRef) (i : Slot) (count : Byte) : Window where
  slot := i
  useCount := count
  owner := p
  track := m.track
  start := b.start
  stop := b.stop
  priority := m.priority
  shape := m.shape
  noteStart := m.noteStart
  noteEnd := m.noteEnd
  tag := b.tag
  bundle := ref
  state := .pending
  run := m.shape.firstRun

/-- The edges carried for a window that waits in a handover hold (08 R134). -/
def State.carriedFor (s : State) (w : Window) : Nat :=
  match senseOf w.track with
  | some k => if (s.tally k).hold = some w.slot then (s.tally k).carried else 0
  | none => 0

/-- A window that starts and receives `n` carried edges (01 R13, 08 R134). -/
def Window.started (w : Window) (epoch : Epoch) (n : Nat) : Window :=
  { w with
    state := .active
    run := match w.run with
      | .tally r =>
        if n = 0 then .tally r
        else .tally { count := n, saturated := false, firstEdge := some epoch, lastEdge := some epoch }
      | run => run }

/-- The limit of a TALLY window. -/
def Shape.limit : Shape → Option Nat
  | .tally _ (some l) => some l.toNat
  | _ => none

/-- One counted edge (08 R125 steps 1 to 3). -/
def TallyRun.counted (r : TallyRun) (te : Epoch) : TallyRun where
  count := if r.count < tallyMax then r.count + 1 else r.count
  saturated := r.saturated || decide (r.count = tallyMax)
  firstEdge := some (r.firstEdge.getD te)
  lastEdge := some te

/-- A window of the counting track after one counted edge. -/
def Window.counted (w : Window) (te : Epoch) : Window :=
  match w.run with
  | .tally r => { w with run := .tally (r.counted te) }
  | _ => w

/-- An ACTIVE TALLY window counts an edge to this level on sense input `k` (08 R124, R125). -/
def Window.takesCount (w : Window) (k : Sense) (level : Level) : Bool :=
  decide (w.track = senseTrack k) && decide (w.state = .active) && w.counts level

/-- A window after the report of an edge: a pulse started where the edge starts one (07 R110). -/
def Window.pulsed (w : Window) (k : Sense) (level : Level) (te : Epoch) : Window :=
  if w.startsPulse k level then w.withPulse (te + BitVec.ofNat 64 w.shape.width) else w

/-- A lane after the report of an edge (07 R110). -/
def State.pulsedLane (s : State) (k : Sense) (level : Level) (l : Lane) : LaneDriver :=
  if (s.running (laneTrack l)).any (fun w => w.startsPulse k level) then { s.lane l with drive := .active } else s.lane l

/-! ### Laws of one record -/

/-- The shape parameters lie in their ranges (01 R6). -/
def Shape.inRange : Shape → Bool
  | .steady => true
  | .train p _ => decide (2 ≤ p.toNat)
  | .toggle i _ => decide (1 ≤ i.toNat)
  | .triggered _ _ w n => decide (1 ≤ w.toNat) && decide (1 ≤ n.toNat)
  | .tally _ (some l) => decide (1 ≤ l.toNat)
  | .tally _ none => true

/-- A shape that carries a tally limit (01 R6). -/
def Shape.hasLimit : Shape → Bool
  | .tally _ (some _) => true
  | _ => false

/-- The run-time part of a TRIGGERED window with budget `n` (01 R7, 07 R109). -/
def TriggerRun.lawful (r : TriggerRun) (n : Nat) (st : WindowState) (epoch : Epoch) : Bool :=
  decide (r.emitted ≤ n) && decide (r.arming = .done ↔ r.emitted = n ∧ r.pulseEnd = none) &&
    r.pulseEnd.all (fun e => decide (st = .active) && decide (0 < r.emitted) && decide (epoch ≤ e))

/-- The run-time part of a TALLY window (08 R125): a window with a limit stands below it, and the edge epochs are present together, once an edge was counted, in order and within the window. -/
def TallyRun.lawful (r : TallyRun) (limit : Option (BitVec 24)) (start epoch : Epoch) : Bool :=
  decide (r.count ≤ tallyMax) && (!r.saturated || decide (r.count = tallyMax)) &&
    limit.all (fun l => decide (r.count < l.toNat)) &&
    (match r.firstEdge, r.lastEdge with
      | none, none => decide (r.count = 0)
      | some a, some b => decide (0 < r.count) && decide (start ≤ a) && decide (a ≤ b) && decide (b ≤ epoch)
      | _, _ => false)

/-- The run-time part is one that the shape can have at the epoch value given (01 R7). -/
def Window.runLawful (w : Window) (epoch : Epoch) : Bool :=
  match w.shape, w.run with
  | .triggered _ _ _ n, .trigger r => r.lawful n.toNat w.state epoch
  | .tally _ limit, .tally r => r.lawful limit w.start epoch
  | .steady, .absent | .train .., .absent | .toggle .., .absent => true
  | _, _ => false

/-- What holds of every window record: kind and track, ranges, start before end, the use count of its slot, the run-time part; a PENDING window starts at or after the epoch and has its first run-time part; an ACTIVE window started at or before the epoch and ends at or after it (01 R1, R2, R5 to R8, R12 to R14). -/
abbrev Window.lawful (w : Window) (s : State) : Prop :=
  kindFits w.track w.shape = true ∧ w.shape.inRange = true ∧ w.start < w.stop ∧
    w.useCount = s.useCount w.slot ∧ w.runLawful s.epoch = true ∧
    (w.state = .pending → s.epoch ≤ w.start ∧ w.run = w.shape.firstRun) ∧
    (w.state = .active → w.start ≤ s.epoch ∧ s.epoch ≤ w.stop)

/-! ### Laws of the part -/

/-- A queue holds at most 32 records, the lost count stays at or below 255, and it is nonzero only while the queue holds 32 (11 R162). -/
abbrev QueueLaw (s : State) : Prop :=
  ∀ p : Port, (s.port p).queue.length ≤ queueDepth ∧ (s.port p).lost ≤ lostMax ∧
    (0 < (s.port p).lost → (s.port p).queue.length = queueDepth)

/-- The values that go with a session state (10 R146): quota, silence limit and silence timer. -/
def PortUnit.sessionLawful (u : PortUnit) : Bool :=
  match u.inSession, u.silenceLimit, u.silenceTimer with
  | true, some l, some n =>
    decide (1 ≤ u.quota) && decide (u.quota ≤ poolSize) && decide (1 ≤ l) && decide (l ≤ 4095) && decide (n ≤ l * silenceUnit)
  | false, none, none => decide (u.quota = 0)
  | _, _, _ => false

/-- The values of every session go with its state, and the quotas never sum to more than 192 (10 R146, 01 R11). -/
abbrev SessionLaw (s : State) : Prop :=
  (∀ p : Port, (s.port p).sessionLawful = true) ∧ s.quotasInUse ≤ poolSize

/-- Every slot holds at most one record, and each held count is the number of the port's records, at most its quota (01 R10, R11). -/
abbrev PoolLaw (s : State) : Prop :=
  (s.windows.map Window.slot).Nodup ∧
    ∀ p : Port, (s.port p).held = (s.owned p).length ∧ (s.port p).held ≤ (s.port p).quota

/-- The TRIGGERED windows of a port that name a sense input. -/
def State.triggeredOn (s : State) (k : Sense) (p : Port) : List Window :=
  (s.owned p).filter (fun w => decide (w.shape.source = some k))

/-- Every trigger reference count is the number of the port's TRIGGERED windows that name the sense input (06 R96). -/
abbrev ReferenceLaw (s : State) : Prop :=
  ∀ (k : Sense) (p : Port), s.refs k p = (s.triggeredOn k p).length

/-- A bundle record against the bundle's members, in member order (04 R58, R61): one to eight on distinct tracks with one start, one end and one state, the first the leader, no limit on another. -/
def BundleRecord.lawful (r : BundleRecord) (b : BundleNo) (ws : List Window) : Bool :=
  decide (r.handles = ws.map Window.handle) && decide (1 ≤ ws.length) && decide (ws.length ≤ 8) &&
    decide (ws.map Window.track).Nodup &&
    ws.all (fun w => decide (w.start = r.start) && decide (w.stop = r.stop) && decide (w.state = r.state)) &&
    decide (ws.map Window.bundle =
      (List.range ws.length).map (fun i => some { number := b, leader := decide (i = 0) })) &&
    ws.tail.all (fun w => !w.shape.hasLimit)

/-- Every used bundle record describes its members, and a free one has none (04 R58). -/
abbrev BundleLaw (s : State) : Prop :=
  ∀ (p : Port) (b : BundleNo),
    (match s.bundle p b with
      | none => (s.members p b).isEmpty
      | some r => r.lawful b (s.members p b)) = true

/-- A port whose session is DOWN or LAPSED holds no window records, no bundle records, no claims and no trigger references (10 R146). -/
abbrev RestLaw (s : State) : Prop :=
  ∀ p : Port, (s.port p).inSession = false →
    s.owned p = [] ∧ (∀ b, s.bundle p b = none) ∧ (∀ t, s.claimant t ≠ some p) ∧ (∀ k, s.refs k p = 0)

/-- A CLOSING session holds windows, and all of them are ACTIVE (03 R54, 10 R151, R152). -/
abbrev ClosingLaw (s : State) : Prop :=
  ∀ p : Port, (s.port p).session = .closing →
    s.owned p ≠ [] ∧ ∀ w ∈ s.owned p, w.state = .active

/-- The track of every window, and the sense input it is triggered by, is open or claimed by the window's owner (06 R90). -/
abbrev ClaimLaw (s : State) : Prop :=
  ∀ w ∈ s.windows, s.claimedByOther w.owner w.track = false ∧ s.triggerClaimed w.owner w.shape = false

/-- The windows stand in the order of their starts; on each track no two intersect, and at most the head is ACTIVE (01 R2, R3). -/
abbrev TrackLaw (s : State) : Prop :=
  s.windows.Pairwise (fun v w => v.start ≤ w.start) ∧
    ∀ t : Track, (s.trackList t).Pairwise (fun v w => v.stop ≤ w.start) ∧
      ∀ w ∈ (s.trackList t).tail, w.state = .pending

/-- A lane that runs a window shows it until its end; a lane that runs none is IDLE, save in a handover at this epoch value, one into a waiting bundle member included (07 R105, R106, R114; log entry 28). -/
def State.laneLawful (s : State) (l : Lane) : Bool :=
  match s.running (laneTrack l) with
  | some w => decide (s.epoch < w.stop → (s.lane l).drive = w.driveAt s.epoch)
  | none => (s.head (laneTrack l)).any (fun w => decide (w.start = s.epoch)) || decide ((s.lane l).drive = .idle)

/-- The law of every lane. -/
abbrev LaneLaw (s : State) : Prop := ∀ l : Lane, s.laneLawful l = true

/-- A Tally Unit counts into the window its track runs; a handover hold is open only for a head that waits to start at this epoch value, and edges are carried only then (08 R122, R134). -/
abbrev TallyLaw (s : State) : Prop :=
  ∀ k : Sense,
    (s.tally k).counting = (s.running (senseTrack k)).map Window.slot ∧
      (s.tally k).carried ≤ tallyMax ∧
      ((s.tally k).hold = none → (s.tally k).carried = 0) ∧
      ((s.tally k).hold = none ∨
        (s.tally k).hold = ((s.head (senseTrack k)).filter
          (fun w => decide (w.state = .pending) && decide (w.start = s.epoch))).map Window.slot)

/-- The tick progress stays below the divider (09 R138). -/
abbrev TimebaseLaw (s : State) : Prop := s.progress < s.divider.periods

/-- The laws of records, held counts, trigger references, bundles and sessions together. -/
abbrev RecordLaws (s : State) : Prop :=
  SessionLaw s ∧ PoolLaw s ∧ ReferenceLaw s ∧ BundleLaw s ∧ RestLaw s

/-- Every law of the part. -/
abbrev Lawful (s : State) : Prop :=
  QueueLaw s ∧ TimebaseLaw s ∧ RecordLaws s ∧ ClosingLaw s ∧ ClaimLaw s ∧ TrackLaw s ∧
    (∀ w ∈ s.windows, w.lawful s) ∧ LaneLaw s ∧ TallyLaw s

/-- The epoch is so far from its top that neither a tick nor a pulse that starts now passes 2^64 − 1 (09 R139). -/
abbrev FarFromTop (s : State) : Prop := s.epoch.toNat + 65536 < 2 ^ 64

end Sys2Proof.Machine
end

