-- ==== Sys2Proof/WellFormed.lean ====
section
/-! DEFINITION. Which command terms can be sent at all. -/

namespace Sys2Proof

/-- The most member descriptors a request frame can carry: its length byte 24 + 10 × count lies in 3 to 126 (12 R175, R180). -/
def maxDescriptors : Nat := 10

/-- A request that a frame can carry. The part itself judges the member count (12 R180: 0 or above 8 is BAD_REQUEST); a count of more than ten makes no frame. -/
def Request.wellFormed : Request → Bool
  | .reserveBundle _ members => members.length ≤ maxDescriptors
  | _ => true

/-- A command that can be sent: every operand of the other rows is of a type that holds its values only. -/
def Instr.wellFormed : Instr → Bool
  | .reserveBundle _ _ _ members => members.length ≤ maxDescriptors
  | .openSession .. | .closeGraceful .. | .closeAbrupt .. | .readEpoch .. | .queryPool .. | .claim .. | .release ..
  | .queryTrack .. | .setLane .. | .reserve .. | .cancel .. | .amendEnd .. | .flush .. | .queryWindow ..
  | .transactionBegin .. | .transactionEnd .. | .resetnAssert | .resetnRelease .. | .portResetAssert ..
  | .portResetRelease .. | .freezeAssert | .freezeRelease | .senseEdge .. | .tick | .silenceTimerExpiry ..
  | .windowStart .. | .windowEndDue .. | .bundleJointStart .. | .bundleJointEnd .. | .pulseEnd .. => true

end Sys2Proof
end

