-- ==== Sys2Proof/Certificates/Slice0/Obligations.lean ====
section
/-! DEFINITION. The statements for the provers, by chapter of the spec: the machine as a whole, the port link, sessions, claims and lanes, admission, cancelling and amending, timebase and resets, windows and edges, laws. -/

open Sys2Proof Sys2Proof.Machine

/-! ### The machine -/

/-- A step takes the command at the front of the queue and runs it on the state with the queue's rest. -/
def Obligations.StepTakesTheFrontCommand : Prop :=
  ∀ (c : Instr) (rest : List Instr) (s : State),
    step { s with pending := c :: rest } = exec c { s with pending := rest }

/-- Every command answers a next state, since the model has no fault and no refusal (its choice: log entry 20), and no command touches the waiting commands. -/
def Obligations.EveryCommandAnswersANextState : Prop :=
  ∀ (c : Instr) (s : State), ∃ t, exec c s = .next t ∧ t.pending = s.pending

/-- On an empty queue the part takes an event that is due, whichever (the model's choice: log entries 2 and 6), and otherwise lets one REFCLK period pass: it counts towards the next tick while RUNNING, takes that tick where it completes, and every running silence timer falls by one. -/
def Obligations.EmptyQueueTakesAnEventOrAPeriod : Prop :=
  ∀ s : State, s.pending = [] →
    (s.dueCommands ≠ [] → ∃ c ∈ s.dueCommands, ∃ n, step s = exec c { s with freeCount := n }) ∧
    (s.dueCommands = [] → s.resetHeld = true → step s = .next s) ∧
    (s.dueCommands = [] → s.resetHeld = false →
      (s.freeze = .running → s.divider.periods ≤ s.progress + 1 → step s = exec .tick s) ∧
      (s.freeze = .running → s.progress + 1 < s.divider.periods →
        step s = .next { s with
          progress := s.progress + 1
          ports := s.ports.map (fun u => { u with silenceTimer := u.silenceTimer.map (fun n => n - 1) }) }) ∧
      (s.freeze = .held →
        step s = .next { s with
          ports := s.ports.map (fun u => { u with silenceTimer := u.silenceTimer.map (fun n => n - 1) }) }))

/-! ### The port link -/

/-- The CRC (12 R179): initial value 0x00; each byte is XORed in and the register shifted left eight times, XORed with 0x07 when the bit shifted out was 1; the manual's example; every outbound frame ends with the CRC of the bytes before it, and an inbound request frame is well formed only with it; a NOP frame has none. -/
def Obligations.CrcEndsEveryFrame : Prop :=
  crc [] = 0x00 ∧
    (∀ (bs : List Byte) (b : Byte), crc (bs ++ [b]) =
      (List.range 8).foldl (fun (r : Byte) _ => if r.msb = true then (r <<< 1) ^^^ 0x07 else r <<< 1) (crc bs ^^^ b)) ∧
    crc [0x03] = 0x09 ∧ crc [0x03, 0x50] = 0x88 ∧ crc [0x03, 0x50, 0x03] = 0xB8 ∧
    (∀ item : OutboundItem, ∃ body : List Byte, item.frame = body ++ [crc body]) ∧
    (∀ (bs : List Byte) (f : Frame), readInbound bs = .request f →
      ∃ body rest : List Byte, bs = body ++ crc body :: rest ∧ f.crc = crc body) ∧
    ∀ rest : List Byte, readInbound (0x00 :: rest) = .nop

/-- Every request that a frame can carry is read back from its frame whole, whatever bytes follow it (12 R175, R180, R181). The low four bits of byte 1 are ignored, though covered by the CRC: with any of them the frame is the same request and sequence, with its own CRC (12 R180). -/
def Obligations.RequestFramesReadBack : Prop :=
  ∀ (seq : Seq) (r : Request), r.wellFormed = true →
    readInbound (requestFrame seq r) = .request (Frame.ofRequest seq r) ∧
    ∀ (low : BitVec 4) (rest : List Byte), let body := bodyWithLow seq low r
      readInbound (body ++ crc body :: rest) =
        .request { seq, crc := crc body, code := (requestName r).code, name := some (requestName r), request := some r }

/-- A request row is its frame clocked in, most significant bit first, during a transaction with an IDLE frame, a lapse in it or not, whatever levels follow (the model's reading, the low four bits of byte 1 being 0 included: log entry 8). With any low bits the frame is a retry by its own CRC, else an overrun on a full slot, else taken as the request it spells, with its own CRC in the identity (12 R175 to R177, R180). A transaction that carries a reply or a record comes down to this one by TransactionEndSettlesAReply and TransactionEndConsumesARecord. -/
def Obligations.RequestRowIsItsFrame : Prop :=
  ∀ (p : Port) (seq : Seq) (low : BitVec 4) (r : Request) (cleared : Bool) (fill : List Level) (s : State),
    r.wellFormed = true → s.inService p = true →
    (s.port p).transaction = some { item := .idle, cleared, exchanged := [] } →
    let body := bodyWithLow seq low r
    let frame : Frame :=
      { seq, crc := crc body, code := (requestName r).code, name := some (requestName r), request := some r }
    let reloaded := { s.port p with transaction := none, silenceTimer := (s.port p).reloadedTimer }
    let clocked := exec (.transactionEnd p ((body ++ [crc body]).flatMap bitLevels ++ fill)) s
    (low = 0 → clocked = exec (rowOf p seq r) { s with ports := s.ports.set p { s.port p with transaction := none } }) ∧
    ((s.port p).identity = some (seq, crc body) →
      clocked = .next { s with ports := s.ports.set p { reloaded with
        replySlot := match (s.port p).replySlot with
          | some x => if x.answer.status = .badFrame then some { x with overrun := true } else some x
          | none => (s.port p).retained.map (fun x => { x with retry := true, overrun := false }) } }) ∧
    ((s.port p).identity ≠ some (seq, crc body) → ∀ x, (s.port p).replySlot = some x →
      clocked = .next { s with ports := s.ports.set p { reloaded with replySlot := some { x with overrun := true } } }) ∧
    ((s.port p).identity ≠ some (seq, crc body) → (s.port p).replySlot = none →
      clocked = .next (takeFrame p frame { s with ports := s.ports.set p reloaded }))

/-- The outbound frames. Event frames (12 R182, R184): byte 0 is the table's L, L + 1 bytes in all, byte 1 is 0x20, byte 2 the record kind, then its fields. Reply frames (12 R182, R183): byte 0 is 4 plus the results plus 1, byte 1 is 0x1 with the sequence, then the code echo, the status, the flags with RETRY in bit 0 and OVERRUN in bit 1, the results and the CRC. The IDLE frame is 0x02, 0x30 and the CRC. The statuses have the values of the table. -/
def Obligations.EventFramesHaveTheirLengths : Prop :=
  (∀ e : EventRecord,
    let kindAndLength : Byte × Nat := match e with
      | .start .. => (0x01, 15)
      | .ended .. => (0x02, 18)
      | .tally .. => (0x03, 36)
      | .bumped .. | .truncated .. => (0x04, 25)
      | .closed .. => (0x08, 11)
      | .lapsed .. => (0x09, 12)
      | .freezeOn .. => (0x0A, 11)
      | .freezeOff .. => (0x0B, 11)
      | .lost .. => (0x0F, 4)
    let body := BitVec.ofNat 8 kindAndLength.2 :: 0x20 :: kindAndLength.1 :: (recordFields e).flatMap fieldBytes
    e.frame.length = kindAndLength.2 + 1 ∧ e.frame = body ++ [crc body]) ∧
  (∀ r : Reply,
    let results := (resultFields r.answer.results).flatMap fieldBytes
    let body := BitVec.ofNat 8 (4 + results.length + 1) :: ((0x1 : BitVec 4) ++ r.seq) :: r.code :: r.answer.status.code ::
      BitVec.ofNat 8 (flagsNumber [r.retry, r.overrun]) :: results
    r.frame.length = 4 + results.length + 2 ∧ r.frame = body ++ [crc body]) ∧
  OutboundItem.idle.frame = [0x02, 0x30] ++ [crc [0x02, 0x30]] ∧
  [Status.ok, .badFrame, .badRequest, .badRange, .wrongTrackKind, .noSession, .sessionOpen, .closing, .noQuota, .quotaFull,
    .noBundleRecord, .tooLate, .tooFar].map (fun st => st.code.toNat) = List.range 0x0D ∧
  [Status.claimed, .triggerUnavailable, .overlap, .conflict, .heldByOthers, .notClaimant, .trackBusy,
    .noSuchWindow].map (fun st => st.code.toNat) = List.range' 0x0E 8

/-- TRANSACTION_BEGIN on a port in service chooses the outbound item: the reply in the slot, else the head record of the queue, else an IDLE frame (12 R173). PnSDO, high impedance before, then shows the item's frame from byte 0, each byte most significant bit first, one bit a clock, and zeros behind it. (That PnSDO is high impedance wherever no transaction is in progress is the model's choice in one case: log entry 26.) -/
def Obligations.TransactionBeginChoosesTheItem : Prop :=
  ∀ (p : Port) (s : State), s.inService p = true → (s.port p).transaction = none →
    (∀ clocks, s.sdo p clocks = .highImpedance) ∧
    ∃ (x : OutboundItem) (t : State), exec (.transactionBegin p) s = .next t ∧
      t = { s with ports := s.ports.set p { s.port p with
        transaction := some { item := x, cleared := false, exchanged := [] } } } ∧
      (∀ r, (s.port p).replySlot = some r → x = .reply r) ∧
      (∀ e es, (s.port p).replySlot = none → (s.port p).queue = e :: es → x = .event e) ∧
      ((s.port p).replySlot = none → (s.port p).queue = [] → x = .idle) ∧
      ∀ clocks, t.sdo p clocks =
        if (x.frame.getD (clocks / 8) 0x00).getLsbD (7 - clocks % 8) = true then .high else .low

/-- TRANSACTION_END of a transaction that carried a reply (12 R173 to R175, 10 R159): a reply fully clocked leaves the slot and becomes the retained reply, unless it is BAD_FRAME; one not fully clocked leaves slot and retained reply as they stand, and so does one cleared by a lapse, the slot being empty or not. Whatever was clocked in is then judged as behind an IDLE frame on the state so settled, in the same change; a NOP reloads the silence timer and does no more. -/
def Obligations.TransactionEndSettlesAReply : Prop :=
  ∀ (p : Port) (chosen : Reply) (cleared : Bool) (earlier : List Byte) (received : List Level) (s : State),
    s.inService p = true →
    (s.port p).transaction = some { item := .reply chosen, cleared, exchanged := earlier } →
    let clocked := chosen.frame.length ≤ (earlier ++ wholeBytes received).length
    (∀ r, (s.port p).replySlot = some r → cleared = false → clocked →
      EndsAs p earlier received s { s.port p with
        replySlot := none
        retained := if r.answer.status = .badFrame then (s.port p).retained else some r }) ∧
    (cleared = true ∨ ¬ clocked → EndsAs p earlier received s (s.port p))

/-- TRANSACTION_END of a transaction that carried an event record (11 R165, R166, 12 R173 to R175, 10 R159): a record fully clocked leaves the head; where that leaves 31 records and the lost count is above 0, a LOST record carrying it is appended and it becomes 0. A record not fully clocked leaves the queue as it stands, and so does one cleared by a lapse, whatever the queue then holds. Whatever was clocked in is then judged as behind an IDLE frame on the state so settled, in the same change; a NOP reloads the silence timer and does no more. -/
def Obligations.TransactionEndConsumesARecord : Prop :=
  ∀ (p : Port) (e : EventRecord) (cleared : Bool) (earlier : List Byte) (received : List Level) (s : State),
    s.inService p = true →
    (s.port p).transaction = some { item := .event e, cleared, exchanged := earlier } →
    let clocked := e.frame.length ≤ (earlier ++ wholeBytes received).length
    (∀ es, (s.port p).queue = e :: es → cleared = false → clocked →
      EndsAs p earlier received s { s.port p with
        queue := if es.length = 31 ∧ 0 < (s.port p).lost then es ++ [.lost (s.port p).lost] else es
        lost := if es.length = 31 then 0 else (s.port p).lost }) ∧
    (cleared = true ∨ ¬ clocked → EndsAs p earlier received s (s.port p))

/-- TRANSACTION_END with a bad frame (12 R175): a length byte outside 3 to 126, or a CRC that differs. It puts a BAD_FRAME reply into an empty slot, with the high four bits of byte 1 as its sequence, and sets OVERRUN on a reply in the slot. No timer is reloaded. Levels of a byte cut short are not counted (12 R173). -/
def Obligations.BadFramesAreAnswered : Prop :=
  ∀ (p : Port) (b0 b1 : Byte) (rest : List Byte) (cleared : Bool) (cut : List Level) (s : State),
    s.inService p = true → cut.length < 8 →
    (s.port p).transaction = some { item := .idle, cleared, exchanged := [] } →
    b0 ≠ 0x00 →
    (b0.toNat < 3 ∨ 126 < b0.toNat ∨
      (b0.toNat < (b0 :: b1 :: rest).length ∧
        crc ((b0 :: b1 :: rest).take b0.toNat) ≠ (b0 :: b1 :: rest).getD b0.toNat 0)) →
    exec (.transactionEnd p ((b0 :: b1 :: rest).flatMap bitLevels ++ cut)) s = .next { s with ports := s.ports.set p { s.port p with
      transaction := none
      replySlot := match (s.port p).replySlot with
        | none => some { seq := b1.extractLsb' 4 4, code := 0x00, answer := { status := .badFrame, results := .none },
                         retry := false, overrun := false }
        | some r => some { r with overrun := true } } }

/-- TRANSACTION_END with no frame or an incomplete one (12 R175): no whole byte; a nonzero byte 0 alone; fewer than L + 1 bytes, a byte cut short not counted (12 R173). It is discarded with no reply, and no timer is reloaded. -/
def Obligations.IncompleteFramesAreDiscarded : Prop :=
  ∀ (p : Port) (received : List Byte) (cleared : Bool) (cut : List Level) (s : State),
    s.inService p = true → cut.length < 8 →
    (s.port p).transaction = some { item := .idle, cleared, exchanged := [] } →
    (received = [] ∨ (∃ b0 : Byte, b0 ≠ 0x00 ∧ received = [b0]) ∨
      ∃ (b0 b1 : Byte) (rest : List Byte), received = b0 :: b1 :: rest ∧ 3 ≤ b0.toNat ∧ b0.toNat ≤ 126 ∧
        received.length < b0.toNat + 1) →
    exec (.transactionEnd p (received.flatMap bitLevels ++ cut)) s =
      .next { s with ports := s.ports.set p { s.port p with transaction := none } }

/-- A well-formed frame that is taken and cannot be carried out (12 R175, R180): a code that names no request is answered BAD_REQUEST in every session state; a known code whose length, member count or CLOSE mode does not fit is refused by the session check of that request first (10 R146, R147), and is else answered BAD_REQUEST. RESERVE_BUNDLE carries the member index of a step that concerns the bundle (12 R183). -/
def Obligations.UnknownCodesAreBadRequests : Prop :=
  ∀ (p : Port) (b1 code : Byte) (operands : List Byte) (cleared : Bool) (fill : List Level) (s : State),
    s.inService p = true →
    (s.port p).transaction = some { item := .idle, cleared, exchanged := [] } →
    (s.port p).replySlot = none → operands.length ≤ 123 →
    let body := BitVec.ofNat 8 (3 + operands.length) :: b1 :: code :: operands
    (s.port p).identity ≠ some (b1.extractLsb' 4 4, crc body) →
    let answered := fun (st : Status) (results : Results) =>
      exec (.transactionEnd p ((body ++ [crc body]).flatMap bitLevels ++ fill)) s = .next { s with
        ports := s.ports.set p { s.port p with
          transaction := none
          silenceTimer := (s.port p).reloadedTimer
          identity := some (b1.extractLsb' 4 4, crc body)
          replySlot := some { seq := b1.extractLsb' 4 4, code, answer := { status := st, results },
                              retry := false, overrun := false } } }
    ((∀ n : RequestName, n.code ≠ code) → answered .badRequest .none) ∧
    ∀ n : RequestName, n.code = code → misfits n operands = true →
      let results : Results := if n = .reserveBundle then .member none none else .none
      let always := [RequestName.readEpoch, .queryPool, .queryTrack]
      ((s.port p).session = .down ∨ (s.port p).session = .lapsed →
        answered (if n ∈ RequestName.openSession :: always then .badRequest else .noSession) results) ∧
      ((s.port p).session = .closing →
        answered (if n ∈ RequestName.close :: .queryWindow :: always then .badRequest else .closing) results) ∧
      ((s.port p).session = .opened → answered (if n = .openSession then .sessionOpen else .badRequest) results)

/-- A retry is answered without execution (12 R176): by the reply in the slot, by the retained reply with RETRY set and OVERRUN clear, or, behind a BAD_FRAME reply, not at all, with OVERRUN set on it. A request that is no retry and meets a full slot is discarded (12 R177): OVERRUN is set, the request identity stays. -/
def Obligations.RetriesAndOverrunsAreNotExecuted : Prop :=
  ∀ (p : Port) (seq : Seq) (r : Request) (s : State), s.inService p = true →
    ((s.port p).identity = some (seq, crc (frameBody seq r)) →
      exec (rowOf p seq r) s = .next { s with ports := s.ports.set p { s.port p with
        silenceTimer := (s.port p).reloadedTimer
        replySlot := match (s.port p).replySlot with
          | some x => if x.answer.status = .badFrame then some { x with overrun := true } else some x
          | none => (s.port p).retained.map (fun x => { x with retry := true, overrun := false }) } }) ∧
    (∀ x, (s.port p).identity ≠ some (seq, crc (frameBody seq r)) → (s.port p).replySlot = some x →
      exec (rowOf p seq r) s = .next { s with ports := s.ports.set p { s.port p with
        silenceTimer := (s.port p).reloadedTimer
        replySlot := some { x with overrun := true } } })

/-- A port out of service takes no frame and begins no transaction (12 R173, R178; the model's reading of the request rows: log entry 9). -/
def Obligations.PortsOutOfServiceTakeNothing : Prop :=
  ∀ (p : Port) (seq : Seq) (r : Request) (received : List Level) (s : State),
    s.resetHeld = true ∨ (s.port p).resetHeld = true →
    exec (rowOf p seq r) s = .next s ∧ exec (.transactionBegin p) s = .next s ∧
      exec (.transactionEnd p received) s = .next s

/-! ### Sessions -/

/-- The requests a session state refuses (10 R146, R147, R150, 02 R24, 05 R75, 06 R91, R94, 07 R117), before any look at their operands: the reply is the whole of their effect. RESERVE_BUNDLE carries the member index of a step that concerns the bundle (12 R183). -/
def Obligations.SessionStateRefusesRequests : Prop :=
  ∀ (p : Port) (seq : Seq) (r : Request) (s : State), Fresh p seq r s →
    let refuse := fun (st : Status) => exec (rowOf p seq r) s = .next (s.answered p seq r
      { status := st, results := if requestName r = .reserveBundle then .member none none else .none })
    (((s.port p).session = .down ∨ (s.port p).session = .lapsed) →
      requestName r ∉ [.openSession, .readEpoch, .queryPool, .queryTrack] → refuse .noSession) ∧
    ((s.port p).session = .closing →
      requestName r ∉ [.close, .readEpoch, .queryPool, .queryTrack, .queryWindow] ∨ r = .closeGraceful →
      refuse .closing) ∧
    ((s.port p).session = .opened → requestName r = .openSession → refuse .sessionOpen)

/-- OPEN in DOWN or LAPSED (10 R147, R148): granted where quota and silence limit are in range and the quotas in use leave room; else BAD_RANGE, or NO_QUOTA with the quota available. -/
def Obligations.OpenIsJudged : Prop :=
  ∀ (p : Port) (seq : Seq) (quota : Byte) (silence : BitVec 16) (s : State),
    Fresh p seq (.openSession quota silence) s →
    (s.port p).session = .down ∨ (s.port p).session = .lapsed →
    let range := 1 ≤ quota.toNat ∧ quota.toNat ≤ 192 ∧ 1 ≤ silence.toNat ∧ silence.toNat ≤ 4095
    (¬ range → exec (.openSession p seq quota silence) s = .next
      (s.answered p seq (.openSession quota silence) { status := .badRange, results := .none })) ∧
    (range → 192 < s.quotasInUse + quota.toNat → exec (.openSession p seq quota silence) s = .next
      (s.answered p seq (.openSession quota silence)
        { status := .noQuota, results := .quotaAvailable (192 - s.quotasInUse) })) ∧
    (range → s.quotasInUse + quota.toNat ≤ 192 → exec (.openSession p seq quota silence) s = .next
      (({ s with ports := s.ports.set p { s.port p with
          session := .opened
          quota := quota.toNat
          held := 0
          silenceLimit := some silence.toNat
          silenceTimer := some (silence.toNat * 65536)
          bundles := Vector.replicate 8 none } }).answered p seq (.openSession quota silence)
        (okAnswer (.opened s.epoch s.freeze quota.toNat silence.toNat))))

/-- CLOSE GRACEFUL in OPEN (10 R151): PENDING windows and bundles are removed without a record; with no ACTIVE window the session goes to DOWN with CLOSED and releases its claims, else it becomes CLOSING with its ACTIVE windows running. (A lane whose PENDING handover successor goes becomes IDLE: the model's reading, log entry 13.) -/
def Obligations.CloseGracefulRemovesPendingWindows : Prop :=
  ∀ (p : Port) (seq : Seq) (s : State), Lawful s → Fresh p seq .closeGraceful s → (s.port p).session = .opened →
    let removed := (s.owned p).filter (fun w => decide (w.state = .pending))
    let running := (s.owned p).filter (fun w => decide (w.state = .active))
    let u := { s.port p with held := running.length, bundles := (s.port p).bundlesWithout removed }
    ∃ t, exec (.closeGraceful p seq) s = .next t ∧ Left s t removed p ∧
      ClaimsReleased s t p running.isEmpty ∧
      (running = [] → t.port p = (u.closedDown s.epoch).answered seq .closeGraceful
        (okAnswer (.closedGraceful .down removed.length 0))) ∧
      (running ≠ [] → t.port p = ({ u with session := .closing }).answered seq .closeGraceful
        (okAnswer (.closedGraceful .closing removed.length running.length)))

/-- CLOSE ABRUPT in OPEN or CLOSING (10 R153): every window, bundle, trigger reference and claim of the port goes at once, without a window record, and CLOSED is posted. (A lane whose PENDING handover successor goes becomes IDLE: the model's reading, log entry 13.) (A lane keeps its level into a bundle member that starts at this epoch value and still waits: the model's choice, log entry 28.) -/
def Obligations.CloseAbruptTearsDownTheSession : Prop :=
  ∀ (p : Port) (seq : Seq) (s : State), Lawful s → Fresh p seq .closeAbrupt s → (s.port p).inSession = true →
    ∃ t, exec (.closeAbrupt p seq) s = .next t ∧ Left s t (s.owned p) p ∧ ClaimsReleased s t p true ∧
      t.port p = (({ s.port p with held := 0, bundles := Vector.replicate 8 none }).closedDown s.epoch).answered seq .closeAbrupt
        (okAnswer (.closedAbrupt (s.owned p).length s.epoch))

/-- SILENCE_TIMER_EXPIRY of a session whose timer stands at 0 (10 R156, R158): the session lapses, its queue holds LAPSED alone. (A lane whose PENDING handover successor goes becomes IDLE: the model's reading, log entry 13.) (A lane keeps its level into a bundle member that starts at this epoch value and still waits: the model's choice, log entry 28.) -/
def Obligations.SilenceExpiryLapsesTheSession : Prop :=
  ∀ (p : Port) (s : State), Lawful s → s.resetHeld = false → (s.port p).silenceTimer = some 0 →
    ∃ t, exec (.silenceTimerExpiry p) s = .next t ∧ Left s t (s.owned p) p ∧ ClaimsReleased s t p true ∧
      t.port p = (s.port p).lapsed s.epoch .silence

/-- PORT_RESET_ASSERT (10 R157, R158, 12 R178): an OPEN or CLOSING session lapses with cause PORT_RESET; in DOWN and LAPSED nothing but the link state changes. The link is cleared, a transaction abandoned, and the port out of service until PORT_RESET_RELEASE, which changes nothing else. An assertion while the reset is held has no further effect. (A lane whose PENDING handover successor goes becomes IDLE: the model's reading, log entry 13.) (A lane keeps its level into a bundle member that starts at this epoch value and still waits: the model's choice, log entry 28.) -/
def Obligations.PortResetClearsTheLink : Prop :=
  ∀ (p : Port) (s : State),
    (exec (.portResetRelease p) s = .next { s with ports := s.ports.set p { s.port p with resetHeld := false } }) ∧
    ((s.port p).resetHeld = true → exec (.portResetAssert p) s = .next s) ∧
    (Lawful s → (s.port p).resetHeld = false → (s.port p).inSession = true →
      ∃ t, exec (.portResetAssert p) s = .next t ∧ Left s t (s.owned p) p ∧ ClaimsReleased s t p true ∧
        t.port p = { (s.port p).lapsed s.epoch .portReset with transaction := none, resetHeld := true }) ∧
    ((s.port p).resetHeld = false → (s.port p).inSession = false →
      exec (.portResetAssert p) s = .next { s with ports := s.ports.set p { s.port p with
        transaction := none, replySlot := none, retained := none, identity := none, resetHeld := true } })

/-- READ_EPOCH and QUERY_POOL in every session state (09 R144, 10 R161): one snapshot in the reply, and nothing else changes. -/
def Obligations.EpochAndPoolAreReported : Prop :=
  ∀ (p : Port) (seq : Seq) (s : State),
    (Fresh p seq .readEpoch s → exec (.readEpoch p seq) s = .next
      (s.answered p seq .readEpoch (okAnswer (.epochRead s.epoch s.freeze s.divider)))) ∧
    (Fresh p seq .queryPool s → exec (.queryPool p seq) s = .next
      (s.answered p seq .queryPool (okAnswer (.pool
        (192 - ((s.port 0).held + (s.port 1).held + (s.port 2).held + (s.port 3).held))
        ((s.port 0).quota + (s.port 1).quota + (s.port 2).quota + (s.port 3).quota)
        (s.port p).session (s.port p).held (s.port p).quota
        ((List.finRange 8).filter (fun b => decide (s.bundle p b = none))).length))))

/-! ### Claims and lanes -/

/-- QUERY_TRACK in every session state (06 R99): the claimant, the number of windows, the head's start, the summed trigger references of a sense track, the attributes of a lane; BAD_RANGE for a track above 23. -/
def Obligations.TracksAreReported : Prop :=
  ∀ (p : Port) (seq : Seq) (b : Byte) (s : State), Fresh p seq (.queryTrack b) s →
    (24 ≤ b.toNat → exec (.queryTrack p seq b) s = .next
      (s.answered p seq (.queryTrack b) { status := .badRange, results := .none })) ∧
    (∀ l : Lane, b.toNat = l.val → exec (.queryTrack p seq b) s = .next
      (s.answered p seq (.queryTrack b) (okAnswer (.trackReport (s.claimant (laneTrack l))
        (s.trackList (laneTrack l)).length ((s.trackList (laneTrack l)).head?.map Window.start) none
        (some ((s.lane l).polarity, (s.lane l).idleDrive)))))) ∧
    (∀ k : Sense, b.toNat = 16 + k.val → exec (.queryTrack p seq b) s = .next
      (s.answered p seq (.queryTrack b) (okAnswer (.trackReport (s.claimant (senseTrack k))
        (s.trackList (senseTrack k)).length ((s.trackList (senseTrack k)).head?.map Window.start)
        (some (s.refs k 0 + s.refs k 1 + s.refs k 2 + s.refs k 3)) none))))

/-- CLAIM in OPEN (06 R91, R92): BAD_RANGE; OK unchanged for the claimant; CLAIMED; HELD_BY_OTHERS for another port's window or trigger reference; else the port becomes the claimant. -/
def Obligations.ClaimIsJudged : Prop :=
  ∀ (p : Port) (seq : Seq) (b : Byte) (s : State), Fresh p seq (.claim b) s → (s.port p).session = .opened →
    let reply := fun (st : Status) => s.answered p seq (.claim b) { status := st, results := .none }
    (24 ≤ b.toNat → exec (.claim p seq b) s = .next (reply .badRange)) ∧
    ∀ t : Track, b.toNat = t.val →
      let held := (∃ w ∈ s.windows, w.track = t ∧ w.owner ≠ p) ∨
        ∃ (k : Sense) (q : Port), t = senseTrack k ∧ q ≠ p ∧ 0 < s.refs k q
      (s.claimant t = some p → exec (.claim p seq b) s = .next (reply .ok)) ∧
      (∀ q, q ≠ p → s.claimant t = some q → exec (.claim p seq b) s = .next (reply .claimed)) ∧
      (s.claimant t = none → held → exec (.claim p seq b) s = .next (reply .heldByOthers)) ∧
      (s.claimant t = none → ¬ held → exec (.claim p seq b) s = .next
        (({ s with claimants := s.claimants.set t (some p) }).answered p seq (.claim b) { status := .ok, results := .none }))

/-- RELEASE in OPEN (06 R94): BAD_RANGE; NOT_CLAIMANT; else the track is open. -/
def Obligations.ReleaseIsJudged : Prop :=
  ∀ (p : Port) (seq : Seq) (b : Byte) (s : State), Fresh p seq (.release b) s → (s.port p).session = .opened →
    let reply := fun (st : Status) => s.answered p seq (.release b) { status := st, results := .none }
    (24 ≤ b.toNat → exec (.release p seq b) s = .next (reply .badRange)) ∧
    ∀ t : Track, b.toNat = t.val →
      (s.claimant t ≠ some p → exec (.release p seq b) s = .next (reply .notClaimant)) ∧
      (s.claimant t = some p → exec (.release p seq b) s = .next
        (({ s with claimants := s.claimants.set t none }).answered p seq (.release b) { status := .ok, results := .none }))

/-- SET_LANE in OPEN (07 R117 to R119): a polarity or idle drive outside its list is BAD_REQUEST; a lane above 15 BAD_RANGE; a lane claimed by another port CLAIMED; an open lane with a window TRACK_BUSY; else both attributes are set, and the drive state stays. -/
def Obligations.SetLaneIsJudged : Prop :=
  ∀ (p : Port) (seq : Seq) (b pol idl : Byte) (s : State),
    Fresh p seq (.setLane b pol idl) s → (s.port p).session = .opened →
    let reply := fun (st : Status) => s.answered p seq (.setLane b pol idl) { status := st, results := .none }
    let attributes := fun (l : Lane) =>
      ({ polarity := if pol.toNat = 0 then .activeHigh else .activeLow
         idleDrive := if idl.toNat = 0 then .inactive else if idl.toNat = 1 then .active else .float
         drive := (s.lane l).drive } : LaneDriver)
    (1 < pol.toNat ∨ 2 < idl.toNat → exec (.setLane p seq b pol idl) s = .next (reply .badRequest)) ∧
    (pol.toNat ≤ 1 → idl.toNat ≤ 2 →
      (16 ≤ b.toNat → exec (.setLane p seq b pol idl) s = .next (reply .badRange)) ∧
      ∀ l : Lane, b.toNat = l.val →
        (∀ q, q ≠ p → s.claimant (laneTrack l) = some q → exec (.setLane p seq b pol idl) s = .next (reply .claimed)) ∧
        (s.claimant (laneTrack l) = none → s.trackList (laneTrack l) ≠ [] →
          exec (.setLane p seq b pol idl) s = .next (reply .trackBusy)) ∧
        (s.claimant (laneTrack l) = some p ∨ (s.claimant (laneTrack l) = none ∧ s.trackList (laneTrack l) = []) →
          exec (.setLane p seq b pol idl) s = .next
            (({ s with lanes := s.lanes.set l (attributes l) }).answered p seq (.setLane b pol idl)
              { status := .ok, results := .none })))

/-- The pin level of a lane (07 R103, R104): by drive state, idle drive and polarity; low while RESETn is asserted. -/
def Obligations.PinLevelFollowsTheLane : Prop :=
  ∀ (s : State) (l : Lane),
    (s.resetHeld = true → s.lanePin l = .low) ∧
    (s.resetHeld = false →
      let high := (s.lane l).polarity = .activeHigh
      ((s.lane l).drive = .active → s.lanePin l = if high then .high else .low) ∧
      ((s.lane l).drive = .inactive → s.lanePin l = if high then .low else .high) ∧
      ((s.lane l).drive = .idle → (s.lane l).idleDrive = .active → s.lanePin l = if high then .high else .low) ∧
      ((s.lane l).drive = .idle → (s.lane l).idleDrive = .inactive → s.lanePin l = if high then .low else .high) ∧
      ((s.lane l).drive = .idle → (s.lane l).idleDrive = .float → s.lanePin l = .highImpedance))

/-- The levels of the shapes (07 R107, R108). STEADY is ACTIVE at every phase; TRAIN is ACTIVE where the phase's remainder on P is below D, so INACTIVE throughout for D = 0 and ACTIVE throughout for D at or above P. TOGGLE is at its initial level in interval number q of I ticks for even q and at the opposite level for odd q; where it starts ACTIVE it shows the levels of a TRAIN with period 2 I and active time I. -/
def Obligations.ShapesShowTheirLevels : Prop :=
  ∀ (run : RunTime) (phase : Nat) (P D I : BitVec 16) (initial : ShapeLevel) (q r : Nat), 2 ≤ P.toNat → 1 ≤ I.toNat →
    shapeLevel .steady run phase = .active ∧
      (phase % P.toNat < D.toNat → shapeLevel (.train P D) run phase = .active) ∧
      (D.toNat ≤ phase % P.toNat → shapeLevel (.train P D) run phase = .inactive) ∧
      (D.toNat = 0 → shapeLevel (.train P D) run phase = .inactive) ∧
      (P.toNat ≤ D.toNat → shapeLevel (.train P D) run phase = .active) ∧
      (r < I.toNat → shapeLevel (.toggle I initial) run (q * I.toNat + r) =
        (if q % 2 = 0 then initial else if initial = .active then .inactive else .active)) ∧
      (2 * I.toNat < 2 ^ 16 → shapeLevel (.toggle I .active) run phase =
        shapeLevel (.train (BitVec.ofNat 16 (2 * I.toNat)) I) run phase)

/-! ### Admission -/

/-- Member descriptors of every kind and shape, laid out as the manual's table gives them, are read as the shapes they spell (12 R181, 02 R25): within their ranges, on a track of their kind, with priority 0 to 3 and no notify flag besides the two. -/
def Obligations.MemberDescriptorsAreRead : Prop :=
  ∀ (b : Booking) (pr : Fin 4) (t : Track) (sh : Shape),
    b.priority.toNat = pr.val → b.notify.toNat ≤ 3 → kindFits t sh = true → sh.inRange = true →
    let edgeCode : EdgeKind → Byte := fun e => match e with | .rise => 0x01 | .fall => 0x02 | .both => 0x03
    let tb : Byte := BitVec.ofNat 8 t.val
    let d : Descriptor := match sh with
      | .steady => ⟨tb, 0x01, 0, 0, 0, 0, 0, 0, 0, 0⟩
      | .train P D => ⟨tb, 0x02, P.extractLsb' 8 8, P.extractLsb' 0 8, D.extractLsb' 8 8, D.extractLsb' 0 8, 0, 0, 0, 0⟩
      | .toggle I l => ⟨tb, 0x03, I.extractLsb' 8 8, I.extractLsb' 0 8, if l = .active then 0x01 else 0x00, 0, 0, 0, 0, 0⟩
      | .triggered k e W N => ⟨tb, 0x04, BitVec.ofNat 8 k.val, edgeCode e, W.extractLsb' 8 8, W.extractLsb' 0 8, N, 0, 0, 0⟩
      | .tally e none => ⟨tb, 0x08, edgeCode e, 0x00, 0, 0, 0, 0, 0, 0⟩
      | .tally e (some l) =>
        ⟨tb, 0x08, edgeCode e, 0x01, l.extractLsb' 16 8, l.extractLsb' 8 8, l.extractLsb' 0 8, 0, 0, 0⟩
    judgeMember b d = .ok
      { track := t, shape := sh, priority := pr, noteStart := b.notify.getLsbD 0, noteEnd := b.notify.getLsbD 1 }

/-- How a member descriptor is judged (02 R25, 01 R1, R6, 12 R180, R181): first its form (a kind and shape of the table, codes of the table, zero in every place the shape does not use, no third notify flag) or BAD_REQUEST; then its values (track 0 to 23, priority 0 to 3, the ranges of the shape parameters) or BAD_RANGE; then TALLY on a sense track and the other shapes on a lane, or WRONG_TRACK_KIND; else it stands. -/
def Obligations.MemberDescriptorsAreJudgedInThreeParts : Prop :=
  ∀ (b : Booking) (d : Descriptor),
    let unused : List Byte := [d.b7, d.b8, d.b9] ++
      (if d.kind.toNat = 1 then [d.b2, d.b3, d.b4, d.b5, d.b6] else if d.kind.toNat = 2 then [d.b6]
        else if d.kind.toNat = 3 then [d.b5, d.b6]
        else if d.kind.toNat = 8 ∧ d.b3.toNat = 0 then [d.b4, d.b5, d.b6] else [])
    let badForm : Prop := 3 < b.notify.toNat ∨ d.kind.toNat ∉ [1, 2, 3, 4, 8] ∨ (∃ x ∈ unused, x.toNat ≠ 0) ∨
      (d.kind.toNat = 3 ∧ 1 < d.b4.toNat) ∨ (d.kind.toNat = 4 ∧ d.b3.toNat ∉ [1, 2, 3]) ∨
      (d.kind.toNat = 8 ∧ (d.b2.toNat ∉ [1, 2, 3] ∨ 1 < d.b3.toNat))
    let badValue : Prop := 23 < d.track.toNat ∨ 3 < b.priority.toNat ∨
      (d.kind.toNat = 2 ∧ d.b2.toNat = 0 ∧ d.b3.toNat < 2) ∨ (d.kind.toNat = 3 ∧ d.b2.toNat = 0 ∧ d.b3.toNat = 0) ∨
      (d.kind.toNat = 4 ∧ (7 < d.b2.toNat ∨ (d.b4.toNat = 0 ∧ d.b5.toNat = 0) ∨ d.b6.toNat = 0)) ∨
      (d.kind.toNat = 8 ∧ d.b3.toNat = 1 ∧ d.b4.toNat = 0 ∧ d.b5.toNat = 0 ∧ d.b6.toNat = 0)
    let wrongKind : Prop := (d.kind.toNat = 8 ∧ d.track.toNat < 16) ∨ (d.kind.toNat ≠ 8 ∧ 16 ≤ d.track.toNat)
    (badForm → judgeMember b d = .error .badRequest) ∧
    (¬ badForm → badValue → judgeMember b d = .error .badRange) ∧
    (¬ badForm → ¬ badValue → wrongKind → judgeMember b d = .error .wrongTrackKind) ∧
    (¬ badForm → ¬ badValue → ¬ wrongKind → ∃ m, judgeMember b d = .ok m ∧
      m.track.val = d.track.toNat ∧ m.priority.val = b.priority.toNat)

/-- A refused RESERVE is answered with the status of the first check that fails, and its reply is the whole of its effect (02 R23 to R32). -/
def Obligations.ReserveIsRefusedByTheFirstCheck : Prop :=
  ∀ (p : Port) (seq : Seq) (b : Booking) (d : Descriptor) (s : State),
    Fresh p seq (.reserve b d) s → (s.port p).session = .opened →
    (∀ st, judgeMember b d = .error st → exec (.reserve p seq b d) s = .next
      (s.answered p seq (.reserve b d) { status := st, results := .none })) ∧
    ∀ m, judgeMember b d = .ok m → ∀ c, (s.reserveChecks p b m).find? (fun c => c.1) = some c →
      exec (.reserve p seq b d) s = .next (s.answered p seq (.reserve b d) c.2)

/-- A RESERVE that passes every check (02 R33 to R36, 03 R42 to R53): the lower-priority windows of other ports in its way are bumped or truncated, each told to its owner; the lowest free slot is taken with its use count advanced, the record filled and inserted, the held count and a trigger reference raised; the reply carries the handle. -/
def Obligations.ReserveAdmitsTheWindow : Prop :=
  ∀ (p : Port) (seq : Seq) (b : Booking) (d : Descriptor) (m : Member) (s : State),
    Lawful s → Fresh p seq (.reserve b d) s → (s.port p).session = .opened →
    judgeMember b d = .ok m → Admissible s p b [m] →
    ∃ (t : State) (w : Window), exec (.reserve p seq b d) s = .next t ∧
      w = bookedWindow p b m none w.slot (s.useCount w.slot + 1) ∧
      Admitted s t p m.priority b.start (s.displaced p m.priority [m.track] b.start b.stop) [w] ∧
      t.port p = ({ s.port p with held := (s.port p).held + 1 }).answered seq (.reserve b d)
        (okAnswer (.reserved (BitVec.ofNat 16 (256 * (s.useCount w.slot + 1).toNat + w.slot.val))))

/-- A refused RESERVE_BUNDLE is answered with the status of the first step that any member fails and the lowest index that fails it, 0xFF for a step that concerns the bundle; its reply is the whole of its effect (04 R60 to R64). Step 2b judges each member in order: a limit off the leader, a track that a lower-numbered member names, then form, range and track kind (04 R61). (A bad notify flag or priority, which all members share, is reported at index 0: the model's reading, log entry 11.) -/
def Obligations.ReserveBundleIsRefusedByTheFirstStep : Prop :=
  ∀ (p : Port) (seq : Seq) (b : Booking) (ds : List Descriptor) (s : State),
    Fresh p seq (.reserveBundle b ds) s → (s.port p).session = .opened →
    let reply := fun (st : Status) (i : Option Nat) (v : Option Epoch) => s.answered p seq (.reserveBundle b ds)
      { status := st, results := .member i v }
    (ds = [] ∨ 8 < ds.length → exec (.reserveBundle p seq b ds) s = .next (reply .badRequest none none)) ∧
    (ds ≠ [] → ds.length ≤ 8 →
      (∀ i st, memberFailure b ds i = some st → (∀ j, j < i → memberFailure b ds j = none) →
        exec (.reserveBundle p seq b ds) s = .next (reply st (some i) none)) ∧
      ∀ ms, MembersPass b ds ms → ∀ c, (s.bundleSteps p b ms).find? (fun c => c.1) = some c →
        exec (.reserveBundle p seq b ds) s = .next (reply c.2.1 c.2.2.1 c.2.2.2))

/-- A RESERVE_BUNDLE that passes every step (04 R64): as RESERVE on every member track in one change; the members take the lowest free slots in member order, the lowest free bundle record is filled, and the reply carries its number and the handles. -/
def Obligations.ReserveBundleAdmitsEveryMember : Prop :=
  ∀ (p : Port) (seq : Seq) (b : Booking) (ds : List Descriptor) (ms : List Member) (s : State),
    Lawful s → Fresh p seq (.reserveBundle b ds) s → (s.port p).session = .opened →
    ds ≠ [] → ds.length ≤ 8 → MembersPass b ds ms → Admissible s p b ms →
    (∃ n : BundleNo, s.bundle p n = none) →
    ∃ (t : State) (n : BundleNo) (pr : Fin 4) (ws : List Window), exec (.reserveBundle p seq b ds) s = .next t ∧
      s.bundle p n = none ∧ (∀ n', n' < n → s.bundle p n' ≠ none) ∧
      b.priority.toNat = pr.val ∧ (∀ m ∈ ms, m.priority = pr) ∧
      ws = (ms.zip (ws.map Window.slot)).mapIdx (fun i x =>
        bookedWindow p b x.1 (some { number := n, leader := decide (i = 0) }) x.2 (s.useCount x.2 + 1)) ∧
      ws.length = ms.length ∧
      Admitted s t p pr b.start (s.displaced p pr (ms.map Member.track) b.start b.stop) ws ∧
      t.port p = ({ s.port p with
          held := (s.port p).held + ws.length
          bundles := (s.port p).bundles.set n
            (some { handles := ws.map Window.handle, start := b.start, stop := b.stop, state := .pending }) }).answered
        seq (.reserveBundle b ds) (okAnswer (.bundled n (ws.map Window.handle)))

/-! ### Cancelling and amending -/

/-- CANCEL, AMEND_END and QUERY_WINDOW with a handle that names no window of the port are answered NO_SUCH_WINDOW and change nothing (01 R9, 05 R75). -/
def Obligations.UnresolvedHandlesNameNoWindow : Prop :=
  ∀ (p : Port) (seq : Seq) (h : Handle) (newEnd : Epoch) (s : State), Lawful s →
    (∀ w ∈ s.windows, w.owner = p → h.toNat ≠ 256 * w.useCount.toNat + w.slot.val) →
    (Fresh p seq (.cancel h) s → (s.port p).session = .opened → exec (.cancel p seq h) s = .next
      (s.answered p seq (.cancel h) { status := .noSuchWindow, results := .none })) ∧
    (Fresh p seq (.amendEnd h newEnd) s → (s.port p).session = .opened → exec (.amendEnd p seq h newEnd) s = .next
      (s.answered p seq (.amendEnd h newEnd) { status := .noSuchWindow, results := .none })) ∧
    (Fresh p seq (.queryWindow h) s → (s.port p).inSession = true → exec (.queryWindow p seq h) s = .next
      (s.answered p seq (.queryWindow h) { status := .noSuchWindow, results := .none }))

/-- QUERY_WINDOW of an own window in OPEN or CLOSING reports it as it stands (05 R86). -/
def Obligations.WindowsAreReported : Prop :=
  ∀ (p : Port) (seq : Seq) (w : Window) (s : State), Lawful s → Fresh p seq (.queryWindow w.handle) s →
    (s.port p).inSession = true → w ∈ s.windows → w.owner = p →
    exec (.queryWindow p seq w.handle) s = .next (s.answered p seq (.queryWindow w.handle)
      (okAnswer (.windowReport w.state w.start w.stop w.track w.priority w.bundleNo)))

/-- CANCEL of a PENDING window removes it, or its whole bundle, without a record (05 R76, 04 R71). (A lane whose PENDING handover successor goes becomes IDLE: the model's reading, log entry 13.) -/
def Obligations.CancelRemovesAPendingWindow : Prop :=
  ∀ (p : Port) (seq : Seq) (w : Window) (s : State), Lawful s → Fresh p seq (.cancel w.handle) s →
    (s.port p).session = .opened → w ∈ s.windows → w.owner = p → w.state = .pending →
    let ws := s.wholeOf w
    ∃ t, exec (.cancel p seq w.handle) s = .next t ∧ Left s t ws p ∧ t.claimants = s.claimants ∧
      t.port p = ({ s.port p with
          held := (s.port p).held - ws.length, bundles := (s.port p).bundlesWithout ws }).answered
        seq (.cancel w.handle) (okAnswer (.removed ws.length))

/-- CANCEL of an ACTIVE window ends it, or its whole bundle, at this epoch with reason CANCELLED; the records of a bundle stand in some order (05 R77, 04 R72). (A lane keeps its level into a bundle member that starts at this epoch value and still waits: the model's choice, log entry 28.) -/
def Obligations.CancelEndsAnActiveWindow : Prop :=
  ∀ (p : Port) (seq : Seq) (w : Window) (s : State), Lawful s → Fresh p seq (.cancel w.handle) s →
    (s.port p).session = .opened → w ∈ s.windows → w.owner = p → w.state = .active →
    let ws := s.wholeOf w
    ∃ (t : State) (rs : List EventRecord), exec (.cancel p seq w.handle) s = .next t ∧ Left s t ws p ∧
      t.claimants = s.claimants ∧ rs.Perm (ws.flatMap (endRecords s.epoch .cancelled)) ∧
      t.port p = ({ (s.port p).appendAll rs with
          held := (s.port p).held - ws.length, bundles := (s.port p).bundlesWithout ws }).answered
        seq (.cancel w.handle) (okAnswer (.ended ws.length s.epoch))

/-- A refused AMEND_END is answered with the status of the first step that fails, the lowest member index for OVERLAP and CONFLICT, and changes nothing (05 R79, R81). -/
def Obligations.AmendEndIsRefusedByTheFirstStep : Prop :=
  ∀ (p : Port) (seq : Seq) (w : Window) (newEnd : Epoch) (s : State),
    Lawful s → Fresh p seq (.amendEnd w.handle newEnd) s → (s.port p).session = .opened →
    w ∈ s.windows → w.owner = p →
    ∀ c, (s.amendSteps p w newEnd).find? (fun c => c.1) = some c →
      exec (.amendEnd p seq w.handle newEnd) s = .next (s.answered p seq (.amendEnd w.handle newEnd) c.2)

/-- AMEND_END that passes every step sets the new end in every member and in the bundle record, in one change, and posts nothing (05 R80 to R82). The lanes keep what they show (where the end was due at this very epoch value, the model shows each amended window's level at this phase: log entry 12). -/
def Obligations.AmendEndMovesTheEnd : Prop :=
  ∀ (p : Port) (seq : Seq) (w : Window) (newEnd : Epoch) (s : State),
    Lawful s → Fresh p seq (.amendEnd w.handle newEnd) s → (s.port p).session = .opened →
    w ∈ s.windows → w.owner = p →
    w.start.toNat < newEnd.toNat → s.epoch.toNat + 64 ≤ newEnd.toNat → newEnd.toNat ≤ w.start.toNat + 2 ^ 40 →
    (w.stop < newEnd → ∀ v ∈ s.wholeOf w, ∀ x ∈ s.trackList v.track, x.slot ≠ v.slot →
      intersects x.start x.stop v.stop newEnd = false) →
    let ws := s.wholeOf w
    ∃ t, exec (.amendEnd p seq w.handle newEnd) s = .next t ∧
      t.windows = s.windows.map (fun v => if v.among ws then { v with stop := newEnd } else v) ∧
      t.useCounts = s.useCounts ∧ t.claimants = s.claimants ∧ t.trigRefs = s.trigRefs ∧ t.tallies = s.tallies ∧
      (s.epoch < w.stop → t.lanes = s.lanes) ∧
      (w.stop ≤ s.epoch → ∀ l, t.lane l = match ws.find? (fun v => decide (v.track = laneTrack l)) with
        | some v => { s.lane l with drive := (shapeLevel v.shape v.run (s.epoch.toNat - v.start.toNat)).drive }
        | none => s.lane l) ∧
      (∀ l, (t.lane l).polarity = (s.lane l).polarity ∧ (t.lane l).idleDrive = (s.lane l).idleDrive) ∧
      SameTimebase s t ∧ (∀ q, q ≠ p → t.port q = s.port q) ∧
      t.port p = ({ s.port p with bundles := Vector.ofFn (fun n : BundleNo =>
          if w.bundleNo = some n then ((s.port p).bundles[n]).map (fun (r : BundleRecord) => { r with stop := newEnd })
          else (s.port p).bundles[n]) }).answered
        seq (.amendEnd w.handle newEnd) (okAnswer (.amended newEnd))

/-- FLUSH in OPEN (05 R84, 12 R180): 0x80 to 0xFE is BAD_REQUEST, 24 to 127 BAD_RANGE; a track or ALL removes the port's PENDING windows there with their whole bundles, without a record. (A lane whose PENDING handover successor goes becomes IDLE: the model's reading, log entry 13.) -/
def Obligations.FlushRemovesPendingWindows : Prop :=
  ∀ (p : Port) (seq : Seq) (b : Byte) (s : State), Lawful s → Fresh p seq (.flush b) s → (s.port p).session = .opened →
    (0x80 ≤ b.toNat → b.toNat ≤ 0xFE → exec (.flush p seq b) s = .next
      (s.answered p seq (.flush b) { status := .badRequest, results := .none })) ∧
    (24 ≤ b.toNat → b.toNat < 0x80 → exec (.flush p seq b) s = .next
      (s.answered p seq (.flush b) { status := .badRange, results := .none })) ∧
    (b.toNat < 24 ∨ b.toNat = 0xFF →
      let ws := s.windows.filter (fun w => decide (w.owner = p) && decide (w.state = .pending) &&
        (s.wholeOf w).any (fun v => decide (b.toNat = 0xFF) || decide (v.track.val = b.toNat)))
      ∃ t, exec (.flush p seq b) s = .next t ∧ Left s t ws p ∧ t.claimants = s.claimants ∧
        t.port p = ({ s.port p with
            held := (s.port p).held - ws.length, bundles := (s.port p).bundlesWithout ws }).answered
          seq (.flush b) (okAnswer (.flushed ws.length)))

/-! ### Resets and the timebase -/

/-- RESETN_ASSERT, and RESETN_RELEASE after it, leave every block at its reset values (01 R19, 04 R58, 06 R89, 07 R104, 08 R122, 09 R138, 10 R146, 11 R162, 12 R172); the release latches the divider, takes the level of FREEZE and the levels of the SENSE pins. What the asserted reset keeps of divider, freeze state and seen levels, and the level of PnRSTn, is the model's choice: log entry 17. -/
def Obligations.FullResetClearsThePart : Prop :=
  ∀ (tdiv1 tdiv0 freeze : Level) (sense : Byte) (s : State),
    let cleared := fun (t : State) =>
      t.windows = [] ∧ (∀ i, t.useCount i = 0) ∧ (∀ x, t.claimant x = none) ∧ (∀ k p, t.refs k p = 0) ∧
        (∀ l, t.lane l = { polarity := .activeHigh, idleDrive := .inactive, drive := .idle } ∧ t.lanePin l = .low) ∧
        (∀ k, (t.tally k).counting = none ∧ (t.tally k).hold = none ∧ (t.tally k).carried = 0) ∧
        t.epoch = 0 ∧ t.progress = 0 ∧ t.pending = s.pending ∧
        ∀ p, t.attention p = false ∧ t.port p =
          { session := .down, quota := 0, held := 0, silenceLimit := none, silenceTimer := none,
            bundles := Vector.replicate 8 none, queue := [], lost := 0, transaction := none, replySlot := none,
            retained := none, identity := none, resetHeld := (s.port p).resetHeld }
    (∃ t, exec .resetnAssert s = .next t ∧ cleared t ∧ t.resetHeld = true) ∧
    (s.resetHeld = true → ∃ t, exec (.resetnRelease tdiv1 tdiv0 freeze sense) s = .next t ∧ cleared t ∧
      t.resetHeld = false ∧
      t.divider.periods = (if tdiv1 = .high then 4 else 1) * (if tdiv0 = .high then 2 else 1) ∧
      t.freeze = (if freeze = .high then .held else .running) ∧
      ∀ k, (t.tally k).seen = if sense.getLsbD k.val then .high else .low)

/-- FREEZE_ASSERT while RUNNING and FREEZE_RELEASE while HELD (09 R140, R141): the freeze state changes, partial tick progress is discarded, and FREEZE_ON or FREEZE_OFF with the held epoch is appended to the queue of every OPEN or CLOSING port; the epoch stays. A level that is no change has no effect. (That an assertion is taken ahead of a start or end that is due is the model's choice: log entry 27.) -/
def Obligations.FreezeChangesFanOut : Prop :=
  ∀ s : State, s.resetHeld = false →
    let told := fun (r : EventRecord) => s.ports.map (fun u =>
      if u.session = .opened ∨ u.session = .closing then u.append r else u)
    (s.freeze = .running → exec .freezeAssert s = .next
      { s with freeze := .held, progress := 0, ports := told (.freezeOn s.epoch) }) ∧
    (s.freeze = .held → exec .freezeRelease s = .next
      { s with freeze := .running, progress := 0, ports := told (.freezeOff s.epoch) }) ∧
    (s.freeze = .held → exec .freezeAssert s = .next s) ∧
    (s.freeze = .running → exec .freezeRelease s = .next s)

/-- TICK (09 R139, 07 R106, 10 R155): where the REFCLK period completes a tick while RUNNING and no event is due, the epoch rises by one and the tick progress returns to 0; every lane that runs a window before its end shows the level of its shape at the new phase; silence timers fall by one. (That the events of an epoch value are taken before it passes is the model's reading: log entry 3; so is that a lane keeps its level on the tick that reaches its window's end: log entry 12.) -/
def Obligations.TickRaisesTheEpoch : Prop :=
  ∀ s : State, s.resetHeld = false → s.freeze = .running → s.divider.periods ≤ s.progress + 1 →
    s.dueCommands = [] → s.epoch.toNat + 1 < 2 ^ 64 →
    exec .tick s = .next { s with
      epoch := s.epoch + 1
      progress := 0
      lanes := Vector.ofFn (fun l : Lane => match s.running (laneTrack l) with
        | some w =>
          if s.epoch + 1 < w.stop then { s.lane l with drive :=
            (shapeLevel w.shape w.run ((s.epoch + 1).toNat - w.start.toNat)).drive }
          else s.lane l
        | none => s.lane l)
      ports := s.ports.map (fun u => { u with silenceTimer := u.silenceTimer.map (fun n => n - 1) }) }

/-- The epoch changes only by RESETn, and by TICK, which raises it by one while RUNNING and has no effect while HELD (09 R139, R143). -/
def Obligations.EpochChangesByTickAndReset : Prop :=
  (∀ s : State, s.freeze = .held → exec .tick s = .next s) ∧
  ∀ (c : Instr) (s t : State), exec c s = .next t → t.epoch ≠ s.epoch →
    (c = .tick ∧ s.freeze = .running ∧ (s.epoch.toNat + 1 < 2 ^ 64 → t.epoch = s.epoch + 1)) ∨
    ((c = .resetnAssert ∨ ∃ tdiv1 tdiv0 freeze sense, c = .resetnRelease tdiv1 tdiv0 freeze sense) ∧ t.epoch = 0)

/-! ### Windows and edges -/

/-- WINDOW_START of a due unbundled window on a lane (01 R12, R13): it becomes ACTIVE, the lane shows its shape at this phase, START is posted where NOTE_START is set, and nothing else changes. -/
def Obligations.WindowsStartOnLanes : Prop :=
  ∀ (l : Lane) (w : Window) (s : State), Lawful s → s.head (laneTrack l) = some w → w.state = .pending →
    w.bundle = none → w.start ≤ s.epoch →
    exec (.windowStart (laneTrack l)) s = .next { s with
      windows := s.windows.map (fun v => if v.slot = w.slot then { v with state := .active } else v)
      lanes := s.lanes.set l { s.lane l with drive := (shapeLevel w.shape w.run (s.epoch.toNat - w.start.toNat)).drive }
      ports := s.ports.set w.owner ((s.port w.owner).appendAll (startRecords s.epoch w)) }

/-- WINDOW_START of a due unbundled window on a sense track (01 R13, 08 R122, R134): it becomes the counting window and receives the carried edges; where those reach its limit it ends at once, its count at the limit, START before TALLY LIMIT. -/
def Obligations.WindowsStartOnSenseTracks : Prop :=
  ∀ (k : Sense) (w : Window) (s : State), Lawful s → s.head (senseTrack k) = some w → w.state = .pending →
    w.bundle = none → w.start ≤ s.epoch →
    ((∀ n, w.shape.limit = some n → s.carriedFor w < n) →
      exec (.windowStart (senseTrack k)) s = .next { s with
        windows := s.windows.map (fun v => if v.slot = w.slot then w.started s.epoch (s.carriedFor w) else v)
        tallies := s.tallies.set k { s.tally k with counting := some w.slot, hold := none, carried := 0 }
        ports := s.ports.set w.owner ((s.port w.owner).appendAll (startRecords s.epoch w)) }) ∧
    (∀ n, w.shape.limit = some n → n ≤ s.carriedFor w →
      ∃ t, exec (.windowStart (senseTrack k)) s = .next t ∧ Retired s t [w] w.owner (startRecords s.epoch w ++
        [.tally w.handle w.tag s.epoch .limit n false (some s.epoch) (some s.epoch)]))

/-- WINDOW_END_DUE of an unbundled ACTIVE window whose end the epoch has reached (01 R14, R15, R17, R18): it retires with reason COMPLETE, and a CLOSING session that holds no more ends behind it. (A lane keeps its level into a bundle member that starts at this epoch value and still waits: the model's choice, log entry 28.) -/
def Obligations.WindowsEndWhenDue : Prop :=
  ∀ (x : Track) (w : Window) (s : State), Lawful s → s.head x = some w → w.state = .active → w.bundle = none →
    w.stop ≤ s.epoch →
    ∃ t, exec (.windowEndDue x) s = .next t ∧ Retired s t [w] w.owner (endRecords s.epoch .complete w)

/-- BUNDLE_JOINT_START (04 R65, R66): where the common start is reached and every member is the head of its list, all members and the bundle record become ACTIVE in one change, every lane shows its member's shape and every Tally Unit counts, with the edges carried for it; the START records stand in some order. (Where carried edges reach the leader's limit, see CarriedEdgesEndABundle.) -/
def Obligations.BundlesStartTogether : Prop :=
  ∀ (p : Port) (b : BundleNo) (r : BundleRecord) (s : State), Lawful s → s.bundle p b = some r →
    r.state = .pending → r.start ≤ s.epoch → (∀ w ∈ s.members p b, s.head w.track = some w) →
    (∀ w ∈ s.members p b, ∀ n, w.shape.limit = some n → s.carriedFor w < n) →
    let ws := s.members p b
    ∃ (t : State) (rs : List EventRecord), exec (.bundleJointStart p b) s = .next t ∧
      rs.Perm (ws.flatMap (startRecords s.epoch)) ∧
      t.windows = s.windows.map (fun v => if v.among ws then v.started s.epoch (s.carriedFor v) else v) ∧
      (∀ l, t.lane l = match ws.find? (fun w => decide (w.track = laneTrack l)) with
        | some w => { s.lane l with drive := (shapeLevel w.shape w.run (s.epoch.toNat - w.start.toNat)).drive }
        | none => s.lane l) ∧
      (∀ k, t.tally k = match ws.find? (fun w => decide (w.track = senseTrack k)) with
        | some w => { s.tally k with counting := some w.slot, hold := none, carried := 0 }
        | none => s.tally k) ∧
      t.useCounts = s.useCounts ∧ t.claimants = s.claimants ∧ t.trigRefs = s.trigRefs ∧ SameTimebase s t ∧
      (∀ q, q ≠ p → t.port q = s.port q) ∧
      t.port p = { (s.port p).appendAll rs with
        bundles := (s.port p).bundles.set b (some { r with state := .active }) }

/-- BUNDLE_JOINT_START where the edges carried for the leader reach its limit (08 R134, 04 R69): the bundle starts and ends in one change, every START record before every ending record (the spec orders only each window's own two; the order across members is the model's choice: log entry 25), the leader's TALLY with LIMIT and a count at the limit, the other members with BUNDLE_LIMIT. -/
def Obligations.CarriedEdgesEndABundle : Prop :=
  ∀ (p : Port) (b : BundleNo) (r : BundleRecord) (w : Window) (others : List Window) (n : Nat) (s : State),
    Lawful s → s.bundle p b = some r → r.state = .pending → r.start ≤ s.epoch →
    (∀ v ∈ s.members p b, s.head v.track = some v) → s.members p b = w :: others →
    w.shape.limit = some n → n ≤ s.carriedFor w →
    ∃ (t : State) (starts ends : List EventRecord), exec (.bundleJointStart p b) s = .next t ∧
      starts.Perm ((w :: others).flatMap (startRecords s.epoch)) ∧
      ends.Perm (.tally w.handle w.tag s.epoch .limit n false (some s.epoch) (some s.epoch) ::
        others.flatMap (fun v => endRecords s.epoch .bundleLimit (v.started s.epoch (s.carriedFor v)))) ∧
      t.windows = s.windows.filter (fun v => !v.among (w :: others)) ∧
      (∀ l, t.lane l = if (w :: others).any (fun v => decide (v.track = laneTrack l)) then { s.lane l with drive := .idle }
        else s.lane l) ∧
      (∀ k, t.tally k = if (w :: others).any (fun v => decide (v.track = senseTrack k)) then
          { s.tally k with counting := none, hold := none, carried := 0 } else s.tally k) ∧
      t.useCounts = s.useCounts ∧ t.claimants = s.claimants ∧
      (∀ k q, t.refs k q =
        s.refs k q - (if q = p then ((w :: others).filter (fun v => decide (v.shape.source = some k))).length else 0)) ∧
      SameTimebase s t ∧ (∀ q, q ≠ p → t.port q = s.port q) ∧
      t.port p = (s.port p).retired (w :: others) (starts ++ ends) s.epoch

/-- BUNDLE_JOINT_END of an ACTIVE bundle whose common end the epoch has reached (04 R68): every member retires with reason COMPLETE in one change, its records in some order, and the bundle record is free. (A lane keeps its level into a bundle member that starts at this epoch value and still waits: the model's choice, log entry 28.) -/
def Obligations.BundlesEndTogether : Prop :=
  ∀ (p : Port) (b : BundleNo) (r : BundleRecord) (s : State), Lawful s → s.bundle p b = some r →
    r.state = .active → r.stop ≤ s.epoch →
    ∃ (t : State) (rs : List EventRecord), exec (.bundleJointEnd p b) s = .next t ∧
      rs.Perm ((s.members p b).flatMap (endRecords s.epoch .complete)) ∧ Retired s t (s.members p b) p rs

/-- PULSE_END of the ACTIVE TRIGGERED window of a lane whose current pulse end the epoch has reached (07 R111): the pulse end becomes absent, the drive state INACTIVE, and the arming DONE once the budget is spent. -/
def Obligations.PulsesEndWhenDue : Prop :=
  ∀ (l : Lane) (w : Window) (k : Sense) (edge : EdgeKind) (W : BitVec 16) (N : Byte) (r : TriggerRun) (e : Epoch) (s : State),
    Lawful s → s.head (laneTrack l) = some w → w.state = .active → w.shape = .triggered k edge W N →
    w.run = .trigger r → r.pulseEnd = some e → e ≤ s.epoch →
    exec (.pulseEnd l) s = .next { s with
      windows := s.windows.map (fun v => if v.slot = w.slot then { v with run := .trigger { r with
        pulseEnd := none
        arming := if r.emitted = N.toNat then .done else r.arming } } else v)
      lanes := s.lanes.set l { s.lane l with drive := .inactive } }

/-- SENSE_EDGE that brings no window to its limit (08 R123 to R125, R129, R130, R134, 07 R110): the counting window counts the edge where it qualifies, or it is carried for the window that waits in a handover; every ACTIVE TRIGGERED window of that input that it qualifies for, armed and without a pulse, starts one that ends W ticks later, its lane ACTIVE at once; the seen level changes. A level that is no change is no edge, and while RESETn is asserted no edge is taken (08 R122). -/
def Obligations.EdgesAreCountedAndReported : Prop :=
  ∀ (k : Sense) (level : Level) (s : State),
    (s.resetHeld = true ∨ (s.tally k).seen = level → exec (.senseEdge k level) s = .next s) ∧
    (Lawful s → FarFromTop s → s.resetHeld = false → (s.tally k).seen ≠ level →
      (∀ w ∈ s.windows, w.takesCount k level = true → ∀ n r, w.shape.limit = some n → w.run = .tally r → r.count + 1 ≠ n) →
      exec (.senseEdge k level) s = .next { s with
        windows := s.windows.map (fun w => if w.takesCount k level then w.counted s.epoch else w.pulsed k level s.epoch)
        lanes := Vector.ofFn (s.pulsedLane k level)
        tallies := s.tallies.set k { s.tally k with
          seen := level
          carried := if (s.tally k).hold.isSome && (s.head (senseTrack k)).any (fun w => w.counts level)
            then min ((s.tally k).carried + 1) 16777215 else (s.tally k).carried } })

/-- SENSE_EDGE that brings the counting window to its limit (08 R125 to R129, 04 R69): the window, or the whole bundle it leads, ends in the same change, its TALLY with reason LIMIT and a count at the limit, the other members with BUNDLE_LIMIT; the edge reaches the lanes. Whether a TRIGGERED member of the same bundle saw it first is not fixed (log entry 5). (A lane keeps its level into a bundle member that starts at this epoch value and still waits: the model's choice, log entry 28.) -/
def Obligations.TheLimitEndsTheWindowOrItsBundle : Prop :=
  ∀ (k : Sense) (level : Level) (w : Window) (n : Nat) (r : TallyRun) (s : State),
    Lawful s → FarFromTop s → s.resetHeld = false → (s.tally k).seen ≠ level →
    w ∈ s.windows → w.takesCount k level = true → w.shape.limit = some n → w.run = .tally r → r.count + 1 = n →
    let ws := s.wholeOf w
    ∃ (t : State) (rs : List EventRecord) (reported : Bool), exec (.senseEdge k level) s = .next t ∧
      rs.Perm (.tally w.handle w.tag s.epoch .limit n false (some (r.firstEdge.getD s.epoch)) (some s.epoch) ::
        (ws.filter (fun v => decide (v.slot ≠ w.slot))).flatMap (fun v =>
          endRecords s.epoch .bundleLimit (if reported then v.pulsed k level s.epoch else v))) ∧
      t.windows = (s.windows.filter (fun v => !v.among ws)).map (fun v => v.pulsed k level s.epoch) ∧
      t.useCounts = s.useCounts ∧
      (∀ j q, t.refs j q =
        s.refs j q - (if q = w.owner then (ws.filter (fun v => decide (v.shape.source = some j))).length else 0)) ∧
      (∀ l, t.lane l = t.settledLane
        (if reported || !(ws.any (fun v => decide (v.track = laneTrack l))) then s.pulsedLane k level l else s.lane l) l) ∧
      (∀ j, t.tally j = if j = k then { settledTally s t j with seen := level } else settledTally s t j) ∧
      (∀ q, q ≠ w.owner → t.port q = s.port q) ∧ SameTimebase s t ∧
      t.port w.owner = (s.port w.owner).retired ws rs s.epoch ∧
      ClaimsReleased s t w.owner ((s.port w.owner).endsWith ws.length)

/-! ### Queues and laws -/

/-- PnATTNn is asserted while the queue of the port holds a record, in every session state and reset state (11 R167). -/
def Obligations.AttentionFollowsTheQueue : Prop :=
  ∀ (s : State) (p : Port), s.attention p = true ↔ (s.port p).queue ≠ []

/-- The state after reset keeps every law (the pin levels of that reset are the model's choice: log entry 1). -/
def Obligations.ResetIsLawful : Prop := Lawful State.reset

/-- Every step keeps the law of the event queues (11 R162). -/
def Obligations.StepsKeepTheQueueLaw : Prop :=
  ∀ s t : State, QueueLaw s → step s = .next t → QueueLaw t

/-- Every step keeps the law of the session values and the sum of the quotas (10 R146, 01 R11). -/
def Obligations.StepsKeepTheSessionLaw : Prop :=
  ∀ s t : State, SessionLaw s → step s = .next t → SessionLaw t

/-- Every step keeps the laws of records, held counts, trigger references, bundles and sessions without one (01 R10, R11, 04 R58, 06 R96, 10 R146). -/
def Obligations.StepsKeepTheRecordLaws : Prop :=
  ∀ s t : State, RecordLaws s → step s = .next t → RecordLaws t

/-- Every step keeps every law of the part, as long as the epoch stays far from the top of its range, of which no rule treats (09 R139): lists sorted and disjoint, at most the head ACTIVE, starts and ends taken at their epoch value, lanes and Tally Units following their lists (01 R1 to R3, R12 to R14, 04 R58, R67, 06 R90, R96, 07 R105, R106, 08 R122, 10 R146, 11 R162). (A lane keeps its level into a bundle member that starts at this epoch value and still waits: the model's choice, log entry 28.) -/
def Obligations.StepsKeepEveryLaw : Prop :=
  ∀ s t : State, Lawful s → FarFromTop s → step s = .next t → Lawful t
end

