-- ==== Sys2Proof/Laws/State.lean ====
section
/-! SUPPORT. The state: what each named update leaves in each field, and reading after writing. -/

namespace Sys2Proof.Machine

/-! ### setPort -/

@[simp] theorem State.setPort_windows (s : State) (p : Port) (u : PortUnit) : (s.setPort p u).windows = s.windows := rfl
@[simp] theorem State.setPort_useCounts (s : State) (p : Port) (u : PortUnit) : (s.setPort p u).useCounts = s.useCounts := rfl
@[simp] theorem State.setPort_claimants (s : State) (p : Port) (u : PortUnit) : (s.setPort p u).claimants = s.claimants := rfl
@[simp] theorem State.setPort_trigRefs (s : State) (p : Port) (u : PortUnit) : (s.setPort p u).trigRefs = s.trigRefs := rfl
@[simp] theorem State.setPort_lanes (s : State) (p : Port) (u : PortUnit) : (s.setPort p u).lanes = s.lanes := rfl
@[simp] theorem State.setPort_tallies (s : State) (p : Port) (u : PortUnit) : (s.setPort p u).tallies = s.tallies := rfl
@[simp] theorem State.setPort_epoch (s : State) (p : Port) (u : PortUnit) : (s.setPort p u).epoch = s.epoch := rfl
@[simp] theorem State.setPort_divider (s : State) (p : Port) (u : PortUnit) : (s.setPort p u).divider = s.divider := rfl
@[simp] theorem State.setPort_freeze (s : State) (p : Port) (u : PortUnit) : (s.setPort p u).freeze = s.freeze := rfl
@[simp] theorem State.setPort_progress (s : State) (p : Port) (u : PortUnit) : (s.setPort p u).progress = s.progress := rfl
@[simp] theorem State.setPort_resetHeld (s : State) (p : Port) (u : PortUnit) : (s.setPort p u).resetHeld = s.resetHeld := rfl
@[simp] theorem State.setPort_freeCount (s : State) (p : Port) (u : PortUnit) : (s.setPort p u).freeCount = s.freeCount := rfl
@[simp] theorem State.setPort_pending (s : State) (p : Port) (u : PortUnit) : (s.setPort p u).pending = s.pending := rfl

/-! ### setClaimant -/

@[simp] theorem State.setClaimant_windows (s : State) (t : Track) (c : Option Port) : (s.setClaimant t c).windows = s.windows := rfl
@[simp] theorem State.setClaimant_useCounts (s : State) (t : Track) (c : Option Port) : (s.setClaimant t c).useCounts = s.useCounts := rfl
@[simp] theorem State.setClaimant_trigRefs (s : State) (t : Track) (c : Option Port) : (s.setClaimant t c).trigRefs = s.trigRefs := rfl
@[simp] theorem State.setClaimant_lanes (s : State) (t : Track) (c : Option Port) : (s.setClaimant t c).lanes = s.lanes := rfl
@[simp] theorem State.setClaimant_tallies (s : State) (t : Track) (c : Option Port) : (s.setClaimant t c).tallies = s.tallies := rfl
@[simp] theorem State.setClaimant_epoch (s : State) (t : Track) (c : Option Port) : (s.setClaimant t c).epoch = s.epoch := rfl
@[simp] theorem State.setClaimant_divider (s : State) (t : Track) (c : Option Port) : (s.setClaimant t c).divider = s.divider := rfl
@[simp] theorem State.setClaimant_freeze (s : State) (t : Track) (c : Option Port) : (s.setClaimant t c).freeze = s.freeze := rfl
@[simp] theorem State.setClaimant_progress (s : State) (t : Track) (c : Option Port) : (s.setClaimant t c).progress = s.progress := rfl
@[simp] theorem State.setClaimant_ports (s : State) (t : Track) (c : Option Port) : (s.setClaimant t c).ports = s.ports := rfl
@[simp] theorem State.setClaimant_resetHeld (s : State) (t : Track) (c : Option Port) : (s.setClaimant t c).resetHeld = s.resetHeld := rfl
@[simp] theorem State.setClaimant_freeCount (s : State) (t : Track) (c : Option Port) : (s.setClaimant t c).freeCount = s.freeCount := rfl
@[simp] theorem State.setClaimant_pending (s : State) (t : Track) (c : Option Port) : (s.setClaimant t c).pending = s.pending := rfl

/-! ### setRefs -/

@[simp] theorem State.setRefs_windows (s : State) (k : Sense) (p : Port) (n : Nat) : (s.setRefs k p n).windows = s.windows := rfl
@[simp] theorem State.setRefs_useCounts (s : State) (k : Sense) (p : Port) (n : Nat) : (s.setRefs k p n).useCounts = s.useCounts := rfl
@[simp] theorem State.setRefs_claimants (s : State) (k : Sense) (p : Port) (n : Nat) : (s.setRefs k p n).claimants = s.claimants := rfl
@[simp] theorem State.setRefs_lanes (s : State) (k : Sense) (p : Port) (n : Nat) : (s.setRefs k p n).lanes = s.lanes := rfl
@[simp] theorem State.setRefs_tallies (s : State) (k : Sense) (p : Port) (n : Nat) : (s.setRefs k p n).tallies = s.tallies := rfl
@[simp] theorem State.setRefs_epoch (s : State) (k : Sense) (p : Port) (n : Nat) : (s.setRefs k p n).epoch = s.epoch := rfl
@[simp] theorem State.setRefs_divider (s : State) (k : Sense) (p : Port) (n : Nat) : (s.setRefs k p n).divider = s.divider := rfl
@[simp] theorem State.setRefs_freeze (s : State) (k : Sense) (p : Port) (n : Nat) : (s.setRefs k p n).freeze = s.freeze := rfl
@[simp] theorem State.setRefs_progress (s : State) (k : Sense) (p : Port) (n : Nat) : (s.setRefs k p n).progress = s.progress := rfl
@[simp] theorem State.setRefs_ports (s : State) (k : Sense) (p : Port) (n : Nat) : (s.setRefs k p n).ports = s.ports := rfl
@[simp] theorem State.setRefs_resetHeld (s : State) (k : Sense) (p : Port) (n : Nat) : (s.setRefs k p n).resetHeld = s.resetHeld := rfl
@[simp] theorem State.setRefs_freeCount (s : State) (k : Sense) (p : Port) (n : Nat) : (s.setRefs k p n).freeCount = s.freeCount := rfl
@[simp] theorem State.setRefs_pending (s : State) (k : Sense) (p : Port) (n : Nat) : (s.setRefs k p n).pending = s.pending := rfl

/-! ### setLane -/

@[simp] theorem State.setLane_windows (s : State) (l : Lane) (d : LaneDriver) : (s.setLane l d).windows = s.windows := rfl
@[simp] theorem State.setLane_useCounts (s : State) (l : Lane) (d : LaneDriver) : (s.setLane l d).useCounts = s.useCounts := rfl
@[simp] theorem State.setLane_claimants (s : State) (l : Lane) (d : LaneDriver) : (s.setLane l d).claimants = s.claimants := rfl
@[simp] theorem State.setLane_trigRefs (s : State) (l : Lane) (d : LaneDriver) : (s.setLane l d).trigRefs = s.trigRefs := rfl
@[simp] theorem State.setLane_tallies (s : State) (l : Lane) (d : LaneDriver) : (s.setLane l d).tallies = s.tallies := rfl
@[simp] theorem State.setLane_epoch (s : State) (l : Lane) (d : LaneDriver) : (s.setLane l d).epoch = s.epoch := rfl
@[simp] theorem State.setLane_divider (s : State) (l : Lane) (d : LaneDriver) : (s.setLane l d).divider = s.divider := rfl
@[simp] theorem State.setLane_freeze (s : State) (l : Lane) (d : LaneDriver) : (s.setLane l d).freeze = s.freeze := rfl
@[simp] theorem State.setLane_progress (s : State) (l : Lane) (d : LaneDriver) : (s.setLane l d).progress = s.progress := rfl
@[simp] theorem State.setLane_ports (s : State) (l : Lane) (d : LaneDriver) : (s.setLane l d).ports = s.ports := rfl
@[simp] theorem State.setLane_resetHeld (s : State) (l : Lane) (d : LaneDriver) : (s.setLane l d).resetHeld = s.resetHeld := rfl
@[simp] theorem State.setLane_freeCount (s : State) (l : Lane) (d : LaneDriver) : (s.setLane l d).freeCount = s.freeCount := rfl
@[simp] theorem State.setLane_pending (s : State) (l : Lane) (d : LaneDriver) : (s.setLane l d).pending = s.pending := rfl

/-! ### setDrive -/

@[simp] theorem State.setDrive_windows (s : State) (l : Lane) (d : DriveState) : (s.setDrive l d).windows = s.windows := rfl
@[simp] theorem State.setDrive_useCounts (s : State) (l : Lane) (d : DriveState) : (s.setDrive l d).useCounts = s.useCounts := rfl
@[simp] theorem State.setDrive_claimants (s : State) (l : Lane) (d : DriveState) : (s.setDrive l d).claimants = s.claimants := rfl
@[simp] theorem State.setDrive_trigRefs (s : State) (l : Lane) (d : DriveState) : (s.setDrive l d).trigRefs = s.trigRefs := rfl
@[simp] theorem State.setDrive_tallies (s : State) (l : Lane) (d : DriveState) : (s.setDrive l d).tallies = s.tallies := rfl
@[simp] theorem State.setDrive_epoch (s : State) (l : Lane) (d : DriveState) : (s.setDrive l d).epoch = s.epoch := rfl
@[simp] theorem State.setDrive_divider (s : State) (l : Lane) (d : DriveState) : (s.setDrive l d).divider = s.divider := rfl
@[simp] theorem State.setDrive_freeze (s : State) (l : Lane) (d : DriveState) : (s.setDrive l d).freeze = s.freeze := rfl
@[simp] theorem State.setDrive_progress (s : State) (l : Lane) (d : DriveState) : (s.setDrive l d).progress = s.progress := rfl
@[simp] theorem State.setDrive_ports (s : State) (l : Lane) (d : DriveState) : (s.setDrive l d).ports = s.ports := rfl
@[simp] theorem State.setDrive_resetHeld (s : State) (l : Lane) (d : DriveState) : (s.setDrive l d).resetHeld = s.resetHeld := rfl
@[simp] theorem State.setDrive_freeCount (s : State) (l : Lane) (d : DriveState) : (s.setDrive l d).freeCount = s.freeCount := rfl
@[simp] theorem State.setDrive_pending (s : State) (l : Lane) (d : DriveState) : (s.setDrive l d).pending = s.pending := rfl

/-! ### setTally -/

@[simp] theorem State.setTally_windows (s : State) (k : Sense) (u : TallyUnit) : (s.setTally k u).windows = s.windows := rfl
@[simp] theorem State.setTally_useCounts (s : State) (k : Sense) (u : TallyUnit) : (s.setTally k u).useCounts = s.useCounts := rfl
@[simp] theorem State.setTally_claimants (s : State) (k : Sense) (u : TallyUnit) : (s.setTally k u).claimants = s.claimants := rfl
@[simp] theorem State.setTally_trigRefs (s : State) (k : Sense) (u : TallyUnit) : (s.setTally k u).trigRefs = s.trigRefs := rfl
@[simp] theorem State.setTally_lanes (s : State) (k : Sense) (u : TallyUnit) : (s.setTally k u).lanes = s.lanes := rfl
@[simp] theorem State.setTally_epoch (s : State) (k : Sense) (u : TallyUnit) : (s.setTally k u).epoch = s.epoch := rfl
@[simp] theorem State.setTally_divider (s : State) (k : Sense) (u : TallyUnit) : (s.setTally k u).divider = s.divider := rfl
@[simp] theorem State.setTally_freeze (s : State) (k : Sense) (u : TallyUnit) : (s.setTally k u).freeze = s.freeze := rfl
@[simp] theorem State.setTally_progress (s : State) (k : Sense) (u : TallyUnit) : (s.setTally k u).progress = s.progress := rfl
@[simp] theorem State.setTally_ports (s : State) (k : Sense) (u : TallyUnit) : (s.setTally k u).ports = s.ports := rfl
@[simp] theorem State.setTally_resetHeld (s : State) (k : Sense) (u : TallyUnit) : (s.setTally k u).resetHeld = s.resetHeld := rfl
@[simp] theorem State.setTally_freeCount (s : State) (k : Sense) (u : TallyUnit) : (s.setTally k u).freeCount = s.freeCount := rfl
@[simp] theorem State.setTally_pending (s : State) (k : Sense) (u : TallyUnit) : (s.setTally k u).pending = s.pending := rfl

/-! ### setUseCount -/

@[simp] theorem State.setUseCount_windows (s : State) (i : Slot) (n : Byte) : (s.setUseCount i n).windows = s.windows := rfl
@[simp] theorem State.setUseCount_claimants (s : State) (i : Slot) (n : Byte) : (s.setUseCount i n).claimants = s.claimants := rfl
@[simp] theorem State.setUseCount_trigRefs (s : State) (i : Slot) (n : Byte) : (s.setUseCount i n).trigRefs = s.trigRefs := rfl
@[simp] theorem State.setUseCount_lanes (s : State) (i : Slot) (n : Byte) : (s.setUseCount i n).lanes = s.lanes := rfl
@[simp] theorem State.setUseCount_tallies (s : State) (i : Slot) (n : Byte) : (s.setUseCount i n).tallies = s.tallies := rfl
@[simp] theorem State.setUseCount_epoch (s : State) (i : Slot) (n : Byte) : (s.setUseCount i n).epoch = s.epoch := rfl
@[simp] theorem State.setUseCount_divider (s : State) (i : Slot) (n : Byte) : (s.setUseCount i n).divider = s.divider := rfl
@[simp] theorem State.setUseCount_freeze (s : State) (i : Slot) (n : Byte) : (s.setUseCount i n).freeze = s.freeze := rfl
@[simp] theorem State.setUseCount_progress (s : State) (i : Slot) (n : Byte) : (s.setUseCount i n).progress = s.progress := rfl
@[simp] theorem State.setUseCount_ports (s : State) (i : Slot) (n : Byte) : (s.setUseCount i n).ports = s.ports := rfl
@[simp] theorem State.setUseCount_resetHeld (s : State) (i : Slot) (n : Byte) : (s.setUseCount i n).resetHeld = s.resetHeld := rfl
@[simp] theorem State.setUseCount_freeCount (s : State) (i : Slot) (n : Byte) : (s.setUseCount i n).freeCount = s.freeCount := rfl
@[simp] theorem State.setUseCount_pending (s : State) (i : Slot) (n : Byte) : (s.setUseCount i n).pending = s.pending := rfl

/-! ### draw -/

@[simp] theorem State.draw_windows (s : State) : (s.draw).windows = s.windows := rfl
@[simp] theorem State.draw_useCounts (s : State) : (s.draw).useCounts = s.useCounts := rfl
@[simp] theorem State.draw_claimants (s : State) : (s.draw).claimants = s.claimants := rfl
@[simp] theorem State.draw_trigRefs (s : State) : (s.draw).trigRefs = s.trigRefs := rfl
@[simp] theorem State.draw_lanes (s : State) : (s.draw).lanes = s.lanes := rfl
@[simp] theorem State.draw_tallies (s : State) : (s.draw).tallies = s.tallies := rfl
@[simp] theorem State.draw_epoch (s : State) : (s.draw).epoch = s.epoch := rfl
@[simp] theorem State.draw_divider (s : State) : (s.draw).divider = s.divider := rfl
@[simp] theorem State.draw_freeze (s : State) : (s.draw).freeze = s.freeze := rfl
@[simp] theorem State.draw_progress (s : State) : (s.draw).progress = s.progress := rfl
@[simp] theorem State.draw_ports (s : State) : (s.draw).ports = s.ports := rfl
@[simp] theorem State.draw_resetHeld (s : State) : (s.draw).resetHeld = s.resetHeld := rfl
@[simp] theorem State.draw_pending (s : State) : (s.draw).pending = s.pending := rfl

/-! ### updateWindow -/

@[simp] theorem State.updateWindow_useCounts (s : State) (i : Slot) (f : Window → Window) : (s.updateWindow i f).useCounts = s.useCounts := rfl
@[simp] theorem State.updateWindow_claimants (s : State) (i : Slot) (f : Window → Window) : (s.updateWindow i f).claimants = s.claimants := rfl
@[simp] theorem State.updateWindow_trigRefs (s : State) (i : Slot) (f : Window → Window) : (s.updateWindow i f).trigRefs = s.trigRefs := rfl
@[simp] theorem State.updateWindow_lanes (s : State) (i : Slot) (f : Window → Window) : (s.updateWindow i f).lanes = s.lanes := rfl
@[simp] theorem State.updateWindow_tallies (s : State) (i : Slot) (f : Window → Window) : (s.updateWindow i f).tallies = s.tallies := rfl
@[simp] theorem State.updateWindow_epoch (s : State) (i : Slot) (f : Window → Window) : (s.updateWindow i f).epoch = s.epoch := rfl
@[simp] theorem State.updateWindow_divider (s : State) (i : Slot) (f : Window → Window) : (s.updateWindow i f).divider = s.divider := rfl
@[simp] theorem State.updateWindow_freeze (s : State) (i : Slot) (f : Window → Window) : (s.updateWindow i f).freeze = s.freeze := rfl
@[simp] theorem State.updateWindow_progress (s : State) (i : Slot) (f : Window → Window) : (s.updateWindow i f).progress = s.progress := rfl
@[simp] theorem State.updateWindow_ports (s : State) (i : Slot) (f : Window → Window) : (s.updateWindow i f).ports = s.ports := rfl
@[simp] theorem State.updateWindow_resetHeld (s : State) (i : Slot) (f : Window → Window) : (s.updateWindow i f).resetHeld = s.resetHeld := rfl
@[simp] theorem State.updateWindow_freeCount (s : State) (i : Slot) (f : Window → Window) : (s.updateWindow i f).freeCount = s.freeCount := rfl
@[simp] theorem State.updateWindow_pending (s : State) (i : Slot) (f : Window → Window) : (s.updateWindow i f).pending = s.pending := rfl

/-! ### setBundle -/

@[simp] theorem State.setBundle_windows (s : State) (p : Port) (b : BundleNo) (r : Option BundleRecord) : (s.setBundle p b r).windows = s.windows := rfl
@[simp] theorem State.setBundle_useCounts (s : State) (p : Port) (b : BundleNo) (r : Option BundleRecord) : (s.setBundle p b r).useCounts = s.useCounts := rfl
@[simp] theorem State.setBundle_claimants (s : State) (p : Port) (b : BundleNo) (r : Option BundleRecord) : (s.setBundle p b r).claimants = s.claimants := rfl
@[simp] theorem State.setBundle_trigRefs (s : State) (p : Port) (b : BundleNo) (r : Option BundleRecord) : (s.setBundle p b r).trigRefs = s.trigRefs := rfl
@[simp] theorem State.setBundle_lanes (s : State) (p : Port) (b : BundleNo) (r : Option BundleRecord) : (s.setBundle p b r).lanes = s.lanes := rfl
@[simp] theorem State.setBundle_tallies (s : State) (p : Port) (b : BundleNo) (r : Option BundleRecord) : (s.setBundle p b r).tallies = s.tallies := rfl
@[simp] theorem State.setBundle_epoch (s : State) (p : Port) (b : BundleNo) (r : Option BundleRecord) : (s.setBundle p b r).epoch = s.epoch := rfl
@[simp] theorem State.setBundle_divider (s : State) (p : Port) (b : BundleNo) (r : Option BundleRecord) : (s.setBundle p b r).divider = s.divider := rfl
@[simp] theorem State.setBundle_freeze (s : State) (p : Port) (b : BundleNo) (r : Option BundleRecord) : (s.setBundle p b r).freeze = s.freeze := rfl
@[simp] theorem State.setBundle_progress (s : State) (p : Port) (b : BundleNo) (r : Option BundleRecord) : (s.setBundle p b r).progress = s.progress := rfl
@[simp] theorem State.setBundle_resetHeld (s : State) (p : Port) (b : BundleNo) (r : Option BundleRecord) : (s.setBundle p b r).resetHeld = s.resetHeld := rfl
@[simp] theorem State.setBundle_freeCount (s : State) (p : Port) (b : BundleNo) (r : Option BundleRecord) : (s.setBundle p b r).freeCount = s.freeCount := rfl
@[simp] theorem State.setBundle_pending (s : State) (p : Port) (b : BundleNo) (r : Option BundleRecord) : (s.setBundle p b r).pending = s.pending := rfl

/-! ### Reading after writing -/

theorem vector_get_set {α : Type} {n : Nat} (v : Vector α n) (i j : Fin n) (a : α) :
    (v.set i a)[j] = if i = j then a else v[j] := by
  by_cases h : i = j
  · subst h; simp
  · have hv : i.val ≠ j.val := fun e => h (Fin.ext e)
    simp [h, hv]

@[simp] theorem State.port_setPort (s : State) (p q : Port) (u : PortUnit) :
    (s.setPort p u).port q = if p = q then u else s.port q := vector_get_set s.ports p q u

@[simp] theorem State.claimant_setClaimant (s : State) (t x : Track) (c : Option Port) :
    (s.setClaimant t c).claimant x = if t = x then c else s.claimant x := vector_get_set s.claimants t x c

@[simp] theorem State.lane_setLane (s : State) (l m : Lane) (d : LaneDriver) :
    (s.setLane l d).lane m = if l = m then d else s.lane m := vector_get_set s.lanes l m d

@[simp] theorem State.lane_setDrive (s : State) (l m : Lane) (d : DriveState) :
    (s.setDrive l d).lane m = if l = m then { s.lane l with drive := d } else s.lane m :=
  vector_get_set s.lanes l m _

@[simp] theorem State.tally_setTally (s : State) (k j : Sense) (u : TallyUnit) :
    (s.setTally k u).tally j = if k = j then u else s.tally j := vector_get_set s.tallies k j u

@[simp] theorem State.useCount_setUseCount (s : State) (i j : Slot) (n : Byte) :
    (s.setUseCount i n).useCount j = if i = j then n else s.useCount j := vector_get_set s.useCounts i j n

@[simp] theorem State.refs_setRefs (s : State) (k j : Sense) (p q : Port) (n : Nat) :
    (s.setRefs k p n).refs j q = if k = j ∧ p = q then n else s.refs j q := by
  have h : (s.setRefs k p n).refs j q = (s.trigRefs.set k (s.trigRefs[k].set p n))[j][q] := rfl
  rw [h, vector_get_set]
  by_cases hk : k = j
  · subst hk
    simp only [if_true, vector_get_set, true_and]
    rfl
  · simp only [hk, if_false, false_and]
    rfl

@[simp] theorem State.bundle_setBundle (s : State) (p q : Port) (b c : BundleNo) (r : Option BundleRecord) :
    (s.setBundle p b r).bundle q c = if p = q ∧ b = c then r else s.bundle q c := by
  unfold State.bundle State.setBundle
  rw [State.port_setPort]
  by_cases hp : p = q
  · subst hp
    simp only [if_true, vector_get_set, true_and]
  · simp only [hp, if_false, false_and]

/-! ### Reads that an update does not reach -/

@[simp] theorem State.claimant_setPort (s : State) (p : Port) (u : PortUnit) (x : Track) : (s.setPort p u).claimant x = s.claimant x := rfl
@[simp] theorem State.refs_setPort (s : State) (p : Port) (u : PortUnit) (j : Sense) (q : Port) : (s.setPort p u).refs j q = s.refs j q := rfl
@[simp] theorem State.lane_setPort (s : State) (p : Port) (u : PortUnit) (m : Lane) : (s.setPort p u).lane m = s.lane m := rfl
@[simp] theorem State.tally_setPort (s : State) (p : Port) (u : PortUnit) (j : Sense) : (s.setPort p u).tally j = s.tally j := rfl
@[simp] theorem State.useCount_setPort (s : State) (p : Port) (u : PortUnit) (j : Slot) : (s.setPort p u).useCount j = s.useCount j := rfl
@[simp] theorem State.trackList_setPort (s : State) (p : Port) (u : PortUnit) (x : Track) : (s.setPort p u).trackList x = s.trackList x := rfl
@[simp] theorem State.head_setPort (s : State) (p : Port) (u : PortUnit) (x : Track) : (s.setPort p u).head x = s.head x := rfl
@[simp] theorem State.running_setPort (s : State) (p : Port) (u : PortUnit) (x : Track) : (s.setPort p u).running x = s.running x := rfl
@[simp] theorem State.windowAt_setPort (s : State) (p : Port) (u : PortUnit) (j : Slot) : (s.setPort p u).windowAt j = s.windowAt j := rfl
@[simp] theorem State.owned_setPort (s : State) (p : Port) (u : PortUnit) (q : Port) : (s.setPort p u).owned q = s.owned q := rfl
@[simp] theorem State.members_setPort (s : State) (p : Port) (u : PortUnit) (q : Port) (c : BundleNo) : (s.setPort p u).members q c = s.members q c := rfl
@[simp] theorem State.unitOf_setPort (s : State) (p : Port) (u : PortUnit) (w : Window) : (s.setPort p u).unitOf w = s.unitOf w := rfl

@[simp] theorem State.port_setClaimant (s : State) (t : Track) (c : Option Port) (q : Port) : (s.setClaimant t c).port q = s.port q := rfl
@[simp] theorem State.refs_setClaimant (s : State) (t : Track) (c : Option Port) (j : Sense) (q : Port) : (s.setClaimant t c).refs j q = s.refs j q := rfl
@[simp] theorem State.lane_setClaimant (s : State) (t : Track) (c : Option Port) (m : Lane) : (s.setClaimant t c).lane m = s.lane m := rfl
@[simp] theorem State.tally_setClaimant (s : State) (t : Track) (c : Option Port) (j : Sense) : (s.setClaimant t c).tally j = s.tally j := rfl
@[simp] theorem State.useCount_setClaimant (s : State) (t : Track) (c : Option Port) (j : Slot) : (s.setClaimant t c).useCount j = s.useCount j := rfl
@[simp] theorem State.bundle_setClaimant (s : State) (t : Track) (c : Option Port) (q : Port) (e : BundleNo) : (s.setClaimant t c).bundle q e = s.bundle q e := rfl
@[simp] theorem State.trackList_setClaimant (s : State) (t : Track) (c : Option Port) (x : Track) : (s.setClaimant t c).trackList x = s.trackList x := rfl
@[simp] theorem State.head_setClaimant (s : State) (t : Track) (c : Option Port) (x : Track) : (s.setClaimant t c).head x = s.head x := rfl
@[simp] theorem State.running_setClaimant (s : State) (t : Track) (c : Option Port) (x : Track) : (s.setClaimant t c).running x = s.running x := rfl
@[simp] theorem State.windowAt_setClaimant (s : State) (t : Track) (c : Option Port) (j : Slot) : (s.setClaimant t c).windowAt j = s.windowAt j := rfl
@[simp] theorem State.owned_setClaimant (s : State) (t : Track) (c : Option Port) (q : Port) : (s.setClaimant t c).owned q = s.owned q := rfl
@[simp] theorem State.members_setClaimant (s : State) (t : Track) (c : Option Port) (q : Port) (e : BundleNo) : (s.setClaimant t c).members q e = s.members q e := rfl
@[simp] theorem State.unitOf_setClaimant (s : State) (t : Track) (c : Option Port) (w : Window) : (s.setClaimant t c).unitOf w = s.unitOf w := rfl

@[simp] theorem State.port_setRefs (s : State) (k : Sense) (p : Port) (n : Nat) (q : Port) : (s.setRefs k p n).port q = s.port q := rfl
@[simp] theorem State.claimant_setRefs (s : State) (k : Sense) (p : Port) (n : Nat) (x : Track) : (s.setRefs k p n).claimant x = s.claimant x := rfl
@[simp] theorem State.lane_setRefs (s : State) (k : Sense) (p : Port) (n : Nat) (m : Lane) : (s.setRefs k p n).lane m = s.lane m := rfl
@[simp] theorem State.tally_setRefs (s : State) (k : Sense) (p : Port) (n : Nat) (j : Sense) : (s.setRefs k p n).tally j = s.tally j := rfl
@[simp] theorem State.useCount_setRefs (s : State) (k : Sense) (p : Port) (n : Nat) (j : Slot) : (s.setRefs k p n).useCount j = s.useCount j := rfl
@[simp] theorem State.bundle_setRefs (s : State) (k : Sense) (p : Port) (n : Nat) (q : Port) (c : BundleNo) : (s.setRefs k p n).bundle q c = s.bundle q c := rfl
@[simp] theorem State.trackList_setRefs (s : State) (k : Sense) (p : Port) (n : Nat) (x : Track) : (s.setRefs k p n).trackList x = s.trackList x := rfl
@[simp] theorem State.head_setRefs (s : State) (k : Sense) (p : Port) (n : Nat) (x : Track) : (s.setRefs k p n).head x = s.head x := rfl
@[simp] theorem State.running_setRefs (s : State) (k : Sense) (p : Port) (n : Nat) (x : Track) : (s.setRefs k p n).running x = s.running x := rfl
@[simp] theorem State.windowAt_setRefs (s : State) (k : Sense) (p : Port) (n : Nat) (j : Slot) : (s.setRefs k p n).windowAt j = s.windowAt j := rfl
@[simp] theorem State.owned_setRefs (s : State) (k : Sense) (p : Port) (n : Nat) (q : Port) : (s.setRefs k p n).owned q = s.owned q := rfl
@[simp] theorem State.members_setRefs (s : State) (k : Sense) (p : Port) (n : Nat) (q : Port) (c : BundleNo) : (s.setRefs k p n).members q c = s.members q c := rfl
@[simp] theorem State.unitOf_setRefs (s : State) (k : Sense) (p : Port) (n : Nat) (w : Window) : (s.setRefs k p n).unitOf w = s.unitOf w := rfl

@[simp] theorem State.port_setLane (s : State) (l : Lane) (d : LaneDriver) (q : Port) : (s.setLane l d).port q = s.port q := rfl
@[simp] theorem State.claimant_setLane (s : State) (l : Lane) (d : LaneDriver) (x : Track) : (s.setLane l d).claimant x = s.claimant x := rfl
@[simp] theorem State.refs_setLane (s : State) (l : Lane) (d : LaneDriver) (j : Sense) (q : Port) : (s.setLane l d).refs j q = s.refs j q := rfl
@[simp] theorem State.tally_setLane (s : State) (l : Lane) (d : LaneDriver) (j : Sense) : (s.setLane l d).tally j = s.tally j := rfl
@[simp] theorem State.useCount_setLane (s : State) (l : Lane) (d : LaneDriver) (j : Slot) : (s.setLane l d).useCount j = s.useCount j := rfl
@[simp] theorem State.bundle_setLane (s : State) (l : Lane) (d : LaneDriver) (q : Port) (c : BundleNo) : (s.setLane l d).bundle q c = s.bundle q c := rfl
@[simp] theorem State.trackList_setLane (s : State) (l : Lane) (d : LaneDriver) (x : Track) : (s.setLane l d).trackList x = s.trackList x := rfl
@[simp] theorem State.head_setLane (s : State) (l : Lane) (d : LaneDriver) (x : Track) : (s.setLane l d).head x = s.head x := rfl
@[simp] theorem State.running_setLane (s : State) (l : Lane) (d : LaneDriver) (x : Track) : (s.setLane l d).running x = s.running x := rfl
@[simp] theorem State.windowAt_setLane (s : State) (l : Lane) (d : LaneDriver) (j : Slot) : (s.setLane l d).windowAt j = s.windowAt j := rfl
@[simp] theorem State.owned_setLane (s : State) (l : Lane) (d : LaneDriver) (q : Port) : (s.setLane l d).owned q = s.owned q := rfl
@[simp] theorem State.members_setLane (s : State) (l : Lane) (d : LaneDriver) (q : Port) (c : BundleNo) : (s.setLane l d).members q c = s.members q c := rfl
@[simp] theorem State.unitOf_setLane (s : State) (l : Lane) (d : LaneDriver) (w : Window) : (s.setLane l d).unitOf w = s.unitOf w := rfl

@[simp] theorem State.port_setDrive (s : State) (l : Lane) (d : DriveState) (q : Port) : (s.setDrive l d).port q = s.port q := rfl
@[simp] theorem State.claimant_setDrive (s : State) (l : Lane) (d : DriveState) (x : Track) : (s.setDrive l d).claimant x = s.claimant x := rfl
@[simp] theorem State.refs_setDrive (s : State) (l : Lane) (d : DriveState) (j : Sense) (q : Port) : (s.setDrive l d).refs j q = s.refs j q := rfl
@[simp] theorem State.tally_setDrive (s : State) (l : Lane) (d : DriveState) (j : Sense) : (s.setDrive l d).tally j = s.tally j := rfl
@[simp] theorem State.useCount_setDrive (s : State) (l : Lane) (d : DriveState) (j : Slot) : (s.setDrive l d).useCount j = s.useCount j := rfl
@[simp] theorem State.bundle_setDrive (s : State) (l : Lane) (d : DriveState) (q : Port) (c : BundleNo) : (s.setDrive l d).bundle q c = s.bundle q c := rfl
@[simp] theorem State.trackList_setDrive (s : State) (l : Lane) (d : DriveState) (x : Track) : (s.setDrive l d).trackList x = s.trackList x := rfl
@[simp] theorem State.head_setDrive (s : State) (l : Lane) (d : DriveState) (x : Track) : (s.setDrive l d).head x = s.head x := rfl
@[simp] theorem State.running_setDrive (s : State) (l : Lane) (d : DriveState) (x : Track) : (s.setDrive l d).running x = s.running x := rfl
@[simp] theorem State.windowAt_setDrive (s : State) (l : Lane) (d : DriveState) (j : Slot) : (s.setDrive l d).windowAt j = s.windowAt j := rfl
@[simp] theorem State.owned_setDrive (s : State) (l : Lane) (d : DriveState) (q : Port) : (s.setDrive l d).owned q = s.owned q := rfl
@[simp] theorem State.members_setDrive (s : State) (l : Lane) (d : DriveState) (q : Port) (c : BundleNo) : (s.setDrive l d).members q c = s.members q c := rfl
@[simp] theorem State.unitOf_setDrive (s : State) (l : Lane) (d : DriveState) (w : Window) : (s.setDrive l d).unitOf w = s.unitOf w := rfl

@[simp] theorem State.port_setTally (s : State) (k : Sense) (u : TallyUnit) (q : Port) : (s.setTally k u).port q = s.port q := rfl
@[simp] theorem State.claimant_setTally (s : State) (k : Sense) (u : TallyUnit) (x : Track) : (s.setTally k u).claimant x = s.claimant x := rfl
@[simp] theorem State.refs_setTally (s : State) (k : Sense) (u : TallyUnit) (j : Sense) (q : Port) : (s.setTally k u).refs j q = s.refs j q := rfl
@[simp] theorem State.lane_setTally (s : State) (k : Sense) (u : TallyUnit) (m : Lane) : (s.setTally k u).lane m = s.lane m := rfl
@[simp] theorem State.useCount_setTally (s : State) (k : Sense) (u : TallyUnit) (j : Slot) : (s.setTally k u).useCount j = s.useCount j := rfl
@[simp] theorem State.bundle_setTally (s : State) (k : Sense) (u : TallyUnit) (q : Port) (c : BundleNo) : (s.setTally k u).bundle q c = s.bundle q c := rfl
@[simp] theorem State.trackList_setTally (s : State) (k : Sense) (u : TallyUnit) (x : Track) : (s.setTally k u).trackList x = s.trackList x := rfl
@[simp] theorem State.head_setTally (s : State) (k : Sense) (u : TallyUnit) (x : Track) : (s.setTally k u).head x = s.head x := rfl
@[simp] theorem State.running_setTally (s : State) (k : Sense) (u : TallyUnit) (x : Track) : (s.setTally k u).running x = s.running x := rfl
@[simp] theorem State.windowAt_setTally (s : State) (k : Sense) (u : TallyUnit) (j : Slot) : (s.setTally k u).windowAt j = s.windowAt j := rfl
@[simp] theorem State.owned_setTally (s : State) (k : Sense) (u : TallyUnit) (q : Port) : (s.setTally k u).owned q = s.owned q := rfl
@[simp] theorem State.members_setTally (s : State) (k : Sense) (u : TallyUnit) (q : Port) (c : BundleNo) : (s.setTally k u).members q c = s.members q c := rfl
@[simp] theorem State.unitOf_setTally (s : State) (k : Sense) (u : TallyUnit) (w : Window) : (s.setTally k u).unitOf w = s.unitOf w := rfl

@[simp] theorem State.port_setUseCount (s : State) (i : Slot) (n : Byte) (q : Port) : (s.setUseCount i n).port q = s.port q := rfl
@[simp] theorem State.claimant_setUseCount (s : State) (i : Slot) (n : Byte) (x : Track) : (s.setUseCount i n).claimant x = s.claimant x := rfl
@[simp] theorem State.refs_setUseCount (s : State) (i : Slot) (n : Byte) (j : Sense) (q : Port) : (s.setUseCount i n).refs j q = s.refs j q := rfl
@[simp] theorem State.lane_setUseCount (s : State) (i : Slot) (n : Byte) (m : Lane) : (s.setUseCount i n).lane m = s.lane m := rfl
@[simp] theorem State.tally_setUseCount (s : State) (i : Slot) (n : Byte) (j : Sense) : (s.setUseCount i n).tally j = s.tally j := rfl
@[simp] theorem State.bundle_setUseCount (s : State) (i : Slot) (n : Byte) (q : Port) (c : BundleNo) : (s.setUseCount i n).bundle q c = s.bundle q c := rfl
@[simp] theorem State.trackList_setUseCount (s : State) (i : Slot) (n : Byte) (x : Track) : (s.setUseCount i n).trackList x = s.trackList x := rfl
@[simp] theorem State.head_setUseCount (s : State) (i : Slot) (n : Byte) (x : Track) : (s.setUseCount i n).head x = s.head x := rfl
@[simp] theorem State.running_setUseCount (s : State) (i : Slot) (n : Byte) (x : Track) : (s.setUseCount i n).running x = s.running x := rfl
@[simp] theorem State.windowAt_setUseCount (s : State) (i : Slot) (n : Byte) (j : Slot) : (s.setUseCount i n).windowAt j = s.windowAt j := rfl
@[simp] theorem State.owned_setUseCount (s : State) (i : Slot) (n : Byte) (q : Port) : (s.setUseCount i n).owned q = s.owned q := rfl
@[simp] theorem State.members_setUseCount (s : State) (i : Slot) (n : Byte) (q : Port) (c : BundleNo) : (s.setUseCount i n).members q c = s.members q c := rfl
@[simp] theorem State.unitOf_setUseCount (s : State) (i : Slot) (n : Byte) (w : Window) : (s.setUseCount i n).unitOf w = s.unitOf w := rfl

@[simp] theorem State.port_draw (s : State) (q : Port) : (s.draw).port q = s.port q := rfl
@[simp] theorem State.claimant_draw (s : State) (x : Track) : (s.draw).claimant x = s.claimant x := rfl
@[simp] theorem State.refs_draw (s : State) (j : Sense) (q : Port) : (s.draw).refs j q = s.refs j q := rfl
@[simp] theorem State.lane_draw (s : State) (m : Lane) : (s.draw).lane m = s.lane m := rfl
@[simp] theorem State.tally_draw (s : State) (j : Sense) : (s.draw).tally j = s.tally j := rfl
@[simp] theorem State.useCount_draw (s : State) (j : Slot) : (s.draw).useCount j = s.useCount j := rfl
@[simp] theorem State.bundle_draw (s : State) (q : Port) (c : BundleNo) : (s.draw).bundle q c = s.bundle q c := rfl
@[simp] theorem State.trackList_draw (s : State) (x : Track) : (s.draw).trackList x = s.trackList x := rfl
@[simp] theorem State.head_draw (s : State) (x : Track) : (s.draw).head x = s.head x := rfl
@[simp] theorem State.running_draw (s : State) (x : Track) : (s.draw).running x = s.running x := rfl
@[simp] theorem State.windowAt_draw (s : State) (j : Slot) : (s.draw).windowAt j = s.windowAt j := rfl
@[simp] theorem State.owned_draw (s : State) (q : Port) : (s.draw).owned q = s.owned q := rfl
@[simp] theorem State.members_draw (s : State) (q : Port) (c : BundleNo) : (s.draw).members q c = s.members q c := rfl
@[simp] theorem State.unitOf_draw (s : State) (w : Window) : (s.draw).unitOf w = s.unitOf w := rfl

@[simp] theorem State.port_updateWindow (s : State) (i : Slot) (f : Window → Window) (q : Port) : (s.updateWindow i f).port q = s.port q := rfl
@[simp] theorem State.claimant_updateWindow (s : State) (i : Slot) (f : Window → Window) (x : Track) : (s.updateWindow i f).claimant x = s.claimant x := rfl
@[simp] theorem State.refs_updateWindow (s : State) (i : Slot) (f : Window → Window) (j : Sense) (q : Port) : (s.updateWindow i f).refs j q = s.refs j q := rfl
@[simp] theorem State.lane_updateWindow (s : State) (i : Slot) (f : Window → Window) (m : Lane) : (s.updateWindow i f).lane m = s.lane m := rfl
@[simp] theorem State.tally_updateWindow (s : State) (i : Slot) (f : Window → Window) (j : Sense) : (s.updateWindow i f).tally j = s.tally j := rfl
@[simp] theorem State.useCount_updateWindow (s : State) (i : Slot) (f : Window → Window) (j : Slot) : (s.updateWindow i f).useCount j = s.useCount j := rfl
@[simp] theorem State.bundle_updateWindow (s : State) (i : Slot) (f : Window → Window) (q : Port) (c : BundleNo) : (s.updateWindow i f).bundle q c = s.bundle q c := rfl

@[simp] theorem State.claimant_setBundle (s : State) (p : Port) (b : BundleNo) (r : Option BundleRecord) (x : Track) : (s.setBundle p b r).claimant x = s.claimant x := rfl
@[simp] theorem State.refs_setBundle (s : State) (p : Port) (b : BundleNo) (r : Option BundleRecord) (j : Sense) (q : Port) : (s.setBundle p b r).refs j q = s.refs j q := rfl
@[simp] theorem State.lane_setBundle (s : State) (p : Port) (b : BundleNo) (r : Option BundleRecord) (m : Lane) : (s.setBundle p b r).lane m = s.lane m := rfl
@[simp] theorem State.tally_setBundle (s : State) (p : Port) (b : BundleNo) (r : Option BundleRecord) (j : Sense) : (s.setBundle p b r).tally j = s.tally j := rfl
@[simp] theorem State.useCount_setBundle (s : State) (p : Port) (b : BundleNo) (r : Option BundleRecord) (j : Slot) : (s.setBundle p b r).useCount j = s.useCount j := rfl
@[simp] theorem State.trackList_setBundle (s : State) (p : Port) (b : BundleNo) (r : Option BundleRecord) (x : Track) : (s.setBundle p b r).trackList x = s.trackList x := rfl
@[simp] theorem State.head_setBundle (s : State) (p : Port) (b : BundleNo) (r : Option BundleRecord) (x : Track) : (s.setBundle p b r).head x = s.head x := rfl
@[simp] theorem State.running_setBundle (s : State) (p : Port) (b : BundleNo) (r : Option BundleRecord) (x : Track) : (s.setBundle p b r).running x = s.running x := rfl
@[simp] theorem State.windowAt_setBundle (s : State) (p : Port) (b : BundleNo) (r : Option BundleRecord) (j : Slot) : (s.setBundle p b r).windowAt j = s.windowAt j := rfl
@[simp] theorem State.owned_setBundle (s : State) (p : Port) (b : BundleNo) (r : Option BundleRecord) (q : Port) : (s.setBundle p b r).owned q = s.owned q := rfl
@[simp] theorem State.members_setBundle (s : State) (p : Port) (b : BundleNo) (r : Option BundleRecord) (q : Port) (c : BundleNo) : (s.setBundle p b r).members q c = s.members q c := rfl
@[simp] theorem State.unitOf_setBundle (s : State) (p : Port) (b : BundleNo) (r : Option BundleRecord) (w : Window) : (s.setBundle p b r).unitOf w = s.unitOf w := rfl

end Sys2Proof.Machine
end

