-- ==== Sys2Proof/Laws/Ops.lean ====
section
/-! SUPPORT. The shared operations: for each one an equation, or a next state up to named parts, that says everything it can do; cited by proofs in place of unfolding it. -/

namespace Sys2Proof.Machine

/-! ### Vectors and ports -/

theorem vector_ext_fin {α : Type} {n : Nat} {v w : Vector α n} (h : ∀ i : Fin n, v[i] = w[i]) : v = w := by
  apply Vector.ext
  intro i hi
  exact h ⟨i, hi⟩

@[simp] theorem vector_ofFn_get {α : Type} {n : Nat} (f : Fin n → α) (i : Fin n) : (Vector.ofFn f)[i] = f i := by
  simp

theorem vector_ofFn_self {α : Type} {n : Nat} (v : Vector α n) : Vector.ofFn (fun i : Fin n => v[i]) = v :=
  vector_ext_fin (fun i => vector_ofFn_get _ i)

theorem vector_set_eq_ofFn {α : Type} {n : Nat} (v : Vector α n) (i : Fin n) (a : α) :
    v.set i a = Vector.ofFn (fun j : Fin n => if i = j then a else v[j]) :=
  vector_ext_fin (fun j => (vector_get_set v i j a).trans (vector_ofFn_get (fun j : Fin n => if i = j then a else v[j]) j).symm)

theorem State.ports_eq_ofFn (s : State) : s.ports = Vector.ofFn (fun q => s.port q) := (vector_ofFn_self s.ports).symm

theorem State.setPort_self (s : State) (p : Port) : s.setPort p (s.port p) = s := by
  have h : s.ports.set p (s.port p) = s.ports := by
    rw [vector_set_eq_ofFn]
    conv => rhs; rw [← vector_ofFn_self s.ports]
    congr 1
    funext j
    by_cases e : p = j
    · subst e; simp [State.port]
    · simp [e]
  unfold State.setPort
  rw [h]

@[simp] theorem State.setPort_setPort (s : State) (p : Port) (u v : PortUnit) : (s.setPort p u).setPort p v = s.setPort p v := by
  simp [State.setPort]

/-! ### Event queues -/

/-- What appending can do: the queue grows by the record, or the lost count rises (11 R163, R164). -/
theorem PortUnit.append_cases (u : PortUnit) (r : EventRecord) :
    (u.queue.length < queueDepth ∧ u.append r = { u with queue := u.queue ++ [r] }) ∨
      (queueDepth ≤ u.queue.length ∧ u.append r = { u with lost := min (u.lost + 1) lostMax }) := by
  unfold PortUnit.append
  by_cases h : u.queue.length < queueDepth
  · exact .inl ⟨h, by rw [if_pos h]⟩
  · exact .inr ⟨Nat.not_lt.mp h, by rw [if_neg h]⟩

/-- Appending touches queue and lost count only. -/
theorem PortUnit.append_eq (u : PortUnit) (r : EventRecord) :
    u.append r = { u with queue := (u.append r).queue, lost := (u.append r).lost } := by
  rcases u.append_cases r with ⟨_, h⟩ | ⟨_, h⟩ <;> rw [h]

/-- Appending several touches queue and lost count only. -/
theorem PortUnit.appendAll_eq (rs : List EventRecord) : ∀ u : PortUnit,
    u.appendAll rs = { u with queue := (u.appendAll rs).queue, lost := (u.appendAll rs).lost } := by
  induction rs with
  | nil => intro u; rfl
  | cons r rs ih =>
    intro u
    have h : u.appendAll (r :: rs) = (u.append r).appendAll rs := rfl
    rw [h, ih (u.append r)]
    rcases u.append_cases r with ⟨_, e⟩ | ⟨_, e⟩ <;> rw [e]

@[simp] theorem PortUnit.appendAll_nil (u : PortUnit) : u.appendAll [] = u := rfl

@[simp] theorem PortUnit.appendAll_cons (u : PortUnit) (r : EventRecord) (rs : List EventRecord) :
    u.appendAll (r :: rs) = (u.append r).appendAll rs := rfl

theorem PortUnit.appendAll_append (u : PortUnit) (rs rs' : List EventRecord) :
    u.appendAll (rs ++ rs') = (u.appendAll rs).appendAll rs' := List.foldl_append

/-- The law of one queue (11 R162). -/
def PortUnit.QueueLawful (u : PortUnit) : Prop :=
  u.queue.length ≤ queueDepth ∧ u.lost ≤ lostMax ∧ (0 < u.lost → u.queue.length = queueDepth)

theorem PortUnit.append_queueLawful (u : PortUnit) (r : EventRecord) (h : u.QueueLawful) : (u.append r).QueueLawful := by
  obtain ⟨h1, h2, h3⟩ := h
  rcases u.append_cases r with ⟨hl, e⟩ | ⟨hl, e⟩
  · rw [e]
    refine ⟨?_, h2, fun hp => ?_⟩
    · simp only [List.length_append, List.length_cons, List.length_nil]; omega
    · exact absurd (h3 hp) (by omega)
  · rw [e]
    exact ⟨h1, Nat.min_le_right _ _, fun _ => Nat.le_antisymm h1 hl⟩

theorem PortUnit.appendAll_queueLawful (rs : List EventRecord) : ∀ u : PortUnit, u.QueueLawful → (u.appendAll rs).QueueLawful := by
  induction rs with
  | nil => intro u h; exact h
  | cons r rs ih => intro u h; exact ih _ (u.append_queueLawful r h)

theorem PortUnit.consume_queueLawful (u : PortUnit) (h : u.QueueLawful) (hne : u.queue ≠ []) : u.consume.QueueLawful := by
  obtain ⟨h1, h2, h3⟩ := h
  have ht : u.queue.tail.length + 1 = u.queue.length := by
    cases hq : u.queue with
    | nil => exact absurd hq hne
    | cons a l => simp
  have hd : queueDepth = 32 := rfl
  unfold PortUnit.consume
  split
  · next hc =>
    refine ⟨?_, Nat.zero_le _, fun hp => absurd hp (Nat.lt_irrefl 0)⟩
    simp only [List.length_append, List.length_cons, List.length_nil]
    omega
  · next hc =>
    refine ⟨by show u.queue.tail.length ≤ queueDepth; omega, h2, fun hp => ?_⟩
    exact absurd ⟨by have := h3 hp; omega, hp⟩ hc

/-- The records of a list that go to a port, in their order. -/
def recordsFor (q : Port) (rs : List (Port × EventRecord)) : List EventRecord :=
  (rs.filter (fun r => decide (r.1 = q))).map Prod.snd

/-- Everything that posting does: each port's queue takes its records in their order. -/
theorem State.postAll_eq (rs : List (Port × EventRecord)) : ∀ s : State,
    s.postAll rs = { s with ports := Vector.ofFn (fun q => (s.port q).appendAll (recordsFor q rs)) } := by
  induction rs with
  | nil =>
    intro s
    have h : Vector.ofFn (fun q => (s.port q).appendAll (recordsFor q [])) = s.ports := s.ports_eq_ofFn.symm
    rw [h]
    rfl
  | cons r rs ih =>
    intro s
    have h : s.postAll (r :: rs) = (s.post r.1 r.2).postAll rs := rfl
    rw [h, ih (s.post r.1 r.2)]
    have hp : (fun q => ((s.post r.1 r.2).port q).appendAll (recordsFor q rs)) =
        fun q => (s.port q).appendAll (recordsFor q (r :: rs)) := by
      funext q
      have e : (s.post r.1 r.2).port q = if r.1 = q then (s.port r.1).append r.2 else s.port q :=
        State.port_setPort s r.1 q _
      rw [e]
      by_cases hq : r.1 = q
      · subst hq
        simp [recordsFor]
      · simp [recordsFor, hq]
    rw [hp]
    rfl

theorem State.port_postAll (s : State) (rs : List (Port × EventRecord)) (q : Port) :
    (s.postAll rs).port q = (s.port q).appendAll (recordsFor q rs) := by
  rw [State.postAll_eq]
  exact vector_ofFn_get _ q

/-- Every order a draw makes is an order of the list. -/
theorem arrange_perm {α : Type} (draw : Nat) (xs : List α) : (arrange draw xs).Perm xs := by
  induction xs with
  | nil => exact List.Perm.refl _
  | cons x xs ih =>
    unfold arrange
    have hle : Config.recordPlace draw (arrange draw xs).length % ((arrange draw xs).length + 1) ≤ (arrange draw xs).length :=
      Nat.lt_succ_iff.mp (Nat.mod_lt _ (Nat.succ_pos _))
    exact (List.perm_insertIdx x _ hle).trans (ih.cons x)

/-- Everything that an unordered posting does: the records are posted in some order of theirs, and the draw may go on (11 R163). -/
theorem State.postUnordered_spec (s : State) (rs : List (Port × EventRecord)) :
    ∃ (rs' : List (Port × EventRecord)) (n : Nat), rs'.Perm rs ∧
      s.postUnordered rs =
        { s with ports := Vector.ofFn (fun q => (s.port q).appendAll (recordsFor q rs')), freeCount := n } := by
  unfold State.postUnordered
  split
  · exact ⟨rs, s.freeCount, List.Perm.refl _, State.postAll_eq rs s⟩
  · refine ⟨arrange s.freeCount rs, s.freeCount + 1, arrange_perm _ _, ?_⟩
    rw [State.postAll_eq]
    rfl

theorem recordsFor_perm (q : Port) {rs rs' : List (Port × EventRecord)} (h : rs'.Perm rs) :
    (recordsFor q rs').Perm (recordsFor q rs) := (h.filter _).map _

/-! ### Lists -/

theorem insertByStart_perm (w : Window) (vs : List Window) : (insertByStart w vs).Perm (w :: vs) := by
  induction vs with
  | nil => exact List.Perm.refl _
  | cons v vs ih =>
    unfold insertByStart
    split
    · exact List.Perm.refl _
    · exact (ih.cons v).trans (List.Perm.swap w v vs)

theorem insertByStart_sorted (w : Window) (vs : List Window) (h : vs.Pairwise (fun a b => a.start ≤ b.start)) :
    (insertByStart w vs).Pairwise (fun a b => a.start ≤ b.start) := by
  induction vs with
  | nil => exact List.pairwise_singleton _ _
  | cons v vs ih =>
    have hv := List.pairwise_cons.mp h
    unfold insertByStart
    split
    · next hlt =>
      refine List.pairwise_cons.mpr ⟨fun a ha => ?_, h⟩
      rcases List.mem_cons.mp ha with e | ha
      · subst e; exact BitVec.le_of_lt hlt
      · exact BitVec.le_trans (BitVec.le_of_lt hlt) (hv.1 a ha)
    · next hge =>
      refine List.pairwise_cons.mpr ⟨fun a ha => ?_, ih hv.2⟩
      rcases List.mem_cons.mp ((insertByStart_perm w vs).mem_iff.mp ha) with e | ha
      · subst e; exact BitVec.not_lt.mp hge
      · exact hv.1 a ha

theorem State.mem_trackList (s : State) (t : Track) (w : Window) : w ∈ s.trackList t ↔ w ∈ s.windows ∧ w.track = t := by
  simp [State.trackList]

theorem State.mem_owned (s : State) (p : Port) (w : Window) : w ∈ s.owned p ↔ w ∈ s.windows ∧ w.owner = p := by
  simp [State.owned]

theorem State.mem_members (s : State) (p : Port) (b : BundleNo) (w : Window) :
    w ∈ s.members p b ↔ w ∈ s.windows ∧ w.owner = p ∧ w.bundleNo = some b := by
  simp [State.members, Window.bundleNo]

theorem Window.among_eq_true (w : Window) (ws : List Window) : w.among ws = true ↔ ∃ v ∈ ws, v.slot = w.slot := by
  simp [Window.among]

/-- The head of a track stands in its list. -/
theorem State.head_mem {s : State} {t : Track} {w : Window} (h : s.head t = some w) : w ∈ s.windows ∧ w.track = t := by
  have hm : w ∈ s.trackList t := List.mem_of_mem_head? h
  exact (s.mem_trackList t w).mp hm

/-- The window a track runs is its ACTIVE head. -/
theorem State.running_eq_some {s : State} {t : Track} {w : Window} :
    s.running t = some w ↔ s.head t = some w ∧ w.state = .active := by
  unfold State.running
  rw [Option.filter_eq_some_iff]
  simp

theorem laneOf_laneTrack (l : Lane) : laneOf (laneTrack l) = some l := by
  unfold laneOf laneTrack
  simp

theorem senseOf_senseTrack (k : Sense) : senseOf (senseTrack k) = some k := by
  unfold senseOf senseTrack
  simp

theorem laneOf_senseTrack (k : Sense) : laneOf (senseTrack k) = none := by
  unfold laneOf senseTrack
  simp

theorem senseOf_laneTrack (l : Lane) : senseOf (laneTrack l) = none := by
  unfold senseOf laneTrack
  have := l.isLt
  simp

theorem laneOf_eq_some {t : Track} {l : Lane} : laneOf t = some l ↔ t = laneTrack l := by
  constructor
  · intro h
    unfold laneOf at h
    split at h
    · have := Option.some.inj h
      subst this
      rfl
    · cases h
  · rintro rfl; exact laneOf_laneTrack l

theorem senseOf_eq_some {t : Track} {k : Sense} : senseOf t = some k ↔ t = senseTrack k := by
  constructor
  · intro h
    unfold senseOf at h
    split at h
    · have := Option.some.inj h
      subst this
      apply Fin.ext
      show t.val = 16 + (t.val - 16)
      omega
    · cases h
  · rintro rfl; exact senseOf_senseTrack k

/-- Every track is a lane or a sense input. -/
theorem track_cases (t : Track) : (∃ l, t = laneTrack l) ∨ ∃ k, t = senseTrack k := by
  by_cases h : t.val < 16
  · exact .inl ⟨⟨t.val, h⟩, rfl⟩
  · refine .inr ⟨⟨t.val - 16, by omega⟩, Fin.ext ?_⟩
    show t.val = 16 + (t.val - 16)
    omega

/-! ### A window leaves -/

/-- Settling a lane sets that lane's drive state to IDLE, or nothing. -/
theorem State.settleLane_cases (s : State) (l : Lane) : s.settleLane l = s ∨ s.settleLane l = s.setDrive l .idle := by
  unfold State.settleLane
  split
  · split
    · exact .inl rfl
    · exact .inr rfl
  · exact .inr rfl

/-- Settling a Tally Unit touches that unit only, and keeps its seen level. -/
theorem State.settleTally_cases (s : State) (k : Sense) (w : Window) :
    ∃ c h n, s.settleTally k w = s.setTally k { seen := (s.tally k).seen, counting := c, hold := h, carried := n } ∨
      s.settleTally k w = s := by
  unfold State.settleTally
  split
  · exact ⟨_, _, _, .inl rfl⟩
  · split
    · exact ⟨_, _, _, .inl rfl⟩
    · exact ⟨none, none, 0, .inr rfl⟩

theorem State.settleTrack_lane (s : State) {w : Window} {l : Lane} (h : w.track = laneTrack l) :
    s.settleTrack w = s.settleLane l := by
  unfold State.settleTrack
  rw [h, laneOf_laneTrack]

theorem State.settleTrack_sense (s : State) {w : Window} {k : Sense} (h : w.track = senseTrack k) :
    s.settleTrack w = s.settleTally k w := by
  unfold State.settleTrack
  rw [h, laneOf_senseTrack, senseOf_senseTrack]

/-- Settling a track touches lanes and Tally Units only. -/
theorem State.settleTrack_eq (s : State) (w : Window) :
    s.settleTrack w = { s with lanes := (s.settleTrack w).lanes, tallies := (s.settleTrack w).tallies } := by
  rcases track_cases w.track with ⟨l, h⟩ | ⟨k, h⟩
  · rw [s.settleTrack_lane h]
    rcases s.settleLane_cases l with e | e <;> first | (rw [e]; done) | (rw [e]; rfl)
  · rw [s.settleTrack_sense h]
    rcases s.settleTally_cases k w with ⟨_, _, _, e | e⟩ <;> first | (rw [e]; done) | (rw [e]; rfl)

theorem laneTrack_injective {l m : Lane} (h : laneTrack l = laneTrack m) : l = m := by
  have e : (laneTrack l).val = (laneTrack m).val := by rw [h]
  exact Fin.ext e

theorem senseTrack_injective {k j : Sense} (h : senseTrack k = senseTrack j) : k = j := by
  have e : 16 + k.val = 16 + j.val := congrArg Fin.val h
  exact Fin.ext (by omega)

/-- Settling a track leaves the lanes that are other tracks alone. -/
theorem State.lane_settleTrack_other (s : State) (w : Window) (l : Lane) (h : w.track ≠ laneTrack l) :
    (s.settleTrack w).lane l = s.lane l := by
  rcases track_cases w.track with ⟨m, hm⟩ | ⟨k, hk⟩
  · have hne : m ≠ l := fun e => h (by rw [hm, e])
    rw [s.settleTrack_lane hm]
    rcases s.settleLane_cases m with e | e <;> rw [e]
    rw [State.lane_setDrive, if_neg hne]
  · rw [s.settleTrack_sense hk]
    rcases s.settleTally_cases k w with ⟨_, _, _, e | e⟩ <;> first | (rw [e]; done) | (rw [e]; rfl)

/-- Settling a track leaves the Tally Units of other tracks alone. -/
theorem State.tally_settleTrack_other (s : State) (w : Window) (k : Sense) (h : w.track ≠ senseTrack k) :
    (s.settleTrack w).tally k = s.tally k := by
  rcases track_cases w.track with ⟨m, hm⟩ | ⟨j, hj⟩
  · rw [s.settleTrack_lane hm]
    rcases s.settleLane_cases m with e | e <;> first | (rw [e]; done) | (rw [e]; rfl)
  · have hne : j ≠ k := fun e => h (by rw [hj, e])
    rw [s.settleTrack_sense hj]
    rcases s.settleTally_cases j w with ⟨_, _, _, e | e⟩ <;> rw [e]
    rw [State.tally_setTally, if_neg hne]

/-- A lane settles into what it was, or that with the drive state IDLE. -/
theorem State.lane_settleTrack_cases (s : State) (w : Window) (l : Lane) :
    (s.settleTrack w).lane l = s.lane l ∨ (s.settleTrack w).lane l = { s.lane l with drive := .idle } := by
  by_cases h : w.track = laneTrack l
  · rw [s.settleTrack_lane h]
    rcases s.settleLane_cases l with e | e <;> rw [e]
    · exact .inl rfl
    · right; rw [State.lane_setDrive, if_pos rfl]
  · exact .inl (s.lane_settleTrack_other w l h)

theorem State.lowerRef_eq (s : State) (w : Window) : s.lowerRef w = { s with trigRefs := (s.lowerRef w).trigRefs } := by
  unfold State.lowerRef
  split <;> rfl

theorem State.raiseRef_eq (s : State) (w : Window) : s.raiseRef w = { s with trigRefs := (s.raiseRef w).trigRefs } := by
  unfold State.raiseRef
  split <;> rfl

theorem State.refs_lowerRef (s : State) (w : Window) (k : Sense) (q : Port) :
    (s.lowerRef w).refs k q = s.refs k q - if w.owner = q ∧ w.shape.source = some k then 1 else 0 := by
  unfold State.lowerRef
  split
  · next j hj =>
    rw [State.refs_setRefs, hj]
    by_cases h : j = k ∧ w.owner = q
    · obtain ⟨rfl, rfl⟩ := h; simp
    · rw [if_neg h, if_neg (fun e => h ⟨Option.some.inj e.2, e.1⟩), Nat.sub_zero]
  · next hn => rw [hn]; simp

theorem State.refs_raiseRef (s : State) (w : Window) (k : Sense) (q : Port) :
    (s.raiseRef w).refs k q = s.refs k q + if w.owner = q ∧ w.shape.source = some k then 1 else 0 := by
  unfold State.raiseRef
  split
  · next j hj =>
    rw [State.refs_setRefs, hj]
    by_cases h : j = k ∧ w.owner = q
    · obtain ⟨rfl, rfl⟩ := h; simp
    · rw [if_neg h, if_neg (fun e => h ⟨Option.some.inj e.2, e.1⟩), Nat.add_zero]
  · next hn => rw [hn]; simp

/-- A Port Unit after one record of its own was freed (01 R11, 04 R58). -/
def PortUnit.without (u : PortUnit) (w : Window) : PortUnit :=
  { u with
    held := u.held - 1
    bundles := match w.bundle with
      | some b => u.bundles.set b.number none
      | none => u.bundles }

/-- Everything a window's leaving can do: its record goes, its owner's unit and trigger reference fall, and lanes or Tally Units settle. -/
theorem State.leave_spec (s : State) (w : Window) :
    ∃ ls ts rs, s.leave w = { s with
        windows := s.windows.filter (fun v => decide (v.slot ≠ w.slot))
        trigRefs := rs
        lanes := ls
        tallies := ts
        ports := s.ports.set w.owner ((s.port w.owner).without w) } ∧
      (∀ k q, (s.leave w).refs k q = s.refs k q - if w.owner = q ∧ w.shape.source = some k then 1 else 0) ∧
      (∀ l, w.track ≠ laneTrack l → (s.leave w).lane l = s.lane l) ∧
      (∀ k, w.track ≠ senseTrack k → (s.leave w).tally k = s.tally k) := by
  refine ⟨(s.leave w).lanes, (s.leave w).tallies, (s.leave w).trigRefs, ?_, ?_, ?_, ?_⟩
  · unfold State.leave
    rw [State.settleTrack_eq, State.lowerRef_eq]
    rfl
  · intro k q
    unfold State.leave
    rw [State.settleTrack_eq]
    exact State.refs_lowerRef (s.freeRecord w) w k q
  · intro l h
    unfold State.leave
    rw [State.lane_settleTrack_other _ _ _ h, State.lowerRef_eq]
    rfl
  · intro k h
    unfold State.leave
    rw [State.tally_settleTrack_other _ _ _ h, State.lowerRef_eq]
    rfl

@[simp] theorem State.leaveAll_nil (s : State) : s.leaveAll [] = s := rfl

@[simp] theorem State.leaveAll_cons (s : State) (w : Window) (ws : List Window) :
    s.leaveAll (w :: ws) = (s.leave w).leaveAll ws := rfl

/-- Everything the leaving of several windows can do outside ports, lanes, Tally Units and trigger references. -/
theorem State.leaveAll_spec (ws : List Window) : ∀ s : State,
    ∃ ls ts rs ps, s.leaveAll ws = { s with
      windows := s.windows.filter (fun v => !v.among ws)
      trigRefs := rs
      lanes := ls
      tallies := ts
      ports := ps } := by
  induction ws with
  | nil =>
    intro s
    refine ⟨s.lanes, s.tallies, s.trigRefs, s.ports, ?_⟩
    simp [Window.among]
  | cons w ws ih =>
    intro s
    obtain ⟨ls, ts, rs, ps, h⟩ := ih (s.leave w)
    obtain ⟨ls', ts', rs', h', _⟩ := s.leave_spec w
    refine ⟨ls, ts, rs, ps, ?_⟩
    have hw : (s.leave w).windows.filter (fun v => !v.among ws) = s.windows.filter (fun v => !v.among (w :: ws)) := by
      rw [h', List.filter_filter]
      apply List.filter_congr
      intro v _
      by_cases e : v.slot = w.slot
      · simp [Window.among, e]
      · have e' : ¬ w.slot = v.slot := fun x => e x.symm
        simp [Window.among, e, e']
    rw [State.leaveAll_cons, h, hw, h']

/-- The port units after several windows left: each port's own (01 R11). -/
theorem State.port_leaveAll (ws : List Window) : ∀ (s : State) (q : Port),
    (s.leaveAll ws).port q = (ws.filter (fun w => decide (w.owner = q))).foldl PortUnit.without (s.port q) := by
  induction ws with
  | nil => intro s q; rfl
  | cons w ws ih =>
    intro s q
    obtain ⟨ls, ts, rs, h, _⟩ := s.leave_spec w
    have hp : (s.leave w).port q = if w.owner = q then (s.port w.owner).without w else s.port q := by
      rw [h]; exact vector_get_set s.ports w.owner q _
    rw [State.leaveAll_cons, ih, hp]
    by_cases e : w.owner = q
    · subst e; simp
    · simp [e]

/-- The held count and the bundle records of a unit that lost several records. -/
theorem PortUnit.foldl_without (ws : List Window) : ∀ u : PortUnit,
    ws.foldl PortUnit.without u = { u with held := u.held - ws.length, bundles := u.bundlesWithout ws } := by
  induction ws with
  | nil =>
    intro u
    have h : u.bundlesWithout [] = u.bundles := by
      unfold PortUnit.bundlesWithout
      exact vector_ext_fin (fun b => by simp)
    rw [h]; rfl
  | cons w ws ih =>
    intro u
    rw [List.foldl_cons, ih]
    have hb : (u.without w).bundlesWithout ws = u.bundlesWithout (w :: ws) := by
      unfold PortUnit.bundlesWithout
      refine vector_ext_fin (fun b => ?_)
      rw [vector_ofFn_get, vector_ofFn_get]
      unfold PortUnit.without Window.bundleNo
      cases hw : w.bundle with
      | none => simp [hw]
      | some r =>
        by_cases e : r.number = b
        · simp [hw, e]
        · have h : (u.bundles.set r.number none)[b] = u.bundles[b] := (vector_get_set u.bundles r.number b none).trans (if_neg e)
          have h' : (u.bundles.set r.number.val none r.number.isLt)[b.val] = u.bundles[b.val] := h
          simp [hw, e, h']
    rw [hb]
    have hh : (u.without w).held - ws.length = u.held - (w :: ws).length := by
      show u.held - 1 - ws.length = u.held - (ws.length + 1)
      omega
    rw [hh]
    rfl

/-- The trigger references after several windows left (06 R97). -/
theorem State.refs_leaveAll (ws : List Window) : ∀ (s : State) (k : Sense) (q : Port),
    (s.leaveAll ws).refs k q =
      s.refs k q - (ws.filter (fun w => decide (w.owner = q) && decide (w.shape.source = some k))).length := by
  induction ws with
  | nil => intro s k q; rfl
  | cons w ws ih =>
    intro s k q
    obtain ⟨_, _, _, _, h, _⟩ := s.leave_spec w
    rw [State.leaveAll_cons, ih, h, List.filter_cons]
    by_cases e : w.owner = q ∧ w.shape.source = some k
    · simp only [e, and_self, if_true, decide_true, Bool.and_self, List.length_cons]
      omega
    · have : (decide (w.owner = q) && decide (w.shape.source = some k)) = false := by simpa using e
      simp only [e, if_false, this, Bool.false_eq_true]
      omega

/-- A lane none of whose windows left stays. -/
theorem State.lane_leaveAll_other (ws : List Window) : ∀ (s : State) (l : Lane), (∀ w ∈ ws, w.track ≠ laneTrack l) →
    (s.leaveAll ws).lane l = s.lane l := by
  induction ws with
  | nil => intro s l _; rfl
  | cons w ws ih =>
    intro s l h
    obtain ⟨_, _, _, _, _, hl, _⟩ := s.leave_spec w
    rw [State.leaveAll_cons, ih _ l (fun v hv => h v (List.mem_cons_of_mem _ hv)), hl l (h w List.mem_cons_self)]

/-- A Tally Unit none of whose windows left stays. -/
theorem State.tally_leaveAll_other (ws : List Window) : ∀ (s : State) (k : Sense), (∀ w ∈ ws, w.track ≠ senseTrack k) →
    (s.leaveAll ws).tally k = s.tally k := by
  induction ws with
  | nil => intro s l _; rfl
  | cons w ws ih =>
    intro s l h
    obtain ⟨_, _, _, _, _, _, ht⟩ := s.leave_spec w
    rw [State.leaveAll_cons, ih _ l (fun v hv => h v (List.mem_cons_of_mem _ hv)), ht l (h w List.mem_cons_self)]

/-- Settling several tracks touches lanes and Tally Units only. -/
theorem State.settleTracks_eq (ws : List Window) : ∀ s : State,
    ∃ ls ts, ws.foldl State.settleTrack s = { s with lanes := ls, tallies := ts } := by
  induction ws with
  | nil => intro s; exact ⟨s.lanes, s.tallies, rfl⟩
  | cons w ws ih =>
    intro s
    obtain ⟨ls, ts, h⟩ := ih (s.settleTrack w)
    refine ⟨ls, ts, ?_⟩
    rw [List.foldl_cons, h, State.settleTrack_eq]

/-! ### The end of a session -/

/-- The claims after a release of a port's (06 R95). -/
theorem State.claimant_releaseClaims (s : State) (p : Port) (x : Track) :
    (s.releaseClaims p).claimant x = if s.claimant x = some p then none else s.claimant x := by
  unfold State.releaseClaims State.claimant
  simp

/-- Everything the end of a session in DOWN does (10 R152, R154). -/
theorem State.sessionDown_eq (s : State) (p : Port) :
    s.sessionDown p = { s with
      claimants := (s.releaseClaims p).claimants
      ports := s.ports.set p ((s.port p).closedDown s.epoch) } := by
  unfold State.sessionDown State.post PortUnit.closedDown
  simp only [State.port_setPort, if_true, State.setPort_setPort]
  rfl

/-- What the end of a closing session does: all of sessionDown, or nothing (10 R152). -/
theorem State.endIfClosed_cases (s : State) (p : Port) :
    ((s.port p).session = .closing ∧ (s.port p).held = 0 ∧ s.endIfClosed p = s.sessionDown p) ∨
      (¬ ((s.port p).session = .closing ∧ (s.port p).held = 0) ∧ s.endIfClosed p = s) := by
  unfold State.endIfClosed
  by_cases h : (s.port p).session = .closing ∧ (s.port p).held = 0
  · exact .inl ⟨h.1, h.2, by rw [if_pos h]⟩
  · exact .inr ⟨h, by rw [if_neg h]⟩

/-- Everything a teardown does (10 R153): lanes and Tally Units settle. -/
theorem State.teardown_spec (s : State) (p : Port) :
    ∃ ls ts, s.teardown p = { s with
      windows := s.windows.filter (fun w => decide (w.owner ≠ p))
      trigRefs := s.trigRefs.map (fun (v : Vector Nat 4) => v.set p 0)
      lanes := ls
      tallies := ts
      ports := s.ports.set p { s.port p with held := 0, bundles := Vector.replicate 8 none } } := by
  unfold State.teardown
  obtain ⟨ls, ts, h⟩ := State.settleTracks_eq (s.owned p)
    ({ s with
        windows := s.windows.filter (fun w => decide (w.owner ≠ p))
        trigRefs := s.trigRefs.map (fun (v : Vector Nat 4) => v.set p 0) }.setPort p
      { s.port p with held := 0, bundles := Vector.replicate 8 none })
  exact ⟨ls, ts, h⟩

/-- Everything a lapse does (10 R158, R159). -/
theorem State.lapse_spec (s : State) (p : Port) (cause : LapseCause) :
    ∃ ls ts, s.lapse p cause = { s with
      windows := s.windows.filter (fun w => decide (w.owner ≠ p))
      claimants := (s.releaseClaims p).claimants
      trigRefs := s.trigRefs.map (fun (v : Vector Nat 4) => v.set p 0)
      lanes := ls
      tallies := ts
      ports := s.ports.set p ((s.port p).lapsed s.epoch cause) } := by
  obtain ⟨ls, ts, h⟩ := s.teardown_spec p
  refine ⟨ls, ts, ?_⟩
  unfold State.lapse
  rw [h]
  unfold State.releaseClaims State.setPort State.port PortUnit.lapsed
  simp

/-! ### Retirement -/

/-- Everything a retirement does (01 R15, R18): the ending records in some order, the windows leave, a CLOSING session that holds no more ends. -/
theorem State.retire_spec (s : State) (reason : Window → Reason) (w : Window) (ws : List Window) :
    ∃ (rs : List (Port × EventRecord)) (n : Nat),
      rs.Perm ((w :: ws).filterMap (fun v => endingRecord s.epoch (reason v) v)) ∧
      s.retire reason (w :: ws) =
        (({ s with ports := Vector.ofFn (fun q => (s.port q).appendAll (recordsFor q rs)), freeCount := n } : State).leaveAll
          (w :: ws)).endIfClosed w.owner := by
  obtain ⟨rs, n, hp, h⟩ := s.postUnordered_spec ((w :: ws).filterMap (fun v => endingRecord s.epoch (reason v) v))
  refine ⟨rs, n, hp, ?_⟩
  show ((s.postUnordered _).leaveAll (w :: ws)).endIfClosed w.owner = _
  rw [h]

@[simp] theorem State.retire_nil (s : State) (reason : Window → Reason) : s.retire reason [] = s := rfl

/-- The record a retirement posts goes to the window's owner, and is one of those the statements name. -/
theorem endingRecord_owner {epoch : Epoch} {reason : Reason} {w : Window} {r : Port × EventRecord}
    (h : endingRecord epoch reason w = some r) : r.1 = w.owner := by
  unfold endingRecord at h
  split at h
  · cases h; rfl
  · cases h; rfl
  · split at h
    · cases h; rfl
    · cases h

/-- A window whose run-time part fits its shape posts at its end what `endRecords` lists. -/
theorem endingRecord_eq {epoch e : Epoch} {reason : Reason} {w : Window} (h : w.runLawful e = true) :
    (endingRecord epoch reason w).toList = (endRecords epoch reason w).map (fun r => (w.owner, r)) := by
  unfold Window.runLawful at h
  unfold endingRecord endRecords Window.pulses
  split at h <;> simp_all <;> split <;> simp_all

theorem startRecord_eq (epoch : Epoch) (w : Window) :
    (startRecord epoch w).toList = (startRecords epoch w).map (fun r => (w.owner, r)) := by
  unfold startRecord startRecords
  split <;> simp

/-! ### Starts, ends and lanes -/

/-- Everything a handing over can do: window records, that lane or that Tally Unit. -/
theorem State.handOver_spec (s : State) (w : Window) :
    ∃ ws ls ts, s.handOver w = { s with windows := ws, lanes := ls, tallies := ts } := by
  unfold State.handOver
  split <;> exact ⟨_, _, _, rfl⟩

/-- Setting ends touches window records and bundle records only (05 R82). -/
theorem State.setStops_spec (s : State) (ws : List Window) (stop : Epoch) :
    ∃ ps, s.setStops ws stop = { s with
      windows := s.windows.map (fun v => if ws.any (fun w => decide (w.slot = v.slot)) then { v with stop := stop } else v)
      ports := ps } := by
  unfold State.setStops
  have h : ∀ (us : List Window) (t : State), ∃ ps,
      us.foldl (fun (t : State) w => match w.bundleNo with
        | some b => t.setBundle w.owner b ((t.bundle w.owner b).map (fun r => { r with stop := stop }))
        | none => t) t = { t with ports := ps } := by
    intro us
    induction us with
    | nil => intro t; exact ⟨t.ports, rfl⟩
    | cons u us ih =>
      intro t
      rw [List.foldl_cons]
      cases hb : u.bundleNo with
      | none => exact ih t
      | some b =>
        obtain ⟨ps, e⟩ := ih (t.setBundle u.owner b ((t.bundle u.owner b).map (fun r => { r with stop := stop })))
        exact ⟨ps, by rw [e]; rfl⟩
  exact h ws _

/-- Every lane after all compute their levels anew (07 R106). -/
@[simp] theorem State.lane_refreshLanes (s : State) (l : Lane) : s.refreshLanes.lane l = s.refreshedLane l :=
  vector_ofFn_get _ l

/-- Setting lanes anew touches lanes only (05 R82). -/
theorem State.refreshLanesOf_spec (ws : List Window) : ∀ s : State, ∃ ls, s.refreshLanesOf ws = { s with lanes := ls } := by
  induction ws with
  | nil => intro s; exact ⟨s.lanes, rfl⟩
  | cons w ws ih =>
    intro s
    have h : s.refreshLanesOf (w :: ws) = (match laneOf w.track with
      | some l => s.setLane l (s.refreshedLane l)
      | none => s).refreshLanesOf ws := rfl
    rw [h]
    cases laneOf w.track with
    | none => exact ih s
    | some l =>
      obtain ⟨ls, e⟩ := ih (s.setLane l (s.refreshedLane l))
      exact ⟨ls, by rw [e]; rfl⟩

/-- What the check of a limit does: nothing, or the end of the window that stands at it, with its whole bundle (08 R126, R127). -/
theorem State.checkLimit_cases (s : State) (i : Slot) :
    s.checkLimit i = s ∨ ∃ w, s.windowAt i = some w ∧ w.limitReached = true ∧ s.checkLimit i = s.endByLimit w := by
  unfold State.checkLimit
  cases h : s.windowAt i with
  | none => exact .inl rfl
  | some w =>
    by_cases hl : w.limitReached = true
    · exact .inr ⟨w, rfl, hl, if_pos hl⟩
    · exact .inl (if_neg hl)

/-- What a start in one change does besides ends at a limit: the windows are handed over and their START records posted in some order (01 R13, 04 R66). -/
theorem State.startAll_spec (s : State) (ws : List Window) :
    ∃ (rs : List (Port × EventRecord)) (n : Nat), rs.Perm (ws.filterMap (startRecord s.epoch)) ∧
      s.startAll ws = ws.foldl (fun t w => t.checkLimit w.slot)
        { ws.foldl State.handOver s with
          ports := Vector.ofFn (fun q => ((ws.foldl State.handOver s).port q).appendAll (recordsFor q rs))
          freeCount := n } := by
  obtain ⟨rs, n, hp, h⟩ := (ws.foldl State.handOver s).postUnordered_spec (ws.filterMap (startRecord s.epoch))
  exact ⟨rs, n, hp, by unfold State.startAll; rw [h]⟩

/-! ### Admission -/

/-- Everything an insertion does (01 R10, 02 R34, R35). -/
theorem State.insertWindow_eq (s : State) (w : Window) :
    s.insertWindow w = { s with
      windows := insertByStart w s.windows
      useCounts := s.useCounts.set w.slot w.useCount
      trigRefs := (s.raiseRef w).trigRefs
      ports := s.ports.set w.owner { s.port w.owner with held := (s.port w.owner).held + 1 } } := by
  unfold State.insertWindow State.raiseRef
  cases w.shape.source <;> rfl

/-- Everything a displacement does (03 R42 to R53): the DISPLACED records in some order, the bumped windows leave, the truncated ones end at the new start. -/
theorem State.displace_spec (s : State) (p : Port) (priority : Fin 4) (tracks : List Track) (start stop : Epoch) :
    ∃ (rs : List (Port × EventRecord)) (n : Nat),
      rs.Perm ((s.displaced p priority tracks start stop).map (displacedRecord s.epoch priority start)) ∧
      s.displace p priority tracks start stop =
        (({ s with ports := Vector.ofFn (fun q => (s.port q).appendAll (recordsFor q rs)), freeCount := n } : State).leaveAll
            ((s.displaced p priority tracks start stop).filter (fun w => decide (¬ w.start < start)))).setStops
          ((s.displaced p priority tracks start stop).filter (fun w => decide (w.start < start))) start := by
  obtain ⟨rs, n, hp, h⟩ :=
    s.postUnordered_spec ((s.displaced p priority tracks start stop).map (displacedRecord s.epoch priority start))
  refine ⟨rs, n, hp, ?_⟩
  unfold State.displace
  rw [← h]

/-- The slots that are free are those no window holds (01 R10). -/
theorem State.mem_freeSlots (s : State) (i : Slot) : i ∈ s.freeSlots ↔ ∀ w ∈ s.windows, w.slot ≠ i := by
  simp [State.freeSlots]

/-! ### Edges -/

/-- What the counting of an edge does (08 R125, R130, R134): nothing; a count into the counting window with the check of its limit; or one edge carried. -/
theorem State.countEdge_cases (s : State) (k : Sense) (level : Level) :
    s.countEdge k level = s ∨
    (∃ i w, (s.tally k).counting = some i ∧ s.windowAt i = some w ∧ w.counts level = true ∧
      s.countEdge k level = (s.updateWindow i (fun v => v.countEdges s.epoch 1)).checkLimit i) ∨
    (∃ i w, (s.tally k).counting = none ∧ (s.tally k).hold = some i ∧ s.windowAt i = some w ∧ w.counts level = true ∧
      s.countEdge k level = s.setTally k { s.tally k with carried := min ((s.tally k).carried + 1) tallyMax }) := by
  unfold State.countEdge
  cases hc : (s.tally k).counting with
  | some i =>
    cases hw : s.windowAt i with
    | none => exact .inl (by simp only [hw])
    | some w =>
      by_cases h : w.counts level = true
      · exact .inr (.inl ⟨i, w, rfl, hw, h, by simp only [hw, h, if_true]⟩)
      · exact .inl (by simp only [hw, h, Bool.false_eq_true, if_false])
  | none =>
    cases hh : (s.tally k).hold with
    | none => exact .inl rfl
    | some i =>
      cases hw : s.windowAt i with
      | none => exact .inl (by simp only [hw])
      | some w =>
        by_cases h : w.counts level = true
        · exact .inr (.inr ⟨i, w, rfl, rfl, hw, h, by simp only [hw, h, if_true]⟩)
        · exact .inl (by simp only [hw, h, Bool.false_eq_true, if_false])

end Sys2Proof.Machine
end

