-- ==== Sys2Proof/Laws/Link.lean ====
section
/-! SUPPORT. The port link: what a request row comes to when its frame is taken, and what the gate lets through. -/

namespace Sys2Proof.Machine

/-- A request row is a request frame judged at its port. -/
theorem exec_rowOf (p : Port) (seq : Seq) (r : Request) (s : State) :
    exec (rowOf p seq r) s = .next (requestCommand p seq r s) := by
  cases r <;> rfl

/-- Everything the reload of the silence timer does (10 R155). -/
theorem State.reloadTimer_eq (s : State) (p : Port) :
    s.reloadTimer p = s.setPort p { s.port p with silenceTimer := (s.port p).reloadedTimer } := by
  have self := s.setPort_self p
  unfold State.reloadTimer
  generalize s.port p = u at self ⊢
  obtain ⟨session, quota, held, limit⟩ := u
  cases session <;> cases limit <;> first | rfl | exact self.symm

/-- The state in which the owning block judges a request that is taken: timer reloaded, identity set (12 R175). -/
def State.taken (s : State) (p : Port) (seq : Seq) (r : Request) : State :=
  s.setPort p { s.port p with
    silenceTimer := (s.port p).reloadedTimer
    identity := some (seq, crc (frameBody seq r)) }

theorem State.port_taken (s : State) (p : Port) (seq : Seq) (r : Request) (q : Port) :
    (s.taken p seq r).port q = if p = q then { s.port p with
      silenceTimer := (s.port p).reloadedTimer
      identity := some (seq, crc (frameBody seq r)) } else s.port q := State.port_setPort s p q _

@[simp] theorem State.taken_windows (s : State) (p : Port) (seq : Seq) (r : Request) : (s.taken p seq r).windows = s.windows := rfl

@[simp] theorem State.taken_epoch (s : State) (p : Port) (seq : Seq) (r : Request) : (s.taken p seq r).epoch = s.epoch := rfl

@[simp] theorem State.claimant_taken (s : State) (p : Port) (seq : Seq) (r : Request) (x : Track) :
    (s.taken p seq r).claimant x = s.claimant x := rfl

@[simp] theorem State.refs_taken (s : State) (p : Port) (seq : Seq) (r : Request) (k : Sense) (q : Port) :
    (s.taken p seq r).refs k q = s.refs k q := rfl

@[simp] theorem State.lane_taken (s : State) (p : Port) (seq : Seq) (r : Request) (l : Lane) :
    (s.taken p seq r).lane l = s.lane l := rfl

/-- Session, quota, held count and bundle records are those of the state the frame met. -/
theorem State.taken_session (s : State) (p : Port) (seq : Seq) (r : Request) (q : Port) :
    ((s.taken p seq r).port q).session = (s.port q).session ∧ ((s.taken p seq r).port q).quota = (s.port q).quota ∧
      ((s.taken p seq r).port q).held = (s.port q).held ∧ ((s.taken p seq r).port q).bundles = (s.port q).bundles := by
  rw [State.port_taken]
  split
  · next e => subst e; exact ⟨rfl, rfl, rfl, rfl⟩
  · exact ⟨rfl, rfl, rfl, rfl⟩

/-- A fresh request is taken: the owning block answers it, and the reply fills the slot (12 R175). -/
theorem requestCommand_fresh {p : Port} {seq : Seq} {r : Request} {s : State} (h : Fresh p seq r s) :
    requestCommand p seq r s =
      (answerFrame p (Frame.ofRequest seq r) (s.taken p seq r)).1.fillSlot p seq (requestName r).code
        (answerFrame p (Frame.ofRequest seq r) (s.taken p seq r)).2 := by
  obtain ⟨h1, h2, h3⟩ := h
  unfold requestCommand
  rw [if_pos h1]
  unfold judgeFrame
  have hi : ((s.reloadTimer p).port p).identity = (s.port p).identity := by
    rw [State.reloadTimer_eq, State.port_setPort, if_pos rfl]
  have hs : ((s.reloadTimer p).port p).replySlot = none := by
    rw [State.reloadTimer_eq, State.port_setPort, if_pos rfl]; exact h2
  have ht : (s.reloadTimer p).setIdentity p (Frame.ofRequest seq r) = s.taken p seq r := by
    unfold State.setIdentity State.taken
    rw [State.reloadTimer_eq, State.setPort_setPort, State.port_setPort, if_pos rfl]
    rfl
  have hid : ¬ ((s.reloadTimer p).port p).identity = some ((Frame.ofRequest seq r).seq, (Frame.ofRequest seq r).crc) := by
    rw [hi]; exact h3
  simp only [hid, if_false, hs, Option.isSome_none, Bool.false_eq_true]
  unfold takeFrame
  rw [ht]
  rfl

/-- A request that passes the session gate is answered by its owning block (12 R175). -/
theorem answerFrame_passed {p : Port} {seq : Seq} {r : Request} {s : State}
    (h : sessionGate (requestName r) (s.port p).session = none) :
    answerFrame p (Frame.ofRequest seq r) s = answerRequest p r s := by
  unfold answerFrame
  simp only [Frame.ofRequest, h]

/-- A request that the session gate refuses changes nothing but its reply (10 R146). -/
theorem answerFrame_refused {p : Port} {seq : Seq} {r : Request} {s : State} {st : Status}
    (h : sessionGate (requestName r) (s.port p).session = some st) :
    answerFrame p (Frame.ofRequest seq r) s = (s, gateRefusal (requestName r) st) := by
  unfold answerFrame
  simp only [Frame.ofRequest, h]

/-- A taken request whose owning block changes nothing: the reply is the whole of its effect. -/
theorem taken_fillSlot (s : State) (p : Port) (seq : Seq) (r : Request) (a : Answer) :
    (s.taken p seq r).fillSlot p seq (requestName r).code a = s.answered p seq r a := by
  unfold State.fillSlot State.answered PortUnit.answered
  rw [State.port_taken, if_pos rfl]
  unfold State.taken
  rw [State.setPort_setPort]
  rfl

/-- A fresh request that its gate passes and its owning block answers without a change. -/
theorem requestCommand_unchanged {p : Port} {seq : Seq} {r : Request} {s : State} {a : Answer} (h : Fresh p seq r s)
    (hg : sessionGate (requestName r) (s.port p).session = none)
    (ha : answerRequest p r (s.taken p seq r) = (s.taken p seq r, a)) :
    requestCommand p seq r s = s.answered p seq r a := by
  have e : answerFrame p (Frame.ofRequest seq r) (s.taken p seq r) = (s.taken p seq r, a) := by
    rw [answerFrame_passed (by rw [(s.taken_session p seq r p).1]; exact hg), ha]
  rw [requestCommand_fresh h, e]
  exact taken_fillSlot s p seq r a

/-- A fresh request that its gate refuses. -/
theorem requestCommand_gate {p : Port} {seq : Seq} {r : Request} {s : State} {st : Status} (h : Fresh p seq r s)
    (hg : sessionGate (requestName r) (s.port p).session = some st) :
    requestCommand p seq r s = s.answered p seq r (gateRefusal (requestName r) st) := by
  have e : answerFrame p (Frame.ofRequest seq r) (s.taken p seq r) = (s.taken p seq r, gateRefusal (requestName r) st) :=
    answerFrame_refused (by rw [(s.taken_session p seq r p).1]; exact hg)
  rw [requestCommand_fresh h, e]
  exact taken_fillSlot s p seq r _

/-- The slot filled keeps every other part of the state. -/
theorem State.fillSlot_eq (s : State) (p : Port) (seq : Seq) (code : Byte) (a : Answer) :
    s.fillSlot p seq code a = { s with ports := s.ports.set p { s.port p with
      replySlot := some { seq, code, answer := a, retry := false, overrun := false } } } := rfl

end Sys2Proof.Machine
end

