-- ==== Sys2Proof/Laws/Wire.lean ====
section
/-! SUPPORT. The wire layouts: fields read back from their bytes, lengths of layouts, the CRC over one more byte, the fields of results as bytes. -/

namespace Sys2Proof.Machine

/-! ### Fields -/

theorem word16_bytes (x : BitVec 16) : word16 (x.extractLsb' 8 8) (x.extractLsb' 0 8) = x := by
  unfold word16
  ext i hi
  simp only [BitVec.getElem_append, BitVec.getElem_extractLsb', Nat.zero_add]
  split
  · exact BitVec.getLsbD_eq_getElem hi
  · rw [show 8 + (i - 8) = i by omega]; exact BitVec.getLsbD_eq_getElem hi

theorem word64_bytes (x : BitVec 64) :
    word64 (x.extractLsb' 56 8) (x.extractLsb' 48 8) (x.extractLsb' 40 8) (x.extractLsb' 32 8)
      (x.extractLsb' 24 8) (x.extractLsb' 16 8) (x.extractLsb' 8 8) (x.extractLsb' 0 8) = x := by
  unfold word64
  ext i hi
  simp only [BitVec.getElem_append, BitVec.getElem_extractLsb']
  repeat' split
  all_goals
    rw [← BitVec.getLsbD_eq_getElem hi]
    congr 1
    omega

@[simp] theorem bytes16_length (x : BitVec 16) : (bytes16 x).length = 2 := rfl

@[simp] theorem bytes24_length (x : BitVec 24) : (bytes24 x).length = 3 := rfl

@[simp] theorem bytes64_length (x : BitVec 64) : (bytes64 x).length = 8 := rfl

@[simp] theorem bookingBytes_length (b : Booking) : (bookingBytes b).length = 20 := rfl

@[simp] theorem descriptorBytes_length (d : Descriptor) : (descriptorBytes d).length = 10 := rfl

theorem descriptors_length (ds : List Descriptor) : (ds.flatMap descriptorBytes).length = 10 * ds.length := by
  induction ds with
  | nil => rfl
  | cons d ds ih => rw [List.flatMap_cons, List.length_append, ih, descriptorBytes_length, List.length_cons]; omega

theorem byteOf_toNat {n : Nat} (h : n < 256) : (byteOf n).toNat = n := by
  unfold byteOf
  rw [BitVec.toNat_ofNat]
  exact Nat.mod_eq_of_lt h

/-! ### Bits on the link -/

@[simp] theorem bitLevels_length (b : Byte) : (bitLevels b).length = 8 := rfl

/-- A byte is read back from its levels, most significant bit first (12 R173). -/
theorem byteOfLevels_bits (b : Byte) :
    byteOfLevels (levelOf (b.getMsbD 0)) (levelOf (b.getMsbD 1)) (levelOf (b.getMsbD 2)) (levelOf (b.getMsbD 3))
      (levelOf (b.getMsbD 4)) (levelOf (b.getMsbD 5)) (levelOf (b.getMsbD 6)) (levelOf (b.getMsbD 7)) = b := by
  revert b
  decide +kernel

/-- Bytes clocked in whole are read back, and what follows them is read behind them. -/
theorem wholeBytes_flatMap_append (bs : List Byte) (rest : List Level) :
    wholeBytes (bs.flatMap bitLevels ++ rest) = bs ++ wholeBytes rest := by
  induction bs with
  | nil => rfl
  | cons b bs ih =>
    rw [List.flatMap_cons, List.append_assoc]
    show byteOfLevels _ _ _ _ _ _ _ _ :: wholeBytes (bs.flatMap bitLevels ++ rest) = _
    rw [ih]
    exact congrArg (· :: _) (byteOfLevels_bits b)

/-- A byte cut short before its eighth clock is not counted (12 R173). -/
theorem wholeBytes_cut {cut : List Level} (h : cut.length < 8) : wholeBytes cut = [] := by
  match cut, h with
  | [], _ | [_], _ | [_, _], _ | [_, _, _], _ | [_, _, _, _], _ | [_, _, _, _, _], _ | [_, _, _, _, _, _], _
  | [_, _, _, _, _, _, _], _ => rfl
  | _ :: _ :: _ :: _ :: _ :: _ :: _ :: _ :: _, h => simp only [List.length_cons] at h; omega

/-- Bytes clocked in whole, and one cut short. -/
theorem wholeBytes_flatMap_cut (bs : List Byte) {cut : List Level} (h : cut.length < 8) :
    wholeBytes (bs.flatMap bitLevels ++ cut) = bs := by
  rw [wholeBytes_flatMap_append, wholeBytes_cut h, List.append_nil]

/-! ### Requests -/

theorem RequestName.ofCode_code (n : RequestName) : RequestName.ofCode n.code = some n := by
  cases n <;> decide

theorem RequestName.code_injective {m n : RequestName} (h : m.code = n.code) : m = n := by
  have e := congrArg RequestName.ofCode h
  rw [RequestName.ofCode_code, RequestName.ofCode_code] at e
  exact Option.some.inj e

theorem RequestName.ofCode_none {c : Byte} (h : ∀ n : RequestName, n.code ≠ c) : RequestName.ofCode c = none := by
  unfold RequestName.ofCode
  rw [List.find?_eq_none]
  intro n _
  simpa using h n

theorem readBooking_bookingBytes (b : Booking) (rest : List Byte) : readBooking (bookingBytes b ++ rest) = some (b, rest) := by
  show some (Booking.mk (word64 _ _ _ _ _ _ _ _) (word64 _ _ _ _ _ _ _ _) b.priority b.notify (word16 _ _), rest) = _
  rw [word64_bytes, word64_bytes, word16_bytes]

theorem readDescriptors_flatMap (ds : List Descriptor) : readDescriptors ds.length (ds.flatMap descriptorBytes) = some ds := by
  induction ds with
  | nil => rfl
  | cons d ds ih =>
    show (readDescriptors ds.length (ds.flatMap descriptorBytes)).map _ = _
    rw [ih]
    rfl

/-- Operand bytes of every request that a frame carries are read back (12 R180). -/
theorem readOperands_operandBytes (r : Request)
    (h : ∀ b ds, r = .reserveBundle b ds → ds.length < 256) : readOperands (requestName r) (operandBytes r) = some r := by
  cases r with
  | openSession q l => show some (Request.openSession q (word16 _ _)) = _; rw [word16_bytes]
  | closeGraceful => rfl
  | closeAbrupt => rfl
  | readEpoch => rfl
  | queryPool => rfl
  | claim t => rfl
  | release t => rfl
  | queryTrack t => rfl
  | setLane l p i => rfl
  | reserve b d =>
    show (match readBooking (bookingBytes b ++ descriptorBytes d) with
      | some (b, rest) =>
        match readDescriptors 1 rest with
        | some [d] => some (Request.reserve b d)
        | _ => none
      | none => none) = _
    rw [readBooking_bookingBytes]
    rfl
  | reserveBundle b ds =>
    show (match readBooking (bookingBytes b ++ byteOf ds.length :: ds.flatMap descriptorBytes) with
      | some (b, n :: rest) => (readDescriptors n.toNat rest).map (fun ds => Request.reserveBundle b ds)
      | _ => none) = _
    rw [readBooking_bookingBytes]
    show (readDescriptors (byteOf ds.length).toNat (ds.flatMap descriptorBytes)).map _ = _
    rw [byteOf_toNat (h b ds rfl), readDescriptors_flatMap]
    rfl
  | cancel x => show some (Request.cancel (word16 _ _)) = _; rw [word16_bytes]
  | amendEnd x e => show some (Request.amendEnd (word16 _ _) (word64 _ _ _ _ _ _ _ _)) = _; rw [word16_bytes, word64_bytes]
  | flush t => rfl
  | queryWindow x => show some (Request.queryWindow (word16 _ _)) = _; rw [word16_bytes]

/-! ### The CRC and outbound frames -/

@[simp] theorem crc_nil : crc [] = 0x00 := rfl

theorem crc_append_singleton (bs : List Byte) (b : Byte) : crc (bs ++ [b]) = crcByte (crc bs) b := by
  unfold crc
  rw [List.foldl_append]
  rfl

theorem frameOf_length (inner : List Byte) : (frameOf inner).length = inner.length + 2 := by
  unfold frameOf
  simp

/-- Every outbound frame is made by `frameOf`. -/
theorem OutboundItem.frame_eq (x : OutboundItem) : ∃ inner, x.frame = frameOf inner := by
  cases x with
  | reply r => exact ⟨_, rfl⟩
  | event e => exact ⟨_, rfl⟩
  | idle => exact ⟨_, rfl⟩

/-! ### Outbound fields -/

theorem fieldBytes_one (n : Nat) : fieldBytes (1, n) = [byteOf n] := by
  simp [fieldBytes, byteOf, List.range_succ]

theorem fieldBytes_word16 (x : BitVec 16) : fieldBytes (2, x.toNat) = bytes16 x := by
  simp [fieldBytes, bytes16, List.range_succ, BitVec.extractLsb', Nat.shiftRight_eq_div_pow]

theorem fieldBytes_two (n : Nat) : fieldBytes (2, n) = bytes16 (BitVec.ofNat 16 n) := by
  simp only [fieldBytes, bytes16, List.range_succ, BitVec.extractLsb', Nat.shiftRight_eq_div_pow]
  simp
  constructor <;> apply BitVec.eq_of_toNat_eq <;> simp <;> omega

theorem fieldBytes_three (n : Nat) : fieldBytes (3, n) = bytes24 (BitVec.ofNat 24 n) := by
  simp only [fieldBytes, bytes24, List.range_succ, BitVec.extractLsb', Nat.shiftRight_eq_div_pow]
  simp
  refine ⟨?_, ?_, ?_⟩ <;> apply BitVec.eq_of_toNat_eq <;> simp <;> omega

theorem fieldBytes_epoch (e : Epoch) : fieldBytes (8, e.toNat) = bytes64 e := by
  simp [fieldBytes, bytes64, List.range_succ, BitVec.extractLsb', Nat.shiftRight_eq_div_pow]

theorem fieldBytes_zero_epoch : fieldBytes (8, 0) = bytes64 0 := by decide

theorem fieldBytes_optionalEpoch (e : Option Epoch) :
    fieldBytes (8, (e.map BitVec.toNat).getD 0) = optionalEpoch e := by
  cases e with
  | none => decide
  | some e => exact fieldBytes_epoch e

/-- The results of a reply are its fields, one after another (12 R183). -/
theorem Results.bytes_eq_fields (r : Results) : r.bytes = (resultFields r).flatMap fieldBytes := by
  cases r with
  | none => rfl
  | opened e f q l =>
    cases f <;> simp [Results.bytes, resultFields, fieldBytes_one, fieldBytes_epoch, fieldBytes_two, FreezeState.code, byteOf]
  | closedGraceful st r l =>
    cases st <;> simp [Results.bytes, resultFields, fieldBytes_one, SessionState.code, sessionNumber, byteOf]
  | closedAbrupt n e => simp [Results.bytes, resultFields, fieldBytes_one, fieldBytes_epoch]
  | epochRead e f d =>
    cases f <;> simp [Results.bytes, resultFields, fieldBytes_one, fieldBytes_epoch, FreezeState.code, byteOf]
  | pool f u st h q b =>
    cases st <;> simp [Results.bytes, resultFields, fieldBytes_one, SessionState.code, sessionNumber, byteOf]
  | trackReport c n hs tr at' =>
    simp only [Results.bytes, resultFields, List.flatMap_cons, List.flatMap_nil, fieldBytes_one, fieldBytes_optionalEpoch]
    cases c <;> cases hs <;> cases tr <;> rcases at' with _ | ⟨p, i⟩ <;> (try cases p) <;> (try cases i) <;>
      simp [numberOrNone, presenceFlags, flagBit, flagsNumber, byteOf, idleDriveNumber, Polarity.code, IdleDrive.code]
  | reserved h => simp [Results.bytes, resultFields, fieldBytes_word16]
  | bundled b hs =>
    simp only [Results.bytes, resultFields, List.flatMap_cons, fieldBytes_one, List.flatMap_map, fieldBytes_word16]
    rfl
  | removed n => simp [Results.bytes, resultFields, fieldBytes_one, fieldBytes_zero_epoch, byteOf]
  | ended n e => simp [Results.bytes, resultFields, fieldBytes_one, fieldBytes_epoch, byteOf]
  | amended e => simp [Results.bytes, resultFields, fieldBytes_epoch]
  | flushed n => simp [Results.bytes, resultFields, fieldBytes_one]
  | windowReport st a b t p n =>
    cases st <;> cases n <;>
      simp [Results.bytes, resultFields, fieldBytes_one, fieldBytes_epoch, WindowState.code, byteOf, numberOrNone]
  | quotaAvailable n => simp [Results.bytes, resultFields, fieldBytes_one]
  | value e => simp [Results.bytes, resultFields, fieldBytes_epoch]
  | member i v =>
    cases i <;> cases v <;>
      simp [Results.bytes, resultFields, fieldBytes_one, fieldBytes_epoch, memberByte, furtherBytes, byteOf]

end Sys2Proof.Machine
end

