-- ==== Sys2Proof/Tests/Slice0.lean ====
section
/-! SUPPORT. Tests: ill-formed terms refused, worked values of the spec, one step of each command on small states, and for every statement with hypotheses a state and operands that meet them. -/

namespace Sys2Proof.Tests

open Sys2Proof.Machine

/-! ### Small states -/

/-- A PENDING window as admitted, with both notify flags, priority 1 and tag 7; use count 1. -/
def win (p : Port) (slot : Slot) (t : Track) (start stop : Epoch) (shape : Shape) : Window where
  slot := slot
  useCount := 1
  owner := p
  track := t
  start := start
  stop := stop
  priority := 1
  shape := shape
  noteStart := true
  noteEnd := true
  tag := 7
  bundle := none
  state := .pending
  run := shape.firstRun

/-- The window ACTIVE. -/
def live (w : Window) : Window := { w with state := .active }

/-- The window as a member of bundle 0. -/
def inBundle (leader : Bool) (w : Window) : Window := { w with bundle := some { number := 0, leader } }

/-- The bundle record that describes the members of bundle 0 among the windows given. -/
def recordOf (ws : List Window) : Option BundleRecord :=
  match ws with
  | [] => none
  | w :: _ => some { handles := ws.map Window.handle, start := w.start, stop := w.stop, state := w.state }

/-- A part at an epoch value whose four ports hold OPEN sessions with quota 48 and own the windows given, listed by start. -/
def scene (epoch : Epoch) (ws : List Window) : State :=
  let s := { State.reset with
    windows := ws
    epoch := epoch
    useCounts := Vector.ofFn (fun i : Slot => if ws.any (fun w => decide (w.slot = i)) then 1 else 0)
    trigRefs := Vector.ofFn (fun k : Sense => Vector.ofFn (fun p : Port =>
      (ws.filter (fun w : Window => decide (w.owner = p) && decide (w.shape.source = some k))).length))
    ports := Vector.ofFn (fun p : Port => { PortUnit.reset with
      session := .opened
      quota := 48
      held := (ws.filter (fun w : Window => decide (w.owner = p))).length
      silenceLimit := some 1
      silenceTimer := some 65536
      bundles := (Vector.replicate 8 none).set (0 : BundleNo)
        (recordOf (ws.filter (fun w : Window => decide (w.owner = p) && w.bundle.isSome))) }) }
  { s with
    lanes := Vector.ofFn (fun l : Lane => match s.running (laneTrack l) with
      | some w => { LaneDriver.reset with drive := w.driveAt epoch }
      | none => LaneDriver.reset)
    tallies := Vector.ofFn (fun k : Sense =>
      { TallyUnit.reset with counting := (s.running (senseTrack k)).map Window.slot }) }

/-- A change of one port. -/
def onPort (p : Port) (f : PortUnit → PortUnit) (s : State) : State := s.setPort p (f (s.port p))

/-- The session of a port in a state without windows of its own: DOWN or LAPSED. -/
def rested (st : SessionState) (u : PortUnit) : PortUnit :=
  { u with session := st, quota := 0, silenceLimit := none, silenceTimer := none }

/-- What a command's next state shows. -/
def after (c : Instr) (s : State) (f : State → Bool) : Bool :=
  match exec c s with
  | .next t => f t
  | _ => false

/-- The reply a command leaves in the slot of a port. -/
def replyIs (p : Port) (st : Status) (r : Results) (t : State) : Bool :=
  match (t.port p).replySlot with
  | some x => decide (x.answer = { status := st, results := r })
  | none => false

/-- All laws, as one computation. -/
def lawful (s : State) : Bool :=
  decide (QueueLaw s) && decide (TimebaseLaw s) && decide (SessionLaw s) && decide (PoolLaw s) &&
    decide (ReferenceLaw s) && decide (BundleLaw s) && decide (RestLaw s) && decide (ClosingLaw s) &&
    decide (ClaimLaw s) && decide (TrackLaw s) && decide (∀ w ∈ s.windows, w.lawful s) && decide (LaneLaw s) &&
    decide (TallyLaw s)

/-- A state that keeps the laws. -/
abbrev LawfulState := { s : State // lawful s = true }

theorem lawful_of_check {s : State} (h : lawful s = true) : Lawful s := by
  unfold lawful at h
  simp only [Bool.and_eq_true, decide_eq_true_eq] at h
  obtain ⟨⟨⟨⟨⟨⟨⟨⟨⟨⟨⟨⟨h1, h2⟩, h3⟩, h4⟩, h5⟩, h6⟩, h7⟩, h8⟩, h9⟩, h10⟩, h11⟩, h12⟩, h13⟩ := h
  exact ⟨h1, h2, ⟨h3, h4, h5, h6, h7⟩, h8, h9, h10, h11, h12, h13⟩


/-! ### The small states of the tests -/

/-- Port 0, lane 3, STEADY, 100 to 200. -/
def steady : Window := win 0 0 3 100 200 .steady

/-- Port 0, sense input 0, rising edges, limit 2, 100 to 200. -/
def counter : Window := win 0 0 16 100 200 (.tally .rise (some 2))

/-- Port 0, lane 2, TRIGGERED on rising edges of sense input 0, width 5, budget 1, 100 to 200. -/
def strobe : Window := win 0 1 2 100 200 (.triggered 0 .rise 5 1)

/-- The strobe in a pulse that ends at 155. -/
def pulsing : Window := { live strobe with run := .trigger { emitted := 1, pulseEnd := some 155, arming := .armed } }

/-- A bundle of port 0: the counter leads, the strobe follows. -/
def pair : List Window := [inBundle true counter, inBundle false strobe]

def keepsOpen : LawfulState := ⟨scene 0 [], by decide +kernel⟩
def sOpen : State := keepsOpen.1
theorem lawful_open : Lawful sOpen := lawful_of_check keepsOpen.2
def keepsPending : LawfulState := ⟨scene 0 [steady], by decide +kernel⟩
def sPending : State := keepsPending.1
theorem lawful_pending : Lawful sPending := lawful_of_check keepsPending.2
def keepsActive : LawfulState := ⟨scene 150 [live steady], by decide +kernel⟩
def sActive : State := keepsActive.1
theorem lawful_active : Lawful sActive := lawful_of_check keepsActive.2
def keepsPair : LawfulState := ⟨scene 0 pair, by decide +kernel⟩
def sPair : State := keepsPair.1
theorem lawful_pair : Lawful sPair := lawful_of_check keepsPair.2

/-- A handover hold of sense input 0 in which `n` edges were carried for the head, which starts now. -/
def held (n : Nat) (s : State) : State := s.setTally 0 { s.tally 0 with hold := some 0, carried := n }

/-- A transaction of port 0 in progress, with the item it carries. -/
def during (x : OutboundItem) (s : State) : State :=
  onPort 0 (fun u => { u with transaction := some { item := x, cleared := false, exchanged := [] } }) s

/-- The levels of bytes clocked in. -/
def shifted (bs : List Byte) : List Level := bs.flatMap bitLevels

/-- A reply to QUERY_WINDOW, and one that is BAD_FRAME. -/
def someReply : Reply :=
  { seq := 3, code := 0x2B, answer := { status := .noSuchWindow, results := .none }, retry := false, overrun := false }
def badReply : Reply :=
  { seq := 3, code := 0x00, answer := { status := .badFrame, results := .none }, retry := false, overrun := false }

/-- A booking of 100 to 200 with priority 2 and no notify flag. -/
def booking : Booking := { start := 100, stop := 200, priority := 2, notify := 0, tag := 9 }

def steadyOn (track : Byte) : Descriptor := ⟨track, 0x01, 0, 0, 0, 0, 0, 0, 0, 0⟩
def countOn (track : Byte) : Descriptor := ⟨track, 0x08, 0x01, 0x01, 0, 0, 2, 0, 0, 0⟩
def strobeOn (track : Byte) : Descriptor := ⟨track, 0x04, 0x00, 0x01, 0, 5, 1, 0, 0, 0⟩

/-- The member that the descriptor of a STEADY window on a track is judged as. -/
def steadyMember (t : Track) : Member := { track := t, shape := .steady, priority := 2, noteStart := false, noteEnd := false }
def strobeMember (t : Track) : Member :=
  { track := t, shape := .triggered 0 .rise 5 1, priority := 2, noteStart := false, noteEnd := false }

/-! ### Well-formed terms -/

/-- Ten descriptors make the longest RESERVE_BUNDLE frame. -/
theorem test_wellFormed_ten_descriptors :
    (Instr.reserveBundle 0 1 booking (List.replicate 10 (steadyOn 3))).wellFormed = true := by decide

/-- Eleven descriptors make no frame, so the term is refused. -/
theorem test_wellFormed_refuses_eleven_descriptors :
    (Instr.reserveBundle 0 1 booking (List.replicate 11 (steadyOn 3))).wellFormed = false := by decide

theorem test_request_wellFormed_refuses_eleven_descriptors :
    (Request.reserveBundle booking (List.replicate 11 (steadyOn 3))).wellFormed = false := by decide

/-- The opcode table gives no row any bits. -/
theorem test_no_word_spells_a_command : decodeTableWord 8 0x03 = none ∧ State.reset.withFetchWord 8 0x03 = State.reset := by
  decide +kernel

/-! ### Worked values of the spec -/

/-- The CRC example (12 R179). -/
theorem test_crc_example : crc [0x03, 0x50, 0x03] = 0xB8 := by decide +kernel

/-- READ_EPOCH with sequence 5, whole frame (12 R179). -/
theorem test_readEpoch_frame : requestFrame 5 .readEpoch = [0x03, 0x50, 0x03, 0xB8] := by decide +kernel

/-- QUERY_WINDOW for 0x0122 with sequence 3 is a 6-byte frame with the handle most significant byte first (12 R180). -/
theorem test_queryWindow_frame : (requestFrame 3 (.queryWindow 0x0122)).take 5 = [0x05, 0x30, 0x2B, 0x01, 0x22] ∧
    (requestFrame 3 (.queryWindow 0x0122)).length = 6 := by decide +kernel

/-- A READ_EPOCH frame with low bits 0x9 in byte 1 reads as the same request with its own CRC (12 R180). -/
theorem test_low_bits_are_ignored : readInbound (bodyWithLow 5 9 .readEpoch ++ [crc (bodyWithLow 5 9 .readEpoch), 0xFF]) =
    .request { Frame.ofRequest 5 .readEpoch with crc := crc (bodyWithLow 5 9 .readEpoch) } := by decide +kernel

/-- Byte 0x03 is sent most significant bit first, and three clocks more make no byte (12 R173). -/
theorem test_bits_of_a_byte : bitLevels 0x03 = [.low, .low, .low, .low, .low, .low, .high, .high] ∧
    wholeBytes [.low, .low, .low, .low, .low, .low, .high, .high, .high, .high, .high] = [0x03] := by decide +kernel

/-- The reply lengths of the link trace (12 "Worked link trace"): QUERY_WINDOW 26 bytes, CANCEL 16, IDLE 3, START 16. -/
theorem test_frame_lengths :
    ({ someReply with answer := okAnswer (.windowReport .pending 0 1 3 1 none) } : Reply).frame.length = 26 ∧
      ({ someReply with answer := okAnswer (.removed 1) } : Reply).frame.length = 16 ∧ idleFrame.length = 3 ∧
      (EventRecord.start 0x0121 7 0).frame.length = 16 := by decide +kernel

/-- Handles of slot 5 at its first, second and 256th allocation (01 R8). -/
theorem test_handles_of_slot_five :
    ((win 0 5 3 0 1 .steady).handle = 0x0105) ∧ ({ win 0 5 3 0 1 .steady with useCount := 2 } : Window).handle = 0x0205 ∧
      ({ win 0 5 3 0 1 .steady with useCount := 0 } : Window).handle = 0x0005 := by decide

/-- A record appended to a full queue is discarded, and the lost count rises to 255 and stays (11 R164). -/
theorem test_full_queue_discards : (({ PortUnit.reset with queue := List.replicate 32 (.lost 1), lost := 254 } : PortUnit).appendAll
    [.freezeOn 1, .freezeOff 1]).lost = 255 := by decide +kernel

/-! ### One step of each command: sessions and claims -/

/-- Port 0 without a session, DOWN or LAPSED. -/
def keepsDown : LawfulState := ⟨onPort 0 (rested .down) (scene 0 []), by decide +kernel⟩
def sDown : State := keepsDown.1
theorem lawful_down : Lawful sDown := lawful_of_check keepsDown.2
def keepsLapsed : LawfulState := ⟨onPort 0 (rested .lapsed) (scene 0 []), by decide +kernel⟩
def sLapsed : State := keepsLapsed.1
theorem lawful_lapsed : Lawful sLapsed := lawful_of_check keepsLapsed.2

theorem test_open : after (.openSession 0 5 16 10) State.reset (fun t =>
    replyIs 0 .ok (.opened 0 .running 16 10) t && decide ((t.port 0).silenceTimer = some 655360)) = true := by decide +kernel

theorem test_open_noQuota : after (.openSession 0 5 49 10) sDown (replyIs 0 .noQuota (.quotaAvailable 48)) = true := by
  decide +kernel

theorem test_closeGraceful : after (.closeGraceful 0 5) sPending (fun t =>
    replyIs 0 .ok (.closedGraceful .down 1 0) t && decide ((t.port 0).queue = [.closed 0])) = true := by decide +kernel

theorem test_closeGraceful_keeps_active : after (.closeGraceful 0 5) sActive
    (replyIs 0 .ok (.closedGraceful .closing 0 1)) = true := by decide +kernel

theorem test_closeAbrupt : after (.closeAbrupt 0 5) sActive (fun t =>
    replyIs 0 .ok (.closedAbrupt 1 150) t && decide (t.windows = []) && decide (t.lanePin 3 = .low)) = true := by
  decide +kernel

theorem test_readEpoch : after (.readEpoch 0 5) sActive (replyIs 0 .ok (.epochRead 150 .running .one)) = true := by
  decide +kernel

theorem test_queryPool : after (.queryPool 0 5) sPair (replyIs 0 .ok (.pool 190 192 .opened 2 48 7)) = true := by
  decide +kernel

def keepsStrobe : LawfulState := ⟨scene 0 [strobe], by decide +kernel⟩
def sStrobe : State := keepsStrobe.1
theorem lawful_strobe : Lawful sStrobe := lawful_of_check keepsStrobe.2

theorem test_claim : after (.claim 0 5 3) sOpen (fun t => replyIs 0 .ok .none t && decide (t.claimant 3 = some 0)) = true := by
  decide +kernel

theorem test_claim_heldByOthers : after (.claim 1 5 16) sStrobe (replyIs 1 .heldByOthers .none) = true := by
  decide +kernel

theorem test_release : after (.release 0 5 3) (sOpen.setClaimant 3 (some 0)) (fun t =>
    replyIs 0 .ok .none t && decide (t.claimant 3 = none)) = true := by decide +kernel

theorem test_release_notClaimant : after (.release 0 5 3) (sOpen.setClaimant 3 (some 1)) (replyIs 0 .notClaimant .none) = true := by
  decide +kernel

theorem test_queryTrack_lane : after (.queryTrack 0 5 3) sPending
    (replyIs 0 .ok (.trackReport none 1 (some 100) none (some (.activeHigh, .inactive)))) = true := by decide +kernel

theorem test_queryTrack_sense : after (.queryTrack 0 5 16) sStrobe
    (replyIs 0 .ok (.trackReport none 0 none (some 1) none)) = true := by decide +kernel

theorem test_setLane : after (.setLane 0 5 3 1 2) sOpen (fun t =>
    replyIs 0 .ok .none t && decide (t.lane 3 = { polarity := .activeLow, idleDrive := .float, drive := .idle }) &&
      decide (t.lanePin 3 = .highImpedance)) = true := by decide +kernel

theorem test_setLane_trackBusy : after (.setLane 1 5 3 1 2) sPending (replyIs 1 .trackBusy .none) = true := by
  decide +kernel

/-! ### One step of each command: admission, cancelling, amending -/

def keepsEarly : LawfulState := ⟨scene 1000 [], by decide +kernel⟩
def sEarly : State := keepsEarly.1
theorem lawful_early : Lawful sEarly := lawful_of_check keepsEarly.2

/-- The first admission of the worked example (01): TRAIN P 100 D 40, 2000 to 3000 at epoch 1000. -/
theorem test_reserve : after (.reserve 0 5 { start := 2000, stop := 3000, priority := 1, notify := 2, tag := 0x0011 }
      ⟨3, 0x02, 0, 100, 0, 40, 0, 0, 0, 0⟩) sEarly (fun t =>
    replyIs 0 .ok (.reserved 0x0100) t && decide ((t.port 0).held = 1) &&
      decide (t.windows.map Window.shape = [.train 100 40])) = true := by decide +kernel

/-- A lower-priority window in the way is bumped and told to its owner (03 R44). -/
theorem test_reserve_bumps : after (.reserve 1 5 booking (steadyOn 3)) sPending (fun t =>
    replyIs 1 .ok (.reserved 0x0200) t && decide ((t.port 0).queue = [.bumped 0x0100 7 0 2]) &&
      decide ((t.port 0).held = 0)) = true := by decide +kernel

theorem test_reserveBundle : after (.reserveBundle 0 5 booking [countOn 16, steadyOn 3]) sOpen (fun t =>
    replyIs 0 .ok (.bundled 0 [0x0100, 0x0101]) t && decide (t.windows.map Window.bundle =
      [some { number := 0, leader := true }, some { number := 0, leader := false }])) = true := by decide +kernel

theorem test_reserveBundle_limit_off_leader : after (.reserveBundle 0 5 booking [steadyOn 3, countOn 16]) sOpen
    (replyIs 0 .badRequest (.member (some 1) none)) = true := by decide +kernel

/-- The ACTIVE window with a later one of its owner behind it, and with one of another port. -/
def keepsOwnBehind : LawfulState := ⟨scene 150 [live steady, win 0 1 3 300 400 .steady], by decide +kernel⟩
def sOwnBehind : State := keepsOwnBehind.1
theorem lawful_ownBehind : Lawful sOwnBehind := lawful_of_check keepsOwnBehind.2
def keepsOtherBehind : LawfulState := ⟨scene 150 [live steady, win 1 1 3 300 400 .steady], by decide +kernel⟩
def sOtherBehind : State := keepsOtherBehind.1
theorem lawful_otherBehind : Lawful sOtherBehind := lawful_of_check keepsOtherBehind.2

theorem test_cancel_pending : after (.cancel 0 5 0x0100) sPending (fun t =>
    replyIs 0 .ok (.removed 1) t && decide ((t.port 0).queue = [])) = true := by decide +kernel

theorem test_cancel_active : after (.cancel 0 5 0x0100) sActive (fun t =>
    replyIs 0 .ok (.ended 1 150) t && decide ((t.port 0).queue = [.ended 0x0100 7 150 .cancelled none]) &&
      decide (t.lanePin 3 = .low)) = true := by decide +kernel

theorem test_amendEnd : after (.amendEnd 0 5 0x0100 300) sActive (fun t =>
    replyIs 0 .ok (.amended 300) t && decide (t.windows.map Window.stop = [300])) = true := by decide +kernel

theorem test_amendEnd_tooLate : after (.amendEnd 0 5 0x0100 213) sActive (replyIs 0 .tooLate (.value 150)) = true := by
  decide +kernel

theorem test_flush : after (.flush 0 5 0xFF) sPair (fun t =>
    replyIs 0 .ok (.flushed 2) t && decide (t.bundle 0 0 = none) && decide (t.refs 0 0 = 0)) = true := by decide +kernel

theorem test_queryWindow : after (.queryWindow 0 5 0x0101) sPair
    (replyIs 0 .ok (.windowReport .pending 100 200 2 1 (some 0))) = true := by decide +kernel

/-! ### One step of each command: link, resets, timebase -/

/-- The queue of port 0 is full, and three records were lost. -/
def keepsFull : LawfulState := ⟨onPort 0 (fun u => { u with queue := List.replicate 32 (.lost 1), lost := 3 }) (scene 0 []), by decide +kernel⟩
def sFull : State := keepsFull.1
theorem lawful_full : Lawful sFull := lawful_of_check keepsFull.2

theorem test_transactionBegin : after (.transactionBegin 0) (onPort 0 (fun u => { u with queue := [.lost 1] }) sOpen)
    (fun t => decide ((t.port 0).transaction = some { item := .event (.lost 1), cleared := false, exchanged := [] })) =
      true := by decide +kernel

/-- A READ_EPOCH frame, written out, is taken at the end of its transaction (12 R175). -/
theorem test_transactionEnd : after (.transactionEnd 0 (shifted [0x03, 0x50, 0x03, 0xB8])) (during .idle sActive)
    (replyIs 0 .ok (.epochRead 150 .running .one)) = true := by decide +kernel

theorem test_transactionEnd_lost : after (.transactionEnd 0 (List.replicate 40 .low))
    (during (.event (.lost 1)) sFull) (fun t =>
      decide ((t.port 0).queue = List.replicate 31 (.lost 1) ++ [.lost 3]) && decide ((t.port 0).lost = 0)) = true := by
  decide +kernel

theorem test_resetnAssert : after .resetnAssert sActive (fun t => decide (t.windows = []) && decide (t.epoch = 0) &&
    decide (t.lanePin 3 = .low)) = true := by decide +kernel

theorem test_resetnRelease : after (.resetnRelease .high .low .high 0x81) { State.reset with resetHeld := true } (fun t =>
    decide (t.divider = .four) && decide (t.freeze = .held) && decide ((t.tally 7).seen = .high) &&
      decide ((t.tally 1).seen = .low)) = true := by decide +kernel

theorem test_portResetAssert : after (.portResetAssert 0) sActive (fun t =>
    decide ((t.port 0).queue = [.lapsed 150 .portReset]) && decide ((t.port 0).session = .lapsed) &&
      decide (t.windows = [])) = true := by decide +kernel

theorem test_portResetRelease : after (.portResetRelease 0) (onPort 0 (fun u => { u with resetHeld := true }) sOpen) (fun t =>
    t.inService 0) = true := by decide +kernel

/-- The silence timer of port 0 stands at 0. -/
def keepsSilent : LawfulState := ⟨onPort 0 (fun u => { u with silenceTimer := some 0 }) (scene 150 [live steady]), by decide +kernel⟩
def sSilent : State := keepsSilent.1
theorem lawful_silent : Lawful sSilent := lawful_of_check keepsSilent.2

/-- Port 0 CLOSING with one ACTIVE window. -/
def keepsClosing : LawfulState := ⟨onPort 0 (fun u => { u with session := .closing }) (scene 150 [live steady]), by decide +kernel⟩
def sClosing : State := keepsClosing.1
theorem lawful_closing : Lawful sClosing := lawful_of_check keepsClosing.2

theorem test_freezeAssert : after .freezeAssert sClosing (fun t => decide (t.freeze = .held) &&
    decide ((t.port 0).queue = [.freezeOn 150]) && decide ((t.port 3).queue = [.freezeOn 150])) = true := by decide +kernel

theorem test_freezeRelease : after .freezeRelease { sLapsed with freeze := .held } (fun t => decide (t.freeze = .running) &&
    decide ((t.port 0).queue = []) && decide ((t.port 1).queue = [.freezeOff 0])) = true := by decide +kernel

/-! ### One step of each command: windows and edges -/

def keepsCounting : LawfulState := ⟨scene 150 [live counter], by decide +kernel⟩
def sCounting : State := keepsCounting.1
theorem lawful_counting : Lawful sCounting := lawful_of_check keepsCounting.2
def keepsStart : LawfulState := ⟨scene 100 [steady], by decide +kernel⟩
def sStart : State := keepsStart.1
theorem lawful_start : Lawful sStart := lawful_of_check keepsStart.2

/-- An edge that brings the counting window to its limit ends it (08 R126). -/
theorem test_senseEdge_limit : after (.senseEdge 0 .high) (scene 150 [live { counter with
    run := .tally { count := 1, saturated := false, firstEdge := some 120, lastEdge := some 120 } }]) (fun t =>
      decide (t.windows = []) && decide ((t.port 0).queue = [.tally 0x0100 7 150 .limit 2 false (some 120) (some 150)])) =
        true := by decide +kernel

theorem test_senseEdge_pulse : after (.senseEdge 0 .high) (scene 150 [live strobe]) (fun t =>
    decide (t.windows = [pulsing]) && decide (t.lanePin 2 = .high)) = true := by decide +kernel

theorem test_tick : after .tick State.reset (fun t => decide (t.epoch = 1)) = true := by decide +kernel

/-- No tick passes while a start is due (01 R12). -/
theorem test_tick_waits : after .tick sStart (fun t => decide (t.epoch = 100)) = true := by decide +kernel

theorem test_silenceTimerExpiry : after (.silenceTimerExpiry 0) sSilent
    (fun t => decide ((t.port 0).queue = [.lapsed 150 .silence]) && decide ((t.port 0).silenceTimer = none)) = true := by
  decide +kernel

def keepsEnd : LawfulState := ⟨scene 200 [live steady], by decide +kernel⟩
def sEnd : State := keepsEnd.1
theorem lawful_end : Lawful sEnd := lawful_of_check keepsEnd.2
def keepsPulseDue : LawfulState := ⟨scene 155 [pulsing], by decide +kernel⟩
def sPulseDue : State := keepsPulseDue.1
theorem lawful_pulseDue : Lawful sPulseDue := lawful_of_check keepsPulseDue.2

theorem test_windowStart : after (.windowStart 3) sStart (fun t =>
    decide (t.windows = [live steady]) && decide (t.lanePin 3 = .high) &&
      decide ((t.port 0).queue = [.start 0x0100 7 100])) = true := by decide +kernel

/-- Edges carried in a handover reach the limit of the window that starts (08 R134). -/
theorem test_windowStart_carried : after (.windowStart 16) (held 3 (scene 100 [counter])) (fun t =>
    decide (t.windows = []) && decide ((t.port 0).queue =
      [.start 0x0100 7 100, .tally 0x0100 7 100 .limit 2 false (some 100) (some 100)])) = true := by decide +kernel

theorem test_windowEndDue : after (.windowEndDue 3) sEnd (fun t =>
    decide (t.windows = []) && decide (t.lanePin 3 = .low) &&
      decide ((t.port 0).queue = [.ended 0x0100 7 200 .complete none])) = true := by decide +kernel

theorem test_bundleJointStart : after (.bundleJointStart 0 0)
    (scene 100 (pair.map (fun w => { w with noteStart := false }))) (fun t =>
      decide (t.windows.map Window.state = [.active, .active]) && decide ((t.tally 0).counting = some 0)) = true := by
  decide +kernel

theorem test_bundleJointEnd : after (.bundleJointEnd 0 0)
    (scene 200 (pair.map (fun w => live { w with noteEnd := false }))) (fun t =>
      decide (t.windows = []) && decide (t.bundle 0 0 = none) &&
        decide ((t.port 0).queue = [.tally 0x0100 7 200 .complete 0 false none none])) = true := by decide +kernel

theorem test_pulseEnd : after (.pulseEnd 2) sPulseDue (fun t =>
    decide (t.windows.map Window.run = [.trigger { emitted := 1, pulseEnd := none, arming := .done }]) &&
      decide (t.lanePin 2 = .low)) = true := by decide +kernel

/-! ### Hypotheses met: the machine and the link -/

theorem witness_EmptyQueueTakesAnEventOrAPeriod :
    (sStart.pending = [] ∧ sStart.dueCommands ≠ []) ∧
    (({ State.reset with resetHeld := true } : State).dueCommands = []) ∧
    (State.reset.dueCommands = [] ∧ State.reset.resetHeld = false ∧ State.reset.freeze = .running ∧
      State.reset.divider.periods ≤ State.reset.progress + 1) ∧
    (let s := { State.reset with divider := .two };
      s.dueCommands = [] ∧ s.freeze = .running ∧ s.progress + 1 < s.divider.periods) ∧
    (let s := { State.reset with freeze := .held };
      s.dueCommands = [] ∧ s.resetHeld = false ∧ s.freeze = .held) := by decide +kernel

theorem witness_CrcEndsEveryFrame :
    readInbound [0x03, 0x50, 0x03, 0xB8] = .request (Frame.ofRequest 5 .readEpoch) := by decide +kernel

/-- LAPSED, in the IDLE transaction in which the session lapsed. -/
def sLapsedIdle : State :=
  onPort 0 (fun u => { u with transaction := some { item := .idle, cleared := true, exchanged := [] } }) sLapsed

theorem witness_RequestFramesReadBack :
    (Request.reserveBundle booking (List.replicate 10 (steadyOn 3))).wellFormed = true ∧
      (Request.reserveBundle booking []).wellFormed = true ∧ Request.closeAbrupt.wellFormed = true := by decide

/-- A frame that is taken, one that meets a full slot, a retry with low bits 0x9 in byte 1, and one in the transaction of a session that lapsed within it. -/
theorem witness_RequestRowIsItsFrame :
    (Request.readEpoch.wellFormed = true ∧ (during .idle sOpen).inService 0 = true ∧
      ((during .idle sOpen).port 0).transaction = some { item := .idle, cleared := false, exchanged := [] } ∧
      ((during .idle sOpen).port 0).identity ≠ some (5, crc (bodyWithLow 5 0 .readEpoch)) ∧
      ((during .idle sOpen).port 0).replySlot = none) ∧
    (let s := onPort 0 (fun u => { u with replySlot := some someReply }) (during .idle sOpen);
      s.inService 0 = true ∧ (s.port 0).transaction = some { item := .idle, cleared := false, exchanged := [] } ∧
      (s.port 0).identity ≠ some (5, crc (bodyWithLow 5 9 .readEpoch)) ∧ (s.port 0).replySlot = some someReply) ∧
    (let s := onPort 0 (fun u => { u with identity := some (5, crc (bodyWithLow 5 9 .readEpoch)) }) (during .idle sOpen);
      s.inService 0 = true ∧ (s.port 0).transaction = some { item := .idle, cleared := false, exchanged := [] } ∧
      (s.port 0).identity = some (5, crc (bodyWithLow 5 9 .readEpoch))) ∧
    (sLapsedIdle.inService 0 = true ∧
      (sLapsedIdle.port 0).transaction = some { item := .idle, cleared := true, exchanged := [] }) := by decide +kernel

/-- An IDLE transaction in which the session lapses (10 R159): SILENCE_TIMER_EXPIRY reaches this form. -/
theorem test_lapse_clears_idle : after (.silenceTimerExpiry 0) (during .idle sSilent) (fun t =>
    decide ((t.port 0).transaction = some { item := .idle, cleared := true, exchanged := [] })) = true := by decide +kernel

theorem witness_TransactionBeginChoosesTheItem :
    (sOpen.inService 0 = true ∧ (sOpen.port 0).transaction = none ∧ (sOpen.port 0).replySlot = none ∧ (sOpen.port 0).queue = []) ∧
    (let s := onPort 0 (fun u => { u with replySlot := some someReply }) sOpen;
      s.inService 0 = true ∧ (s.port 0).transaction = none ∧ (s.port 0).replySlot = some someReply) ∧
    (let s := onPort 0 (fun u => { u with queue := [.lost 1] }) sOpen;
      s.inService 0 = true ∧ (s.port 0).transaction = none ∧ (s.port 0).replySlot = none ∧ (s.port 0).queue = [.lost 1]) := by
  decide +kernel

/-- A reply fully clocked behind a request, as in transaction 5 of the link trace; one clock short of it behind a NOP; one cleared by a lapse, its slot empty. -/
theorem witness_TransactionEndSettlesAReply :
    (let s := during (.reply someReply) (onPort 0 (fun u => { u with replySlot := some someReply }) sOpen);
      s.inService 0 = true ∧ (s.port 0).replySlot = some someReply ∧
      (s.port 0).transaction = some { item := .reply someReply, cleared := false, exchanged := [] } ∧
      someReply.frame.length ≤ ([] ++ wholeBytes (shifted (requestFrame 4 (.cancel 0x0122)))).length ∧
      ([] ++ wholeBytes (List.replicate 47 .low)).length < someReply.frame.length ∧
      ([] ++ wholeBytes (List.replicate 47 .low)).head? = some 0x00) ∧
    (let s := onPort 0 (fun u => { u with
        transaction := some { item := .reply badReply, cleared := true, exchanged := [] } }) sLapsed;
      s.inService 0 = true ∧ (s.port 0).replySlot = none ∧
      (s.port 0).transaction = some { item := .reply badReply, cleared := true, exchanged := [] }) := by decide +kernel

/-- A record fully clocked behind a NOP; one clock short of it; one cleared by a lapse, the queue holding LAPSED alone. -/
theorem witness_TransactionEndConsumesARecord :
    (let s := during (.event (.lost 1)) sFull;
      s.inService 0 = true ∧ (s.port 0).queue = .lost 1 :: List.replicate 31 (.lost 1) ∧ 0 < (s.port 0).lost ∧
      (s.port 0).transaction = some { item := .event (.lost 1), cleared := false, exchanged := [] } ∧
      (EventRecord.lost 1).frame.length ≤ ([] ++ wholeBytes (List.replicate 40 .low)).length ∧
      ([] ++ wholeBytes (List.replicate 39 .low)).length < (EventRecord.lost 1).frame.length ∧
      ([] ++ wholeBytes (List.replicate 39 .low)).head? = some 0x00) ∧
    (let s := onPort 0 (fun u => { u with
        queue := [.lapsed 0 .silence]
        transaction := some { item := .event (.lost 1), cleared := true, exchanged := [] } }) sLapsed;
      s.inService 0 = true ∧ (s.port 0).queue = [.lapsed 0 .silence] ∧
      (s.port 0).transaction = some { item := .event (.lost 1), cleared := true, exchanged := [] }) := by decide +kernel

theorem witness_BadFramesAreAnswered :
    (sLapsedIdle.inService 0 = true ∧
      (sLapsedIdle.port 0).transaction = some { item := .idle, cleared := true, exchanged := [] }) ∧
    ((during .idle sOpen).inService 0 = true ∧
      ((during .idle sOpen).port 0).transaction = some { item := .idle, cleared := false, exchanged := [] }) ∧
    ((0x02 : Byte) ≠ 0x00 ∧ (0x02 : Byte).toNat < 3) ∧ (126 < (0x7F : Byte).toNat) ∧
    ((0x03 : Byte).toNat < [0x03, 0x50, 0x03, (0xB9 : Byte)].length ∧
      crc ([0x03, 0x50, 0x03, 0xB9].take 3) ≠ [0x03, 0x50, 0x03, 0xB9].getD 3 0) := by decide +kernel

theorem witness_IncompleteFramesAreDiscarded :
    (sLapsedIdle.inService 0 = true ∧
      (sLapsedIdle.port 0).transaction = some { item := .idle, cleared := true, exchanged := [] }) ∧
    ((during .idle sOpen).inService 0 = true ∧
      ((during .idle sOpen).port 0).transaction = some { item := .idle, cleared := false, exchanged := [] }) ∧
    (0x03 : Byte) ≠ 0x00 ∧
    (3 ≤ (0x03 : Byte).toNat ∧ [0x03, 0x50, (0x03 : Byte)].length < (0x03 : Byte).toNat + 1) ∧
    ((0x7E : Byte).toNat ≤ 126 ∧ [0x7E, (0x50 : Byte)].length < (0x7E : Byte).toNat + 1) := by decide +kernel

/-- An unknown code; and a known one that does not fit, in each kind of session state, and where the session lapsed within the transaction. -/
theorem witness_UnknownCodesAreBadRequests :
    (sLapsedIdle.inService 0 = true ∧ (sLapsedIdle.port 0).replySlot = none ∧
      (sLapsedIdle.port 0).transaction = some { item := .idle, cleared := true, exchanged := [] } ∧
      (sLapsedIdle.port 0).session = .lapsed ∧ (sLapsedIdle.port 0).identity ≠ some (5, crc [0x03, 0x50, 0x01])) ∧
    ((during .idle sLapsed).inService 0 = true ∧
      ((during .idle sLapsed).port 0).transaction = some { item := .idle, cleared := false, exchanged := [] } ∧
      ((during .idle sLapsed).port 0).replySlot = none ∧ ((during .idle sLapsed).port 0).session = .lapsed ∧
      ((during .idle sLapsed).port 0).identity ≠ some (5, crc [0x03, 0x50, 0x05])) ∧
    ((during .idle sClosing).inService 0 = true ∧ ((during .idle sClosing).port 0).replySlot = none ∧
      ((during .idle sClosing).port 0).session = .closing ∧
      ((during .idle sClosing).port 0).identity ≠ some (5, crc [0x04, 0x50, 0x02, 0x03])) ∧
    ((during .idle sOpen).inService 0 = true ∧ ((during .idle sOpen).port 0).replySlot = none ∧
      ((during .idle sOpen).port 0).session = .opened ∧
      ((during .idle sOpen).port 0).identity ≠ some (5, crc [0x03, 0x50, 0x01])) ∧
    (RequestName.close.code = 0x02 ∧ misfits .close [0x03] = true ∧ misfits .close [0x01] = false ∧
      misfits .readEpoch [0] = true ∧ misfits .openSession [] = true ∧
      misfits .reserveBundle (List.replicate 20 0) = true ∧ misfits .reserveBundle (List.replicate 21 0) = false ∧
      misfits .reserveBundle (List.replicate 123 0) = true) ∧
    (∀ n : RequestName, n.code ≠ 0x05) := by
  refine ⟨by decide +kernel, by decide +kernel, by decide +kernel, by decide +kernel, by decide +kernel, ?_⟩
  intro n
  cases n <;> decide

theorem witness_RetriesAndOverrunsAreNotExecuted :
    (let s := onPort 0 (fun u => { u with identity := some (5, crc (frameBody 5 .readEpoch)), retained := some someReply }) sOpen;
      s.inService 0 = true ∧ (s.port 0).identity = some (5, crc (frameBody 5 .readEpoch)) ∧ (s.port 0).replySlot = none) ∧
    (let s := onPort 0 (fun u => { u with identity := some (5, crc (frameBody 5 .readEpoch)), replySlot := some badReply }) sOpen;
      (s.port 0).identity = some (5, crc (frameBody 5 .readEpoch)) ∧ (s.port 0).replySlot = some badReply ∧
      badReply.answer.status = .badFrame) ∧
    (let s := onPort 0 (fun u => { u with replySlot := some someReply }) sOpen;
      s.inService 0 = true ∧ (s.port 0).identity ≠ some (5, crc (frameBody 5 .readEpoch)) ∧
      (s.port 0).replySlot = some someReply) := by decide +kernel

theorem witness_PortsOutOfServiceTakeNothing :
    ({ State.reset with resetHeld := true } : State).resetHeld = true ∧
      ((onPort 0 (fun u => { u with resetHeld := true }) sOpen).port 0).resetHeld = true := by decide +kernel

/-! ### Hypotheses met: sessions, claims, lanes -/

def keepsPairActive : LawfulState := ⟨scene 150 (pair.map live), by decide +kernel⟩
def sPairActive : State := keepsPairActive.1
theorem lawful_pairActive : Lawful sPairActive := lawful_of_check keepsPairActive.2

theorem witness_SessionStateRefusesRequests :
    (Fresh 0 5 (.cancel 0x0100) sDown ∧ (sDown.port 0).session = .down) ∧
    (Fresh 0 5 .closeAbrupt sLapsed ∧ (sLapsed.port 0).session = .lapsed) ∧
    (requestName (.cancel 0x0100) ∉ [RequestName.openSession, .readEpoch, .queryPool, .queryTrack]) ∧
    (requestName .closeAbrupt ∉ [RequestName.openSession, .readEpoch, .queryPool, .queryTrack]) ∧
    (Fresh 0 5 .closeGraceful sClosing ∧ (sClosing.port 0).session = .closing) ∧
    (requestName (.flush 0xFF) ∉ [RequestName.close, .readEpoch, .queryPool, .queryTrack, .queryWindow]) ∧
    (Fresh 0 5 (.openSession 1 1) sOpen ∧ (sOpen.port 0).session = .opened) := by decide +kernel

theorem witness_OpenIsJudged :
    (Fresh 0 5 (.openSession 48 4095) sDown ∧ (sDown.port 0).session = .down ∧ sDown.quotasInUse + (48 : Byte).toNat ≤ 192) ∧
    (Fresh 0 5 (.openSession 49 1) sLapsed ∧ (sLapsed.port 0).session = .lapsed ∧
      192 < sLapsed.quotasInUse + (49 : Byte).toNat) ∧
    (Fresh 0 5 (.openSession 193 1) sDown ∧ ¬ (193 : Byte).toNat ≤ 192) ∧
    (Fresh 0 5 (.openSession 1 4096) sDown ∧ ¬ (4096 : BitVec 16).toNat ≤ 4095) := by decide +kernel

theorem witness_CloseGracefulRemovesPendingWindows :
    (Lawful sPair ∧ Lawful sActive) ∧
    (Fresh 0 5 .closeGraceful sPair ∧ (sPair.port 0).session = .opened ∧
      (sPair.owned 0).filter (fun w => decide (w.state = .active)) = []) ∧
    (Fresh 0 5 .closeGraceful sActive ∧ (sActive.port 0).session = .opened ∧
      (sActive.owned 0).filter (fun w => decide (w.state = .active)) ≠ []) :=
  ⟨⟨lawful_pair, lawful_active⟩, by decide +kernel⟩

theorem witness_CloseAbruptTearsDownTheSession :
    (Lawful sClosing ∧ Lawful sPairActive) ∧ Fresh 0 5 .closeAbrupt sClosing ∧ (sClosing.port 0).inSession = true ∧
      Fresh 0 5 .closeAbrupt sPairActive ∧ (sPairActive.port 0).inSession = true :=
  ⟨⟨lawful_closing, lawful_pairActive⟩, by decide +kernel⟩

theorem witness_SilenceExpiryLapsesTheSession :
    let s := sSilent
    Lawful s ∧ s.resetHeld = false ∧ (s.port 0).silenceTimer = some 0 :=
  ⟨lawful_silent, by decide +kernel⟩

theorem witness_PortResetClearsTheLink :
    Lawful sActive ∧ ((onPort 0 (fun u => { u with resetHeld := true }) sOpen).port 0).resetHeld = true ∧ ((sActive.port 0).resetHeld = false ∧ (sActive.port 0).inSession = true) ∧
      ((sLapsed.port 0).resetHeld = false ∧ (sLapsed.port 0).inSession = false) :=
  ⟨lawful_active, by decide +kernel⟩

theorem witness_EpochAndPoolAreReported : Fresh 0 5 .readEpoch sDown ∧ Fresh 0 5 .queryPool sPair := by decide +kernel

def keepsEndTally : LawfulState := ⟨scene 200 [live counter], by decide +kernel⟩
def sEndTally : State := keepsEndTally.1
theorem lawful_endTally : Lawful sEndTally := lawful_of_check keepsEndTally.2

theorem witness_TracksAreReported :
    Fresh 0 5 (.queryTrack 24) sDown ∧ Fresh 0 5 (.queryTrack 15) sActive ∧ Fresh 0 5 (.queryTrack 16) sActive ∧
      24 ≤ (24 : Byte).toNat ∧ (15 : Byte).toNat = (15 : Lane).val ∧ (16 : Byte).toNat = 16 + (0 : Sense).val := by
  decide +kernel

theorem witness_ClaimIsJudged :
    (sOpen.port 0).session = .opened ∧ Fresh 0 5 (.claim 24) sOpen ∧
    (Fresh 0 5 (.claim 3) (sOpen.setClaimant 3 (some 0)) ∧ (sOpen.setClaimant 3 (some 0)).claimant 3 = some 0) ∧
    (Fresh 0 5 (.claim 3) (sOpen.setClaimant 3 (some 1)) ∧ (sOpen.setClaimant 3 (some 1)).claimant 3 = some 1) ∧
    (Fresh 1 5 (.claim 3) sPending ∧ sPending.claimant 3 = none ∧
      ∃ w ∈ sPending.windows, w.track = 3 ∧ w.owner ≠ 1) ∧
    (Fresh 1 5 (.claim 16) sStrobe ∧ (16 : Track) = senseTrack 0 ∧ 0 < sStrobe.refs 0 0) ∧
    (Fresh 0 5 (.claim 23) sPending ∧ sPending.claimant 23 = none ∧ (¬ ∃ w ∈ sPending.windows, w.track = 23 ∧ w.owner ≠ 0) ∧
      ¬ ∃ (k : Sense) (q : Port), (23 : Track) = senseTrack k ∧ q ≠ 0 ∧ 0 < sPending.refs k q) := by decide +kernel

theorem witness_ReleaseIsJudged :
    Fresh 0 5 (.release 24) sOpen ∧ (Fresh 0 5 (.release 23) sOpen ∧ sOpen.claimant 23 ≠ some 0) ∧
      (Fresh 0 5 (.release 23) (sOpen.setClaimant 23 (some 0)) ∧ (sOpen.setClaimant 23 (some 0)).claimant 23 = some 0 ∧
        ((sOpen.setClaimant 23 (some 0)).port 0).session = .opened) := by decide +kernel

theorem witness_SetLaneIsJudged :
    (sOpen.port 0).session = .opened ∧ (Fresh 0 5 (.setLane 0 2 0) sOpen ∧ 1 < (2 : Byte).toNat) ∧
    (Fresh 0 5 (.setLane 0 0 3) sOpen ∧ 2 < (3 : Byte).toNat) ∧ Fresh 0 5 (.setLane 16 1 2) sOpen ∧
    (Fresh 0 5 (.setLane 15 1 2) (sOpen.setClaimant 15 (some 1)) ∧
      (sOpen.setClaimant 15 (some 1)).claimant (laneTrack 15) = some 1) ∧
    (Fresh 0 5 (.setLane 3 1 2) sPending ∧ sPending.claimant (laneTrack 3) = none ∧ sPending.trackList (laneTrack 3) ≠ []) ∧
    (Fresh 0 5 (.setLane 3 1 2) (sPending.setClaimant 3 (some 0)) ∧
      (sPending.setClaimant 3 (some 0)).claimant (laneTrack 3) = some 0) ∧
    (Fresh 0 5 (.setLane 15 1 2) sOpen ∧ sOpen.claimant (laneTrack 15) = none ∧ sOpen.trackList (laneTrack 15) = []) := by
  decide +kernel

theorem witness_PinLevelFollowsTheLane :
    ({ State.reset with resetHeld := true } : State).resetHeld = true ∧ sActive.resetHeld = false ∧
      (sActive.lane 3).drive = .active ∧ ((scene 150 [live strobe]).lane 2).drive = .inactive ∧
      ((sOpen.lane 0).drive = .idle ∧ (sOpen.lane 0).idleDrive = .inactive) ∧
      (let s := sOpen.setLane 0 { polarity := .activeLow, idleDrive := .active, drive := .idle };
        (s.lane 0).drive = .idle ∧ (s.lane 0).idleDrive = .active) ∧
      (let s := sOpen.setLane 0 { polarity := .activeLow, idleDrive := .float, drive := .idle };
        (s.lane 0).drive = .idle ∧ (s.lane 0).idleDrive = .float) := by decide +kernel

theorem witness_ShapesShowTheirLevels :
    2 ≤ (2 : BitVec 16).toNat ∧ 1 ≤ (1 : BitVec 16).toNat ∧ 2 % (2 : BitVec 16).toNat < (1 : BitVec 16).toNat ∧
      (1 : BitVec 16).toNat ≤ 3 % (2 : BitVec 16).toNat ∧ (0 : BitVec 16).toNat = 0 ∧
      (2 : BitVec 16).toNat ≤ (2 : BitVec 16).toNat ∧ 0 < (1 : BitVec 16).toNat ∧
      2 * (32767 : BitVec 16).toNat < 2 ^ 16 := by decide

/-! ### Hypotheses met: admission -/

/-- A handover hold in which the window that waits has no edge carried, one, and as many as its limit. -/
def keepsHold : LawfulState := ⟨held 0 (scene 100 [counter]), by decide +kernel⟩
def sHold : State := keepsHold.1
theorem lawful_hold : Lawful sHold := lawful_of_check keepsHold.2
def keepsHoldOne : LawfulState := ⟨held 1 (scene 100 [counter]), by decide +kernel⟩
def sHoldOne : State := keepsHoldOne.1
theorem lawful_holdOne : Lawful sHoldOne := lawful_of_check keepsHoldOne.2
def keepsHoldTwo : LawfulState := ⟨held 2 (scene 100 [counter]), by decide +kernel⟩
def sHoldTwo : State := keepsHoldTwo.1
theorem lawful_holdTwo : Lawful sHoldTwo := lawful_of_check keepsHoldTwo.2

theorem witness_MemberDescriptorsAreRead :
    booking.priority.toNat = (2 : Fin 4).val ∧ booking.notify.toNat ≤ 3 ∧
      (kindFits 15 .steady = true ∧ Shape.inRange .steady = true) ∧
      (kindFits 0 (.train 2 0) = true ∧ Shape.inRange (.train 2 0) = true) ∧
      (kindFits 0 (.toggle 1 .active) = true ∧ Shape.inRange (.toggle 1 .active) = true) ∧
      (kindFits 0 (.triggered 7 .both 1 255) = true ∧ Shape.inRange (.triggered 7 .both 1 255) = true) ∧
      (kindFits 16 (.tally .fall none) = true ∧ Shape.inRange (.tally .fall none) = true) ∧
      (kindFits 23 (.tally .rise (some 1)) = true ∧ Shape.inRange (.tally .rise (some 1)) = true) := by decide

/-- One descriptor for each of the four outcomes. -/
theorem witness_MemberDescriptorsAreJudgedInThreeParts :
    judgeMember booking { steadyOn 3 with b9 := 1 } = .error .badRequest ∧
      judgeMember booking (steadyOn 24) = .error .badRange ∧
      judgeMember booking (steadyOn 16) = .error .wrongTrackKind ∧
      judgeMember booking (steadyOn 15) = .ok (steadyMember 15) := by decide +kernel

/-- A state, and a booking of a STEADY window by port 1 on lane 3, for each check that can fail first. -/
def failsFirst (n : Nat) (p : Port) (b : Booking) (m : Member) (s : State) : Bool :=
  decide (((s.reserveChecks p b m).take (n + 1)).map Prod.fst = List.replicate n false ++ [true])

theorem witness_ReserveIsRefusedByTheFirstCheck :
    Fresh 1 5 (.reserve booking (steadyOn 3)) sPending ∧ (sPending.port 1).session = .opened ∧
    judgeMember booking (steadyOn 24) = .error .badRange ∧ judgeMember booking (steadyOn 3) = .ok (steadyMember 3) ∧
    judgeMember booking (strobeOn 3) = .ok (strobeMember 3) ∧
    failsFirst 0 1 { booking with start := 63, stop := 70 } (steadyMember 3) sOpen = true ∧
    failsFirst 1 1 { booking with start := 1099511627777, stop := 1099511627787 } (steadyMember 3) sOpen = true ∧
    failsFirst 2 1 { booking with start := 64, stop := 67 } (steadyMember 3) sOpen = true ∧
    failsFirst 3 1 { booking with start := 64, stop := 1099511627841 } (steadyMember 3) sOpen = true ∧
    failsFirst 4 1 booking (steadyMember 3) (sOpen.setClaimant 3 (some 0)) = true ∧
    failsFirst 5 1 booking (strobeMember 3) (sOpen.setClaimant 16 (some 0)) = true ∧
    failsFirst 6 1 booking (steadyMember 3) (onPort 1 (fun u => { u with held := 48 }) sOpen) = true ∧
    failsFirst 7 0 { booking with start := 199, stop := 203 } (steadyMember 3) sPending = true ∧
    failsFirst 8 1 { booking with start := 199, stop := 203 } { steadyMember 3 with priority := 1 } sPending = true := by
  decide +kernel

theorem witness_ReserveAdmitsTheWindow :
    (Lawful sPending ∧ Lawful sActive ∧ Lawful sOpen) ∧
    judgeMember booking (steadyOn 3) = .ok (steadyMember 3) ∧
    (Fresh 1 5 (.reserve booking (steadyOn 3)) sPending ∧ (sPending.port 1).session = .opened ∧
      Admissible sPending 1 booking [steadyMember 3] ∧ sPending.displaced 1 2 [3] 100 200 = [steady]) ∧
    (Fresh 1 5 (.reserve { booking with start := 214, stop := 300 } (steadyOn 4)) sActive ∧
      Admissible sActive 1 { booking with start := 214, stop := 300 } [steadyMember 4]) ∧
    Admissible sOpen 1 { booking with start := 64, stop := 68 } [steadyMember 3] ∧
    Admissible sOpen 1 { booking with start := 1099511627776, stop := 2199023255552 } [steadyMember 3] :=
  ⟨⟨lawful_pending, lawful_active, lawful_open⟩, by decide +kernel, by decide +kernel, by decide +kernel, by decide +kernel,
    by decide +kernel⟩

/-- As `failsFirst`, for the steps of a bundle. -/
def bundleFailsFirst (n : Nat) (p : Port) (b : Booking) (ms : List Member) (s : State) : Bool :=
  decide (((s.bundleSteps p b ms).take (n + 1)).map Prod.fst = List.replicate n false ++ [true])

theorem witness_ReserveBundleIsRefusedByTheFirstStep :
    Fresh 1 5 (.reserveBundle booking [steadyOn 3, steadyOn 4]) sPending ∧ (sPending.port 1).session = .opened ∧
    (Fresh 1 5 (.reserveBundle booking (List.replicate 9 (steadyOn 3))) sPending ∧
      8 < (List.replicate 9 (steadyOn 3)).length) ∧
    (memberFailure booking [steadyOn 3, steadyOn 3] 1 = some .badRequest ∧
      memberFailure booking [steadyOn 3, steadyOn 3] 0 = none) ∧
    memberFailure booking [steadyOn 3, countOn 16] 1 = some .badRequest ∧
    memberFailure { booking with notify := 4 } [steadyOn 3, steadyOn 4] 0 = some .badRequest ∧
    memberFailure booking [steadyOn 24] 0 = some .badRange ∧
    MembersPass booking [steadyOn 3, steadyOn 4] [steadyMember 3, steadyMember 4] ∧
    bundleFailsFirst 0 1 { booking with start := 63, stop := 70 } [steadyMember 3] sOpen = true ∧
    bundleFailsFirst 1 1 { booking with start := 1099511627777, stop := 1099511627787 } [steadyMember 3] sOpen = true ∧
    bundleFailsFirst 2 1 { booking with start := 64, stop := 67 } [steadyMember 3] sOpen = true ∧
    bundleFailsFirst 3 1 { booking with start := 64, stop := 1099511627841 } [steadyMember 3] sOpen = true ∧
    bundleFailsFirst 4 1 booking [steadyMember 3]
      (onPort 1 (fun u => { u with bundles := Vector.replicate 8 (recordOf [steady]) }) sOpen) = true ∧
    bundleFailsFirst 5 1 booking [steadyMember 4, steadyMember 3] (sOpen.setClaimant 3 (some 0)) = true ∧
    bundleFailsFirst 6 1 booking [steadyMember 4, strobeMember 3] (sOpen.setClaimant 16 (some 0)) = true ∧
    bundleFailsFirst 7 1 booking [steadyMember 4, steadyMember 3] (onPort 1 (fun u => { u with held := 47 }) sOpen) = true ∧
    bundleFailsFirst 8 0 booking [steadyMember 4, steadyMember 3] sPending = true ∧
    bundleFailsFirst 9 1 booking [steadyMember 4, { steadyMember 3 with priority := 1 }] sPending = true := by decide +kernel

theorem witness_ReserveBundleAdmitsEveryMember :
    Lawful sPair ∧ Fresh 1 5 (.reserveBundle booking [steadyOn 2, steadyOn 4]) sPair ∧ (sPair.port 1).session = .opened ∧
      MembersPass booking [steadyOn 2, steadyOn 4] [steadyMember 2, steadyMember 4] ∧
      Admissible sPair 1 booking [steadyMember 2, steadyMember 4] ∧ (∃ n : BundleNo, sPair.bundle 1 n = none) ∧
      (sPair.displaced 1 2 [2, 4] 100 200).length = 2 :=
  ⟨lawful_pair, by decide +kernel⟩

/-! ### Hypotheses met: cancelling and amending -/

/-- The same for a bundle that the window leads. -/
def keepsPairHoldOne : LawfulState := ⟨held 1 (scene 100 pair), by decide +kernel⟩
def sPairHoldOne : State := keepsPairHoldOne.1
theorem lawful_pairHoldOne : Lawful sPairHoldOne := lawful_of_check keepsPairHoldOne.2
def keepsPairHoldTwo : LawfulState := ⟨held 2 (scene 100 pair), by decide +kernel⟩
def sPairHoldTwo : State := keepsPairHoldTwo.1
theorem lawful_pairHoldTwo : Lawful sPairHoldTwo := lawful_of_check keepsPairHoldTwo.2

theorem witness_UnresolvedHandlesNameNoWindow :
    Lawful sPending ∧ (∀ w ∈ sPending.windows, w.owner = 0 → (0x0200 : Handle).toNat ≠ 256 * w.useCount.toNat + w.slot.val) ∧
      (∀ w ∈ sPending.windows, w.owner = 1 → (0x0100 : Handle).toNat ≠ 256 * w.useCount.toNat + w.slot.val) ∧
      Fresh 0 5 (.cancel 0x0200) sPending ∧ Fresh 0 5 (.amendEnd 0x0200 300) sPending ∧
      Fresh 1 5 (.queryWindow 0x0100) sPending ∧ (sPending.port 0).session = .opened ∧ (sPending.port 1).inSession = true :=
  ⟨lawful_pending, by decide +kernel⟩

theorem witness_WindowsAreReported :
    Lawful sClosing ∧ Fresh 0 5 (.queryWindow (live steady).handle) sClosing ∧ (sClosing.port 0).inSession = true ∧
      live steady ∈ sClosing.windows ∧ (live steady).owner = 0 :=
  ⟨lawful_closing, by decide +kernel⟩

theorem witness_CancelRemovesAPendingWindow :
    Lawful sPair ∧ Fresh 0 5 (.cancel (inBundle false strobe).handle) sPair ∧ (sPair.port 0).session = .opened ∧
      inBundle false strobe ∈ sPair.windows ∧ (inBundle false strobe).owner = 0 ∧ (inBundle false strobe).state = .pending :=
  ⟨lawful_pair, by decide +kernel⟩

theorem witness_CancelEndsAnActiveWindow :
    Lawful sPairActive ∧ Fresh 0 5 (.cancel (live (inBundle true counter)).handle) sPairActive ∧
      (sPairActive.port 0).session = .opened ∧ live (inBundle true counter) ∈ sPairActive.windows ∧
      (live (inBundle true counter)).owner = 0 ∧ (live (inBundle true counter)).state = .active :=
  ⟨lawful_pairActive, by decide +kernel⟩

/-- As `failsFirst`, for the steps of AMEND_END. -/
def amendFailsFirst (n : Nat) (p : Port) (w : Window) (newEnd : Epoch) (s : State) : Bool :=
  decide (((s.amendSteps p w newEnd).take (n + 1)).map Prod.fst = List.replicate n false ++ [true])

theorem witness_AmendEndIsRefusedByTheFirstStep :
    (Lawful sActive ∧ Lawful sOwnBehind ∧ Lawful sOtherBehind) ∧
    Fresh 0 5 (.amendEnd (live steady).handle 301) sOwnBehind ∧ (sOwnBehind.port 0).session = .opened ∧
    live steady ∈ sOwnBehind.windows ∧ Fresh 0 5 (.amendEnd (live steady).handle 301) sOtherBehind ∧
    live steady ∈ sOtherBehind.windows ∧
    amendFailsFirst 0 0 (live steady) 100 sActive = true ∧ amendFailsFirst 1 0 (live steady) 213 sActive = true ∧
    amendFailsFirst 2 0 (live steady) 1099511627877 sActive = true ∧
    amendFailsFirst 3 0 (live steady) 301 sOwnBehind = true ∧ amendFailsFirst 4 0 (live steady) 301 sOtherBehind = true :=
  ⟨⟨lawful_active, lawful_ownBehind, lawful_otherBehind⟩, by decide +kernel⟩

theorem witness_AmendEndMovesTheEnd :
    (Lawful sPairActive ∧ Lawful sOtherBehind ∧ Lawful sEnd) ∧
    (Fresh 0 5 (.amendEnd (live steady).handle 264) sEnd ∧ live steady ∈ sEnd.windows ∧ (live steady).stop ≤ sEnd.epoch ∧
      sEnd.epoch.toNat + 64 ≤ (264 : Epoch).toNat) ∧
    (Fresh 0 5 (.amendEnd (live (inBundle true counter)).handle 214) sPairActive ∧ (sPairActive.port 0).session = .opened ∧
      live (inBundle true counter) ∈ sPairActive.windows ∧ (live (inBundle true counter)).owner = 0 ∧
      (live (inBundle true counter)).start.toNat < (214 : Epoch).toNat ∧
      sPairActive.epoch.toNat + 64 ≤ (214 : Epoch).toNat ∧
      (∀ v ∈ sPairActive.wholeOf (live (inBundle true counter)), ∀ x ∈ sPairActive.trackList v.track, x.slot ≠ v.slot →
        intersects x.start x.stop v.stop 214 = false)) ∧
    (Fresh 0 5 (.amendEnd (live steady).handle 300) sOtherBehind ∧ live steady ∈ sOtherBehind.windows ∧
      (live steady).stop < 300 ∧ sOtherBehind.epoch < (live steady).stop ∧
      (∀ v ∈ sOtherBehind.wholeOf (live steady), ∀ x ∈ sOtherBehind.trackList v.track, x.slot ≠ v.slot →
        intersects x.start x.stop v.stop 300 = false)) :=
  ⟨⟨lawful_pairActive, lawful_otherBehind, lawful_end⟩, by decide +kernel, by decide +kernel, by decide +kernel⟩

theorem witness_FlushRemovesPendingWindows :
    Lawful sPair ∧ (sPair.port 0).session = .opened ∧ (Fresh 0 5 (.flush 0xFE) sPair ∧ (0xFE : Byte).toNat ≤ 0xFE) ∧
      (Fresh 0 5 (.flush 0x80) sPair ∧ 0x80 ≤ (0x80 : Byte).toNat) ∧
      (Fresh 0 5 (.flush 0x7F) sPair ∧ (0x7F : Byte).toNat < 0x80) ∧ (Fresh 0 5 (.flush 24) sPair ∧ 24 ≤ (24 : Byte).toNat) ∧
      (Fresh 0 5 (.flush 23) sPair ∧ (23 : Byte).toNat < 24) ∧ (Fresh 0 5 (.flush 0xFF) sPair ∧ (0xFF : Byte).toNat = 0xFF) :=
  ⟨lawful_pair, by decide +kernel⟩

/-! ### Hypotheses met: resets and the timebase -/

def keepsPairEnd : LawfulState := ⟨scene 200 (pair.map live), by decide +kernel⟩
def sPairEnd : State := keepsPairEnd.1
theorem lawful_pairEnd : Lawful sPairEnd := lawful_of_check keepsPairEnd.2

theorem witness_FullResetClearsThePart : ({ sActive with resetHeld := true } : State).resetHeld = true := by decide +kernel

theorem witness_FreezeChangesFanOut :
    (sClosing.resetHeld = false ∧ sClosing.freeze = .running) ∧
      ({ sClosing with freeze := .held } : State).freeze = .held := by decide +kernel

theorem witness_TickRaisesTheEpoch :
    sActive.resetHeld = false ∧ sActive.freeze = .running ∧ sActive.divider.periods ≤ sActive.progress + 1 ∧
      sActive.dueCommands = [] ∧ sActive.epoch.toNat + 1 < 2 ^ 64 := by decide +kernel

theorem witness_EpochChangesByTickAndReset :
    ({ sActive with freeze := .held } : State).freeze = .held ∧
    after .tick sActive (fun t => decide (t.epoch ≠ sActive.epoch)) = true ∧
      after .resetnAssert sActive (fun t => decide (t.epoch ≠ sActive.epoch)) = true ∧
      after (.resetnRelease .low .low .low 0) { sActive with resetHeld := true } (fun t => decide (t.epoch ≠ sActive.epoch)) =
        true := by decide +kernel

/-! ### Hypotheses met: windows and edges -/

/-- The counter one edge below its limit. -/
def nearLimit : Window :=
  { live (inBundle true counter) with
    run := .tally { count := 1, saturated := false, firstEdge := some 120, lastEdge := some 120 } }

def keepsNearLimit : LawfulState := ⟨scene 150 [nearLimit, live (inBundle false strobe)], by decide +kernel⟩
def sNearLimit : State := keepsNearLimit.1
theorem lawful_nearLimit : Lawful sNearLimit := lawful_of_check keepsNearLimit.2

theorem witness_WindowsStartOnLanes :
    let s := sStart
    Lawful s ∧ s.head (laneTrack 3) = some steady ∧ steady.state = .pending ∧ steady.bundle = none ∧ steady.start ≤ s.epoch :=
  ⟨lawful_start, by decide +kernel⟩

theorem witness_WindowsStartOnSenseTracks :
    (Lawful sHoldOne ∧ Lawful sHoldTwo) ∧
    (let s := sHoldOne;
      s.head (senseTrack 0) = some counter ∧ counter.state = .pending ∧ counter.bundle = none ∧ counter.start ≤ s.epoch ∧
      counter.shape.limit = some 2 ∧ s.carriedFor counter < 2) ∧
    (let s := sHoldTwo;
      s.head (senseTrack 0) = some counter ∧ counter.shape.limit = some 2 ∧ 2 ≤ s.carriedFor counter) :=
  ⟨⟨lawful_holdOne, lawful_holdTwo⟩, by decide +kernel⟩

theorem witness_WindowsEndWhenDue :
    (Lawful sEnd ∧ Lawful sEndTally) ∧
    (sEnd.head 3 = some (live steady) ∧ (live steady).state = .active ∧ (live steady).bundle = none ∧
      (live steady).stop ≤ sEnd.epoch) ∧
    (sEndTally.head 16 = some (live counter) ∧ (live counter).stop ≤ sEndTally.epoch) :=
  ⟨⟨lawful_end, lawful_endTally⟩, by decide +kernel⟩

/-- The record of the pair, PENDING or ACTIVE. -/
def pairRecord (st : WindowState) : BundleRecord :=
  { handles := [0x0100, 0x0101], start := 100, stop := 200, state := st }

theorem witness_BundlesStartTogether :
    let s := sPairHoldOne
    Lawful s ∧ s.bundle 0 0 = some (pairRecord .pending) ∧ (pairRecord .pending).state = .pending ∧
      (pairRecord .pending).start ≤ s.epoch ∧ (∀ w ∈ s.members 0 0, s.head w.track = some w) ∧
      s.members 0 0 = pair ∧ counter.shape.limit = some 2 ∧ s.carriedFor (inBundle true counter) < 2 ∧
      strobe.shape.limit = none :=
  ⟨lawful_pairHoldOne, by decide +kernel⟩

theorem witness_CarriedEdgesEndABundle :
    let s := sPairHoldTwo
    Lawful s ∧ s.bundle 0 0 = some (pairRecord .pending) ∧ (pairRecord .pending).state = .pending ∧
      (pairRecord .pending).start ≤ s.epoch ∧ (∀ w ∈ s.members 0 0, s.head w.track = some w) ∧
      s.members 0 0 = inBundle true counter :: [inBundle false strobe] ∧ (inBundle true counter).shape.limit = some 2 ∧
      2 ≤ s.carriedFor (inBundle true counter) :=
  ⟨lawful_pairHoldTwo, by decide +kernel⟩

theorem witness_BundlesEndTogether :
    let s := sPairEnd
    Lawful s ∧ s.bundle 0 0 = some (pairRecord .active) ∧ (pairRecord .active).state = .active ∧
      (pairRecord .active).stop ≤ s.epoch :=
  ⟨lawful_pairEnd, by decide +kernel⟩

theorem witness_PulsesEndWhenDue :
    Lawful sPulseDue ∧ sPulseDue.head (laneTrack 2) = some pulsing ∧ pulsing.state = .active ∧
      pulsing.shape = .triggered 0 .rise 5 1 ∧
      pulsing.run = .trigger { emitted := 1, pulseEnd := some 155, arming := .armed } ∧ (155 : Epoch) ≤ sPulseDue.epoch :=
  ⟨lawful_pulseDue, by decide +kernel⟩

theorem witness_EdgesAreCountedAndReported :
    (Lawful sCounting ∧ Lawful sHold) ∧
    ({ sCounting with resetHeld := true } : State).resetHeld = true ∧
    (FarFromTop sCounting ∧ sCounting.resetHeld = false ∧ (sCounting.tally 0).seen = .low ∧
      (∀ w ∈ sCounting.windows, w.takesCount 0 .high = true ∧ w.shape.limit = some 2 ∧
        w.run = .tally { count := 0, saturated := false, firstEdge := none, lastEdge := none })) ∧
    (let s := sHold;
      FarFromTop s ∧ (s.tally 0).seen ≠ .high ∧ (s.tally 0).hold.isSome = true ∧
      ∀ w ∈ s.windows, w.takesCount 0 .high = false) :=
  ⟨⟨lawful_counting, lawful_hold⟩, by decide +kernel⟩

theorem witness_TheLimitEndsTheWindowOrItsBundle :
    let s := sNearLimit
    Lawful s ∧ FarFromTop s ∧ s.resetHeld = false ∧ (s.tally 0).seen ≠ .high ∧ nearLimit ∈ s.windows ∧
      nearLimit.takesCount 0 .high = true ∧ nearLimit.shape.limit = some 2 ∧
      nearLimit.run = .tally { count := 1, saturated := false, firstEdge := some 120, lastEdge := some 120 } ∧
      (s.wholeOf nearLimit).length = 2 :=
  ⟨lawful_nearLimit, by decide +kernel⟩

/-! ### Hypotheses met: laws -/

/-- A state in which a step starts a window. -/
def keepsStarting : LawfulState := ⟨{ scene 100 [steady] with pending := [Instr.windowStart 3] }, by decide +kernel⟩
def sStarting : State := keepsStarting.1
theorem lawful_starting : Lawful sStarting := lawful_of_check keepsStarting.2

/-- The next state of a step shows this. -/
def stepped (s : State) (f : State → Bool) : Bool :=
  match step s with
  | .next t => f t
  | _ => false

theorem witness_StepsKeepTheQueueLaw : QueueLaw sStarting ∧ stepped sStarting (fun t => decide (QueueLaw t)) = true := by
  decide +kernel

theorem witness_StepsKeepTheSessionLaw : SessionLaw sStarting ∧ stepped sStarting (fun t => decide (SessionLaw t)) = true := by
  decide +kernel

theorem witness_StepsKeepTheRecordLaws :
    (SessionLaw sStarting ∧ PoolLaw sStarting ∧ ReferenceLaw sStarting ∧ BundleLaw sStarting ∧ RestLaw sStarting) ∧
      stepped sStarting (fun t => decide (t.windows = [live steady])) = true := by decide +kernel

theorem witness_StepsKeepEveryLaw :
    Lawful sStarting ∧ FarFromTop sStarting ∧ stepped sStarting lawful = true :=
  ⟨lawful_starting, by decide +kernel, by decide +kernel⟩

end Sys2Proof.Tests
end

