-- ==== Sys2Proof/Proofs/Steps.lean ====
section
/-! PROOFS. What a step can do: link traffic that no law of windows reads, and between two stretches of it at most one operation of the timeline. -/

namespace Sys2Proof.Machine

/-! ### Quiet changes -/

/-- A Port Unit after a change that no law reads: link, timer and queue move within their own laws. -/
structure PortUnit.Quiet (u v : PortUnit) : Prop where
  session : v.session = u.session
  quota : v.quota = u.quota
  held : v.held = u.held
  bundles : v.bundles = u.bundles
  lawful : u.sessionLawful = true → v.sessionLawful = true
  queue : u.QueueLawful → v.QueueLawful

theorem PortUnit.Quiet.refl (u : PortUnit) : u.Quiet u := ⟨rfl, rfl, rfl, rfl, id, id⟩

theorem PortUnit.Quiet.trans {u v x : PortUnit} (h : u.Quiet v) (h' : v.Quiet x) : u.Quiet x where
  session := h'.session.trans h.session
  quota := h'.quota.trans h.quota
  held := h'.held.trans h.held
  bundles := h'.bundles.trans h.bundles
  lawful := h'.lawful ∘ h.lawful
  queue := h'.queue ∘ h.queue

theorem PortUnit.Quiet.inSession {u v : PortUnit} (h : u.Quiet v) : v.inSession = u.inSession := by
  unfold PortUnit.inSession; rw [h.session]

/-- The link fields of a Port Unit are read by no law (12 R172). -/
theorem PortUnit.quiet_link (u : PortUnit) (x : Option Transaction) (r k : Option Reply) (i : Option (Seq × Byte)) (h : Bool) :
    u.Quiet { u with transaction := x, replySlot := r, retained := k, identity := i, resetHeld := h } :=
  ⟨rfl, rfl, rfl, rfl, id, id⟩

theorem PortUnit.quiet_append (u : PortUnit) (r : EventRecord) : u.Quiet (u.append r) := by
  have e := u.append_eq r
  refine ⟨?_, ?_, ?_, ?_, fun h => ?_, u.append_queueLawful r⟩
  all_goals rw [e]
  exact h

theorem PortUnit.quiet_appendAll (rs : List EventRecord) : ∀ u : PortUnit, u.Quiet (u.appendAll rs) := by
  induction rs with
  | nil => exact PortUnit.Quiet.refl
  | cons r rs ih => exact fun u => (u.quiet_append r).trans (ih _)

theorem PortUnit.quiet_consume (u : PortUnit) : u.Quiet u.consume := by
  have hq : u.QueueLawful → u.consume.QueueLawful := by
    intro h
    cases e : u.queue with
    | nil =>
      obtain ⟨h1, h2, h3⟩ := h
      unfold PortUnit.consume
      rw [e, List.tail_nil, if_neg (fun c => absurd c.1 (by decide))]
      refine ⟨Nat.zero_le _, h2, fun hp => ?_⟩
      have := h3 hp
      rw [e] at this
      exact absurd this (by decide)
    | cons a l => exact u.consume_queueLawful h (by rw [e]; exact List.cons_ne_nil a l)
  refine ⟨?_, ?_, ?_, ?_, fun h => ?_, hq⟩
  all_goals
    unfold PortUnit.consume
    split
  all_goals first | rfl | exact h

/-- A settled item changes the link or consumes a record (12 R174). -/
theorem PortUnit.quiet_settle (u : PortUnit) (x : OutboundItem) : u.Quiet (u.settle x) := by
  cases x with
  | reply r => exact ⟨rfl, rfl, rfl, rfl, id, id⟩
  | event e => exact u.quiet_consume
  | idle => exact .refl u

/-- The reload of the silence timer keeps it within its limit (10 R155). -/
theorem PortUnit.quiet_reload (u : PortUnit) : u.Quiet { u with silenceTimer := u.reloadedTimer } := by
  refine ⟨rfl, rfl, rfl, rfl, fun h => ?_, id⟩
  obtain ⟨session, quota, held, limit, timer⟩ := u
  unfold PortUnit.sessionLawful PortUnit.reloadedTimer at *
  cases session <;> cases limit <;> cases timer <;>
    simp_all [PortUnit.inSession]

/-- A falling silence timer stays within its limit (10 R155). -/
theorem PortUnit.quiet_countTimer (u : PortUnit) :
    u.Quiet { u with silenceTimer := u.silenceTimer.map (fun n => n - 1) } := by
  refine ⟨rfl, rfl, rfl, rfl, fun h => ?_, id⟩
  obtain ⟨session, quota, held, limit, timer⟩ := u
  unfold PortUnit.sessionLawful at *
  cases session <;> cases limit <;> cases timer <;> simp_all [PortUnit.inSession]
  all_goals omega

/-- A change that no law reads: links, timers, queues, pins and attributes. -/
structure Quiet (s t : State) : Prop where
  windows : t.windows = s.windows
  useCounts : t.useCounts = s.useCounts
  claimants : t.claimants = s.claimants
  trigRefs : t.trigRefs = s.trigRefs
  epoch : t.epoch = s.epoch
  pending : t.pending = s.pending
  drive : ∀ l, (t.lane l).drive = (s.lane l).drive
  counting : ∀ k, (t.tally k).counting = (s.tally k).counting
  hold : ∀ k, (t.tally k).hold = (s.tally k).hold
  carried : ∀ k, (t.tally k).carried = (s.tally k).carried
  timebase : TimebaseLaw s → TimebaseLaw t
  port : ∀ p, (s.port p).Quiet (t.port p)

theorem Quiet.refl (s : State) : Quiet s s :=
  ⟨rfl, rfl, rfl, rfl, rfl, rfl, fun _ => rfl, fun _ => rfl, fun _ => rfl, fun _ => rfl, id, fun _ => .refl _⟩

theorem Quiet.trans {s t u : State} (h : Quiet s t) (h' : Quiet t u) : Quiet s u where
  windows := h'.windows.trans h.windows
  useCounts := h'.useCounts.trans h.useCounts
  claimants := h'.claimants.trans h.claimants
  trigRefs := h'.trigRefs.trans h.trigRefs
  epoch := h'.epoch.trans h.epoch
  pending := h'.pending.trans h.pending
  drive l := (h'.drive l).trans (h.drive l)
  counting k := (h'.counting k).trans (h.counting k)
  hold k := (h'.hold k).trans (h.hold k)
  carried k := (h'.carried k).trans (h.carried k)
  timebase := h'.timebase ∘ h.timebase
  port p := (h.port p).trans (h'.port p)

/-- Port Units that change quietly, and nothing else. -/
theorem quiet_ports {s t : State} (h : t = { s with ports := t.ports, freeCount := t.freeCount, resetHeld := t.resetHeld })
    (hp : ∀ p, (s.port p).Quiet (t.port p)) : Quiet s t := by
  refine ⟨?_, ?_, ?_, ?_, ?_, ?_, fun l => ?_, fun k => ?_, fun k => ?_, fun k => ?_, fun hs => ?_, hp⟩
  all_goals rw [h]
  all_goals first | rfl | exact hs

theorem quiet_setPort (s : State) (p : Port) {u : PortUnit} (h : (s.port p).Quiet u) : Quiet s (s.setPort p u) := by
  refine quiet_ports rfl (fun q => ?_)
  rw [State.port_setPort]
  by_cases e : p = q
  · subst e; rwa [if_pos rfl]
  · rw [if_neg e]; exact .refl _

theorem quiet_reloadTimer (s : State) (p : Port) : Quiet s (s.reloadTimer p) := by
  rw [State.reloadTimer_eq]
  exact quiet_setPort s p (PortUnit.quiet_reload _)

/-- Records posted in any order change queues only (11 R163). -/
theorem quiet_postUnordered (s : State) (rs : List (Port × EventRecord)) : Quiet s (s.postUnordered rs) := by
  obtain ⟨rs', n, _, h⟩ := s.postUnordered_spec rs
  rw [h]
  refine quiet_ports rfl (fun p => ?_)
  have e : State.port { s with ports := Vector.ofFn (fun q => (s.port q).appendAll (recordsFor q rs')), freeCount := n } p =
      (s.port p).appendAll (recordsFor p rs') := vector_ofFn_get _ p
  rw [e]
  exact PortUnit.quiet_appendAll _ _

theorem port_mapPorts (s : State) (f : PortUnit → PortUnit) (p : Port) :
    State.port { s with ports := s.ports.map f } p = f (s.port p) := by
  simp [State.port]

theorem quiet_countTimers (s : State) : Quiet s s.countTimers := by
  refine quiet_ports rfl (fun p => ?_)
  unfold State.countTimers
  rw [port_mapPorts]
  exact PortUnit.quiet_countTimer _

/-- A change of the freeze state and what it tells (09 R140, R141). -/
theorem quiet_freeze (s : State) (f : FreezeState) (r : EventRecord) :
    Quiet s ({ s with freeze := f, progress := 0 }.fanOut r) := by
  refine ⟨rfl, rfl, rfl, rfl, rfl, rfl, fun _ => rfl, fun _ => rfl, fun _ => rfl, fun _ => rfl, fun _ => ?_, fun p => ?_⟩
  · show 0 < s.divider.periods
    cases s.divider <;> decide
  · unfold State.fanOut
    rw [port_mapPorts]
    show (s.port p).Quiet (if (s.port p).session = .opened ∨ (s.port p).session = .closing then _ else _)
    split
    · exact PortUnit.quiet_append _ _
    · exact .refl _

/-! ### Operations of the timeline -/

/-- The operations that laws of windows, records and sessions read, each with the condition under which a step takes it. -/
inductive Op : State → State → Prop
  | none (s : State) : Op s s
  /-- OPEN (10 R148). -/
  | opens (s : State) (p : Port) (q l : Nat) (hs : (s.port p).inSession = false) (hq : 1 ≤ q) (hl : 1 ≤ l) (hl' : l ≤ 4095)
      (hsum : s.quotasInUse + q ≤ poolSize) :
      Op s (s.setPort p { s.port p with
        session := .opened
        quota := q
        held := 0
        silenceLimit := some l
        silenceTimer := some (l * silenceUnit)
        bundles := Vector.replicate 8 none })
  /-- CLOSE GRACEFUL (10 R151). -/
  | closes (s : State) (p : Port) (hs : (s.port p).session = .opened) : Op s (closeGraceful p s).1
  /-- CLOSE ABRUPT (10 R153). -/
  | closesAbruptly (s : State) (p : Port) (hs : (s.port p).inSession = true) : Op s ((s.teardown p).sessionDown p)
  /-- A lapse (10 R158). -/
  | lapses (s : State) (p : Port) (cause : LapseCause) (hs : (s.port p).inSession = true) : Op s (s.lapse p cause)
  /-- CLAIM (06 R92). -/
  | claims (s : State) (p : Port) (t : Track) (hs : (s.port p).session = .opened) (hf : s.claimant t = Option.none)
      (hh : s.heldByOthers p t = false) : Op s (s.setClaimant t (some p))
  /-- RELEASE (06 R94). -/
  | releases (s : State) (p : Port) (t : Track) (hc : s.claimant t = some p) : Op s (s.setClaimant t Option.none)
  /-- RESERVE (02 R33 to R36). -/
  | books (s : State) (p : Port) (b : Booking) (d : Descriptor) (m : Member) (i : Slot) (hs : (s.port p).session = .opened)
      (hj : judgeReserve p b d s = .ok m) (hi : (s.displace p m.priority [m.track] b.start b.stop).freeSlots.head? = some i) :
      Op s ((s.displace p m.priority [m.track] b.start b.stop).insertWindow
        (newWindow (s.displace p m.priority [m.track] b.start b.stop) p b Option.none m i))
  /-- RESERVE_BUNDLE (04 R64). -/
  | booksBundle (s : State) (p : Port) (b : Booking) (ds : List Descriptor) (ms : List Member) (n : BundleNo)
      (hs : (s.port p).session = .opened) (hj : judgeBundle p b ds s = .ok (ms, n)) : Op s (reserveBundle p b ds s).1
  /-- CANCEL of a PENDING window (05 R76). -/
  | removes (s : State) (w : Window) (hs : (s.port w.owner).session = .opened) (hw : w ∈ s.windows) (hp : w.state = .pending) :
      Op s (s.leaveAll (s.unitOf w))
  /-- FLUSH (05 R84). -/
  | flushes (s : State) (p : Port) (target : FlushTarget) (hs : (s.port p).session = .opened) :
      Op s (s.leaveAll (s.flushed p target))
  /-- CANCEL of an ACTIVE window (05 R77). -/
  | cancels (s : State) (w : Window) (hw : w ∈ s.windows) (ha : w.state = .active) :
      Op s (s.retire (fun _ => .cancelled) (s.unitOf w))
  /-- AMEND_END (05 R82). -/
  | amends (s : State) (w : Window) (newEnd : Epoch) (hs : (s.port w.owner).session = .opened) (hw : w ∈ s.windows)
      (hr : s.amendRefusal w.owner w newEnd = Option.none) :
      Op s ((s.setStops (s.unitOf w) newEnd).refreshLanesOf (s.unitOf w))
  /-- WINDOW_START (01 R12). -/
  | starts (s : State) (t : Track) (w : Window) (hd : s.startDue t = some w) : Op s (s.startAll [w])
  /-- WINDOW_END_DUE (01 R14). -/
  | ends (s : State) (t : Track) (w : Window) (hd : s.endDue t = some w) : Op s (s.retire (fun _ => .complete) [w])
  /-- BUNDLE_JOINT_START (04 R65). -/
  | startsTogether (s : State) (p : Port) (b : BundleNo) (hd : s.jointStartDue p b = true) :
      Op s ((s.setBundle p b ((s.bundle p b).map (fun r => { r with state := .active }))).startAll (s.members p b))
  /-- BUNDLE_JOINT_END (04 R68). -/
  | endsTogether (s : State) (p : Port) (b : BundleNo) (hd : s.jointEndDue p b = true) :
      Op s ((s.setBundle p b Option.none).retire (fun _ => .complete) (s.members p b))
  /-- PULSE_END (07 R111). -/
  | endsPulse (s : State) (l : Lane) (w : Window) (hd : s.pulseDue l = some w) :
      Op s ((s.updateWindow w.slot Window.endPulse).setDrive l .inactive)
  /-- SENSE_EDGE (08 R123). -/
  | edge (s : State) (k : Sense) (level : Level) : Op s (s.takeEdge k level)
  /-- TICK (09 R139). -/
  | tick (s : State) (hc : s.tickCompletes = true) (hd : s.dueCommands = []) : Op s s.takeTick
  /-- RESETn, asserted or released (01 R19). -/
  | resets (s : State) (held : Bool) (d : Divider) (f : FreezeState) (seen : Sense → Level) :
      Op s { s.cleared with
        resetHeld := held, divider := d, freeze := f, tallies := Vector.ofFn (fun k => { TallyUnit.reset with seen := seen k }) }

/-- One operation between quiet changes. -/
def Does (s t : State) : Prop := ∃ u v, Quiet s u ∧ Op u v ∧ Quiet v t

theorem Does.quiet {s t : State} (h : Quiet s t) : Does s t := ⟨s, s, .refl s, .none s, h⟩

theorem Does.op {s t : State} (h : Op s t) : Does s t := ⟨s, t, .refl s, h, .refl t⟩

/-- An operation followed by a quiet change, as a block answers a request. -/
theorem Does.of_answer {s u v t : State} (h : Quiet s u) (hd : Does u v) (h' : Quiet v t) : Does s t := by
  obtain ⟨x, y, hx, ho, hy⟩ := hd
  exact ⟨x, y, h.trans hx, ho, hy.trans h'⟩

/-! ### Requests -/

/-- A handle resolves only to a window of the port (01 R9). -/
theorem State.resolve_spec {s : State} {p : Port} {h : Handle} {w : Window} (hr : s.resolve p h = some w) :
    w ∈ s.windows ∧ w.owner = p := by
  unfold State.resolve at hr
  split at hr
  · obtain ⟨hw, hc⟩ := Option.filter_eq_some_iff.mp hr
    simp only [Bool.and_eq_true, decide_eq_true_eq] at hc
    exact ⟨List.mem_of_find?_eq_some hw, hc.2⟩
  · cases hr

/-- The session gate of every request that changes windows or claims passes OPEN alone (10 R146). -/
theorem sessionGate_opened {n : RequestName} {st : SessionState} (h : sessionGate n st = none)
    (hn : n ∈ [RequestName.claim, .release, .setLane, .reserve, .reserveBundle, .cancel, .amendEnd, .flush]) : st = .opened := by
  simp only [List.mem_cons, List.not_mem_nil, or_false] at hn
  rcases hn with rfl | rfl | rfl | rfl | rfl | rfl | rfl | rfl <;> cases st <;> first | rfl | cases h

theorem openSession_does (p : Port) (q : Byte) (l : BitVec 16) (s : State) (hs : (s.port p).inSession = false) :
    Does s (openSession p q l s).1 := by
  unfold openSession
  dsimp only
  split
  · exact .quiet (.refl s)
  · split
    · exact .quiet (.refl s)
    · next h h' => exact .op (.opens s p _ _ hs (by omega) (by omega) (by omega) (by omega))

theorem closeGraceful_does (p : Port) (s : State) (hs : (s.port p).inSession = true) : Does s (closeGraceful p s).1 := by
  by_cases h : (s.port p).session = .closing
  · unfold closeGraceful
    rw [if_pos h]
    exact .quiet (.refl s)
  · refine .op (.closes s p ?_)
    simpa [PortUnit.inSession, h] using hs

theorem claim_does (p : Port) (b : Byte) (s : State) (hs : (s.port p).session = .opened) : Does s (claim p b s).1 := by
  unfold claim
  split
  · exact .quiet (.refl s)
  · split
    · split <;> exact .quiet (.refl s)
    · split
      · exact .quiet (.refl s)
      · next t _ _ hf hh => exact .op (.claims s p t hs hf (by simpa using hh))

theorem release_does (p : Port) (b : Byte) (s : State) : Does s (release p b s).1 := by
  unfold release
  split
  · exact .quiet (.refl s)
  · split
    · next t _ hc => exact .op (.releases s p t hc)
    · exact .quiet (.refl s)

theorem queryTrack_state (b : Byte) (s : State) : (queryTrack b s).1 = s := by
  unfold queryTrack
  split <;> rfl

theorem setLane_does (p : Port) (l pol i : Byte) (s : State) : Does s (setLane p l pol i s).1 := by
  unfold setLane
  split
  · split
    · exact .quiet (.refl s)
    · split
      · exact .quiet (.refl s)
      · next pol idl _ _ l _ _ =>
        refine .quiet ⟨rfl, rfl, rfl, rfl, rfl, rfl, fun m => ?_, fun _ => rfl, fun _ => rfl, fun _ => rfl, id, fun _ => .refl _⟩
        rw [State.lane_setLane]
        split
        · next e => rw [← e]
        · rfl
  · exact .quiet (.refl s)

theorem reserve_does (p : Port) (b : Booking) (d : Descriptor) (s : State) (hs : (s.port p).session = .opened) :
    Does s (reserve p b d s).1 := by
  unfold reserve
  split
  · exact .quiet (.refl s)
  · next m hj =>
    dsimp only
    split
    · next i is hi => exact .op (.books s p b d m i hs hj (by rw [hi]; rfl))
    · exact .quiet (.refl s)

theorem reserveBundle_does (p : Port) (b : Booking) (ds : List Descriptor) (s : State) (hs : (s.port p).session = .opened) :
    Does s (reserveBundle p b ds s).1 := by
  cases hj : judgeBundle p b ds s with
  | error a =>
    unfold reserveBundle
    rw [hj]
    exact .quiet (.refl s)
  | ok r => exact .op (.booksBundle s p b ds r.1 r.2 hs hj)

theorem cancel_does (p : Port) (h : Handle) (s : State) (hs : (s.port p).session = .opened) : Does s (cancel p h s).1 := by
  unfold cancel
  split
  · exact .quiet (.refl s)
  · next w hr =>
    obtain ⟨hw, ho⟩ := State.resolve_spec hr
    dsimp only
    split
    · next hp => exact .op (.removes s w (by rw [ho]; exact hs) hw hp)
    · next ha => exact .op (.cancels s w hw ha)

theorem amendEnd_does (p : Port) (h : Handle) (e : Epoch) (s : State) (hs : (s.port p).session = .opened) :
    Does s (amendEnd p h e s).1 := by
  unfold amendEnd
  split
  · exact .quiet (.refl s)
  · next w hr =>
    obtain ⟨hw, rfl⟩ := State.resolve_spec hr
    split
    · exact .quiet (.refl s)
    · next hn =>
      split
      · exact .quiet (.refl s)
      · exact .op (.amends s w e hs hw hn)

theorem flush_does (p : Port) (b : Byte) (s : State) (hs : (s.port p).session = .opened) : Does s (flush p b s).1 := by
  unfold flush
  split
  · exact .quiet (.refl s)
  · next t _ => exact .op (.flushes s p t hs)

theorem queryWindow_state (p : Port) (h : Handle) (s : State) : (queryWindow p h s).1 = s := by
  unfold queryWindow
  split <;> rfl

/-- What the owning block of a request that passed its gate does. -/
theorem answerRequest_does (p : Port) (r : Request) (s : State) (hg : sessionGate (requestName r) (s.port p).session = none) :
    Does s (answerRequest p r s).1 := by
  cases r with
  | openSession q l =>
    refine openSession_does p q l s ?_
    unfold PortUnit.inSession
    revert hg
    cases (s.port p).session <;> simp [requestName, sessionGate]
  | closeGraceful =>
    refine closeGraceful_does p s ?_
    unfold PortUnit.inSession
    revert hg
    cases (s.port p).session <;> simp [requestName, sessionGate]
  | closeAbrupt =>
    refine .op (.closesAbruptly s p ?_)
    unfold PortUnit.inSession
    revert hg
    cases (s.port p).session <;> simp [requestName, sessionGate]
  | readEpoch => exact .quiet (.refl s)
  | queryPool => exact .quiet (.refl s)
  | claim t => exact claim_does p t s (sessionGate_opened hg (by simp [requestName]))
  | release t => exact release_does p t s
  | queryTrack t => exact .quiet (by rw [show (answerRequest p (.queryTrack t) s).1 = s from queryTrack_state t s]; exact .refl s)
  | setLane l pol i => exact setLane_does p l pol i s
  | reserve b d => exact reserve_does p b d s (sessionGate_opened hg (by simp [requestName]))
  | reserveBundle b ds => exact reserveBundle_does p b ds s (sessionGate_opened hg (by simp [requestName]))
  | cancel h => exact cancel_does p h s (sessionGate_opened hg (by simp [requestName]))
  | amendEnd h e => exact amendEnd_does p h e s (sessionGate_opened hg (by simp [requestName]))
  | flush t => exact flush_does p t s (sessionGate_opened hg (by simp [requestName]))
  | queryWindow h =>
    exact .quiet (by rw [show (answerRequest p (.queryWindow h) s).1 = s from queryWindow_state p h s]; exact .refl s)

/-- The request of a frame is one of those its name stands for. -/
def Frame.Fits (f : Frame) : Prop := ∀ n r, f.name = some n → f.request = some r → requestName r = n

theorem Frame.fits_ofRequest (seq : Seq) (r : Request) : (Frame.ofRequest seq r).Fits := by
  intro n r' hn hr
  cases hn; cases hr; rfl

/-- Operands read for a name make a request of that name (12 R180). -/
theorem requestName_readOperands {n : RequestName} {bs : List Byte} {r : Request} (h : readOperands n bs = some r) :
    requestName r = n := by
  cases n with
  | reserve =>
    replace h : (match readBooking bs with
      | some (b, rest) =>
        match readDescriptors 1 rest with
        | some [d] => some (Request.reserve b d)
        | _ => none
      | none => none) = some r := h
    split at h
    · split at h <;> cases h
      rfl
    · cases h
  | reserveBundle =>
    replace h : (match readBooking bs with
      | some (b, n :: rest) => (readDescriptors n.toNat rest).map (fun ds => Request.reserveBundle b ds)
      | _ => none) = some r := h
    split at h
    · obtain ⟨ds, _, rfl⟩ := Option.map_eq_some_iff.mp h
      rfl
    · cases h
  | close =>
    rcases bs with _ | ⟨m, _ | ⟨_, _⟩⟩
    · cases h
    · replace h : (if m = 0x01 then some Request.closeGraceful else if m = 0x02 then some .closeAbrupt else none) = some r := h
      split at h
      · cases h; rfl
      · split at h <;> cases h
        rfl
    · cases h
  | amendEnd =>
    rcases bs with _ | ⟨_, _ | ⟨_, _ | ⟨_, _ | ⟨_, _ | ⟨_, _ | ⟨_, _ | ⟨_, _ | ⟨_, _ | ⟨_, _ | ⟨_, _ | ⟨_, _⟩⟩⟩⟩⟩⟩⟩⟩⟩⟩⟩ <;>
      cases h
    rfl
  | _ =>
    rcases bs with _ | ⟨_, _ | ⟨_, _ | ⟨_, _ | ⟨_, _⟩⟩⟩⟩ <;> cases h
    rfl

theorem fits_readInbound {bs : List Byte} {f : Frame} (h : readInbound bs = .request f) : f.Fits := by
  unfold readInbound at h
  split at h
  · cases h
  · split at h
    · cases h
    · split at h
      · cases h
      · dsimp only at h
        split at h
        · cases h
        · split at h
          · cases h
          · split at h
            · cases h
            · cases h
              intro n r hn hr
              dsimp only at hn hr
              rw [hn] at hr
              exact requestName_readOperands hr

theorem answerFrame_does (p : Port) (f : Frame) (s : State) (hf : f.Fits) : Does s (answerFrame p f s).1 := by
  unfold answerFrame
  split
  · exact .quiet (.refl s)
  · next n hn =>
    split
    · exact .quiet (.refl s)
    · next hg =>
      split
      · exact .quiet (.refl s)
      · next r hr => exact answerRequest_does p r s (by rw [hf n r hn hr]; exact hg)

theorem quiet_fillSlot (s : State) (p : Port) (seq : Seq) (code : Byte) (a : Answer) : Quiet s (s.fillSlot p seq code a) :=
  quiet_setPort s p ⟨rfl, rfl, rfl, rfl, id, id⟩

theorem quiet_setOverrun (s : State) (p : Port) : Quiet s (s.setOverrun p) :=
  quiet_setPort s p ⟨rfl, rfl, rfl, rfl, id, id⟩

theorem quiet_retryFrame (p : Port) (s : State) : Quiet s (retryFrame p s) := by
  unfold retryFrame
  split
  · split
    · exact quiet_setOverrun s p
    · exact .refl s
  · exact quiet_setPort s p ⟨rfl, rfl, rfl, rfl, id, id⟩

theorem judgeFrame_does (p : Port) (f : Frame) (s : State) (hf : f.Fits) : Does s (judgeFrame p f s) := by
  unfold judgeFrame
  dsimp only
  have hq := quiet_reloadTimer s p
  split
  · exact .quiet (hq.trans (quiet_retryFrame p _))
  · split
    · exact .quiet (hq.trans (quiet_setOverrun _ p))
    · have hi : Quiet s ((s.reloadTimer p).setIdentity p f) := hq.trans (quiet_setPort _ p ⟨rfl, rfl, rfl, rfl, id, id⟩)
      exact .of_answer hi (answerFrame_does p f _ hf) (quiet_fillSlot _ p _ _ _)

theorem requestCommand_does (p : Port) (seq : Seq) (r : Request) (s : State) : Does s (requestCommand p seq r s) := by
  unfold requestCommand
  split
  · exact judgeFrame_does p _ s (Frame.fits_ofRequest seq r)
  · exact .quiet (.refl s)

theorem judgeInbound_does (p : Port) (bs : List Byte) (s : State) : Does s (judgeInbound p bs s) := by
  unfold judgeInbound
  split
  · exact .quiet (.refl s)
  · exact .quiet (quiet_reloadTimer s p)
  · exact .quiet (.refl s)
  · unfold badFrame
    split
    · exact .quiet (quiet_setOverrun s p)
    · exact .quiet (quiet_fillSlot s p _ _ _)
  · next f hf => exact judgeFrame_does p f s (fits_readInbound hf)

theorem endTransaction_does (p : Port) (received : List Level) (s : State) : Does s (endTransaction p received s) := by
  unfold endTransaction
  split
  · exact .quiet (.refl s)
  · next x _ =>
    dsimp only
    refine .of_answer (quiet_setPort s p ?_) (judgeInbound_does p _ _) (.refl _)
    have hu : (s.port p).Quiet { s.port p with transaction := none } := ⟨rfl, rfl, rfl, rfl, id, id⟩
    split
    · exact hu.trans (PortUnit.quiet_settle _ _)
    · exact hu

/-! ### Steps -/

theorem portResetAssert_does (p : Port) (s : State) :
    ∃ t, exec (.portResetAssert p) s = .next t ∧ Does s t := by
  show ∃ t, execPortResetAssert p s = .next t ∧ Does s t
  unfold execPortResetAssert
  split
  · exact ⟨_, rfl, .quiet (.refl s)⟩
  · refine ⟨_, rfl, ?_⟩
    split
    · next hs =>
      refine .of_answer (.refl s) (.op (.lapses s p .portReset ?_)) (quiet_setPort _ p (PortUnit.quiet_link _ _ _ _ _ _))
      simpa [PortUnit.inSession] using hs
    · exact .quiet (quiet_setPort _ p (PortUnit.quiet_link _ _ _ _ _ _))

/-- Every command answers a next state, with at most one operation of the timeline between quiet changes. -/
theorem exec_does (c : Instr) (s : State) : ∃ t, exec c s = .next t ∧ Does s t := by
  have row : ∀ p seq r, ∃ t, exec (rowOf p seq r) s = .next t ∧ Does s t :=
    fun p seq r => ⟨_, exec_rowOf p seq r s, requestCommand_does p seq r s⟩
  cases c with
  | openSession p seq q l => exact row p seq (.openSession q l)
  | closeGraceful p seq => exact row p seq .closeGraceful
  | closeAbrupt p seq => exact row p seq .closeAbrupt
  | readEpoch p seq => exact row p seq .readEpoch
  | queryPool p seq => exact row p seq .queryPool
  | claim p seq t => exact row p seq (.claim t)
  | release p seq t => exact row p seq (.release t)
  | queryTrack p seq t => exact row p seq (.queryTrack t)
  | setLane p seq l pol i => exact row p seq (.setLane l pol i)
  | reserve p seq b d => exact row p seq (.reserve b d)
  | reserveBundle p seq b ds => exact row p seq (.reserveBundle b ds)
  | cancel p seq h => exact row p seq (.cancel h)
  | amendEnd p seq h e => exact row p seq (.amendEnd h e)
  | flush p seq t => exact row p seq (.flush t)
  | queryWindow p seq h => exact row p seq (.queryWindow h)
  | transactionBegin p =>
    show ∃ t, execTransactionBegin p s = .next t ∧ Does s t
    unfold execTransactionBegin
    split
    · exact ⟨_, rfl, .quiet (quiet_setPort s p ⟨rfl, rfl, rfl, rfl, id, id⟩)⟩
    · exact ⟨_, rfl, .quiet (.refl s)⟩
  | transactionEnd p received =>
    show ∃ t, execTransactionEnd p received s = .next t ∧ Does s t
    unfold execTransactionEnd
    split
    · exact ⟨_, rfl, endTransaction_does p received s⟩
    · exact ⟨_, rfl, .quiet (.refl s)⟩
  | resetnAssert =>
    refine ⟨_, rfl, ?_⟩
    have e : s.cleared.tallies = Vector.ofFn (fun k => { TallyUnit.reset with seen := (s.tally k).seen }) :=
      vector_ext_fin (fun k => by simp [State.cleared, State.tally])
    have o := Op.resets s true s.divider s.freeze (fun k => (s.tally k).seen)
    rw [← e] at o
    exact .op o
  | resetnRelease tdiv1 tdiv0 freeze sense =>
    show ∃ t, execResetnRelease tdiv1 tdiv0 freeze sense s = .next t ∧ Does s t
    unfold execResetnRelease
    split
    · exact ⟨_, rfl, .op (.resets s false _ _ (fun k => levelOf (sense.getLsbD k.val)))⟩
    · exact ⟨_, rfl, .quiet (.refl s)⟩
  | portResetAssert p => exact portResetAssert_does p s
  | portResetRelease p => exact ⟨_, rfl, .quiet (quiet_setPort s p ⟨rfl, rfl, rfl, rfl, id, id⟩)⟩
  | freezeAssert =>
    show ∃ t, execFreezeAssert s = .next t ∧ Does s t
    unfold execFreezeAssert
    split
    · exact ⟨_, rfl, .quiet (.refl s)⟩
    · split
      · exact ⟨_, rfl, .quiet (quiet_freeze s _ _)⟩
      · exact ⟨_, rfl, .quiet (.refl s)⟩
  | freezeRelease =>
    show ∃ t, execFreezeRelease s = .next t ∧ Does s t
    unfold execFreezeRelease
    split
    · exact ⟨_, rfl, .quiet (.refl s)⟩
    · split
      · exact ⟨_, rfl, .quiet (quiet_freeze s _ _)⟩
      · exact ⟨_, rfl, .quiet (.refl s)⟩
  | senseEdge k level =>
    show ∃ t, execSenseEdge k level s = .next t ∧ Does s t
    unfold execSenseEdge
    split
    · exact ⟨_, rfl, .quiet (.refl s)⟩
    · exact ⟨_, rfl, .op (.edge s k level)⟩
  | tick =>
    show ∃ t, execTick s = .next t ∧ Does s t
    unfold execTick
    split
    · next h =>
      obtain ⟨hc, hd⟩ := Bool.and_eq_true_iff.mp h
      exact ⟨_, rfl, .of_answer (.refl s) (.op (.tick s hc (List.isEmpty_iff.mp hd))) (quiet_countTimers _)⟩
    · exact ⟨_, rfl, .quiet (.refl s)⟩
  | silenceTimerExpiry p =>
    show ∃ t, execSilenceTimerExpiry p s = .next t ∧ Does s t
    unfold execSilenceTimerExpiry
    split
    · next h =>
      refine ⟨_, rfl, .op (.lapses s p .silence ?_)⟩
      unfold State.expiryDue at h
      simp only [Bool.and_eq_true] at h
      exact h.1.1
    · exact ⟨_, rfl, .quiet (.refl s)⟩
  | windowStart x =>
    show ∃ t, execWindowStart x s = .next t ∧ Does s t
    unfold execWindowStart
    split
    · next w h => exact ⟨_, rfl, .op (.starts s x w h)⟩
    · exact ⟨_, rfl, .quiet (.refl s)⟩
  | windowEndDue x =>
    show ∃ t, execWindowEndDue x s = .next t ∧ Does s t
    unfold execWindowEndDue
    split
    · next w h => exact ⟨_, rfl, .op (.ends s x w h)⟩
    · exact ⟨_, rfl, .quiet (.refl s)⟩
  | bundleJointStart p b =>
    show ∃ t, execBundleJointStart p b s = .next t ∧ Does s t
    unfold execBundleJointStart
    split
    · next h => exact ⟨_, rfl, .op (.startsTogether s p b h)⟩
    · exact ⟨_, rfl, .quiet (.refl s)⟩
  | bundleJointEnd p b =>
    show ∃ t, execBundleJointEnd p b s = .next t ∧ Does s t
    unfold execBundleJointEnd
    split
    · next h => exact ⟨_, rfl, .op (.endsTogether s p b h)⟩
    · exact ⟨_, rfl, .quiet (.refl s)⟩
  | pulseEnd l =>
    show ∃ t, execPulseEnd l s = .next t ∧ Does s t
    unfold execPulseEnd
    split
    · next w h => exact ⟨_, rfl, .op (.endsPulse s l w h)⟩
    · exact ⟨_, rfl, .quiet (.refl s)⟩

theorem refclkPeriod_does (s : State) (hd : s.dueCommands = []) : Does s (refclkPeriod s) := by
  unfold refclkPeriod
  split
  · exact .quiet (.refl s)
  · split
    · next hc => exact .of_answer (.refl s) (.op (.tick s hc hd)) (quiet_countTimers _)
    · split
      · next h hc hr =>
        refine .quiet (.trans ?_ (quiet_countTimers _))
        refine ⟨rfl, rfl, rfl, rfl, rfl, rfl, fun _ => rfl, fun _ => rfl, fun _ => rfl, fun _ => rfl, fun _ => ?_, fun _ => .refl _⟩
        show s.progress + 1 < s.divider.periods
        unfold State.tickCompletes at hc
        simpa [h, hr] using hc
      · exact .quiet (quiet_countTimers s)

theorem autonomous_spec {s t : State} {c : Instr} (h : autonomous s = some (c, t)) : ∃ n, t = { s with freeCount := n } := by
  unfold autonomous at h
  split at h <;> cases h
  · exact ⟨s.freeCount, rfl⟩
  · exact ⟨s.freeCount + 1, rfl⟩

theorem autonomous_eq_none {s : State} (h : autonomous s = none) : s.dueCommands = [] := by
  unfold autonomous at h
  split at h
  · assumption
  · cases h
  · cases h

/-- What a step does, up to the queue of waiting commands and the free-value counter, which no law reads. -/
theorem step_does {s t : State} (h : step s = .next t) : ∃ rest n, Does { s with pending := rest, freeCount := n } t := by
  unfold step at h
  split at h
  · next c rest _ =>
    obtain ⟨t', ht, hd⟩ := exec_does c { s with pending := rest }
    rw [ht] at h
    cases h
    exact ⟨rest, s.freeCount, hd⟩
  · split at h
    · next c u hu =>
      obtain ⟨n, rfl⟩ := autonomous_spec hu
      obtain ⟨t', ht, hd⟩ := exec_does c { s with freeCount := n }
      rw [ht] at h
      cases h
      exact ⟨s.pending, n, hd⟩
    · next hn =>
      cases h
      exact ⟨s.pending, s.freeCount, refclkPeriod_does s (autonomous_eq_none hn)⟩

end Sys2Proof.Machine
end

