-- ==== Sys2Proof/Proofs/Records.lean ====
section
/-! PROOFS. The laws of records port by port: each port's unit, windows, references and claims against one another. -/

namespace Sys2Proof.Machine

/-! ### Windows that keep their booking -/

/-- `v` is `w` with another end, state or run-time part: all that happens to a window between its admission and its leaving. -/
def Window.Alike (w v : Window) : Prop := v = { w with stop := v.stop, state := v.state, run := v.run }

theorem Window.Alike.refl (w : Window) : w.Alike w := rfl

theorem Window.Alike.trans {w v u : Window} (h : w.Alike v) (h' : v.Alike u) : w.Alike u := by
  unfold Window.Alike at *
  rw [h'.trans (by rw [h])]

theorem Window.Alike.slot {w v : Window} (h : w.Alike v) : v.slot = w.slot := by rw [h]
theorem Window.Alike.useCount {w v : Window} (h : w.Alike v) : v.useCount = w.useCount := by rw [h]
theorem Window.Alike.owner {w v : Window} (h : w.Alike v) : v.owner = w.owner := by rw [h]
theorem Window.Alike.track {w v : Window} (h : w.Alike v) : v.track = w.track := by rw [h]
theorem Window.Alike.start {w v : Window} (h : w.Alike v) : v.start = w.start := by rw [h]
theorem Window.Alike.shape {w v : Window} (h : w.Alike v) : v.shape = w.shape := by rw [h]
theorem Window.Alike.bundle {w v : Window} (h : w.Alike v) : v.bundle = w.bundle := by rw [h]
theorem Window.Alike.bundleNo {w v : Window} (h : w.Alike v) : v.bundleNo = w.bundleNo := by rw [h]; rfl
theorem Window.Alike.handle {w v : Window} (h : w.Alike v) : v.handle = w.handle := by rw [h]; rfl

/-- A change of window records that keeps every booking. -/
def KeepsBookings (f : Window → Window) : Prop := ∀ w : Window, w.Alike (f w)

theorem KeepsBookings.comp {f g : Window → Window} (hf : KeepsBookings f) (hg : KeepsBookings g) :
    KeepsBookings (fun w => g (f w)) := fun w => (hf w).trans (hg (f w))

theorem KeepsBookings.ite {f : Window → Window} (hf : KeepsBookings f) (c : Window → Prop) [DecidablePred c] :
    KeepsBookings (fun w => if c w then f w else w) := by
  intro w
  dsimp only
  split
  · exact hf w
  · exact .refl w

/-- A filter that reads the booking alone meets a changed list as it meets the list. -/
theorem filter_map_of_keeps {f : Window → Window} {c : Window → Bool} (hc : ∀ w, c (f w) = c w) (ws : List Window) :
    (ws.map f).filter c = (ws.filter c).map f := by
  rw [List.filter_map]
  congr 1
  exact List.filter_congr (fun w _ => hc w)

theorem KeepsBookings.map_slot {f : Window → Window} (hf : KeepsBookings f) (ws : List Window) :
    (ws.map f).map Window.slot = ws.map Window.slot := by
  rw [List.map_map]
  exact List.map_congr_left (fun w _ => (hf w).slot)

theorem Window.countEdges_alike (w : Window) (te : Epoch) (n : Nat) : w.Alike (w.countEdges te n) := by
  unfold Window.countEdges
  split <;> rfl

theorem Window.withPulse_alike (w : Window) (e : Epoch) : w.Alike (w.withPulse e) := by
  unfold Window.withPulse
  split <;> rfl

theorem Window.endPulse_alike (w : Window) : w.Alike w.endPulse := by
  unfold Window.endPulse
  split <;> rfl

/-- Counted edges change the run-time part alone. -/
theorem Window.countEdges_times (w : Window) (te : Epoch) (n : Nat) :
    (w.countEdges te n).stop = w.stop ∧ (w.countEdges te n).state = w.state := by
  unfold Window.countEdges
  split <;> exact ⟨rfl, rfl⟩

theorem Window.withPulse_times (w : Window) (e : Epoch) : (w.withPulse e).stop = w.stop ∧ (w.withPulse e).state = w.state := by
  unfold Window.withPulse
  split <;> exact ⟨rfl, rfl⟩

theorem Window.endPulse_times (w : Window) : w.endPulse.stop = w.stop ∧ w.endPulse.state = w.state := by
  unfold Window.endPulse
  split <;> exact ⟨rfl, rfl⟩

/-! ### Bundles of a list -/

/-- A bundle record, or none, against the members that a list holds of it (04 R58). -/
def bundleOk (r : Option BundleRecord) (b : BundleNo) (ws : List Window) : Prop :=
  match r with
  | none => ws = []
  | some r => r.lawful b ws = true

/-- The members of a bundle in a list of one port's windows. -/
def membersOf (b : BundleNo) (ws : List Window) : List Window := ws.filter (fun w => decide (w.bundleNo = some b))

theorem mem_membersOf {b : BundleNo} {ws : List Window} {w : Window} :
    w ∈ membersOf b ws ↔ w ∈ ws ∧ w.bundleNo = some b := by
  simp [membersOf]

theorem State.members_eq (s : State) (p : Port) (b : BundleNo) : s.members p b = membersOf b (s.owned p) := by
  unfold State.members membersOf State.owned
  rw [List.filter_filter]
  exact List.filter_congr (fun w _ => Bool.and_comm _ _)

/-- What a lawful bundle record says of the members (04 R58, R61). -/
theorem BundleRecord.lawful_iff (r : BundleRecord) (b : BundleNo) (ws : List Window) :
    r.lawful b ws = true ↔ r.handles = ws.map Window.handle ∧ 1 ≤ ws.length ∧ ws.length ≤ 8 ∧ (ws.map Window.track).Nodup ∧
      (∀ w ∈ ws, w.start = r.start ∧ w.stop = r.stop ∧ w.state = r.state) ∧
      ws.map Window.bundle = (List.range ws.length).map (fun i => some { number := b, leader := decide (i = 0) }) ∧
      ∀ w ∈ ws.tail, w.shape.hasLimit = false := by
  unfold BundleRecord.lawful
  simp only [Bool.and_eq_true, decide_eq_true_eq, List.all_eq_true, Bool.not_eq_true', and_assoc]

theorem bundleOk_none {b : BundleNo} {ws : List Window} : bundleOk none b ws ↔ ws = [] := Iff.rfl

theorem bundleOk_some {r : BundleRecord} {b : BundleNo} {ws : List Window} :
    bundleOk (some r) b ws ↔ r.lawful b ws = true := Iff.rfl

/-- A bundle that has a member has a record, which describes it. -/
theorem bundleOk.of_mem {r : Option BundleRecord} {b : BundleNo} {ws : List Window} {w : Window} (h : bundleOk r b ws)
    (hw : w ∈ ws) : ∃ r', r = some r' ∧ r'.lawful b ws = true := by
  cases r with
  | none => rw [bundleOk_none.mp h] at hw; cases hw
  | some r' => exact ⟨r', rfl, h⟩

/-- Members that take a new end or a new state with their record are described by it as before. -/
theorem bundleOk.map {r : Option BundleRecord} {b : BundleNo} {ws : List Window} {f : Window → Window}
    {g : BundleRecord → BundleRecord} (h : bundleOk r b ws) (hf : KeepsBookings f)
    (hg : ∀ r, (g r).handles = r.handles ∧ (g r).start = r.start)
    (hr : ∀ r', r = some r' → ∀ w ∈ ws, (w.stop = r'.stop → (f w).stop = (g r').stop) ∧
      (w.state = r'.state → (f w).state = (g r').state)) :
    bundleOk (r.map g) b (ws.map f) := by
  cases r with
  | none => rw [bundleOk_none.mp h]; rfl
  | some r =>
    obtain ⟨h1, h2, h3, h4, h5, h6, h7⟩ := (r.lawful_iff b ws).mp h
    refine ((g r).lawful_iff b (ws.map f)).mpr ⟨?_, ?_, ?_, ?_, fun w hw => ?_, ?_, fun w hw => ?_⟩
    · rw [(hg r).1, h1, List.map_map]
      exact List.map_congr_left (fun w _ => (hf w).handle.symm)
    · rwa [List.length_map]
    · rwa [List.length_map]
    · rw [List.map_map]
      rwa [show Window.track ∘ f = Window.track from funext (fun w => (hf w).track)]
    · obtain ⟨v, hv, rfl⟩ := List.mem_map.mp hw
      obtain ⟨e1, e2, e3⟩ := h5 v hv
      obtain ⟨k1, k2⟩ := hr r rfl v hv
      exact ⟨(hf v).start.trans (e1.trans (hg r).2.symm), k1 e2, k2 e3⟩
    · rw [List.map_map, show Window.bundle ∘ f = Window.bundle from funext (fun w => (hf w).bundle), List.length_map]
      exact h6
    · rw [← List.map_tail] at hw
      obtain ⟨v, hv, rfl⟩ := List.mem_map.mp hw
      rw [(hf v).shape]
      exact h7 v hv

/-! ### The books of a port -/

/-- The laws of records for one port, of its unit, its windows, its trigger references and whether it holds a claim. -/
structure Books (u : PortUnit) (ws : List Window) (refs : Sense → Nat) (claims : Prop) : Prop where
  session : u.sessionLawful = true
  held : u.held = ws.length
  quota : u.held ≤ u.quota
  refs : ∀ k, refs k = (ws.filter (fun w => decide (w.shape.source = some k))).length
  bundles : ∀ b, bundleOk u.bundles[b] b (membersOf b ws)
  claims : u.inSession = false → ¬ claims

/-- A port without a session has no quota. -/
theorem PortUnit.quota_of_rest {u : PortUnit} (h : u.sessionLawful = true) (hs : u.inSession = false) : u.quota = 0 := by
  unfold PortUnit.sessionLawful at h
  rw [hs] at h
  split at h
  · next e _ _ => cases e
  · simpa using h
  · cases h

/-- A port without a session holds no windows. -/
theorem Books.rest {u : PortUnit} {ws : List Window} {refs : Sense → Nat} {c : Prop} (h : Books u ws refs c)
    (hs : u.inSession = false) : ws = [] := by
  have hq := PortUnit.quota_of_rest h.session hs
  have hh := h.held
  have hk := h.quota
  exact List.eq_nil_of_length_eq_zero (by omega)

/-- The port `p` of a state holds a claim. -/
def State.holdsClaim (s : State) (p : Port) : Prop := ∃ t, s.claimant t = some p

/-- The books of the port `p` of a state. -/
abbrev State.Books (s : State) (p : Port) : Prop :=
  Machine.Books (s.port p) (s.owned p) (fun k => s.refs k p) (s.holdsClaim p)

/-- The slots of the windows are distinct (01 R10). -/
abbrev State.SlotsDistinct (s : State) : Prop := (s.windows.map Window.slot).Nodup

/-- The laws of records are the books of every port, distinct slots, and quotas that the pool can meet. -/
theorem recordLaws_iff (s : State) :
    RecordLaws s ↔ s.SlotsDistinct ∧ s.quotasInUse ≤ poolSize ∧ ∀ p, s.Books p := by
  constructor
  · rintro ⟨⟨hs, hq⟩, ⟨hn, hh⟩, hr, hb, hz⟩
    refine ⟨hn, hq, fun p => ⟨hs p, (hh p).1, (hh p).2, fun k => hr k p, fun b => ?_, fun hi => ?_⟩⟩
    · have h := hb p b
      rw [State.members_eq] at h
      show bundleOk (s.bundle p b) b _
      split at h
      · next e => rw [e]; exact List.isEmpty_iff.mp h
      · next r e => rw [e]; exact h
    · rintro ⟨t, ht⟩
      exact (hz p hi).2.2.1 t ht
  · rintro ⟨hn, hq, hB⟩
    refine ⟨⟨fun p => (hB p).session, hq⟩, ⟨hn, fun p => ⟨(hB p).held, (hB p).quota⟩⟩, fun k p => (hB p).refs k,
      fun p b => ?_, fun p hi => ?_⟩
    · have h : bundleOk (s.bundle p b) b (membersOf b (s.owned p)) := (hB p).bundles b
      rw [State.members_eq]
      cases e : s.bundle p b with
      | none => rw [e] at h; exact List.isEmpty_iff.mpr h
      | some r => rw [e] at h; exact h
    · have hw := (hB p).rest hi
      refine ⟨hw, fun b => ?_, fun t ht => (hB p).claims hi ⟨t, ht⟩, fun k => ?_⟩
      · have h : bundleOk (s.bundle p b) b (membersOf b (s.owned p)) := (hB p).bundles b
        cases e : s.bundle p b with
        | none => rfl
        | some r =>
          rw [hw, e] at h
          obtain ⟨_, hl, _⟩ := (r.lawful_iff b _).mp h
          cases hl
      · rw [show s.refs k p = _ from (hB p).refs k, hw]
        rfl

/-- Books stand through a quiet change of the unit, the same windows and references, and no claim more. -/
theorem Books.congr {u v : PortUnit} {ws ws' : List Window} {refs refs' : Sense → Nat} {c c' : Prop} (h : Books u ws refs c)
    (hu : u.Quiet v) (hw : ws' = ws) (hr : ∀ k, refs' k = refs k) (hc : c' → c) : Books v ws' refs' c' where
  session := hu.lawful h.session
  held := by rw [hu.held, hw]; exact h.held
  quota := by rw [hu.held, hu.quota]; exact h.quota
  refs k := by rw [hr, hw]; exact h.refs k
  bundles b := by rw [hu.bundles, hw]; exact h.bundles b
  claims hi hx := h.claims (by rw [← hu.inSession]; exact hi) (hc hx)

/-- Two states that the laws of records read alike. -/
structure SameBooks (s t : State) : Prop where
  windows : t.windows = s.windows
  claimants : t.claimants = s.claimants
  trigRefs : t.trigRefs = s.trigRefs
  port : ∀ p, (s.port p).Quiet (t.port p)

theorem Quiet.sameBooks {s t : State} (h : Quiet s t) : SameBooks s t := ⟨h.windows, h.claimants, h.trigRefs, h.port⟩

theorem State.owned_congr {s t : State} (h : t.windows = s.windows) (p : Port) : t.owned p = s.owned p := by
  unfold State.owned; rw [h]

theorem State.claimant_congr {s t : State} (h : t.claimants = s.claimants) (x : Track) : t.claimant x = s.claimant x := by
  unfold State.claimant; rw [h]

theorem State.refs_congr {s t : State} (h : t.trigRefs = s.trigRefs) (k : Sense) (p : Port) : t.refs k p = s.refs k p := by
  unfold State.refs; rw [h]

theorem State.holdsClaim_congr {s t : State} (h : t.claimants = s.claimants) {p : Port} (hc : t.holdsClaim p) :
    s.holdsClaim p := by
  obtain ⟨x, hx⟩ := hc
  exact ⟨x, by rw [← State.claimant_congr h]; exact hx⟩

theorem State.quotasInUse_congr {s t : State} (h : ∀ p, (t.port p).quota = (s.port p).quota) : t.quotasInUse = s.quotasInUse := by
  unfold State.quotasInUse
  simp only [h]

theorem SameBooks.recordLaws {s t : State} (h : SameBooks s t) (hs : RecordLaws s) : RecordLaws t := by
  obtain ⟨hn, hq, hB⟩ := (recordLaws_iff s).mp hs
  refine (recordLaws_iff t).mpr ⟨?_, ?_, fun p => ?_⟩
  · show (t.windows.map Window.slot).Nodup
    rw [h.windows]; exact hn
  · rw [State.quotasInUse_congr (fun p => (h.port p).quota)]; exact hq
  · exact (hB p).congr (h.port p) (State.owned_congr h.windows p) (fun k => State.refs_congr h.trigRefs k p)
      (State.holdsClaim_congr h.claimants)

/-! ### Units -/

/-- In a lawful pool a slot names its window. -/
theorem State.SlotsDistinct.inj {s : State} (h : s.SlotsDistinct) {v w : Window} (hv : v ∈ s.windows) (hw : w ∈ s.windows)
    (e : v.slot = w.slot) : v = w := List.inj_on_of_nodup_map h hv hw e

/-- Windows act together where they are one window or members of one bundle (03 R49). -/
theorem sameUnit_iff {s : State} (h : s.SlotsDistinct) {v w : Window} (hv : v ∈ s.windows) (hw : w ∈ s.windows) :
    sameUnit v w = true ↔ v = w ∨ ∃ b, v.bundleNo = some b ∧ w.bundleNo = some b ∧ v.owner = w.owner := by
  have hb : (match v.bundle, w.bundle with
      | some a, some b => decide (v.owner = w.owner) && decide (a.number = b.number)
      | _, _ => false) = true ↔ ∃ b, v.bundleNo = some b ∧ w.bundleNo = some b ∧ v.owner = w.owner := by
    unfold Window.bundleNo
    cases v.bundle <;> cases w.bundle <;> simp
    exact ⟨fun x => ⟨x.2.symm, x.1⟩, fun x => ⟨x.2, x.1.symm⟩⟩
  have hs : v.slot = w.slot ↔ v = w := ⟨h.inj hv hw, fun e => by rw [e]⟩
  have hd : sameUnit v w = (decide (v.slot = w.slot) || match v.bundle, w.bundle with
      | some a, some b => decide (v.owner = w.owner) && decide (a.number = b.number)
      | _, _ => false) := rfl
  rw [hd, Bool.or_eq_true, decide_eq_true_eq, hs, hb]

theorem sameUnit_refl (w : Window) : sameUnit w w = true := by
  unfold sameUnit
  simp

theorem sameUnit_trans {s : State} (h : s.SlotsDistinct) {u v w : Window} (hu : u ∈ s.windows) (hv : v ∈ s.windows)
    (hw : w ∈ s.windows) (h1 : sameUnit u v = true) (h2 : sameUnit v w = true) : sameUnit u w = true := by
  rw [sameUnit_iff h hu hv] at h1
  rw [sameUnit_iff h hv hw] at h2
  rw [sameUnit_iff h hu hw]
  rcases h1 with rfl | ⟨b, h11, h12, h13⟩
  · exact h2
  · rcases h2 with rfl | ⟨c, h21, h22, h23⟩
    · exact .inr ⟨b, h11, h12, h13⟩
    · rw [h12] at h21
      cases h21
      exact .inr ⟨b, h11, h22, h13.trans h23⟩

theorem sameUnit_symm {s : State} (h : s.SlotsDistinct) {v w : Window} (hv : v ∈ s.windows) (hw : w ∈ s.windows)
    (h1 : sameUnit v w = true) : sameUnit w v = true := by
  rw [sameUnit_iff h hv hw] at h1
  rw [sameUnit_iff h hw hv]
  rcases h1 with rfl | ⟨b, h11, h12, h13⟩
  · exact .inl rfl
  · exact .inr ⟨b, h12, h11, h13.symm⟩

/-- A choice of windows that takes a bundle whole or not at all (04 R58). -/
def State.Whole (s : State) (f : Window → Bool) : Prop :=
  ∀ v ∈ s.windows, ∀ w ∈ s.windows, sameUnit v w = true → f v = f w

/-- The windows that act with one window are a whole choice. -/
theorem State.whole_unit {s : State} (h : s.SlotsDistinct) {w : Window} (hw : w ∈ s.windows) : s.Whole (sameUnit w) := by
  intro u hu v hv huv
  rw [Bool.eq_iff_iff]
  exact ⟨fun x => sameUnit_trans h hw hu hv x huv, fun x => sameUnit_trans h hw hv hu x (sameUnit_symm h hu hv huv)⟩

/-- The windows that act with one of several are a whole choice. -/
theorem State.whole_units {s : State} (h : s.SlotsDistinct) {ws : List Window} (hw : ∀ w ∈ ws, w ∈ s.windows) :
    s.Whole (fun x => ws.any (fun v => sameUnit v x)) := by
  intro u hu v hv huv
  rw [Bool.eq_iff_iff, List.any_eq_true, List.any_eq_true]
  constructor
  · rintro ⟨x, hx, hxu⟩
    exact ⟨x, hx, by rw [← State.whole_unit h (hw x hx) u hu v hv huv]; exact hxu⟩
  · rintro ⟨x, hx, hxv⟩
    exact ⟨x, hx, by rw [State.whole_unit h (hw x hx) u hu v hv huv]; exact hxv⟩

/-- Members of one bundle share start, end and state (04 R58). -/
theorem RecordLaws.mates {s : State} (h : RecordLaws s) {v w : Window} (hv : v ∈ s.windows) (hw : w ∈ s.windows)
    (e : sameUnit v w = true) : v.start = w.start ∧ v.stop = w.stop ∧ v.state = w.state := by
  obtain ⟨hn, _, hB⟩ := (recordLaws_iff s).mp h
  rcases (sameUnit_iff hn hv hw).mp e with rfl | ⟨b, h1, h2, h3⟩
  · exact ⟨rfl, rfl, rfl⟩
  · have mv : v ∈ membersOf b (s.owned v.owner) := mem_membersOf.mpr ⟨(s.mem_owned _ v).mpr ⟨hv, rfl⟩, h1⟩
    have mw : w ∈ membersOf b (s.owned v.owner) := mem_membersOf.mpr ⟨(s.mem_owned _ w).mpr ⟨hw, h3.symm⟩, h2⟩
    obtain ⟨r, _, hr⟩ := ((hB v.owner).bundles b).of_mem mv
    obtain ⟨_, _, _, _, hl, _⟩ := (r.lawful_iff b _).mp hr
    obtain ⟨e1, e2, e3⟩ := hl v mv
    obtain ⟨k1, k2, k3⟩ := hl w mw
    exact ⟨e1.trans k1.symm, e2.trans k2.symm, e3.trans k3.symm⟩

/-- A whole choice by start and state of a whole choice is whole. -/
theorem RecordLaws.whole_and {s : State} (h : RecordLaws s) {f g : Window → Bool} (hf : s.Whole f)
    (hg : ∀ v w : Window, v.start = w.start → v.state = w.state → g v = g w) : s.Whole (fun w => f w && g w) := by
  intro v hv w hw e
  obtain ⟨h1, _, h3⟩ := h.mates hv hw e
  show (f v && g v) = (f w && g w)
  rw [hf v hv w hw e, hg v w h1 h3]

/-- The owner is the same in a unit. -/
theorem sameUnit_owner {s : State} (h : s.SlotsDistinct) {v w : Window} (hv : v ∈ s.windows) (hw : w ∈ s.windows)
    (e : sameUnit v w = true) : v.owner = w.owner := by
  rcases (sameUnit_iff h hv hw).mp e with rfl | ⟨_, _, _, h3⟩
  · rfl
  · exact h3

/-- The unit of a window is the window, or the members of its bundle (03 R49, 05 R75). -/
theorem State.unitOf_eq_wholeOf {s : State} (h : s.SlotsDistinct) {w : Window} (hw : w ∈ s.windows) :
    s.unitOf w = s.wholeOf w := by
  unfold State.unitOf State.wholeOf
  cases hb : w.bundle with
  | none =>
    have hb' : w.bundleNo = none := by unfold Window.bundleNo; rw [hb]; rfl
    have e : s.windows.filter (sameUnit w) = s.windows.filter (fun v => decide (v = w)) := by
      refine List.filter_congr (fun v hv => ?_)
      rw [Bool.eq_iff_iff, sameUnit_iff h hw hv, decide_eq_true_eq]
      constructor
      · rintro (rfl | ⟨b, h1, _⟩)
        · rfl
        · rw [hb'] at h1; cases h1
      · rintro rfl; exact .inl rfl
    rw [e]
    dsimp only
    have hnd : s.windows.Nodup := List.Nodup.of_map _ h
    rw [show (fun v => decide (v = w)) = (fun v : Window => v == w) from funext (fun v => (beq_eq_decide v w).symm)]
    rw [List.filter_beq, List.count_eq_one_of_mem hnd hw]
    rfl
  | some r =>
    have hb' : w.bundleNo = some r.number := by unfold Window.bundleNo; rw [hb]; rfl
    dsimp only
    unfold State.members
    refine List.filter_congr (fun v hv => ?_)
    rw [Bool.eq_iff_iff, sameUnit_iff h hw hv, Bool.and_eq_true, decide_eq_true_eq, decide_eq_true_eq]
    constructor
    · rintro (rfl | ⟨b, h1, h2, h3⟩)
      · exact ⟨rfl, hb'⟩
      · rw [hb'] at h1; cases h1; exact ⟨h3.symm, h2⟩
    · rintro ⟨h1, h2⟩; exact .inr ⟨r.number, hb', h2, h1.symm⟩

end Sys2Proof.Machine
end

