-- ==== Sys2Proof/Proofs/Leaving.lean ====
section
/-! PROOFS. Windows that leave, sessions that end, ends that move and windows that enter: what each leaves of the laws of records. -/

namespace Sys2Proof.Machine

/-! ### One port changes -/

theorem State.quotasInUse_eq (s : State) :
    s.quotasInUse = (s.port 0).quota + (s.port 1).quota + (s.port 2).quota + (s.port 3).quota := by
  unfold State.quotasInUse
  rw [show List.finRange 4 = [0, 1, 2, 3] from rfl]
  simp only [List.map_cons, List.map_nil, List.sum_cons, List.sum_nil]
  omega

/-- The sum of the quotas when one port's quota changes (10 R146). -/
theorem State.quotasInUse_change {s t : State} (p : Port) (h : ∀ q, q ≠ p → (t.port q).quota = (s.port q).quota) :
    t.quotasInUse + (s.port p).quota = s.quotasInUse + (t.port p).quota := by
  rw [s.quotasInUse_eq, t.quotasInUse_eq]
  have h0 := h 0
  have h1 := h 1
  have h2 := h 2
  have h3 := h 3
  fin_cases p <;> simp at h0 h1 h2 h3 ⊢ <;> omega

/-- What a port's books read is the same in two states. -/
structure SamePort (s t : State) (q : Port) : Prop where
  port : t.port q = s.port q
  owned : t.owned q = s.owned q
  refs : ∀ k, t.refs k q = s.refs k q
  claims : t.holdsClaim q → s.holdsClaim q

theorem SamePort.books {s t : State} {q : Port} (h : SamePort s t q) (hB : s.Books q) : t.Books q :=
  hB.congr (by rw [h.port]; exact .refl _) h.owned h.refs h.claims

/-- A change of one port keeps the laws of records where it keeps that port's books and does not raise its quota. -/
theorem recordLaws_onPort {s t : State} (p : Port) (h : RecordLaws s) (hn : t.SlotsDistinct)
    (hq : (t.port p).quota ≤ (s.port p).quota) (hp : t.Books p) (ho : ∀ q, q ≠ p → SamePort s t q) : RecordLaws t := by
  obtain ⟨_, hq', hB⟩ := (recordLaws_iff s).mp h
  refine (recordLaws_iff t).mpr ⟨hn, ?_, fun q => ?_⟩
  · have := State.quotasInUse_change (s := s) (t := t) p (fun q e => by rw [(ho q e).port])
    omega
  · by_cases e : q = p
    · subst e; exact hp
    · exact (ho q e).books (hB q)

/-! ### Windows leave -/

/-- Of a whole choice of windows, a window is among those chosen exactly where the choice takes it. -/
theorem among_filter {s : State} (h : s.SlotsDistinct) (f : Window → Bool) {v : Window} (hv : v ∈ s.windows) :
    v.among (s.windows.filter f) = f v := by
  rw [Bool.eq_iff_iff, Window.among_eq_true]
  constructor
  · rintro ⟨w, hw, e⟩
    obtain ⟨hw, hf⟩ := List.mem_filter.mp hw
    rwa [← h.inj hw hv e]
  · exact fun hf => ⟨v, List.mem_filter.mpr ⟨hv, hf⟩, rfl⟩

theorem windows_leaveAll (s : State) (ws : List Window) :
    (s.leaveAll ws).windows = s.windows.filter (fun v => !v.among ws) := by
  obtain ⟨_, _, _, _, h⟩ := State.leaveAll_spec ws s
  rw [h]

theorem windows_leaveAll_filter {s : State} (h : s.SlotsDistinct) (f : Window → Bool) :
    (s.leaveAll (s.windows.filter f)).windows = s.windows.filter (fun v => !f v) := by
  rw [windows_leaveAll]
  exact List.filter_congr (fun v hv => by rw [among_filter h f hv])

/-- The port units after windows left: held count and bundle records (01 R11, 04 R58). -/
theorem port_leaveAll_eq (s : State) (ws : List Window) (q : Port) :
    (s.leaveAll ws).port q = { s.port q with
      held := (s.port q).held - (ws.filter (fun w => decide (w.owner = q))).length
      bundles := (s.port q).bundlesWithout (ws.filter (fun w => decide (w.owner = q))) } := by
  rw [State.port_leaveAll, PortUnit.foldl_without]

theorem claimants_leaveAll (s : State) (ws : List Window) : (s.leaveAll ws).claimants = s.claimants := by
  obtain ⟨_, _, _, _, h⟩ := State.leaveAll_spec ws s
  rw [h]

theorem useCounts_leaveAll (s : State) (ws : List Window) : (s.leaveAll ws).useCounts = s.useCounts := by
  obtain ⟨_, _, _, _, h⟩ := State.leaveAll_spec ws s
  rw [h]

theorem bundlesWithout_get (u : PortUnit) (ws : List Window) (b : BundleNo) :
    (u.bundlesWithout ws)[b] = if ∃ w ∈ ws, w.bundleNo = some b then none else u.bundles[b] := by
  unfold PortUnit.bundlesWithout
  rw [vector_ofFn_get]
  simp only [List.any_eq_true, decide_eq_true_eq]

theorem length_filter_not {α : Type} (f : α → Bool) (l : List α) :
    (l.filter (fun x => !f x)).length = l.length - (l.filter f).length := by
  induction l with
  | nil => rfl
  | cons a l ih =>
    have := List.length_filter_le f l
    rw [List.filter_cons, List.filter_cons]
    cases f a
    · simp [ih]; omega
    · simp [ih]

theorem length_filter_filter_not {α : Type} (f g : α → Bool) (l : List α) :
    ((l.filter (fun x => !f x)).filter g).length = (l.filter g).length - ((l.filter f).filter g).length := by
  rw [List.filter_comm, length_filter_not, List.filter_comm]

theorem filter_filter_and {α : Type} (f g : α → Bool) (l : List α) : (l.filter f).filter g = l.filter (fun x => f x && g x) := by
  rw [List.filter_filter]
  exact List.filter_congr (fun x _ => Bool.and_comm _ _)

/-- A choice among one port's windows that takes a bundle whole or not at all. -/
def WholeIn (ws : List Window) (f : Window → Bool) : Prop :=
  ∀ v ∈ ws, ∀ w ∈ ws, ∀ b, v.bundleNo = some b → w.bundleNo = some b → f v = f w

/-- Books after a whole choice of the port's windows left. The records of the bundles that left may be what they are. -/
theorem Books.leave {u : PortUnit} {ws : List Window} {refs refs' : Sense → Nat} {c : Prop} {f : Window → Bool}
    {rs : Vector (Option BundleRecord) 8} (h : Books u ws refs c) (hf : WholeIn ws f)
    (hb : ∀ b : BundleNo, rs[b] = u.bundles[b] ∨ ∃ w ∈ ws.filter f, w.bundleNo = some b)
    (hr : ∀ k, refs' k = refs k - ((ws.filter f).filter (fun w => decide (w.shape.source = some k))).length) :
    Books { u with
        held := u.held - (ws.filter f).length
        bundles := ({ u with bundles := rs } : PortUnit).bundlesWithout (ws.filter f) } (ws.filter (fun w => !f w)) refs' c where
  session := h.session
  held := by
    show u.held - (ws.filter f).length = _
    rw [length_filter_not, h.held]
  quota := le_trans (Nat.sub_le _ _) h.quota
  refs k := by rw [hr, h.refs, length_filter_filter_not]
  claims := h.claims
  bundles b := by
    show bundleOk (({ u with bundles := rs } : PortUnit).bundlesWithout (ws.filter f))[b] b _
    rw [bundlesWithout_get]
    by_cases hx : ∃ w ∈ ws.filter f, w.bundleNo = some b
    · rw [if_pos hx, bundleOk_none]
      obtain ⟨w, hw, hwb⟩ := hx
      obtain ⟨hw, hfw⟩ := List.mem_filter.mp hw
      refine List.eq_nil_iff_forall_not_mem.mpr (fun v hv => ?_)
      obtain ⟨hv, hvb⟩ := mem_membersOf.mp hv
      obtain ⟨hv, hfv⟩ := List.mem_filter.mp hv
      rw [hf v hv w hw b hvb hwb, hfw] at hfv
      cases hfv
    · rw [if_neg hx, (hb b).resolve_right hx]
      have e : membersOf b (ws.filter (fun w => !f w)) = membersOf b ws := by
        unfold membersOf
        rw [List.filter_filter]
        refine List.filter_congr (fun w hw => ?_)
        by_cases hwb : w.bundleNo = some b
        · have hfw : f w = false := by
            by_contra hc
            exact hx ⟨w, List.mem_filter.mpr ⟨hw, by simpa using hc⟩, hwb⟩
          simp [hfw]
        · simp [hwb]
      rw [e]
      exact h.bundles b

theorem State.Whole.wholeIn {s : State} {f : Window → Bool} (hn : s.SlotsDistinct) (h : s.Whole f) (p : Port) :
    WholeIn (s.owned p) f := by
  intro v hv w hw b hvb hwb
  obtain ⟨hv, ov⟩ := (s.mem_owned p v).mp hv
  obtain ⟨hw, ow⟩ := (s.mem_owned p w).mp hw
  exact h v hv w hw ((sameUnit_iff hn hv hw).mpr (.inr ⟨b, hvb, hwb, ov.trans ow.symm⟩))

theorem owned_filter (s : State) (f : Window → Bool) (q : Port) :
    (s.windows.filter f).filter (fun w => decide (w.owner = q)) = (s.owned q).filter f := List.filter_comm _ _ _

/-- The laws of records after a whole choice of windows left. The state they leave may differ from the lawful one in links, and in the records of the bundles that leave. -/
theorem leaveAll_recordLaws {s s' : State} {f : Window → Bool} (h : RecordLaws s) (hf : s.Whole f)
    (hw : s'.windows = s.windows) (hc : s'.claimants = s.claimants) (hr : s'.trigRefs = s.trigRefs)
    (hp : ∀ q, (s.port q).Quiet { s'.port q with bundles := (s.port q).bundles })
    (hb : ∀ q (b : BundleNo), (s'.port q).bundles[b] = (s.port q).bundles[b] ∨
      ∃ w ∈ (s.owned q).filter f, w.bundleNo = some b) :
    RecordLaws (s'.leaveAll (s.windows.filter f)) := by
  obtain ⟨hn, hq, hB⟩ := (recordLaws_iff s).mp h
  have hn' : s'.SlotsDistinct := by show (s'.windows.map Window.slot).Nodup; rw [hw]; exact hn
  have hwin : (s'.leaveAll (s.windows.filter f)).windows = s.windows.filter (fun v => !f v) := by
    rw [← hw, windows_leaveAll_filter hn']
  refine (recordLaws_iff _).mpr ⟨?_, ?_, fun q => ?_⟩
  · show ((s'.leaveAll (s.windows.filter f)).windows.map Window.slot).Nodup
    rw [hwin]
    exact hn.sublist (List.filter_sublist.map _)
  · rw [State.quotasInUse_congr (s := s) (fun q => ?_)]
    · exact hq
    · rw [port_leaveAll_eq]
      exact (hp q).quota
  · have ho : (s'.leaveAll (s.windows.filter f)).owned q = (s.owned q).filter (fun v => !f v) := by
      unfold State.owned
      rw [hwin, List.filter_comm]
    have hbook := (hB q).leave (rs := (s'.port q).bundles) (hf.wholeIn hn q) (hb q)
      (refs' := fun k => (s'.leaveAll (s.windows.filter f)).refs k q) (fun k => by
        rw [State.refs_leaveAll, State.refs_congr hr, ← owned_filter, ← filter_filter_and (fun w : Window => decide (w.owner = q))])
    refine hbook.congr ?_ ho (fun k => rfl) (State.holdsClaim_congr ((claimants_leaveAll _ _).trans hc))
    rw [port_leaveAll_eq, owned_filter]
    have hpq := hp q
    refine ⟨hpq.session, hpq.quota, ?_, rfl, hpq.lawful, hpq.queue⟩
    exact congrArg (· - ((s.owned q).filter f).length) hpq.held

/-- The laws of records after a whole choice of windows left. -/
theorem RecordLaws.leaveAll {s : State} {f : Window → Bool} (h : RecordLaws s) (hf : s.Whole f) :
    RecordLaws (s.leaveAll (s.windows.filter f)) :=
  leaveAll_recordLaws h hf rfl rfl rfl (fun _ => .refl _) (fun _ _ => .inl rfl)

/-! ### Sessions -/

theorem holdsClaim_releaseClaims_self (s : State) (p : Port) : ¬ (s.releaseClaims p).holdsClaim p := by
  rintro ⟨x, hx⟩
  rw [State.claimant_releaseClaims] at hx
  split at hx
  · cases hx
  · next h => exact h hx

theorem holdsClaim_releaseClaims {s : State} {p q : Port} (h : (s.releaseClaims p).holdsClaim q) : s.holdsClaim q := by
  obtain ⟨x, hx⟩ := h
  rw [State.claimant_releaseClaims] at hx
  split at hx
  · cases hx
  · exact ⟨x, hx⟩

/-- A port that holds no window records may go to a state without a session, its claims released (10 R152, R158). -/
theorem RecordLaws.sessionless {s : State} {p : Port} {u : PortUnit} (h : RecordLaws s) (h0 : (s.port p).held = 0)
    (hu : u.sessionLawful = true) (hi : u.inSession = false) (hh : u.held = 0) (hb : u.bundles = (s.port p).bundles) :
    RecordLaws ((s.releaseClaims p).setPort p u) := by
  obtain ⟨hn, _, hB⟩ := (recordLaws_iff s).mp h
  have hq := PortUnit.quota_of_rest hu hi
  have hp : ((s.releaseClaims p).setPort p u).port p = u := by rw [State.port_setPort, if_pos rfl]
  refine recordLaws_onPort p h hn ?_ ?_ (fun q e => ⟨?_, rfl, fun _ => rfl, holdsClaim_releaseClaims⟩)
  · rw [hp, hq]; exact Nat.zero_le _
  · show Machine.Books _ _ _ _
    rw [hp]
    exact ⟨hu, by rw [hh, ← h0]; exact (hB p).held, by rw [hh]; exact Nat.zero_le _, (hB p).refs,
      fun b => by rw [hb]; exact (hB p).bundles b, fun _ => holdsClaim_releaseClaims_self s p⟩
  · rw [State.port_setPort, if_neg (fun x => e x.symm)]
    rfl

theorem RecordLaws.sessionDown {s : State} {p : Port} (h : RecordLaws s) (h0 : (s.port p).held = 0) :
    RecordLaws (s.sessionDown p) := by
  unfold State.sessionDown State.post
  refine (quiet_setPort _ p (PortUnit.quiet_append _ _)).sameBooks.recordLaws ?_
  exact h.sessionless h0 rfl rfl h0 rfl

theorem RecordLaws.endIfClosed {s : State} {p : Port} (h : RecordLaws s) : RecordLaws (s.endIfClosed p) := by
  rcases s.endIfClosed_cases p with ⟨_, h0, e⟩ | ⟨_, e⟩ <;> rw [e]
  · exact h.sessionDown h0
  · exact h

theorem refs_teardown (s : State) (p : Port) (k : Sense) (q : Port) :
    (s.teardown p).refs k q = if p = q then 0 else s.refs k q := by
  obtain ⟨_, _, h⟩ := s.teardown_spec p
  rw [h]
  have e : State.refs { s with trigRefs := s.trigRefs.map (fun (v : Vector Nat 4) => v.set p 0) } k q =
      (s.trigRefs[k].set p 0)[q] := by
    unfold State.refs
    simp
  exact e.trans (vector_get_set _ p q 0)

theorem port_teardown (s : State) (p q : Port) :
    (s.teardown p).port q = if p = q then { s.port p with held := 0, bundles := Vector.replicate 8 none } else s.port q := by
  obtain ⟨_, _, h⟩ := s.teardown_spec p
  rw [h]
  exact vector_get_set s.ports p q _

theorem windows_teardown (s : State) (p : Port) : (s.teardown p).windows = s.windows.filter (fun w => decide (w.owner ≠ p)) := by
  obtain ⟨_, _, h⟩ := s.teardown_spec p
  rw [h]

theorem claimants_teardown (s : State) (p : Port) : (s.teardown p).claimants = s.claimants := by
  obtain ⟨_, _, h⟩ := s.teardown_spec p
  rw [h]

theorem owned_teardown_self (s : State) (p : Port) : (s.teardown p).owned p = [] := by
  unfold State.owned
  rw [windows_teardown, List.filter_filter]
  exact List.filter_eq_nil_iff.mpr (by simp)

theorem owned_teardown_other (s : State) {p q : Port} (h : q ≠ p) : (s.teardown p).owned q = s.owned q := by
  unfold State.owned
  rw [windows_teardown, List.filter_filter]
  refine List.filter_congr (fun w _ => ?_)
  by_cases e : w.owner = q
  · simp [e, h]
  · simp [e]

theorem bundles_replicate_get (b : BundleNo) : (Vector.replicate 8 (none : Option BundleRecord))[b] = none := by simp

/-- A teardown keeps the laws of records (10 R153). -/
theorem RecordLaws.teardown {s : State} {p : Port} (h : RecordLaws s) : RecordLaws (s.teardown p) := by
  obtain ⟨hn, _, hB⟩ := (recordLaws_iff s).mp h
  refine recordLaws_onPort p h ?_ ?_ ?_ (fun q e => ⟨?_, owned_teardown_other s e, fun k => ?_,
    State.holdsClaim_congr (claimants_teardown s p)⟩)
  · show ((s.teardown p).windows.map Window.slot).Nodup
    rw [windows_teardown]
    exact hn.sublist (List.filter_sublist.map _)
  · rw [port_teardown, if_pos rfl]
  · show Machine.Books _ _ _ _
    rw [port_teardown, if_pos rfl, owned_teardown_self]
    refine ⟨(hB p).session, rfl, Nat.zero_le _, fun k => ?_, fun b => ?_, fun hi hc => ?_⟩
    · rw [refs_teardown, if_pos rfl]; rfl
    · show bundleOk (Vector.replicate 8 none)[b] b []
      rw [bundles_replicate_get]; rfl
    · exact (hB p).claims hi (State.holdsClaim_congr (claimants_teardown s p) hc)
  · rw [port_teardown, if_neg (fun x => e x.symm)]
  · rw [refs_teardown, if_neg (fun x => e x.symm)]

theorem held_teardown (s : State) (p : Port) : ((s.teardown p).port p).held = 0 := by
  rw [port_teardown, if_pos rfl]

theorem RecordLaws.lapse {s : State} {p : Port} {cause : LapseCause} (h : RecordLaws s) : RecordLaws (s.lapse p cause) := by
  have h0 := held_teardown s p
  unfold State.lapse
  exact h.teardown.sessionless h0 rfl rfl h0 rfl

/-! ### Ends move -/

/-- A Port Unit after a new end for the windows given: the records of their bundles end there (03 R51, 05 R82). -/
def PortUnit.withStops (u : PortUnit) (ws : List Window) (stop : Epoch) : PortUnit :=
  { u with bundles := Vector.ofFn (fun b : BundleNo =>
      if ws.any (fun w => decide (w.bundleNo = some b)) then (u.bundles[b]).map (fun r => { r with stop := stop })
      else u.bundles[b]) }

theorem PortUnit.withStops_get (u : PortUnit) (ws : List Window) (stop : Epoch) (b : BundleNo) :
    (u.withStops ws stop).bundles[b] = if ∃ w ∈ ws, w.bundleNo = some b then (u.bundles[b]).map (fun r => { r with stop := stop })
      else u.bundles[b] := by
  unfold PortUnit.withStops
  dsimp only
  rw [vector_ofFn_get]
  simp only [List.any_eq_true, decide_eq_true_eq]

theorem PortUnit.withStops_nil (u : PortUnit) (stop : Epoch) : u.withStops [] stop = u := by
  unfold PortUnit.withStops
  simp only [List.any_nil, Bool.false_eq_true, if_false]
  rw [vector_ofFn_self]

/-- The end set in one bundle record, and then in those of further windows. -/
theorem PortUnit.withStops_cons (u : PortUnit) (w : Window) (ws : List Window) (stop : Epoch) :
    u.withStops (w :: ws) stop = (match w.bundleNo with
      | some b => ({ u with bundles := u.bundles.set b ((u.bundles[b]).map (fun r : BundleRecord => { r with stop := stop })) } : PortUnit)
      | none => u).withStops ws stop := by
  cases hb : w.bundleNo with
  | none =>
    unfold PortUnit.withStops
    simp only [List.any_cons, hb, reduceCtorEq, decide_false, Bool.false_or]
  | some c =>
    unfold PortUnit.withStops
    congr 1
    refine vector_ext_fin (fun b => ?_)
    rw [vector_ofFn_get, vector_ofFn_get]
    simp only [List.any_cons, hb, Option.some.injEq, vector_get_set]
    by_cases e : c = b
    · subst e
      simp only [decide_true, Bool.true_or, if_true]
      split
      · cases u.bundles[c] <;> rfl
      · rfl
    · simp only [e, decide_false, Bool.false_or, if_false]

/-- The port units after a new end for several windows: each port's own (05 R82). -/
theorem State.port_setStops (s : State) (ws : List Window) (stop : Epoch) (q : Port) :
    (s.setStops ws stop).port q = (s.port q).withStops (ws.filter (fun w => decide (w.owner = q))) stop := by
  unfold State.setStops
  have key : ∀ (us : List Window) (t : State),
      (us.foldl (fun (t : State) w => match w.bundleNo with
        | some b => t.setBundle w.owner b ((t.bundle w.owner b).map (fun r => { r with stop := stop }))
        | none => t) t).port q = (t.port q).withStops (us.filter (fun w => decide (w.owner = q))) stop := by
    intro us
    induction us with
    | nil => intro t; exact (PortUnit.withStops_nil _ _).symm
    | cons w us ih =>
      intro t
      rw [List.foldl_cons, ih, List.filter_cons]
      by_cases e : w.owner = q
      · subst e
        rw [if_pos (by simp), PortUnit.withStops_cons]
        cases hb : w.bundleNo with
        | none => rfl
        | some b =>
          dsimp only
          unfold State.setBundle
          rw [State.port_setPort, if_pos rfl]
          rfl
      · rw [if_neg (by simpa using e)]
        cases hb : w.bundleNo with
        | none => rfl
        | some b =>
          dsimp only
          unfold State.setBundle
          rw [State.port_setPort, if_neg e]
  exact key ws _

theorem windows_setStops (s : State) (ws : List Window) (stop : Epoch) :
    (s.setStops ws stop).windows = s.windows.map (fun v => if v.among ws = true then { v with stop := stop } else v) := by
  obtain ⟨_, h⟩ := s.setStops_spec ws stop
  rw [h]
  rfl

theorem setStops_keeps (ws : List Window) (stop : Epoch) :
    KeepsBookings (fun v => if v.among ws = true then { v with stop := stop } else v) :=
  KeepsBookings.ite (f := fun v => { v with stop := stop }) (fun _ => rfl) _

theorem owned_map {s t : State} {f : Window → Window} (h : t.windows = s.windows.map f) (hf : KeepsBookings f) (p : Port) :
    t.owned p = (s.owned p).map f := by
  unfold State.owned
  rw [h, filter_map_of_keeps (fun w => by rw [(hf w).owner])]

theorem membersOf_map {f : Window → Window} (hf : KeepsBookings f) (b : BundleNo) (ws : List Window) :
    membersOf b (ws.map f) = (membersOf b ws).map f := filter_map_of_keeps (fun w => by rw [(hf w).bundleNo]) ws

/-- Books after a change of the port's windows that keeps their bookings, the bundle records following. -/
theorem Books.map {u v : PortUnit} {ws : List Window} {refs : Sense → Nat} {c : Prop} {f : Window → Window}
    (h : Books u ws refs c) (hf : KeepsBookings f) (hs : u.sessionLawful = true → v.sessionLawful = true)
    (hi : v.inSession = u.inSession) (hh : v.held = u.held) (hq : v.quota = u.quota)
    (hb : ∀ b, bundleOk v.bundles[b] b ((membersOf b ws).map f)) : Books v (ws.map f) refs c where
  session := hs h.session
  held := by rw [hh, List.length_map]; exact h.held
  quota := by rw [hh, hq]; exact h.quota
  refs k := by rw [filter_map_of_keeps (fun w => by rw [(hf w).shape]), List.length_map]; exact h.refs k
  bundles b := by rw [membersOf_map hf]; exact hb b
  claims hx := h.claims (by rw [← hi]; exact hx)

/-- The laws of records after a change of windows that keeps their bookings, every port's bundle records following. -/
theorem RecordLaws.map {s t : State} {f : Window → Window} (h : RecordLaws s) (hw : t.windows = s.windows.map f)
    (hf : KeepsBookings f) (hc : t.claimants = s.claimants) (hr : t.trigRefs = s.trigRefs)
    (hp : ∀ q, (s.port q).Quiet { t.port q with bundles := (s.port q).bundles })
    (hb : ∀ q (b : BundleNo), bundleOk (t.port q).bundles[b] b ((membersOf b (s.owned q)).map f)) : RecordLaws t := by
  obtain ⟨hn, hq, hB⟩ := (recordLaws_iff s).mp h
  refine (recordLaws_iff t).mpr ⟨?_, ?_, fun q => ?_⟩
  · show (t.windows.map Window.slot).Nodup
    rw [hw, hf.map_slot]; exact hn
  · rw [State.quotasInUse_congr (s := s) (fun q => (hp q).quota)]; exact hq
  · show Machine.Books _ _ _ _
    rw [owned_map hw hf]
    refine ((hB q).map hf (hp q).lawful (hp q).inSession (hp q).held (hp q).quota (v := t.port q) (hb q)).congr (.refl _) rfl
      (fun k => State.refs_congr hr k q) (State.holdsClaim_congr hc)

/-- A change of run-time parts alone keeps the laws of records. -/
theorem RecordLaws.mapRun {s t : State} {f : Window → Window} (h : RecordLaws s) (hw : t.windows = s.windows.map f)
    (hf : KeepsBookings f) (ht : ∀ w, (f w).stop = w.stop ∧ (f w).state = w.state)
    (hc : t.claimants = s.claimants) (hr : t.trigRefs = s.trigRefs) (hp : t.ports = s.ports) : RecordLaws t := by
  have hp' : ∀ q, t.port q = s.port q := fun q => by unfold State.port; rw [hp]
  obtain ⟨_, _, hB⟩ := (recordLaws_iff s).mp h
  refine h.map hw hf hc hr (fun q => by rw [hp']; exact .refl _) (fun q b => ?_)
  rw [hp']
  have := ((hB q).bundles b).map hf (g := id) (fun r => ⟨rfl, rfl⟩)
    (fun r _ w _ => ⟨fun e => (ht w).1.trans e, fun e => (ht w).2.trans e⟩)
  rwa [Option.map_id] at this

/-- A new end for a whole choice of windows keeps the laws of records (03 R51, 05 R82). -/
theorem RecordLaws.setStops {s : State} {f : Window → Bool} (h : RecordLaws s) (hf : s.Whole f) (stop : Epoch) :
    RecordLaws (s.setStops (s.windows.filter f) stop) := by
  obtain ⟨hn, _, hB⟩ := (recordLaws_iff s).mp h
  have hp : ∀ q, (s.setStops (s.windows.filter f) stop).port q = (s.port q).withStops ((s.owned q).filter f) stop :=
    fun q => by rw [State.port_setStops, owned_filter]
  have hc : (s.setStops (s.windows.filter f) stop).claimants = s.claimants ∧
      (s.setStops (s.windows.filter f) stop).trigRefs = s.trigRefs := by
    obtain ⟨_, e⟩ := s.setStops_spec (s.windows.filter f) stop
    rw [e]; exact ⟨rfl, rfl⟩
  refine h.map (windows_setStops s _ stop) (setStops_keeps _ stop) hc.1 hc.2 (fun q => by rw [hp]; exact .refl _) (fun q b => ?_)
  rw [hp, PortUnit.withStops_get]
  have mem : ∀ w ∈ membersOf b (s.owned q), w ∈ s.windows ∧ w ∈ s.owned q ∧ w.bundleNo = some b := fun w hw =>
    ⟨((s.mem_owned q w).mp (mem_membersOf.mp hw).1).1, mem_membersOf.mp hw⟩
  by_cases hx : ∃ w ∈ (s.owned q).filter f, w.bundleNo = some b
  · rw [if_pos hx]
    obtain ⟨x, hx, hxb⟩ := hx
    obtain ⟨hxo, hfx⟩ := List.mem_filter.mp hx
    refine ((hB q).bundles b).map (setStops_keeps _ stop) (fun r => ⟨rfl, rfl⟩) (fun r _ w hw => ?_)
    obtain ⟨hw, hwo, hwb⟩ := mem w hw
    have : w.among (s.windows.filter f) = true := by
      rw [among_filter hn f hw, hf.wholeIn hn q w hwo x hxo b hwb hxb, hfx]
    exact ⟨fun _ => by rw [if_pos this], fun e => by rw [if_pos this]; exact e⟩
  · rw [if_neg hx]
    have := ((hB q).bundles b).map (setStops_keeps (s.windows.filter f) stop) (g := id) (fun r => ⟨rfl, rfl⟩)
      (fun r _ w hw => by
        obtain ⟨hw, hwo, hwb⟩ := mem w hw
        have : w.among (s.windows.filter f) = false := by
          rw [among_filter hn f hw]
          by_contra hc
          exact hx ⟨w, List.mem_filter.mpr ⟨hwo, by simpa using hc⟩, hwb⟩
        simp only [this, Bool.false_eq_true, if_false]
        exact ⟨id, id⟩)
    rwa [Option.map_id] at this

end Sys2Proof.Machine
end

