-- ==== Sys2Proof/Proofs/Booking.lean ====
section
/-! PROOFS. Admission: what the checks establish, where new records go, and what they leave of the laws of records. -/

namespace Sys2Proof.Machine

/-! ### What the checks establish -/

theorem trackOperand_val {b : Byte} {t : Track} (h : trackOperand b = some t) : t.val = b.toNat := by
  unfold trackOperand at h
  split at h
  · cases h; rfl
  · cases h

theorem priorityOperand_val {b : Byte} {p : Fin 4} (h : priorityOperand b = some p) : p.val = b.toNat := by
  unfold priorityOperand at h
  split at h
  · cases h; rfl
  · cases h

/-- Shape parameters that pass their ranges lie in them, and a limit is one of the descriptor (02 R25). -/
theorem Draft.ranged_spec {d : Draft} {sh : Shape} (h : d.ranged = some sh) :
    sh.inRange = true ∧ (sh.hasLimit = true ↔ ∃ e l, d = .tally e (some l)) := by
  unfold Draft.ranged at h
  split at h
  · cases h; simp [Shape.inRange, Shape.hasLimit]
  · split at h <;> cases h
    simp_all [Shape.inRange, Shape.hasLimit]
  · split at h <;> cases h
    simp_all [Shape.inRange, Shape.hasLimit]
  · split at h
    · split at h <;> cases h
      simp_all [Shape.inRange, Shape.hasLimit]
    · cases h
  · cases h; simp [Shape.inRange, Shape.hasLimit]
  · split at h <;> cases h
    simp_all [Shape.inRange, Shape.hasLimit]

/-- A member that passes check 2: its track, priority, kind and ranges (02 R25). -/
theorem judgeMember_ok {b : Booking} {d : Descriptor} {m : Member} (h : judgeMember b d = .ok m) :
    m.track.val = d.track.toNat ∧ m.priority.val = b.priority.toNat ∧ kindFits m.track m.shape = true ∧
      m.shape.inRange = true ∧ m.shape.hasLimit = hasLimit d := by
  unfold judgeMember at h
  split at h
  · next draft hn hf =>
    split at h
    · next track priority shape ht hp hr =>
      split at h
      · next hk =>
        cases h
        obtain ⟨h1, h2⟩ := Draft.ranged_spec hr
        refine ⟨trackOperand_val ht, priorityOperand_val hp, hk, h1, ?_⟩
        rw [Bool.eq_iff_iff, h2]
        unfold hasLimit
        rw [hf]
        constructor
        · rintro ⟨e, l, rfl⟩; rfl
        · intro hx
          split at hx
          · next e l he => cases he; exact ⟨e, l, rfl⟩
          · cases hx
      · cases h
    · cases h
  · cases h

/-- Members that pass step 2b: one for each descriptor, on tracks of their own, no limit behind the leader (04 R61). -/
theorem judgeMembers_ok {b : Booking} : ∀ (ds : List Descriptor) (i : Nat) (earlier : List Byte) (ms : List Member),
    judgeMembers b i earlier ds = .ok ms →
      ds.map (judgeMember b) = ms.map Except.ok ∧ (ms.map Member.track).Nodup ∧
        (∀ m ∈ ms, ∀ x ∈ earlier, m.track.val ≠ x.toNat) ∧
        (∀ m ∈ ms, i ≠ 0 → m.shape.hasLimit = false) ∧ (∀ m ∈ ms.tail, m.shape.hasLimit = false) := by
  intro ds
  induction ds with
  | nil =>
    intro i earlier ms h
    cases h
    simp
  | cons d ds ih =>
    intro i earlier ms h
    unfold judgeMembers at h
    split at h
    · cases h
    · next hc =>
      obtain ⟨hl, he⟩ := not_or.mp hc
      split at h
      · cases h
      · next m hm =>
        split at h
        · cases h
        · next ms' hms =>
          cases h
          obtain ⟨h1, h2, h3, h4, _⟩ := ih _ _ _ hms
          obtain ⟨ht, _, _, _, hlim⟩ := judgeMember_ok hm
          have htail : ∀ x ∈ ms', x.shape.hasLimit = false := fun x hx => h4 x hx (Nat.succ_ne_zero i)
          refine ⟨by rw [List.map_cons, List.map_cons, hm, h1], ?_, ?_, ?_, htail⟩
          · rw [List.map_cons, List.nodup_cons]
            refine ⟨fun hx => ?_, h2⟩
            obtain ⟨x, hx, e⟩ := List.mem_map.mp hx
            exact h3 x hx d.track List.mem_cons_self (by rw [e, ht])
          · intro x hx y hy
            rcases List.mem_cons.mp hx with rfl | hx
            · intro e
              exact he (by rw [BitVec.eq_of_toNat_eq (ht.symm.trans e)]; exact hy)
            · exact h3 x hx y (List.mem_cons_of_mem _ hy)
          · intro x hx hi
            rcases List.mem_cons.mp hx with rfl | hx
            · rw [hlim]
              by_contra hne
              exact hl ⟨hi, by simpa using hne⟩
            · exact htail x hx

/-- Start and end that pass checks 3 and 4 (02 R26, R27). -/
theorem judgeTime_ok {epoch start stop : Epoch} (h : judgeTime epoch start stop = none) :
    epoch.toNat + 64 ≤ start.toNat ∧ start.toNat ≤ epoch.toNat + 2 ^ 40 ∧ start.toNat + 4 ≤ stop.toNat ∧
      stop.toNat ≤ start.toNat + 2 ^ 40 := by
  unfold judgeTime lead horizon minLength at h
  split at h
  · cases h
  · split at h
    · cases h
    · split at h
      · cases h
      · split at h
        · cases h
        · omega

/-- A member whose track no window of the port or of priority at least its own occupies, and whose claims stand (02 R28 to R32). -/
abbrev State.Open (s : State) (p : Port) (b : Booking) (m : Member) : Prop :=
  s.claimedByOther p m.track = false ∧ s.triggerClaimed p m.shape = false ∧
    ∀ w ∈ s.trackList m.track, intersects w.start w.stop b.start b.stop = true → w.owner ≠ p ∧ w.priority < m.priority

theorem State.open_of_checks {s : State} {p : Port} {b : Booking} {m : Member} (h1 : s.claimedByOther p m.track = false)
    (h2 : s.triggerClaimed p m.shape = false) (h3 : s.ownOverlap p m.track b.start b.stop = false)
    (h4 : s.firstConflict p m.track m.priority b.start b.stop = none) : s.Open p b m := by
  refine ⟨h1, h2, fun w hw hi => ?_⟩
  unfold State.ownOverlap at h3
  unfold State.firstConflict at h4
  have h3 := List.any_eq_false.mp h3 w hw
  have h4 := List.find?_eq_none.mp h4 w hw
  simp only [Bool.and_eq_true, decide_eq_true_eq, not_and, hi] at h3 h4
  have ho : w.owner ≠ p := fun e => absurd (h3 e) (by simp)
  exact ⟨ho, not_le.mp (h4 ⟨ho, trivial⟩)⟩

/-- What a RESERVE that passes its checks is: admissible, of a good member (02 R23). -/
theorem judgeReserve_ok {p : Port} {b : Booking} {d : Descriptor} {s : State} {m : Member} (h : judgeReserve p b d s = .ok m) :
    judgeMember b d = .ok m ∧ Admissible s p b [m] := by
  unfold judgeReserve at h
  split at h
  · cases h
  · next m' hm =>
    split at h
    · cases h
    · next ht =>
      split at h
      · cases h
      · next h1 =>
        split at h
        · cases h
        · next h2 =>
          split at h
          · cases h
          · next h3 =>
            split at h
            · cases h
            · next h4 =>
              split at h
              · cases h
              · next h5 =>
                cases h
                obtain ⟨t1, t2, t3, t4⟩ := judgeTime_ok ht
                refine ⟨hm, t1, t2, t3, t4, by simpa using h3, fun x hx => ?_⟩
                obtain rfl := List.mem_singleton.mp hx
                exact State.open_of_checks (by simpa using h1) (by simpa using h2) (by simpa using h4) h5

theorem firstConflictOf_none {s : State} {p : Port} {b : Booking} : ∀ (ms : List Member) (i : Nat),
    s.firstConflictOf p b i ms = none → ∀ m ∈ ms, s.firstConflict p m.track m.priority b.start b.stop = none := by
  intro ms
  induction ms with
  | nil => intro i _ m hm; cases hm
  | cons m ms ih =>
    intro i h x hx
    unfold State.firstConflictOf at h
    split at h
    · cases h
    · next hn =>
      rcases List.mem_cons.mp hx with rfl | hx
      · exact hn
      · exact ih _ h x hx

theorem PortUnit.freeBundle_none {u : PortUnit} {n : BundleNo} (h : u.freeBundle = some n) : u.bundles[n] = none := by
  unfold PortUnit.freeBundle at h
  have := List.find?_some h
  simpa using this

/-- What a RESERVE_BUNDLE that passes its steps is: admissible, of one to eight good members, with a free bundle record (04 R60 to R64). -/
theorem judgeBundle_ok {p : Port} {b : Booking} {ds : List Descriptor} {s : State} {ms : List Member} {n : BundleNo}
    (h : judgeBundle p b ds s = .ok (ms, n)) :
    ds ≠ [] ∧ ds.length ≤ 8 ∧ judgeMembers b 0 [] ds = .ok ms ∧ (s.port p).freeBundle = some n ∧ Admissible s p b ms := by
  unfold judgeBundle at h
  split at h
  · cases h
  · next hl =>
    split at h
    · cases h
    · next ms' hms =>
      split at h
      · cases h
      · next ht =>
        split at h
        · cases h
        · next n' hn =>
          split at h
          · cases h
          · next h1 =>
            split at h
            · cases h
            · next h2 =>
              split at h
              · cases h
              · next h3 =>
                split at h
                · cases h
                · next h4 =>
                  split at h
                  · cases h
                  · next h5 =>
                    cases h
                    obtain ⟨t1, t2, t3, t4⟩ := judgeTime_ok ht
                    rw [List.findIdx?_eq_none_iff] at h1 h2 h4
                    refine ⟨fun e => hl (.inl (by rw [e]; rfl)), by omega, hms, hn, t1, t2, t3, t4, by omega, fun m hm => ?_⟩
                    exact State.open_of_checks (h1 m hm) (h2 m hm) (h4 m hm) (firstConflictOf_none _ _ h5 m hm)

/-! ### Where new records go -/

/-- A record stands behind every record that starts no later (02 R34). -/
theorem insertByStart_eq (w : Window) (l : List Window) :
    insertByStart w l = l.takeWhile (fun v => !decide (w.start < v.start)) ++ w :: l.dropWhile (fun v => !decide (w.start < v.start)) := by
  induction l with
  | nil => rfl
  | cons v l ih =>
    unfold insertByStart
    by_cases h : w.start < v.start
    · simp [h]
    · simp [h, ih]

/-- Records of one start stand together, in their order, behind every record that starts no later (04 R64). -/
theorem foldl_insertByStart (st : Epoch) : ∀ (news l : List Window), (∀ w ∈ news, w.start = st) →
    news.foldl (fun l w => insertByStart w l) l =
      l.takeWhile (fun v => !decide (st < v.start)) ++ news ++ l.dropWhile (fun v => !decide (st < v.start)) := by
  intro news
  induction news with
  | nil =>
    intro l _
    rw [List.append_nil, List.takeWhile_append_dropWhile]
    rfl
  | cons w news ih =>
    intro l h
    have hw : w.start = st := h w List.mem_cons_self
    rw [List.foldl_cons, ih _ (fun v hv => h v (List.mem_cons_of_mem _ hv)), insertByStart_eq, hw]
    generalize hc : (fun v : Window => !decide (st < v.start)) = c
    have hcw : c w = true := by rw [← hc]; simp [hw]
    have hT : ∀ v ∈ l.takeWhile c, c v = true := fun v hv => List.mem_takeWhile_imp hv
    have ht : (l.takeWhile c ++ w :: l.dropWhile c).takeWhile c = l.takeWhile c ++ [w] := by
      rw [List.takeWhile_append_of_pos hT, List.takeWhile_cons, if_pos hcw]
      congr 2
      have := List.head?_dropWhile_not c l
      cases hd : l.dropWhile c with
      | nil => rfl
      | cons x xs =>
        rw [hd] at this
        rw [List.takeWhile_cons, if_neg (by simpa using this)]
    have hdr : (l.takeWhile c ++ w :: l.dropWhile c).dropWhile c = l.dropWhile c := by
      rw [List.dropWhile_append_of_pos hT, List.dropWhile_cons, if_pos hcw]
      have := List.head?_dropWhile_not c l
      cases hd : l.dropWhile c with
      | nil => rfl
      | cons x xs =>
        rw [hd] at this
        rw [List.dropWhile_cons, if_neg (by simpa using this)]
    rw [ht, hdr]
    simp

/-- The list after records of one start entered it. -/
def insertAll (news l : List Window) : List Window := news.foldl (fun l w => insertByStart w l) l

theorem insertAll_perm (news : List Window) : ∀ l, (insertAll news l).Perm (news ++ l) := by
  induction news with
  | nil => exact fun l => .refl _
  | cons w news ih =>
    intro l
    refine (ih (insertByStart w l)).trans ?_
    exact ((insertByStart_perm w l).append_left news).trans List.perm_middle

/-- A filter that takes no new record meets the list as it was. -/
theorem filter_insertAll_none {st : Epoch} {news l : List Window} {c : Window → Bool} (hs : ∀ w ∈ news, w.start = st)
    (h : ∀ w ∈ news, c w = false) : (insertAll news l).filter c = l.filter c := by
  unfold insertAll
  rw [foldl_insertByStart st news l hs, List.filter_append, List.filter_append,
    (List.filter_eq_nil_iff (l := news)).mpr (fun w hw => by rw [h w hw]; simp), List.append_nil, ← List.filter_append,
    List.takeWhile_append_dropWhile]

/-- A filter that takes every new record and no other meets the new records in their order. -/
theorem filter_insertAll_all {st : Epoch} {news l : List Window} {c : Window → Bool} (hs : ∀ w ∈ news, w.start = st)
    (h : ∀ w ∈ news, c w = true) (hl : ∀ w ∈ l, c w = false) : (insertAll news l).filter c = news := by
  unfold insertAll
  rw [foldl_insertByStart st news l hs, List.filter_append, List.filter_append, List.filter_eq_self.mpr h,
    List.filter_eq_nil_iff.mpr (fun w hw => by rw [hl w ((List.takeWhile_sublist _).subset hw)]; simp),
    List.filter_eq_nil_iff.mpr (fun w hw => by rw [hl w ((List.dropWhile_sublist _).subset hw)]; simp)]
  simp

/-! ### The pool -/

/-- The free slots and the windows fill the pool (01 R10). -/
theorem State.freeSlots_length {s : State} (h : s.SlotsDistinct) : s.freeSlots.length + s.windows.length = 192 := by
  have hf : s.freeSlots.Nodup := (List.nodup_finRange 192).filter _
  have hd : (s.freeSlots ++ s.windows.map Window.slot).Nodup := by
    refine List.Nodup.append hf h (fun i hi hj => ?_)
    obtain ⟨w, hw, rfl⟩ := List.mem_map.mp hj
    exact (s.mem_freeSlots _).mp hi w hw rfl
  have hp : (s.freeSlots ++ s.windows.map Window.slot).Perm (List.finRange 192) := by
    refine (List.perm_ext_iff_of_nodup hd (List.nodup_finRange 192)).mpr (fun i => ⟨fun _ => List.mem_finRange i, fun _ => ?_⟩)
    rw [List.mem_append, s.mem_freeSlots, List.mem_map]
    by_cases hx : ∃ w ∈ s.windows, w.slot = i
    · exact .inr hx
    · exact .inl (fun w hw e => hx ⟨w, hw, e⟩)
  have := hp.length_eq
  rwa [List.length_append, List.length_map, List.length_finRange] at this

/-- Every window is one port's. -/
theorem State.length_owned (s : State) :
    (s.owned 0).length + (s.owned 1).length + (s.owned 2).length + (s.owned 3).length = s.windows.length := by
  unfold State.owned
  induction s.windows with
  | nil => rfl
  | cons w ws ih =>
    have : w.owner = 0 ∨ w.owner = 1 ∨ w.owner = 2 ∨ w.owner = 3 := by
      generalize w.owner = p
      fin_cases p <;> simp
    rcases this with e | e | e | e <;> simp [e] <;> omega

/-- Where a port's quota leaves room for `n` records, the pool has as many free slots (02 R37). -/
theorem RecordLaws.room {s : State} (h : RecordLaws s) {p : Port} {n : Nat} (hn : (s.port p).held + n ≤ (s.port p).quota) :
    n ≤ s.freeSlots.length := by
  obtain ⟨hd, hq, hB⟩ := (recordLaws_iff s).mp h
  have hf := State.freeSlots_length hd
  have ho := s.length_owned
  rw [s.quotasInUse_eq] at hq
  unfold poolSize at hq
  have b0 := hB 0
  have b1 := hB 1
  have b2 := hB 2
  have b3 := hB 3
  have q0 := b0.quota
  have q1 := b1.quota
  have q2 := b2.quota
  have q3 := b3.quota
  have h0 := b0.held
  have h1 := b1.held
  have h2 := b2.held
  have h3 := b3.held
  fin_cases p <;> simp at hn <;> omega

/-! ### New records -/

/-- Everything that several insertions do, the ports aside (01 R10, 02 R34, R35). -/
theorem insertWindows_eq (news : List Window) : ∀ t : State, ∃ us rs ps,
    news.foldl State.insertWindow t = { t with
      windows := insertAll news t.windows, useCounts := us, trigRefs := rs, ports := ps } := by
  induction news with
  | nil => exact fun t => ⟨t.useCounts, t.trigRefs, t.ports, rfl⟩
  | cons w news ih =>
    intro t
    obtain ⟨us, rs, ps, h⟩ := ih (t.insertWindow w)
    refine ⟨us, rs, ps, ?_⟩
    rw [List.foldl_cons, h, State.insertWindow_eq]
    rfl

theorem port_insertWindow (t : State) (w : Window) (q : Port) :
    (t.insertWindow w).port q = if w.owner = q then { t.port q with held := (t.port q).held + 1 } else t.port q := by
  rw [State.insertWindow_eq]
  refine (vector_get_set t.ports w.owner q _).trans ?_
  by_cases e : w.owner = q
  · subst e; rfl
  · rw [if_neg e, if_neg e]; rfl

/-- The port units after several insertions: held counts (01 R11). -/
theorem port_insertWindows (news : List Window) : ∀ (t : State) (q : Port),
    (news.foldl State.insertWindow t).port q =
      { t.port q with held := (t.port q).held + (news.filter (fun w => decide (w.owner = q))).length } := by
  induction news with
  | nil => intro t q; rfl
  | cons w news ih =>
    intro t q
    rw [List.foldl_cons, ih, port_insertWindow, List.filter_cons]
    by_cases e : w.owner = q
    · rw [if_pos e, if_pos (by simpa using e), List.length_cons]
      simp only [PortUnit.mk.injEq, true_and, and_true]
      omega
    · rw [if_neg e, if_neg (by simpa using e)]

theorem refs_insertWindow (t : State) (w : Window) (k : Sense) (q : Port) :
    (t.insertWindow w).refs k q = t.refs k q + if w.owner = q ∧ w.shape.source = some k then 1 else 0 := by
  rw [State.insertWindow_eq]
  exact State.refs_raiseRef t w k q

/-- The trigger references after several insertions (06 R97). -/
theorem refs_insertWindows (news : List Window) : ∀ (t : State) (k : Sense) (q : Port),
    (news.foldl State.insertWindow t).refs k q =
      t.refs k q + ((news.filter (fun w => decide (w.owner = q))).filter (fun w => decide (w.shape.source = some k))).length := by
  induction news with
  | nil => intro t k q; rfl
  | cons w news ih =>
    intro t k q
    rw [List.foldl_cons, ih, refs_insertWindow, List.filter_cons]
    by_cases e : w.owner = q
    · rw [if_pos (by simpa using e : decide (w.owner = q) = true), List.filter_cons]
      by_cases e' : w.shape.source = some k
      · rw [if_pos ⟨e, e'⟩, if_pos (by simpa using e' : decide (w.shape.source = some k) = true), List.length_cons]
        omega
      · rw [if_neg (fun x => e' x.2), if_neg (by simpa using e')]
        rfl
    · rw [if_neg (fun x => e x.1), if_neg (by simpa using e)]
      rfl

theorem length_filter_insertAll (news l : List Window) (c : Window → Bool) :
    ((insertAll news l).filter c).length = (l.filter c).length + (news.filter c).length := by
  rw [((insertAll_perm news l).filter c).length_eq, List.filter_append, List.length_append]
  exact Nat.add_comm _ _

/-- New records of one start of a port with a session, in free slots and within its quota, keep the laws of records where its bundle records follow them (02 R34, 04 R64). -/
theorem RecordLaws.book {t t' : State} {p : Port} {st : Epoch} {news : List Window} (h : RecordLaws t)
    (hi : (t.port p).inSession = true) (hst : ∀ w ∈ news, w.start = st) (ho : ∀ w ∈ news, w.owner = p)
    (hsl : (news.map Window.slot ++ t.windows.map Window.slot).Nodup)
    (hq : (t.port p).held + news.length ≤ (t.port p).quota)
    (hw : t'.windows = insertAll news t.windows) (hc : t'.claimants = t.claimants)
    (hr : ∀ k q, t'.refs k q = (news.foldl State.insertWindow t).refs k q)
    (hp : ∃ bs, t'.port p = { t.port p with held := (t.port p).held + news.length, bundles := bs })
    (hpq : ∀ q, q ≠ p → t'.port q = t.port q)
    (hb : ∀ b, bundleOk (t'.port p).bundles[b] b (membersOf b (t'.owned p))) : RecordLaws t' := by
  obtain ⟨hn, _, hB⟩ := (recordLaws_iff t).mp h
  have hown : news.filter (fun w => decide (w.owner = p)) = news := List.filter_eq_self.mpr (by simpa using ho)
  have hoth : ∀ q, q ≠ p → news.filter (fun w => decide (w.owner = q)) = [] := fun q e =>
    List.filter_eq_nil_iff.mpr (fun w hw => by rw [ho w hw]; simpa using fun x : p = q => e x.symm)
  obtain ⟨bs, hp⟩ := hp
  refine recordLaws_onPort p h ?_ (by rw [hp]) ?_ (fun q e => ⟨hpq q e, ?_, fun k => ?_, State.holdsClaim_congr hc⟩)
  · show (t'.windows.map Window.slot).Nodup
    rw [hw, ((insertAll_perm news t.windows).map Window.slot).nodup_iff, List.map_append]
    exact hsl
  · have hlen : ∀ c : Window → Bool, ((t'.owned p).filter c).length = ((t.owned p).filter c).length + (news.filter c).length := by
      intro c
      unfold State.owned
      rw [hw, filter_filter_and, length_filter_insertAll, filter_filter_and, ← filter_filter_and _ _ news, hown]
    refine ⟨?_, ?_, ?_, fun k => ?_, hb, fun hi' => ?_⟩
    · rw [hp]; exact (hB p).session
    · have := hlen (fun _ => true)
      rw [List.filter_true, List.filter_true, List.filter_true] at this
      rw [hp, this]
      show (t.port p).held + news.length = _
      rw [(hB p).held]
    · rw [hp]; exact hq
    · rw [hr, refs_insertWindows, hown, hlen]
      exact congrArg (· + _) ((hB p).refs k)
    · rw [hp] at hi'
      exact absurd (hi'.symm.trans hi) (by simp)
  · unfold State.owned
    rw [hw]
    refine filter_insertAll_none hst (fun w hw => ?_)
    rw [ho w hw]
    simpa using fun x : p = q => e x.symm
  · rw [hr, refs_insertWindows, hoth q e]
    rfl

/-! ### Displacement -/

/-- The windows bumped by an admission, and those truncated, as choices of the part's windows. -/
def State.displaces (s : State) (p : Port) (priority : Fin 4) (tracks : List Track) (start stop : Epoch) (w : Window) : Bool :=
  (s.windows.filter (isVictim p priority tracks start stop)).any (fun v => sameUnit v w)

theorem State.displaced_eq (s : State) (p : Port) (priority : Fin 4) (tracks : List Track) (start stop : Epoch) :
    s.displaced p priority tracks start stop = s.windows.filter (s.displaces p priority tracks start stop) := rfl

theorem State.whole_displaces {s : State} (h : s.SlotsDistinct) (p : Port) (priority : Fin 4) (tracks : List Track)
    (start stop : Epoch) : s.Whole (s.displaces p priority tracks start stop) :=
  State.whole_units h (fun _ hw => (List.mem_filter.mp hw).1)

/-- A displaced window is another port's (03 R42, R49). -/
theorem State.displaces_owner {s : State} (h : s.SlotsDistinct) {p : Port} {priority : Fin 4} {tracks : List Track}
    {start stop : Epoch} {w : Window} (hw : w ∈ s.windows) (hd : s.displaces p priority tracks start stop w = true) :
    w.owner ≠ p := by
  obtain ⟨v, hv, hvw⟩ := List.any_eq_true.mp hd
  obtain ⟨hv, hi⟩ := List.mem_filter.mp hv
  unfold isVictim at hi
  simp only [Bool.and_eq_true, decide_eq_true_eq] at hi
  rw [← sameUnit_owner h hv hw hvw]
  exact hi.1.1.1

theorem displaces_displaced (s : State) (p : Port) (priority : Fin 4) (tracks : List Track) (start stop : Epoch)
    (c : Window → Bool) : (s.displaced p priority tracks start stop).filter c =
      s.windows.filter (fun w => s.displaces p priority tracks start stop w && c w) := by
  rw [State.displaced_eq, filter_filter_and]

/-- The bumped windows gone, the truncated ones are a whole choice of what stays. -/
theorem displaced_truncated {s : State} (h : s.SlotsDistinct) (p : Port) (priority : Fin 4) (tracks : List Track)
    (start stop : Epoch) :
    (s.displaced p priority tracks start stop).filter (fun w => decide (w.start < start)) =
      (s.leaveAll ((s.displaced p priority tracks start stop).filter (fun w => decide (¬ w.start < start)))).windows.filter
        (fun w => s.displaces p priority tracks start stop w && decide (w.start < start)) := by
  rw [displaces_displaced, displaces_displaced, windows_leaveAll_filter h, filter_filter_and]
  refine List.filter_congr (fun w _ => ?_)
  by_cases e : w.start < start <;> simp [e]

theorem State.Whole.congr {s t : State} {f : Window → Bool} (h : s.Whole f) (hw : ∀ w ∈ t.windows, w ∈ s.windows) : t.Whole f :=
  fun v hv w hx e => h v (hw v hv) w (hw w hx) e

/-- Displacement keeps the laws of records (03 R42 to R53). -/
theorem RecordLaws.displace {s : State} (h : RecordLaws s) (p : Port) (priority : Fin 4) (tracks : List Track)
    (start stop : Epoch) : RecordLaws (s.displace p priority tracks start stop) := by
  unfold State.displace
  dsimp only
  generalize hx : (s.postUnordered _) = x
  have hq : Quiet s x := by rw [← hx]; exact quiet_postUnordered s _
  have hrx : RecordLaws x := hq.sameBooks.recordLaws h
  have hn := ((recordLaws_iff x).mp hrx).1
  have hd : s.displaced p priority tracks start stop = x.displaced p priority tracks start stop := by
    unfold State.displaced; rw [hq.windows]
  have hwh := State.whole_displaces hn p priority tracks start stop
  rw [hd, displaced_truncated hn, displaces_displaced]
  have hb := hrx.leaveAll (hrx.whole_and hwh (g := fun w => decide (¬ w.start < start)) (fun v w e _ => by rw [e]))
  refine hb.setStops (hb.whole_and (hwh.congr (fun w hw => ?_)) (fun v w e _ => by rw [e])) start
  rw [windows_leaveAll] at hw
  exact (List.mem_filter.mp hw).1

/-- What a displacement leaves of the admitting port: its unit up to records told, its windows (03 R42). -/
theorem displace_own {s : State} (h : s.SlotsDistinct) (p : Port) (priority : Fin 4) (tracks : List Track)
    (start stop : Epoch) :
    (s.displace p priority tracks start stop).port p = s.port p ∧
      (s.displace p priority tracks start stop).claimants = s.claimants ∧
      (s.displace p priority tracks start stop).useCounts = s.useCounts ∧
      (s.displace p priority tracks start stop).epoch = s.epoch := by
  obtain ⟨rs, n, hp, he⟩ := s.displace_spec p priority tracks start stop
  have hno : ∀ c : Window → Bool, ((s.displaced p priority tracks start stop).filter c).filter (fun w => decide (w.owner = p)) = [] := by
    intro c
    rw [displaces_displaced]
    refine List.filter_eq_nil_iff.mpr (fun w hw => ?_)
    obtain ⟨hw, hd⟩ := List.mem_filter.mp hw
    have := State.displaces_owner h hw (Bool.and_eq_true_iff.mp hd).1
    simpa using this
  have hrs : recordsFor p rs = [] := by
    have hperm := recordsFor_perm p hp
    have : recordsFor p ((s.displaced p priority tracks start stop).map (displacedRecord s.epoch priority start)) = [] := by
      unfold recordsFor
      rw [List.map_eq_nil_iff]
      refine List.filter_eq_nil_iff.mpr (fun r hr => ?_)
      obtain ⟨w, hw, rfl⟩ := List.mem_map.mp hr
      obtain ⟨hw, hd⟩ := List.mem_filter.mp hw
      have := State.displaces_owner h hw hd
      have ho : (displacedRecord s.epoch priority start w).1 = w.owner := by unfold displacedRecord; split <;> rfl
      rw [ho]
      simpa using this
    rw [this] at hperm
    exact hperm.eq_nil
  rw [he]
  refine ⟨?_, ?_, ?_, ?_⟩
  · rw [State.port_setStops, hno, PortUnit.withStops_nil, State.port_leaveAll, hno]
    show (Vector.ofFn _)[p] = _
    rw [vector_ofFn_get, hrs]
    rfl
  all_goals
    obtain ⟨_, e⟩ := State.setStops_spec _ _ _
    rw [e]
    obtain ⟨_, _, _, _, e'⟩ := State.leaveAll_spec _ _
    rw [e']

/-! ### RESERVE and RESERVE_BUNDLE -/

theorem newMembers_spec (s : State) (p : Port) (b : Booking) (n : BundleNo) : ∀ (ms : List Member) (leader : Bool) (is : List Slot),
    ms.length ≤ is.length →
    (newMembers s p b n leader ms is).length = ms.length ∧
    (newMembers s p b n leader ms is).map Window.slot = is.take ms.length ∧
    (newMembers s p b n leader ms is).map Window.track = ms.map Member.track ∧
    (newMembers s p b n leader ms is).map Window.shape = ms.map Member.shape ∧
    ∀ w ∈ newMembers s p b n leader ms is, w.owner = p ∧ w.start = b.start ∧ w.stop = b.stop ∧ w.state = .pending ∧
      w.bundleNo = some n ∧ w.useCount = s.useCount w.slot + 1 ∧ w.run = w.shape.firstRun ∧ ∃ m ∈ ms, w.track = m.track ∧ w.shape = m.shape ∧ w.priority = m.priority := by
  intro ms
  induction ms with
  | nil =>
    intro leader is _
    have e : newMembers s p b n leader [] is = [] := by unfold newMembers; rfl
    rw [e]
    exact ⟨rfl, by simp, rfl, rfl, fun w hw => by cases hw⟩
  | cons m ms ih =>
    intro leader is hl
    cases is with
    | nil => simp at hl
    | cons i is =>
      obtain ⟨h1, h2, h3, h4, h5⟩ := ih false is (by simpa using hl)
      have e : newMembers s p b n leader (m :: ms) (i :: is) =
        newWindow s p b (some { number := n, leader }) m i :: newMembers s p b n false ms is := rfl
      rw [e]
      refine ⟨by simp [h1], by simp [h2, newWindow], by simp [h3, newWindow], by simp [h4, newWindow], fun w hw => ?_⟩
      rcases List.mem_cons.mp hw with rfl | hw
      · exact ⟨rfl, rfl, rfl, rfl, rfl, rfl, rfl, m, List.mem_cons_self, rfl, rfl, rfl⟩
      · obtain ⟨g1, g2, g3, g4, g5, g6, g8, x, hx, g7⟩ := h5 w hw
        exact ⟨g1, g2, g3, g4, g5, g6, g8, x, List.mem_cons_of_mem _ hx, g7⟩

/-- The bundle references of new members: the first leads (04 R64). -/
theorem newMembers_bundle (s : State) (p : Port) (b : Booking) (n : BundleNo) : ∀ (ms : List Member) (leader : Bool) (is : List Slot),
    ms.length ≤ is.length →
    (newMembers s p b n leader ms is).map Window.bundle =
      (List.range ms.length).map (fun i => some { number := n, leader := leader && decide (i = 0) }) := by
  intro ms
  induction ms with
  | nil => intro leader is _; unfold newMembers; rfl
  | cons m ms ih =>
    intro leader is hl
    cases is with
    | nil => simp at hl
    | cons i is =>
      have e : newMembers s p b n leader (m :: ms) (i :: is) =
        newWindow s p b (some { number := n, leader }) m i :: newMembers s p b n false ms is := rfl
      rw [e, List.map_cons, ih false is (by simpa using hl), List.length_cons, List.range_succ_eq_map, List.map_cons,
        List.map_map]
      simp [newWindow, Function.comp_def]

/-- New records in free slots stand in slots of their own. -/
theorem nodup_newSlots {t : State} (h : t.SlotsDistinct) {is : List Slot} (hn : is.Nodup) (hi : ∀ i ∈ is, i ∈ t.freeSlots) :
    (is ++ t.windows.map Window.slot).Nodup := by
  refine List.Nodup.append hn h (fun i hi' hj => ?_)
  obtain ⟨w, hw, rfl⟩ := List.mem_map.mp hj
  exact (t.mem_freeSlots _).mp (hi _ hi') w hw rfl

theorem State.freeSlots_nodup (t : State) : t.freeSlots.Nodup := (List.nodup_finRange 192).filter _

/-- A RESERVE keeps the laws of records (02 R33 to R36). -/
theorem RecordLaws.bookOne {t : State} {p : Port} {b : Booking} {m : Member} {i : Slot} (h : RecordLaws t)
    (hs : (t.port p).inSession = true) (hq : (t.port p).held + 1 ≤ (t.port p).quota) (hi : i ∈ t.freeSlots) :
    RecordLaws (t.insertWindow (newWindow t p b none m i)) := by
  obtain ⟨hn, _, hB⟩ := (recordLaws_iff t).mp h
  have hw : (t.insertWindow (newWindow t p b none m i)).windows = insertAll [newWindow t p b none m i] t.windows := by
    rw [State.insertWindow_eq]; rfl
  have hp : (t.insertWindow (newWindow t p b none m i)).port p = { t.port p with held := (t.port p).held + 1 } := by
    rw [port_insertWindow]; exact if_pos rfl
  refine h.book (p := p) (st := b.start) (news := [newWindow t p b none m i]) hs ?_ ?_ ?_ hq hw ?_ (fun _ _ => rfl)
    ⟨(t.port p).bundles, hp⟩ (fun q e => ?_) (fun c => ?_)
  · intro w hw; rw [List.mem_singleton.mp hw]; rfl
  · intro w hw; rw [List.mem_singleton.mp hw]; rfl
  · exact nodup_newSlots hn (List.nodup_singleton i) (fun j hj => by rw [List.mem_singleton.mp hj]; exact hi)
  · rw [State.insertWindow_eq]
  · rw [port_insertWindow]; exact if_neg (fun x => e x.symm)
  · rw [hp]
    have e : membersOf c ((t.insertWindow (newWindow t p b none m i)).owned p) = membersOf c (t.owned p) := by
      unfold membersOf State.owned
      rw [hw, filter_filter_and, filter_filter_and]
      refine filter_insertAll_none (st := b.start) ?_ ?_
      · intro w hw; rw [List.mem_singleton.mp hw]; rfl
      · intro w hw; rw [List.mem_singleton.mp hw]; simp [newWindow, Window.bundleNo]
    rw [e]
    exact (hB p).bundles c

/-- The state after a RESERVE_BUNDLE admitted its members. -/
def State.bookedBundle (t : State) (p : Port) (b : Booking) (ms : List Member) (n : BundleNo) : State :=
  ((newMembers t p b n true ms t.freeSlots).foldl State.insertWindow t).setBundle p n
    (some { handles := (newMembers t p b n true ms t.freeSlots).map Window.handle
            start := b.start, stop := b.stop, state := .pending })

theorem bookedBundle_eq (t : State) (p : Port) (b : Booking) (ms : List Member) (n : BundleNo) : ∃ us rs ps,
    t.bookedBundle p b ms n = { t with
      windows := insertAll (newMembers t p b n true ms t.freeSlots) t.windows, useCounts := us, trigRefs := rs, ports := ps } := by
  obtain ⟨us, rs, ps, h⟩ := insertWindows_eq (newMembers t p b n true ms t.freeSlots) t
  unfold State.bookedBundle
  rw [h]
  exact ⟨us, rs, _, rfl⟩

/-- A RESERVE_BUNDLE keeps the laws of records (04 R58, R64). -/
theorem RecordLaws.bookBundle {t : State} {p : Port} {b : Booking} {ms : List Member} {n : BundleNo} (h : RecordLaws t)
    (hs : (t.port p).inSession = true) (hq : (t.port p).held + ms.length ≤ (t.port p).quota)
    (hn : (t.port p).bundles[n] = none) (h1 : 1 ≤ ms.length) (h8 : ms.length ≤ 8) (ht : (ms.map Member.track).Nodup)
    (hl : ∀ m ∈ ms.tail, m.shape.hasLimit = false) : RecordLaws (t.bookedBundle p b ms n) := by
  obtain ⟨hd, _, hB⟩ := (recordLaws_iff t).mp h
  have hroom := h.room hq
  obtain ⟨g1, g2, g3, g4, g5⟩ := newMembers_spec t p b n ms true t.freeSlots hroom
  have gb := newMembers_bundle t p b n ms true t.freeSlots hroom
  obtain ⟨us, rs, ps, he⟩ := bookedBundle_eq t p b ms n
  have hwin : (t.bookedBundle p b ms n).windows = insertAll (newMembers t p b n true ms t.freeSlots) t.windows := by rw [he]
  have hclm : (t.bookedBundle p b ms n).claimants = t.claimants := by rw [he]
  have hpp : (t.bookedBundle p b ms n).port p = { t.port p with
      held := (t.port p).held + ms.length
      bundles := (t.port p).bundles.set n (some { handles := (newMembers t p b n true ms t.freeSlots).map Window.handle
                                                  start := b.start, stop := b.stop, state := .pending }) } := by
    unfold State.bookedBundle State.setBundle
    rw [State.port_setPort, if_pos rfl, port_insertWindows,
      List.filter_eq_self.mpr (fun w hw => by simpa using (g5 w hw).1), g1]
  have hrefs : ∀ k q, (t.bookedBundle p b ms n).refs k q =
      ((newMembers t p b n true ms t.freeSlots).foldl State.insertWindow t).refs k q := fun k q => rfl
  have hport : ∀ q, q ≠ p → (t.bookedBundle p b ms n).port q = t.port q := by
    intro q e
    unfold State.bookedBundle State.setBundle
    rw [State.port_setPort, if_neg (fun x => e x.symm), port_insertWindows,
      List.filter_eq_nil_iff.mpr (fun w hw => by rw [(g5 w hw).1]; simpa using fun x : p = q => e x.symm)]
    rfl
  generalize newMembers t p b n true ms t.freeSlots = news at *
  have hst : ∀ w ∈ news, w.start = b.start := fun w hw => (g5 w hw).2.1
  refine h.book (p := p) (st := b.start) (news := news) hs hst (fun w hw => (g5 w hw).1) ?_ (by rw [g1]; exact hq) hwin hclm
    hrefs ⟨_, by rw [hpp, g1]⟩ hport (fun c => ?_)
  · rw [g2]
    exact nodup_newSlots hd (t.freeSlots_nodup.sublist (List.take_sublist _ _)) (fun i hi => List.mem_of_mem_take hi)
  · rw [hpp]
    dsimp only
    rw [vector_get_set]
    have hm : membersOf c ((t.bookedBundle p b ms n).owned p) =
        (insertAll news t.windows).filter (fun w => decide (w.owner = p) && decide (w.bundleNo = some c)) := by
      unfold membersOf State.owned
      rw [hwin, filter_filter_and]
    rw [hm]
    by_cases e : n = c
    · subst e
      rw [if_pos rfl, filter_insertAll_all hst]
      · refine (BundleRecord.lawful_iff _ _ _).mpr ⟨rfl, by rw [g1]; exact h1, by rw [g1]; exact h8, by rw [g3]; exact ht,
          fun w hw => ?_, by rw [gb, g1]; simp, fun w hw => ?_⟩
        · obtain ⟨_, k2, k3, k4, _⟩ := g5 w hw
          exact ⟨k2, k3, k4⟩
        · have e4 : (news.tail).map Window.shape = ms.tail.map Member.shape := by rw [List.map_tail, g4, List.map_tail]
          have : w.shape ∈ ms.tail.map Member.shape := by rw [← e4]; exact List.mem_map_of_mem hw
          obtain ⟨m, hm, hms⟩ := List.mem_map.mp this
          rw [← hms]
          exact hl m hm
      · intro w hw
        obtain ⟨k1, _, _, _, k5, _⟩ := g5 w hw
        simp [k1, k5]
      · intro w hw
        have hnone := (hB p).bundles n
        rw [hn, bundleOk_none] at hnone
        by_contra hc
        rw [Bool.not_eq_false, Bool.and_eq_true, decide_eq_true_eq, decide_eq_true_eq] at hc
        have : w ∈ membersOf n (t.owned p) := mem_membersOf.mpr ⟨(t.mem_owned p w).mpr ⟨hw, hc.1⟩, hc.2⟩
        rw [hnone] at this
        cases this
    · rw [if_neg e, filter_insertAll_none hst, ← filter_filter_and]
      · exact (hB p).bundles c
      · intro w hw
        obtain ⟨_, _, _, _, k5, _⟩ := g5 w hw
        simp [k5, e]

end Sys2Proof.Machine
end

