-- ==== Sys2Proof/Proofs/RecordSteps.lean ====
section
/-! PROOFS. Every step keeps the laws of records. -/

namespace Sys2Proof.Machine

/-! ### Retirement, starts and edges -/

/-- The retirement of a whole choice of windows keeps the laws of records (01 R15, R18). -/
theorem RecordLaws.retire {s : State} {f : Window → Bool} (h : RecordLaws s) (hf : s.Whole f) (reason : Window → Reason) :
    RecordLaws (s.retire reason (s.windows.filter f)) := by
  unfold State.retire
  dsimp only
  generalize hx : s.postUnordered _ = x
  have hq : Quiet s x := by rw [← hx]; exact quiet_postUnordered s _
  have hl : RecordLaws (x.leaveAll (s.windows.filter f)) := by
    rw [← hq.windows]
    exact (hq.sameBooks.recordLaws h).leaveAll (hf.congr (fun w hw => by rw [← hq.windows]; exact hw))
  split
  · exact hl
  · exact hl.endIfClosed

theorem RecordLaws.retireUnit {s : State} {w : Window} (h : RecordLaws s) (hw : w ∈ s.windows) (reason : Window → Reason) :
    RecordLaws (s.retire reason (s.unitOf w)) :=
  h.retire (State.whole_unit ((recordLaws_iff s).mp h).1 hw) reason

/-- A window of no bundle is its own unit. -/
theorem State.unitOf_unbundled {s : State} (h : s.SlotsDistinct) {w : Window} (hw : w ∈ s.windows) (hb : w.bundle = none) :
    s.unitOf w = [w] := by
  rw [State.unitOf_eq_wholeOf h hw]
  unfold State.wholeOf
  rw [hb]

theorem State.windowAt_mem {s : State} {i : Slot} {w : Window} (h : s.windowAt i = some w) : w ∈ s.windows ∧ w.slot = i :=
  ⟨List.mem_of_find?_eq_some h, by simpa using List.find?_some h⟩

theorem RecordLaws.checkLimit {s : State} (h : RecordLaws s) (i : Slot) : RecordLaws (s.checkLimit i) := by
  rcases s.checkLimit_cases i with e | ⟨w, hw, _, e⟩ <;> rw [e]
  · exact h
  · exact h.retireUnit (State.windowAt_mem hw).1 _

theorem RecordLaws.checkLimits (ws : List Window) : ∀ {s : State}, RecordLaws s →
    RecordLaws (ws.foldl (fun t w => t.checkLimit w.slot) s) := by
  induction ws with
  | nil => exact id
  | cons w ws ih => exact fun h => ih (h.checkLimit w.slot)

theorem TallyRun.countEdges_zero (r : TallyRun) (te : Epoch) (l : Option (BitVec 24)) : r.countEdges te l 0 = r := by
  unfold TallyRun.countEdges
  cases l <;> simp

theorem Window.countEdges_zero (w : Window) (te : Epoch) : w.countEdges te 0 = w := by
  unfold Window.countEdges
  split
  · next h => rw [TallyRun.countEdges_zero, ← h]
  · rfl

/-- The record of a window that a start reaches: ACTIVE, with the edges carried for it counted (01 R13, 08 R134). -/
def Window.handed (epoch : Epoch) (n : Nat) (w : Window) : Window :=
  Window.countEdges { w with state := .active } epoch n

theorem Window.handed_alike (epoch : Epoch) (n : Nat) (w : Window) : w.Alike (w.handed epoch n) :=
  Window.Alike.trans (v := { w with state := .active }) rfl (Window.countEdges_alike _ _ _)

theorem Window.handed_times (epoch : Epoch) (n : Nat) (w : Window) :
    (w.handed epoch n).stop = w.stop ∧ (w.handed epoch n).state = .active :=
  Window.countEdges_times _ _ _

/-- Two changes of the record in one slot, one after the other. -/
theorem map_slot_map (i : Slot) {f g : Window → Window} (hf : ∀ v, (f v).slot = v.slot) (ws : List Window) :
    (ws.map (fun v => if v.slot = i then f v else v)).map (fun v => if v.slot = i then g v else v) =
      ws.map (fun v => if v.slot = i then g (f v) else v) := by
  rw [List.map_map]
  refine List.map_congr_left (fun v _ => ?_)
  by_cases e : v.slot = i
  · simp only [Function.comp, e, if_true, hf]
  · simp only [Function.comp, e, if_false]

/-- The window records after a hand over (01 R13). -/
theorem windows_handOver (s : State) (w : Window) :
    (s.handOver w).windows = s.windows.map (fun v => if v.slot = w.slot then v.handed s.epoch (s.carriedFor w) else v) := by
  rcases track_cases w.track with ⟨l, hl⟩ | ⟨k, hk⟩
  · have hc : s.carriedFor w = 0 := by unfold State.carriedFor; rw [hl, senseOf_laneTrack]
    unfold State.handOver
    rw [hl, laneOf_laneTrack, hc]
    refine List.map_congr_left (fun v _ => ?_)
    unfold Window.handed
    rw [Window.countEdges_zero]
  · have hc : s.carriedFor w = if (s.tally k).hold = some w.slot then (s.tally k).carried else 0 := by
      unfold State.carriedFor; rw [hk, senseOf_senseTrack]
    unfold State.handOver
    rw [hk, laneOf_senseTrack, senseOf_senseTrack, hc]
    exact map_slot_map w.slot (f := fun v => { v with state := .active }) (fun _ => rfl) s.windows

theorem handOver_rest (s : State) (w : Window) :
    (s.handOver w).claimants = s.claimants ∧ (s.handOver w).trigRefs = s.trigRefs ∧ (s.handOver w).ports = s.ports ∧
      (s.handOver w).useCounts = s.useCounts ∧ (s.handOver w).epoch = s.epoch := by
  obtain ⟨_, _, _, h⟩ := s.handOver_spec w
  rw [h]
  exact ⟨rfl, rfl, rfl, rfl, rfl⟩

/-- Several hand overs make the windows given ACTIVE and leave the others alone, claims, references and ports too. -/
theorem handOvers_spec (ws : List Window) : ∀ s : State, ∃ f : Window → Window, KeepsBookings f ∧
    (ws.foldl State.handOver s).windows = s.windows.map f ∧ (∀ v : Window, (f v).stop = v.stop) ∧
    (∀ v : Window, v.among ws = true → (f v).state = .active) ∧ (∀ v : Window, v.among ws = false → f v = v) ∧
    (ws.foldl State.handOver s).claimants = s.claimants ∧ (ws.foldl State.handOver s).trigRefs = s.trigRefs ∧
    (ws.foldl State.handOver s).ports = s.ports := by
  induction ws with
  | nil =>
    intro s
    exact ⟨id, fun w => .refl w, (List.map_id _).symm, fun _ => rfl, fun v h => by simp [Window.among] at h, fun _ _ => rfl,
      rfl, rfl, rfl⟩
  | cons w ws ih =>
    intro s
    obtain ⟨f, hf, hw, hst, ha, hn, hc, hr, hp⟩ := ih (s.handOver w)
    obtain ⟨c1, c2, c3, _, _⟩ := handOver_rest s w
    have hg : KeepsBookings (fun v => if v.slot = w.slot then v.handed s.epoch (s.carriedFor w) else v) :=
      KeepsBookings.ite (fun v => v.handed_alike _ _) _
    refine ⟨fun v => f (if v.slot = w.slot then v.handed s.epoch (s.carriedFor w) else v), hg.comp hf, ?_, fun v => ?_,
      fun v hv => ?_, fun v hv => ?_, hc.trans c1, hr.trans c2, hp.trans c3⟩
    · rw [List.foldl_cons, hw, windows_handOver, List.map_map]; rfl
    · rw [hst]
      split
      · exact (v.handed_times _ _).1
      · rfl
    · have hsl := (hg v).slot
      dsimp only at hsl
      by_cases hx : v.among ws = true
      · refine ha _ ?_
        unfold Window.among at hx ⊢
        rw [hsl]; exact hx
      · have hx' : v.among ws = false := by simpa using hx
        have e : v.slot = w.slot := by
          unfold Window.among at hv hx'
          rw [List.any_cons, hx', Bool.or_false, decide_eq_true_eq] at hv
          exact hv.symm
        dsimp only
        rw [if_pos e] at hsl ⊢
        rw [hn _ (by unfold Window.among at hx' ⊢; rw [hsl]; exact hx')]
        exact (v.handed_times _ _).2
    · unfold Window.among at hv
      rw [List.any_cons, Bool.or_eq_false_iff, decide_eq_false_iff_not] at hv
      dsimp only
      rw [if_neg (fun e : v.slot = w.slot => hv.1 e.symm)]
      exact hn v hv.2

/-- What a start in one change is, up to records told: hand overs, then ends at a limit (01 R13, 08 R134). -/
theorem startAll_quiet (s : State) (ws : List Window) : ∃ t, Quiet (ws.foldl State.handOver s) t ∧
    s.startAll ws = ws.foldl (fun t w => t.checkLimit w.slot) t :=
  ⟨_, quiet_postUnordered _ _, rfl⟩

/-- A hand over of a window of no bundle, told and checked, keeps the laws of records (01 R13). -/
theorem RecordLaws.startOne {s : State} {w : Window} (h : RecordLaws s) (hw : w ∈ s.windows) (hb : w.bundle = none) :
    RecordLaws (s.startAll [w]) := by
  obtain ⟨hd, _, hB⟩ := (recordLaws_iff s).mp h
  obtain ⟨t, hq, e⟩ := startAll_quiet s [w]
  obtain ⟨f, hf, hwin, hst, _, hn, hc, hr, hp⟩ := handOvers_spec [w] s
  rw [e]
  refine RecordLaws.checkLimits [w] (hq.sameBooks.recordLaws ?_)
  have hp' : ∀ q, ([w].foldl State.handOver s).port q = s.port q := fun q => by unfold State.port; rw [hp]
  refine h.map hwin hf hc hr (fun q => by rw [hp']; exact .refl _) (fun q b => ?_)
  rw [hp']
  have hid : (membersOf b (s.owned q)).map f = membersOf b (s.owned q) := by
    refine (List.map_congr_left (fun v hv => hn v ?_)).trans (List.map_id _)
    obtain ⟨hv, hvb⟩ := mem_membersOf.mp hv
    by_contra hx
    rw [Bool.not_eq_false, Window.among_eq_true] at hx
    obtain ⟨x, hx, hxv⟩ := hx
    rw [List.mem_singleton.mp hx] at hxv
    obtain rfl := hd.inj hw ((s.mem_owned q v).mp hv).1 hxv
    unfold Window.bundleNo at hvb
    rw [hb] at hvb
    cases hvb
  rw [hid]
  exact (hB q).bundles b

/-- The joint start of a bundle keeps the laws of records (04 R66). -/
theorem RecordLaws.startBundle {s : State} {p : Port} {b : BundleNo} (h : RecordLaws s) :
    RecordLaws ((s.setBundle p b ((s.bundle p b).map (fun r => { r with state := .active }))).startAll (s.members p b)) := by
  obtain ⟨hd, _, hB⟩ := (recordLaws_iff s).mp h
  obtain ⟨t, hq, e⟩ := startAll_quiet (s.setBundle p b ((s.bundle p b).map (fun r => { r with state := .active }))) (s.members p b)
  obtain ⟨f, hf, hwin, hst, ha, hn, hc, hr, hp⟩ :=
    handOvers_spec (s.members p b) (s.setBundle p b ((s.bundle p b).map (fun r => { r with state := .active })))
  rw [e]
  refine RecordLaws.checkLimits _ (hq.sameBooks.recordLaws ?_)
  generalize (s.members p b).foldl State.handOver _ = x at hwin hc hr hp ⊢
  have hp' : ∀ q, x.port q = (s.setBundle p b ((s.bundle p b).map (fun r => { r with state := .active }))).port q :=
    fun q => by unfold State.port; rw [hp]
  have hbun : ∀ q (c : BundleNo), (x.port q).bundles[c] =
      if p = q ∧ b = c then (s.bundle p b).map (fun r => { r with state := .active }) else (s.port q).bundles[c] := by
    intro q c
    rw [hp']
    exact State.bundle_setBundle s p q b c _
  refine h.map hwin hf hc hr (fun q => ?_) (fun q c => ?_)
  · rw [hp']
    unfold State.setBundle
    rw [State.port_setPort]
    split
    · next e => subst e; exact .refl _
    · exact .refl _
  · rw [hbun]
    have hm : ∀ v ∈ membersOf c (s.owned q), v.among (s.members p b) = decide (p = q ∧ b = c) := by
      intro v hv
      obtain ⟨hv, hvc⟩ := mem_membersOf.mp hv
      obtain ⟨hv, hvq⟩ := (s.mem_owned q v).mp hv
      have := among_filter hd (fun w => decide (w.owner = p) && decide (w.bundle.map BundleRef.number = some b)) hv
      refine this.trans ?_
      have hvc' : v.bundle.map BundleRef.number = some c := hvc
      rw [hvq, hvc']
      rw [Bool.eq_iff_iff]
      simp only [Bool.and_eq_true, decide_eq_true_eq, Option.some.injEq]
      exact ⟨fun x => ⟨x.1.symm, x.2.symm⟩, fun x => ⟨x.1.symm, x.2.symm⟩⟩
    by_cases hx : p = q ∧ b = c
    · rw [if_pos hx]
      obtain ⟨rfl, rfl⟩ := hx
      refine ((hB p).bundles b).map hf (fun r => ⟨rfl, rfl⟩) (fun r _ v hv => ⟨fun e => (hst v).trans e, fun _ => ?_⟩)
      exact ha v (by rw [hm v hv]; simp)
    · rw [if_neg hx]
      have hid : (membersOf c (s.owned q)).map f = membersOf c (s.owned q) :=
        (List.map_congr_left (fun v hv => hn v (by rw [hm v hv]; simpa using hx))).trans (List.map_id _)
      rw [hid]
      exact (hB q).bundles c

/-- Changes that reach lanes and Tally Units only are read by no law of records. -/
theorem SameBooks.of_rest {s t : State} (hw : t.windows = s.windows) (hc : t.claimants = s.claimants) (hr : t.trigRefs = s.trigRefs)
    (hp : t.ports = s.ports) : SameBooks s t :=
  ⟨hw, hc, hr, fun p => by unfold State.port; rw [hp]; exact .refl _⟩

theorem ite_keeps {f : Window → Window} (hf : KeepsBookings f) (ht : ∀ w : Window, (f w).stop = w.stop ∧ (f w).state = w.state)
    (c : Window → Prop) [DecidablePred c] :
    KeepsBookings (fun w => if c w then f w else w) ∧
      ∀ w : Window, ((if c w then f w else w).stop = w.stop ∧ (if c w then f w else w).state = w.state) := by
  refine ⟨hf.ite c, fun w => ?_⟩
  split
  · exact ht w
  · exact ⟨rfl, rfl⟩

/-- A change of the run-time part in one slot keeps the laws of records. -/
theorem RecordLaws.updateWindow {s : State} {f : Window → Window} (h : RecordLaws s) (i : Slot) (hf : KeepsBookings f)
    (ht : ∀ w : Window, (f w).stop = w.stop ∧ (f w).state = w.state) : RecordLaws (s.updateWindow i f) :=
  h.mapRun rfl (ite_keeps hf ht _).1 (ite_keeps hf ht _).2 rfl rfl rfl

theorem RecordLaws.countEdge {s : State} (h : RecordLaws s) (k : Sense) (level : Level) : RecordLaws (s.countEdge k level) := by
  rcases s.countEdge_cases k level with e | ⟨i, w, _, _, _, e⟩ | ⟨i, w, _, _, _, _, e⟩ <;> rw [e]
  · exact h
  · exact (h.updateWindow i (fun w => w.countEdges_alike _ _) (fun w => w.countEdges_times _ _)).checkLimit i
  · exact (SameBooks.of_rest rfl rfl rfl rfl).recordLaws h

theorem RecordLaws.reportEdge {s : State} (h : RecordLaws s) (k : Sense) (level : Level) : RecordLaws (s.reportEdge k level) := by
  refine h.mapRun (f := fun w => if w.startsPulse k level then w.withPulse (s.pulseEndOf w) else w) rfl (fun w => ?_)
    (fun w => ?_) rfl rfl rfl
  · dsimp only
    split
    · exact w.withPulse_alike _
    · exact .refl w
  · split
    · exact w.withPulse_times _
    · exact ⟨rfl, rfl⟩

/-- What the taking of an edge is made of: the seen level, its count and its report in an order, and draws (08 R123, R129). -/
theorem takeEdge_phases (s : State) (k : Sense) (level : Level) : ∃ n, ∃ seen : State,
    seen = s.setTally k { s.tally k with seen := level } ∧
    (s.takeEdge k level = { (seen.reportEdge k level).countEdge k level with freeCount := n } ∨
      s.takeEdge k level = { (seen.countEdge k level).reportEdge k level with freeCount := n }) := by
  unfold State.takeEdge
  dsimp only
  split
  all_goals
    split
    · split
      · exact ⟨_, _, rfl, .inl rfl⟩
      · exact ⟨_, _, rfl, .inr rfl⟩
    · exact ⟨_, _, rfl, .inr rfl⟩

theorem RecordLaws.takeEdge {s : State} (h : RecordLaws s) (k : Sense) (level : Level) : RecordLaws (s.takeEdge k level) := by
  obtain ⟨n, seen, hs, e⟩ := takeEdge_phases s k level
  have hseen : RecordLaws seen := by rw [hs]; exact (SameBooks.of_rest rfl rfl rfl rfl).recordLaws h
  rcases e with e | e <;> rw [e]
  · exact (SameBooks.of_rest rfl rfl rfl rfl).recordLaws ((hseen.reportEdge k level).countEdge k level)
  · exact (SameBooks.of_rest rfl rfl rfl rfl).recordLaws ((hseen.countEdge k level).reportEdge k level)

/-- Everything a tick does: epoch, progress, lanes, and perhaps a draw (09 R139). -/
theorem takeTick_rest (s : State) :
    s.takeTick.windows = s.windows ∧ s.takeTick.claimants = s.claimants ∧ s.takeTick.trigRefs = s.trigRefs ∧
      s.takeTick.ports = s.ports ∧ s.takeTick.useCounts = s.useCounts ∧ s.takeTick.tallies = s.tallies ∧
      s.takeTick.epoch = epochPlus s.freeCount 16 s.epoch 1 ∧ s.takeTick.progress = 0 ∧ s.takeTick.divider = s.divider ∧
      s.takeTick.lanes =
        (State.refreshLanes { s with epoch := epochPlus s.freeCount 16 s.epoch 1, progress := 0 }).lanes ∧
      s.takeTick.pending = s.pending := by
  unfold State.takeTick State.refreshLanes State.draw
  dsimp only
  split
  all_goals exact ⟨rfl, rfl, rfl, rfl, rfl, rfl, rfl, rfl, rfl, rfl, rfl⟩

/-! ### Sessions, claims and resets -/

/-- OPEN on a port without a session keeps the laws of records (10 R148). -/
theorem RecordLaws.opens {s : State} {p : Port} {u : PortUnit} (h : RecordLaws s) (hi : (s.port p).inSession = false)
    (hu : u.sessionLawful = true) (hs : u.inSession = true) (hh : u.held = 0) (hb : ∀ b : BundleNo, u.bundles[b] = none)
    (hsum : s.quotasInUse + u.quota ≤ poolSize) : RecordLaws (s.setPort p u) := by
  obtain ⟨hn, _, hB⟩ := (recordLaws_iff s).mp h
  have hw := (hB p).rest hi
  refine (recordLaws_iff _).mpr ⟨hn, ?_, fun r => ?_⟩
  · have e := State.quotasInUse_change (s := s) (t := s.setPort p u) p
      (fun r hr => by rw [State.port_setPort, if_neg (fun x => hr x.symm)])
    rw [State.port_setPort, if_pos rfl, PortUnit.quota_of_rest (hB p).session hi] at e
    omega
  · by_cases e : p = r
    · subst e
      show Machine.Books _ _ _ _
      rw [State.port_setPort, if_pos rfl, State.owned_setPort, hw]
      refine ⟨hu, hh, by rw [hh]; exact Nat.zero_le _, fun k => ?_, fun b => ?_, fun hx => ?_⟩
      · rw [State.refs_setPort, show s.refs k p = _ from (hB p).refs k, hw]
      · rw [hb]; rfl
      · rw [hs] at hx; cases hx
    · refine SamePort.books (s := s) ⟨?_, rfl, fun _ => rfl, id⟩ (hB r)
      rw [State.port_setPort, if_neg e]

/-- What a CLOSE GRACEFUL does in OPEN: PENDING windows leave; the session ends, or is CLOSING (10 R151). -/
theorem closeGraceful_opened {s : State} {p : Port} (h : (s.port p).session = .opened) :
    (((s.leaveAll (s.pendingOf p)).port p).held = 0 ∧ (closeGraceful p s).1 = (s.leaveAll (s.pendingOf p)).sessionDown p) ∨
      (((s.leaveAll (s.pendingOf p)).port p).held ≠ 0 ∧ (closeGraceful p s).1 =
        (s.leaveAll (s.pendingOf p)).setPort p { (s.leaveAll (s.pendingOf p)).port p with session := .closing }) := by
  unfold closeGraceful
  rw [if_neg (by rw [h]; simp)]
  dsimp only
  by_cases e : ((s.leaveAll (s.pendingOf p)).port p).held = 0
  · exact .inl ⟨e, by rw [if_pos e]⟩
  · exact .inr ⟨e, by rw [if_neg e]⟩

theorem State.pendingOf_eq (s : State) (p : Port) :
    s.pendingOf p = s.windows.filter (fun w => decide (w.owner = p) && decide (w.state = .pending)) := filter_filter_and _ _ _

theorem RecordLaws.whole_pending {s : State} (h : RecordLaws s) (p : Port) :
    s.Whole (fun w => decide (w.owner = p) && decide (w.state = .pending)) := by
  intro v hv w hw e
  dsimp only
  rw [sameUnit_owner ((recordLaws_iff s).mp h).1 hv hw e, (h.mates hv hw e).2.2]

theorem session_leaveAll (s : State) (ws : List Window) (q : Port) : ((s.leaveAll ws).port q).session = (s.port q).session := by
  rw [port_leaveAll_eq]

theorem RecordLaws.closes {s : State} {p : Port} (h : RecordLaws s) (hs : (s.port p).session = .opened) :
    RecordLaws (closeGraceful p s).1 := by
  have hl : RecordLaws (s.leaveAll (s.pendingOf p)) := by
    rw [State.pendingOf_eq]
    exact h.leaveAll (h.whole_pending p)
  rcases closeGraceful_opened hs with ⟨h0, e⟩ | ⟨_, e⟩ <;> rw [e]
  · exact hl.sessionDown h0
  · obtain ⟨hn, _, hB⟩ := (recordLaws_iff _).mp hl
    have ho : ((s.leaveAll (s.pendingOf p)).port p).session = .opened := by rw [session_leaveAll]; exact hs
    refine recordLaws_onPort p hl hn (by rw [State.port_setPort, if_pos rfl]) ?_
      (fun q e => ⟨by rw [State.port_setPort, if_neg (fun x => e x.symm)], rfl, fun _ => rfl, id⟩)
    show Machine.Books _ _ _ _
    rw [State.port_setPort, if_pos rfl]
    have hb := hB p
    refine ⟨?_, hb.held, hb.quota, hb.refs, hb.bundles, fun hx => by simp [PortUnit.inSession] at hx⟩
    have := hb.session
    unfold PortUnit.sessionLawful PortUnit.inSession at this ⊢
    rw [ho] at this
    simpa using this

/-- A claim of a port with a session, or a release, keeps the laws of records (06 R92, R94). -/
theorem RecordLaws.setClaimant {s : State} {t : Track} {c : Option Port} (h : RecordLaws s)
    (hc : ∀ p, c = some p → (s.port p).inSession = true) : RecordLaws (s.setClaimant t c) := by
  obtain ⟨hn, hq, hB⟩ := (recordLaws_iff s).mp h
  refine (recordLaws_iff _).mpr ⟨hn, hq, fun p => ?_⟩
  have hb := hB p
  refine ⟨hb.session, hb.held, hb.quota, hb.refs, hb.bundles, fun hi hx => ?_⟩
  obtain ⟨x, hx⟩ := hx
  rw [State.claimant_setClaimant] at hx
  split at hx
  · exact absurd ((hc p hx).symm.trans hi) (by simp)
  · exact hb.claims hi ⟨x, hx⟩

theorem resets_port (s : State) (p : Port) : s.cleared.port p = { PortUnit.reset with resetHeld := (s.port p).resetHeld } := by
  unfold State.cleared
  simp [State.port]

theorem resets_refs (s : State) (k : Sense) (p : Port) : s.cleared.refs k p = 0 := by
  unfold State.cleared State.refs
  simp

theorem resets_claimant (s : State) (t : Track) : s.cleared.claimant t = none := by
  unfold State.cleared State.claimant
  simp

/-- A reset leaves the laws of records (01 R19). -/
theorem recordLaws_cleared (s : State) : RecordLaws s.cleared := by
  refine (recordLaws_iff _).mpr ⟨List.nodup_nil, ?_, fun p => ?_⟩
  · rw [State.quotasInUse_eq]
    simp only [resets_port]
    exact Nat.zero_le _
  · show Machine.Books _ _ _ _
    rw [resets_port]
    refine ⟨rfl, rfl, Nat.zero_le _, fun k => resets_refs s k p, fun b => ?_, fun _ hc => ?_⟩
    · show bundleOk (Vector.replicate 8 none)[b] b []
      rw [bundles_replicate_get]; rfl
    · obtain ⟨x, hx⟩ := hc
      rw [resets_claimant] at hx
      cases hx

/-! ### Steps -/

theorem State.startDue_spec {s : State} {t : Track} {w : Window} (h : s.startDue t = some w) :
    s.head t = some w ∧ w.state = .pending ∧ w.bundle = none ∧ w.start ≤ s.epoch := by
  unfold State.startDue at h
  obtain ⟨h1, h2⟩ := Option.filter_eq_some_iff.mp h
  simp only [Bool.and_eq_true, decide_eq_true_eq, Option.isNone_iff_eq_none] at h2
  exact ⟨h1, h2.1.1, h2.1.2, h2.2⟩

theorem State.endDue_spec {s : State} {t : Track} {w : Window} (h : s.endDue t = some w) :
    s.head t = some w ∧ w.state = .active ∧ w.bundle = none ∧ w.stop ≤ s.epoch := by
  unfold State.endDue at h
  obtain ⟨h1, h2⟩ := Option.filter_eq_some_iff.mp h
  obtain ⟨h1, h3⟩ := State.running_eq_some.mp h1
  simp only [Bool.and_eq_true, decide_eq_true_eq, Option.isNone_iff_eq_none] at h2
  exact ⟨h1, h3, h2.1, h2.2⟩

/-- The joint end of a bundle keeps the laws of records: its record goes before its members, and stays gone (04 R68). -/
theorem RecordLaws.endBundle {s : State} {p : Port} {b : BundleNo} (h : RecordLaws s) (hd : s.jointEndDue p b = true) :
    RecordLaws ((s.setBundle p b none).retire (fun _ => .complete) (s.members p b)) := by
  obtain ⟨hn, _, hB⟩ := (recordLaws_iff s).mp h
  have hmem : ∃ w, w ∈ s.members p b := by
    unfold State.jointEndDue at hd
    split at hd
    · next r hr =>
      have hb : bundleOk (s.bundle p b) b (membersOf b (s.owned p)) := (hB p).bundles b
      rw [hr, bundleOk_some] at hb
      obtain ⟨_, h1, _⟩ := (r.lawful_iff b _).mp hb
      rw [State.members_eq]
      exact List.exists_mem_of_length_pos h1
    · cases hd
  unfold State.retire
  dsimp only
  generalize hx : (s.setBundle p b none).postUnordered _ = x
  have hq : Quiet (s.setBundle p b none) x := by rw [← hx]; exact quiet_postUnordered _ _
  have hwh : s.Whole (fun w => decide (w.owner = p) && decide (w.bundle.map BundleRef.number = some b)) := by
    intro v hv w hw e
    rcases (sameUnit_iff hn hv hw).mp e with rfl | ⟨c, h1, h2, h3⟩
    · rfl
    · have h1 : v.bundle.map BundleRef.number = some c := h1
      have h2 : w.bundle.map BundleRef.number = some c := h2
      dsimp only
      rw [h1, h2, h3]
  have hl : RecordLaws (x.leaveAll (s.members p b)) := by
    refine leaveAll_recordLaws h hwh hq.windows hq.claimants hq.trigRefs (fun q => ?_) (fun q c => ?_)
    · have hpq := hq.port q
      have he : (s.setBundle p b none).port q = { s.port q with bundles := ((s.setBundle p b none).port q).bundles } := by
        unfold State.setBundle
        rw [State.port_setPort]
        split
        · next e => subst e; rfl
        · rfl
      rw [he] at hpq
      exact ⟨hpq.session, hpq.quota, hpq.held, rfl, hpq.lawful, hpq.queue⟩
    · rw [(hq.port q).bundles]
      have hset := State.bundle_setBundle s p q b c none
      unfold State.bundle at hset
      rw [hset]
      by_cases e : p = q ∧ b = c
      · obtain ⟨rfl, rfl⟩ := e
        obtain ⟨w, hw⟩ := hmem
        obtain ⟨h1, h2, h3⟩ := (s.mem_members p b w).mp hw
        refine .inr ⟨w, List.mem_filter.mpr ⟨(s.mem_owned p w).mpr ⟨h1, h2⟩, ?_⟩, h3⟩
        have h3 : w.bundle.map BundleRef.number = some b := h3
        simp [h2, h3]
      · rw [if_neg e]; exact .inl rfl
  split
  · exact hl
  · exact hl.endIfClosed

theorem displace_quota {s : State} (h : s.SlotsDistinct) (p : Port) (b : Booking) (priority : Fin 4) (tracks : List Track) {n : Nat}
    (hq : (s.port p).held + n ≤ (s.port p).quota) :
    ((s.displace p priority tracks b.start b.stop).port p).held + n ≤
      ((s.displace p priority tracks b.start b.stop).port p).quota := by
  rw [(displace_own h p priority tracks b.start b.stop).1]
  exact hq

theorem inSession_of_opened {u : PortUnit} (h : u.session = .opened) : u.inSession = true := by
  unfold PortUnit.inSession; rw [h]; rfl

/-- The state that a RESERVE_BUNDLE leaves (04 R64). -/
theorem reserveBundle_ok {s : State} {p : Port} {b : Booking} {ds : List Descriptor} {ms : List Member} {n : BundleNo}
    (hj : judgeBundle p b ds s = .ok (ms, n)) : (reserveBundle p b ds s).1 =
      (s.displace p ((ms.head?.map Member.priority).getD 0) (ms.map Member.track) b.start b.stop).bookedBundle p b ms n := by
  unfold reserveBundle
  rw [hj]
  rfl

theorem RecordLaws.booksBundle {s : State} {p : Port} {b : Booking} {ds : List Descriptor} {ms : List Member} {n : BundleNo}
    (h : RecordLaws s) (hs : (s.port p).session = .opened) (hj : judgeBundle p b ds s = .ok (ms, n)) :
    RecordLaws (reserveBundle p b ds s).1 := by
  have hn := ((recordLaws_iff s).mp h).1
  obtain ⟨h1, h8, hm, hf, _, _, _, _, hq, _⟩ := judgeBundle_ok hj
  obtain ⟨hmap, ht, _, _, hl⟩ := judgeMembers_ok ds 0 [] ms hm
  have hlen : ms.length = ds.length := by simpa using (congrArg List.length hmap).symm
  rw [reserveBundle_ok hj]
  have hown := (displace_own hn p ((ms.head?.map Member.priority).getD 0) (ms.map Member.track) b.start b.stop).1
  refine (h.displace p _ _ b.start b.stop).bookBundle ?_ (displace_quota hn p b _ _ hq) ?_ ?_ (by omega) ht hl
  · rw [hown]; exact inSession_of_opened hs
  · rw [hown]; exact PortUnit.freeBundle_none hf
  · have : 0 < ds.length := List.length_pos_iff.mpr h1
    omega

/-- Every operation keeps the laws of records. -/
theorem Op.recordLaws {s t : State} (o : Op s t) (h : RecordLaws s) : RecordLaws t := by
  have hn := ((recordLaws_iff s).mp h).1
  cases o with
  | none => exact h
  | opens p q l hs hq hl hl' hsum =>
    refine h.opens hs ?_ rfl rfl bundles_replicate_get hsum
    have : q ≤ poolSize := by omega
    simp [PortUnit.sessionLawful, PortUnit.inSession, hq, hl, hl', this]
  | closes p hs => exact h.closes hs
  | closesAbruptly p hs => exact h.teardown.sessionDown (held_teardown s p)
  | lapses p cause hs => exact h.lapse
  | claims p x hs hf hh => exact h.setClaimant (fun q e => by cases e; exact inSession_of_opened hs)
  | releases p x hc => exact h.setClaimant (fun q e => by cases e)
  | books p b d m i hs hj hi =>
    obtain ⟨_, _, _, _, _, hq, _⟩ := judgeReserve_ok hj
    refine (h.displace p m.priority [m.track] b.start b.stop).bookOne ?_ (displace_quota hn p b _ _ hq) (List.mem_of_mem_head? hi)
    rw [(displace_own hn p m.priority [m.track] b.start b.stop).1]
    exact inSession_of_opened hs
  | booksBundle p b ds ms n hs hj => exact h.booksBundle hs hj
  | removes w hs hw hp => exact h.leaveAll (State.whole_unit hn hw)
  | flushes p target hs =>
    exact h.leaveAll (State.whole_units hn (fun w hw => (List.mem_filter.mp hw).1))
  | cancels w hw ha => exact h.retireUnit hw _
  | amends w e hs hw hr =>
    obtain ⟨_, hls⟩ := State.refreshLanesOf_spec (s.unitOf w) (s.setStops (s.unitOf w) e)
    rw [hls]
    exact (SameBooks.of_rest rfl rfl rfl rfl).recordLaws (h.setStops (State.whole_unit hn hw) e)
  | starts x w hd =>
    obtain ⟨hh, _, hb, _⟩ := State.startDue_spec hd
    exact h.startOne (State.head_mem hh).1 hb
  | ends x w hd =>
    obtain ⟨hh, _, hb, _⟩ := State.endDue_spec hd
    have hw := (State.head_mem hh).1
    have := h.retireUnit hw (fun _ => .complete)
    rwa [State.unitOf_unbundled hn hw hb] at this
  | startsTogether p b hd => exact h.startBundle
  | endsTogether p b hd => exact h.endBundle hd
  | endsPulse l w hd =>
    exact (SameBooks.of_rest rfl rfl rfl rfl).recordLaws
      (h.updateWindow w.slot (fun v => v.endPulse_alike) (fun v => v.endPulse_times))
  | edge k level => exact h.takeEdge k level
  | tick hc hd =>
    obtain ⟨h1, h2, h3, h4, _⟩ := takeTick_rest s
    exact (SameBooks.of_rest h1 h2 h3 h4).recordLaws h
  | resets held d f seen => exact SameBooks.recordLaws (s := s.cleared) (.of_rest rfl rfl rfl rfl) (recordLaws_cleared s)

theorem Does.recordLaws {s t : State} (d : Does s t) (h : RecordLaws s) : RecordLaws t := by
  obtain ⟨u, v, hu, ho, hv⟩ := d
  exact hv.sameBooks.recordLaws (ho.recordLaws (hu.sameBooks.recordLaws h))

/-- Settles O59: no law of records reads the waiting commands or the free-value counter, and every operation keeps them. -/
theorem stepsKeepTheRecordLaws : Obligations.StepsKeepTheRecordLaws := by
  intro s t h hs
  obtain ⟨rest, n, d⟩ := step_does hs
  exact d.recordLaws (s := { s with pending := rest, freeCount := n }) h

end Sys2Proof.Machine
end

