-- ==== Sys2Proof/Proofs/Commands.lean ====
section
/-! PROOFS. What commands leave alone, resets, and handles. -/

namespace Sys2Proof.Machine

/-! ### Timebase and waiting commands -/

theorem SameTimebase.refl (s : State) : SameTimebase s s := ⟨rfl, rfl, rfl, rfl, rfl, rfl⟩

theorem SameTimebase.trans {s t u : State} (h : SameTimebase s t) (h' : SameTimebase t u) : SameTimebase s u := by
  obtain ⟨a1, a2, a3, a4, a5, a6⟩ := h
  obtain ⟨b1, b2, b3, b4, b5, b6⟩ := h'
  exact ⟨b1.trans a1, b2.trans a2, b3.trans a3, b4.trans a4, b5.trans a5, b6.trans a6⟩

/-- An operation repeated over a list keeps the timebase where it keeps it once. -/
theorem SameTimebase.foldl {α : Type} {g : State → α → State} (hg : ∀ s a, SameTimebase s (g s a)) (l : List α) :
    ∀ s, SameTimebase s (l.foldl g s) := by
  induction l with
  | nil => exact SameTimebase.refl
  | cons a l ih => exact fun s => (hg s a).trans (ih _)

theorem timebase_leaveAll (s : State) (ws : List Window) : SameTimebase s (s.leaveAll ws) := by
  obtain ⟨_, _, _, _, h⟩ := State.leaveAll_spec ws s
  rw [h]
  exact ⟨rfl, rfl, rfl, rfl, rfl, rfl⟩

theorem timebase_postUnordered (s : State) (rs : List (Port × EventRecord)) : SameTimebase s (s.postUnordered rs) := by
  obtain ⟨_, _, _, h⟩ := s.postUnordered_spec rs
  rw [h]
  exact ⟨rfl, rfl, rfl, rfl, rfl, rfl⟩

theorem timebase_sessionDown (s : State) (p : Port) : SameTimebase s (s.sessionDown p) := by
  rw [State.sessionDown_eq]
  exact ⟨rfl, rfl, rfl, rfl, rfl, rfl⟩

theorem timebase_teardown (s : State) (p : Port) : SameTimebase s (s.teardown p) := by
  obtain ⟨_, _, h⟩ := s.teardown_spec p
  rw [h]
  exact ⟨rfl, rfl, rfl, rfl, rfl, rfl⟩

theorem timebase_endIfClosed (s : State) (p : Port) : SameTimebase s (s.endIfClosed p) := by
  rcases s.endIfClosed_cases p with ⟨_, _, e⟩ | ⟨_, e⟩ <;> rw [e]
  · exact timebase_sessionDown s p
  · exact .refl s

theorem timebase_retire (s : State) (reason : Window → Reason) (ws : List Window) : SameTimebase s (s.retire reason ws) := by
  have h := (timebase_postUnordered s (ws.filterMap (fun w => endingRecord s.epoch (reason w) w))).trans (timebase_leaveAll _ ws)
  cases ws with
  | nil => exact h
  | cons w ws => exact h.trans (timebase_endIfClosed _ w.owner)

theorem timebase_checkLimit (s : State) (i : Slot) : SameTimebase s (s.checkLimit i) := by
  rcases s.checkLimit_cases i with e | ⟨w, _, _, e⟩ <;> rw [e]
  · exact .refl s
  · exact timebase_retire _ _ _

theorem timebase_handOver (s : State) (w : Window) : SameTimebase s (s.handOver w) := by
  obtain ⟨_, _, _, h⟩ := s.handOver_spec w
  rw [h]
  exact ⟨rfl, rfl, rfl, rfl, rfl, rfl⟩

theorem timebase_startAll (s : State) (ws : List Window) : SameTimebase s (s.startAll ws) :=
  ((SameTimebase.foldl timebase_handOver ws s).trans (timebase_postUnordered _ _)).trans
    (SameTimebase.foldl (fun t w => timebase_checkLimit t w.slot) ws _)

theorem timebase_setStops (s : State) (ws : List Window) (stop : Epoch) : SameTimebase s (s.setStops ws stop) := by
  obtain ⟨_, h⟩ := s.setStops_spec ws stop
  rw [h]
  exact ⟨rfl, rfl, rfl, rfl, rfl, rfl⟩

theorem timebase_refreshLanesOf (s : State) (ws : List Window) : SameTimebase s (s.refreshLanesOf ws) := by
  obtain ⟨_, h⟩ := State.refreshLanesOf_spec ws s
  rw [h]
  exact ⟨rfl, rfl, rfl, rfl, rfl, rfl⟩

theorem timebase_displace (s : State) (p : Port) (priority : Fin 4) (tracks : List Track) (start stop : Epoch) :
    SameTimebase s (s.displace p priority tracks start stop) :=
  ((timebase_postUnordered _ _).trans (timebase_leaveAll _ _)).trans (timebase_setStops _ _ _)

theorem timebase_insertWindow (s : State) (w : Window) : SameTimebase s (s.insertWindow w) := by
  rw [State.insertWindow_eq]
  exact ⟨rfl, rfl, rfl, rfl, rfl, rfl⟩

theorem timebase_countEdge (s : State) (k : Sense) (level : Level) : SameTimebase s (s.countEdge k level) := by
  rcases s.countEdge_cases k level with e | ⟨i, w, _, _, _, e⟩ | ⟨i, w, _, _, _, _, e⟩ <;> rw [e]
  · exact .refl s
  · exact SameTimebase.trans (t := s.updateWindow i (fun v => v.countEdges s.epoch 1)) ⟨rfl, rfl, rfl, rfl, rfl, rfl⟩
      (timebase_checkLimit _ i)
  · exact ⟨rfl, rfl, rfl, rfl, rfl, rfl⟩

theorem reportEdge_eq (s : State) (k : Sense) (level : Level) : s.reportEdge k level = { s with
    windows := s.windows.map (fun w => if w.startsPulse k level then w.withPulse (s.pulseEndOf w) else w)
    lanes := (s.reportEdge k level).lanes } := rfl

theorem timebase_reportEdge (s : State) (k : Sense) (level : Level) : SameTimebase s (s.reportEdge k level) := by
  rw [reportEdge_eq]
  exact ⟨rfl, rfl, rfl, rfl, rfl, rfl⟩

theorem timebase_takeEdge (s : State) (k : Sense) (level : Level) : SameTimebase s (s.takeEdge k level) := by
  obtain ⟨n, seen, hs, e⟩ := takeEdge_phases s k level
  have h0 : SameTimebase s seen := by rw [hs]; exact ⟨rfl, rfl, rfl, rfl, rfl, rfl⟩
  rcases e with e | e <;> rw [e]
  · exact h0.trans ((timebase_reportEdge seen k level).trans (timebase_countEdge _ k level))
  · exact h0.trans ((timebase_countEdge seen k level).trans (timebase_reportEdge _ k level))

theorem timebase_closeGraceful {s : State} {p : Port} (hs : (s.port p).session = .opened) :
    SameTimebase s (closeGraceful p s).1 := by
  have hl := timebase_leaveAll s (s.pendingOf p)
  rcases closeGraceful_opened hs with ⟨_, e⟩ | ⟨_, e⟩ <;> rw [e]
  · exact hl.trans (timebase_sessionDown _ p)
  · exact hl

theorem timebase_lapse (s : State) (p : Port) (cause : LapseCause) : SameTimebase s (s.lapse p cause) := by
  obtain ⟨_, _, h⟩ := s.lapse_spec p cause
  rw [h]
  exact ⟨rfl, rfl, rfl, rfl, rfl, rfl⟩

/-- Only a tick and RESETn move the timebase, and nothing touches the waiting commands (09 R139). -/
theorem Op.timebase {s t : State} (o : Op s t) :
    SameTimebase s t ∨ (s.tickCompletes = true ∧ s.dueCommands = [] ∧ t = s.takeTick) ∨
      (∃ (held : Bool) (d : Divider) (f : FreezeState) (seen : Sense → Level), t = { s.cleared with
        resetHeld := held, divider := d, freeze := f, tallies := Vector.ofFn (fun k => { TallyUnit.reset with seen := seen k }) }) := by
  cases o with
  | tick hc hd => exact .inr (.inl ⟨hc, hd, rfl⟩)
  | resets held d f seen => exact .inr (.inr ⟨held, d, f, seen, rfl⟩)
  | none => exact .inl (.refl s)
  | opens p q l => exact .inl ⟨rfl, rfl, rfl, rfl, rfl, rfl⟩
  | closes p hs => exact .inl (timebase_closeGraceful hs)
  | closesAbruptly p => exact .inl ((timebase_teardown s p).trans (timebase_sessionDown _ p))
  | lapses p cause => exact .inl (timebase_lapse s p cause)
  | claims p x => exact .inl ⟨rfl, rfl, rfl, rfl, rfl, rfl⟩
  | releases p x => exact .inl ⟨rfl, rfl, rfl, rfl, rfl, rfl⟩
  | books p b d m i => exact .inl ((timebase_displace s p m.priority [m.track] b.start b.stop).trans (timebase_insertWindow _ _))
  | booksBundle p b ds ms n hs hj =>
    rw [reserveBundle_ok hj]
    exact .inl ((timebase_displace s p _ _ b.start b.stop).trans (SameTimebase.foldl timebase_insertWindow _ _))
  | removes w => exact .inl (timebase_leaveAll s _)
  | flushes p target => exact .inl (timebase_leaveAll s _)
  | cancels w => exact .inl (timebase_retire s _ _)
  | amends w e => exact .inl ((timebase_setStops s _ e).trans (timebase_refreshLanesOf _ _))
  | starts x w => exact .inl (timebase_startAll s _)
  | ends x w => exact .inl (timebase_retire s _ _)
  | startsTogether p b => exact .inl (timebase_startAll (s.setBundle p b _) _)
  | endsTogether p b => exact .inl (timebase_retire (s.setBundle p b Option.none) _ _)
  | endsPulse l w => exact .inl ⟨rfl, rfl, rfl, rfl, rfl, rfl⟩
  | edge k level => exact .inl (timebase_takeEdge s k level)

theorem Op.pending {s t : State} (o : Op s t) : t.pending = s.pending := by
  rcases o.timebase with ⟨_, _, _, _, _, h⟩ | ⟨_, _, rfl⟩ | ⟨held, d, f, seen, rfl⟩
  · exact h
  · obtain ⟨_, _, _, _, _, _, _, _, _, _, h⟩ := takeTick_rest s
    exact h
  · rfl

/-- Settles O1: the step's own first case. -/
theorem stepTakesTheFrontCommand : Obligations.StepTakesTheFrontCommand := by
  intro c rest s
  unfold step
  rfl

/-- Settles O2: a command is at most one operation between quiet changes, none of which touches the waiting commands. -/
theorem everyCommandAnswersANextState : Obligations.EveryCommandAnswersANextState := by
  intro c s
  obtain ⟨t, ht, u, v, hu, ho, hv⟩ := exec_does c s
  exact ⟨t, ht, hv.pending.trans (ho.pending.trans hu.pending)⟩

/-! ### RESETn -/

/-- The tick divider that the straps choose (09 R138). -/
theorem dividerOfStraps_periods (a b : Level) :
    (dividerOfStraps a b).periods = (if a = .high then 4 else 1) * (if b = .high then 2 else 1) := by
  cases a <;> cases b <;> rfl

theorem cleared_lane (s : State) (l : Lane) : s.cleared.lane l = LaneDriver.reset := by
  unfold State.cleared State.lane
  simp

theorem cleared_tally (s : State) (k : Sense) : s.cleared.tally k = { TallyUnit.reset with seen := (s.tally k).seen } := by
  unfold State.cleared State.tally
  simp

theorem cleared_useCount (s : State) (i : Slot) : s.cleared.useCount i = 0 := by
  unfold State.cleared State.useCount
  simp

theorem cleared_attention (s : State) (p : Port) : s.cleared.attention p = false := by
  unfold State.attention
  rw [resets_port]
  rfl

/-- Settles O42: both rows leave the state cleared; the release takes the pins. -/
theorem fullResetClearsThePart : Obligations.FullResetClearsThePart := by
  intro tdiv1 tdiv0 freeze sense s
  refine ⟨⟨_, rfl, ⟨rfl, cleared_useCount s, resets_claimant s, resets_refs s, fun l => ⟨cleared_lane s l, rfl⟩,
    fun k => ?_, rfl, rfl, rfl, fun p => ⟨cleared_attention s p, resets_port s p⟩⟩, rfl⟩, fun hr => ?_⟩
  · have h := cleared_tally s k
    exact ⟨congrArg TallyUnit.counting h, congrArg TallyUnit.hold h, congrArg TallyUnit.carried h⟩
  · have he : exec (.resetnRelease tdiv1 tdiv0 freeze sense) s = .next { s.cleared with
        resetHeld := false
        divider := dividerOfStraps tdiv1 tdiv0
        freeze := if freeze = .high then .held else .running
        tallies := Vector.ofFn (fun k => { TallyUnit.reset with seen := levelOf (sense.getLsbD k.val) }) } := by
      show execResetnRelease tdiv1 tdiv0 freeze sense s = _
      unfold execResetnRelease
      rw [if_pos hr]
    refine ⟨_, he, ⟨rfl, cleared_useCount s, resets_claimant s, resets_refs s, fun l => ⟨cleared_lane s l, ?_⟩, fun k => ?_,
      rfl, rfl, rfl, fun p => ⟨cleared_attention s p, resets_port s p⟩⟩, rfl, dividerOfStraps_periods tdiv1 tdiv0, rfl, fun k => ?_⟩
    · unfold State.lanePin
      rw [if_neg Bool.false_ne_true]
      exact congrArg LaneDriver.pin (cleared_lane s l)
    · unfold State.tally
      dsimp only
      rw [vector_ofFn_get]
      exact ⟨rfl, rfl, rfl⟩
    · unfold State.tally
      dsimp only
      rw [vector_ofFn_get]
      rfl

/-! ### Handles -/

/-- A handle as a number: 256 times the use count, and the slot (01 R8). -/
theorem Window.handle_toNat (w : Window) : w.handle.toNat = 256 * w.useCount.toNat + w.slot.val := by
  unfold Window.handle
  have := w.slot.isLt
  rw [BitVec.toNat_append, BitVec.toNat_ofNat, Nat.mod_eq_of_lt (by omega : w.slot.val < 2 ^ 8),
    ← Nat.shiftLeft_add_eq_or_of_lt (by omega : w.slot.val < 2 ^ 8), Nat.shiftLeft_eq]
  omega

/-- A handle names a window exactly where the two are the window's own (01 R9). -/
theorem handle_parts (h : Handle) :
    h.toNat = 256 * (h.extractLsb' 8 8).toNat + (h.extractLsb' 0 8).toNat := by
  simp only [BitVec.extractLsb'_toNat, Nat.shiftRight_eq_div_pow]
  have := h.isLt
  omega

theorem Window.handle_low (w : Window) : (w.handle.extractLsb' 0 8).toNat = w.slot.val := by
  have := w.slot.isLt
  simp only [BitVec.extractLsb'_toNat, Nat.shiftRight_zero, w.handle_toNat]
  omega

theorem Window.handle_high (w : Window) : w.handle.extractLsb' 8 8 = w.useCount := by
  have := w.slot.isLt
  have := w.useCount.isLt
  apply BitVec.eq_of_toNat_eq
  simp only [BitVec.extractLsb'_toNat, Nat.shiftRight_eq_div_pow, w.handle_toNat]
  omega

/-- In a lawful part the window in a slot is the one that stands there. -/
theorem State.windowAt_eq {s : State} (h : s.SlotsDistinct) {w : Window} (hw : w ∈ s.windows) : s.windowAt w.slot = some w := by
  unfold State.windowAt
  cases hf : s.windows.find? (fun v => decide (v.slot = w.slot)) with
  | none => exact absurd (decide_eq_true rfl) (List.find?_eq_none.mp hf w hw)
  | some v => rw [h.inj (List.mem_of_find?_eq_some hf) hw (by simpa using List.find?_some hf)]

/-- The handle of a window resolves for its owner to the window (01 R9). -/
theorem State.resolve_handle {s : State} (h : s.SlotsDistinct) {w : Window} (hw : w ∈ s.windows)
    (hu : w.useCount = s.useCount w.slot) : s.resolve w.owner w.handle = some w := by
  unfold State.resolve
  have hlt : (w.handle.extractLsb' 0 8).toNat < 192 := by rw [w.handle_low]; exact w.slot.isLt
  have hi : (⟨(w.handle.extractLsb' 0 8).toNat, hlt⟩ : Slot) = w.slot := Fin.ext w.handle_low
  rw [dif_pos hlt]
  dsimp only
  rw [hi, State.windowAt_eq h hw, w.handle_high, hu]
  simp

/-- A handle that is no window's resolves to none (01 R9). -/
theorem State.resolve_none {s : State} {p : Port} {h : Handle} (hu : ∀ w ∈ s.windows, w.useCount = s.useCount w.slot)
    (hn : ∀ w ∈ s.windows, w.owner = p → h.toNat ≠ 256 * w.useCount.toNat + w.slot.val) : s.resolve p h = none := by
  cases hr : s.resolve p h with
  | none => rfl
  | some w =>
    obtain ⟨hw, ho⟩ := State.resolve_spec hr
    refine absurd ?_ (hn w hw ho)
    unfold State.resolve at hr
    split at hr
    · obtain ⟨hwa, hc⟩ := Option.filter_eq_some_iff.mp hr
      obtain ⟨_, hs⟩ := State.windowAt_mem hwa
      simp only [Bool.and_eq_true, decide_eq_true_eq] at hc
      rw [handle_parts h, hc.1, hu w hw, hs]
    · cases hr

theorem resolve_taken (s : State) (p : Port) (seq : Seq) (r : Request) (h : Handle) :
    (s.taken p seq r).resolve p h = s.resolve p h := rfl

theorem sessionGate_of_opened {n : RequestName} (h : n ≠ .openSession) : sessionGate n .opened = none := by
  cases n <;> first | rfl | exact absurd rfl h

/-- QUERY_WINDOW passes its gate with a session OPEN or CLOSING (10 R146). -/
theorem sessionGate_queryWindow {u : PortUnit} (h : u.inSession = true) : sessionGate .queryWindow u.session = none := by
  unfold PortUnit.inSession at h
  revert h
  cases u.session <;> simp [sessionGate]

/-- Settles O35: no window resolves, so each of the three rows answers from its first line. -/
theorem unresolvedHandlesNameNoWindow : Obligations.UnresolvedHandlesNameNoWindow := by
  intro p seq h newEnd s hl hn
  obtain ⟨_, _, _, _, _, _, hw, _, _⟩ := hl
  have hr : s.resolve p h = none := by
    refine State.resolve_none (fun w hwm => ?_) hn
    obtain ⟨_, _, _, hu, _⟩ := hw w hwm
    exact hu
  refine ⟨fun hf hs => ?_, fun hf hs => ?_, fun hf hs => ?_⟩
  · refine (exec_rowOf p seq (.cancel h) s).trans (congrArg _ (requestCommand_unchanged hf ?_ ?_))
    · rw [hs]; exact sessionGate_of_opened (by simp [requestName])
    · show cancel p h _ = _
      unfold cancel
      rw [resolve_taken, hr]
      rfl
  · refine (exec_rowOf p seq (.amendEnd h newEnd) s).trans (congrArg _ (requestCommand_unchanged hf ?_ ?_))
    · rw [hs]; exact sessionGate_of_opened (by simp [requestName])
    · show amendEnd p h newEnd _ = _
      unfold amendEnd
      rw [resolve_taken, hr]
      rfl
  · refine (exec_rowOf p seq (.queryWindow h) s).trans (congrArg _ (requestCommand_unchanged hf ?_ ?_))
    · exact sessionGate_queryWindow hs
    · show queryWindow p h _ = _
      unfold queryWindow
      rw [resolve_taken, hr]
      rfl

/-- In a lawful part a window's handle resolves for its owner. -/
theorem Lawful.resolve {s : State} (h : Lawful s) {w : Window} (hw : w ∈ s.windows) : s.resolve w.owner w.handle = some w := by
  obtain ⟨_, _, ⟨_, ⟨hn, _⟩, _⟩, _, _, _, hl, _, _⟩ := h
  obtain ⟨_, _, _, hu, _⟩ := hl w hw
  exact State.resolve_handle hn hw hu

/-- Settles O36: the handle resolves to the window, whose fields are the report. -/
theorem windowsAreReported : Obligations.WindowsAreReported := by
  intro p seq w s hl hf hs hw ho
  subst ho
  refine (exec_rowOf w.owner seq (.queryWindow w.handle) s).trans (congrArg _ (requestCommand_unchanged hf ?_ ?_))
  · exact sessionGate_queryWindow hs
  · show queryWindow w.owner w.handle _ = _
    unfold queryWindow
    rw [resolve_taken, hl.resolve hw]
    rfl

end Sys2Proof.Machine
end

