-- ==== Sys2Proof/Proofs/Lists.lean ====
section
/-! PROOFS. The laws of track lists: heads, lanes and Tally Units, and what they become when windows leave. -/

namespace Sys2Proof.Machine

/-! ### Track lists -/

/-- Start, end and state of a window against the epoch (01 R2, R12 to R14). -/
structure Window.Timely (w : Window) (epoch : Epoch) : Prop where
  length : w.start < w.stop
  pending : w.state = .pending → epoch ≤ w.start
  active : w.state = .active → w.start ≤ epoch ∧ epoch ≤ w.stop

/-- The laws that tie track lists, lanes and Tally Units to the epoch (01 R2, R3, 07 R105, R106, 08 R122). -/
structure Lists (s : State) : Prop where
  slots : s.SlotsDistinct
  track : TrackLaw s
  times : ∀ w ∈ s.windows, w.Timely s.epoch
  lanes : LaneLaw s
  tallies : TallyLaw s

theorem Window.active_of_not_pending {w : Window} (h : w.state ≠ .pending) : w.state = .active := by
  revert h
  cases w.state <;> simp

theorem State.trackList_sublist (s : State) (x : Track) : (s.trackList x).Sublist s.windows := List.filter_sublist

/-- The head of a track and what stands behind it: nothing earlier, nothing ACTIVE (01 R2, R3). -/
theorem TrackLaw.head {s : State} (h : TrackLaw s) {x : Track} {hd w : Window} (hh : s.head x = some hd)
    (hw : w ∈ s.trackList x) (hne : w ≠ hd) : hd.stop ≤ w.start ∧ w.state = .pending := by
  obtain ⟨hp, ht⟩ := h.2 x
  unfold State.head at hh
  cases hl : s.trackList x with
  | nil => rw [hl] at hh; cases hh
  | cons a l =>
    rw [hl] at hh hp ht hw
    obtain rfl := Option.some.inj hh
    have hwl : w ∈ l := (List.mem_cons.mp hw).resolve_left hne
    exact ⟨(List.pairwise_cons.mp hp).1 w hwl, ht w hwl⟩

/-- A track with a window has a head. -/
theorem State.exists_head {s : State} {x : Track} {w : Window} (hw : w ∈ s.trackList x) : ∃ hd, s.head x = some hd := by
  unfold State.head
  cases hl : s.trackList x with
  | nil => rw [hl] at hw; cases hw
  | cons a l => exact ⟨a, rfl⟩

/-- An ACTIVE window is the head of its track, which runs it (01 R3). -/
theorem TrackLaw.active_head {s : State} (h : TrackLaw s) {x : Track} {w : Window} (hw : w ∈ s.trackList x)
    (ha : w.state = .active) : s.head x = some w := by
  obtain ⟨hd, hh⟩ := State.exists_head hw
  by_cases e : w = hd
  · rw [hh, e]
  · have := (h.head hh hw e).2
    rw [ha] at this
    cases this

theorem TrackLaw.active_running {s : State} (h : TrackLaw s) {x : Track} {w : Window} (hw : w ∈ s.trackList x)
    (ha : w.state = .active) : s.running x = some w := State.running_eq_some.mpr ⟨h.active_head hw ha, ha⟩

theorem State.running_mem {s : State} {x : Track} {w : Window} (h : s.running x = some w) :
    w ∈ s.trackList x ∧ w.state = .active := by
  obtain ⟨hh, ha⟩ := State.running_eq_some.mp h
  exact ⟨List.mem_of_mem_head? hh, ha⟩

/-- A head that waits is all that a track without an ACTIVE window can have. -/
theorem State.running_eq_none {s : State} {x : Track} : s.running x = none ↔ ∀ h, s.head x = some h → h.state = .pending := by
  constructor
  · intro hr h hh
    by_contra hc
    rw [State.running_eq_some.mpr ⟨hh, Window.active_of_not_pending hc⟩] at hr
    cases hr
  · intro hp
    by_contra hc
    obtain ⟨w, hw⟩ := Option.ne_none_iff_exists'.mp hc
    obtain ⟨hh, ha⟩ := State.running_eq_some.mp hw
    rw [hp w hh] at ha
    cases ha

/-- Behind a head that waits nothing starts at this epoch value: the head would have ended by then. -/
theorem Lists.active_of_behind {s : State} (h : Lists s) {x : Track} {hd w : Window} (hh : s.head x = some hd)
    (hw : w ∈ s.trackList x) (hne : w ≠ hd) (hs : w.start ≤ s.epoch) : hd.state = .active := by
  by_contra hc
  obtain ⟨hm, _⟩ := State.head_mem hh
  have ht := h.times hd hm
  have hp : hd.state = .pending := by
    by_contra hx
    exact hc (Window.active_of_not_pending hx)
  have h1 := ht.pending hp
  have h2 := ht.length
  have h3 := (h.track.head hh hw hne).1
  rw [BitVec.le_def] at hs h1 h3
  rw [BitVec.lt_def] at h2
  omega

/-- The first in order is the head (01 R2). -/
theorem State.head_of_first {s : State} {x : Track} {w : Window} (hp : (s.trackList x).Pairwise (fun v u => v.stop ≤ u.start))
    (hl : ∀ v ∈ s.trackList x, v.start < v.stop) (hw : w ∈ s.trackList x)
    (hf : ∀ v ∈ s.trackList x, v ≠ w → w.stop ≤ v.start) : s.head x = some w := by
  unfold State.head
  cases hlist : s.trackList x with
  | nil => rw [hlist] at hw; cases hw
  | cons hd l =>
    rw [hlist] at hp hl hw hf
    by_cases e : w = hd
    · rw [List.head?_cons, e]
    · have h1 := (List.pairwise_cons.mp hp).1 w ((List.mem_cons.mp hw).resolve_left e)
      have h2 := hf hd List.mem_cons_self (fun x => e x.symm)
      have h3 := hl hd List.mem_cons_self
      have h4 := hl w hw
      rw [BitVec.le_def] at h1 h2
      rw [BitVec.lt_def] at h3 h4
      omega

theorem Lists.head_of_first {s : State} (h : Lists s) {x : Track} {w : Window} (hw : w ∈ s.trackList x)
    (hf : ∀ v ∈ s.trackList x, v ≠ w → w.stop ≤ v.start) : s.head x = some w :=
  State.head_of_first (h.track.2 x).1 (fun v hv => (h.times v ((s.mem_trackList x v).mp hv).1).length) hw hf

/-! ### Lanes -/

/-- A track is busy where a window of it is ACTIVE or starts at this epoch value (07 R114). -/
def State.Busy (s : State) (x : Track) : Prop := ∃ w ∈ s.trackList x, w.state = .active ∨ w.start = s.epoch

/-- A lane settles into what it was where its track is busy, else into IDLE (07 R105, R114). -/
theorem Lists.settledLane_of_busy {s : State} (h : Lists s) {l : Lane} (hb : s.Busy (laneTrack l)) (base : LaneDriver) :
    s.settledLane base l = base := by
  obtain ⟨w, hw, hc⟩ := hb
  obtain ⟨hd, hh⟩ := State.exists_head hw
  unfold State.settledLane
  rw [hh]
  refine if_pos ?_
  by_cases e : w = hd
  · rw [← e]; exact hc
  · rcases hc with ha | hs
    · rw [(h.track.head hh hw e).2] at ha
      cases ha
    · exact .inl (h.active_of_behind hh hw e (by rw [hs]; exact BitVec.le_refl _))

theorem State.settledLane_of_not_busy {s : State} {l : Lane} (hb : ¬ s.Busy (laneTrack l)) (base : LaneDriver) :
    s.settledLane base l = { base with drive := .idle } := by
  unfold State.settledLane
  split
  · next hd hh => exact if_neg (fun hc => hb ⟨hd, List.mem_of_mem_head? hh, hc⟩)
  · rfl

/-- In a lawful part every lane is settled (07 R105). -/
theorem Lists.settledLane_self {s : State} (h : Lists s) (l : Lane) : s.settledLane (s.lane l) l = s.lane l := by
  by_cases hb : s.Busy (laneTrack l)
  · exact h.settledLane_of_busy hb _
  · rw [State.settledLane_of_not_busy hb]
    have hl := h.lanes l
    unfold State.laneLawful at hl
    split at hl
    · next w hw =>
      obtain ⟨hm, ha⟩ := State.running_mem hw
      exact absurd ⟨w, hm, .inl ha⟩ hb
    · rw [Bool.or_eq_true, decide_eq_true_eq] at hl
      rcases hl with hl | hl
      · exfalso
        rw [Option.any_eq_true] at hl
        obtain ⟨w, hh, hs⟩ := hl
        exact hb ⟨w, List.mem_of_mem_head? hh, .inr (by simpa using hs)⟩
      · rw [← hl]

theorem State.settledLane_idem {s : State} (l : Lane) (base : LaneDriver) :
    s.settledLane (s.settledLane base l) l = s.settledLane base l := by
  unfold State.settledLane
  cases s.head (laneTrack l) with
  | none => rfl
  | some h =>
    dsimp only
    by_cases e : h.state = .active ∨ h.start = s.epoch
    · rw [if_pos e, if_pos e]
    · rw [if_neg e, if_neg e]

theorem settledLane_congr {s t : State} {l : Lane} (hh : t.head (laneTrack l) = s.head (laneTrack l)) (he : t.epoch = s.epoch)
    (base : LaneDriver) : t.settledLane base l = s.settledLane base l := by
  unfold State.settledLane
  rw [hh, he]

theorem lane_settleLane (s : State) (l m : Lane) :
    (s.settleLane l).lane m = if l = m then s.settledLane (s.lane l) l else s.lane m := by
  unfold State.settleLane State.settledLane
  cases s.head (laneTrack l) with
  | none => exact State.lane_setDrive s l m .idle
  | some h =>
    dsimp only
    by_cases e : h.state = .active ∨ h.start = s.epoch
    · rw [if_pos e, if_pos e]
      split
      · next x => rw [x]
      · rfl
    · rw [if_neg e, if_neg e]
      exact State.lane_setDrive s l m .idle

/-- What the settling of tracks leaves of a lane. -/
theorem lane_settleTracks (l : Lane) (ws : List Window) : ∀ m : State, (ws.foldl State.settleTrack m).lane l =
    if ∃ w ∈ ws, w.track = laneTrack l then m.settledLane (m.lane l) l else m.lane l := by
  induction ws with
  | nil => intro m; simp
  | cons w ws ih =>
    intro m
    have hw : (m.settleTrack w).windows = m.windows ∧ (m.settleTrack w).epoch = m.epoch := by
      rw [State.settleTrack_eq]; exact ⟨rfl, rfl⟩
    have hh : (m.settleTrack w).head (laneTrack l) = m.head (laneTrack l) := by
      unfold State.head State.trackList; rw [hw.1]
    rw [List.foldl_cons, ih, settledLane_congr hh hw.2]
    by_cases e : w.track = laneTrack l
    · have hl : (m.settleTrack w).lane l = m.settledLane (m.lane l) l := by
        rw [m.settleTrack_lane e, lane_settleLane, if_pos rfl]
      rw [hl, State.settledLane_idem, ite_self, if_pos ⟨w, List.mem_cons_self, e⟩]
    · rw [State.lane_settleTrack_other m w l e]
      simp only [List.mem_cons, exists_eq_or_imp, e, false_or]

/-! ### Tally Units -/

/-- The Tally Unit of a track that one window left, by the window's state (08 R134). -/
def TallyUnit.settle (next : Option Slot) (u : TallyUnit) (w : Window) : TallyUnit :=
  match w.state with
  | .active => { u with counting := none, hold := next, carried := 0 }
  | .pending => if u.hold = some w.slot then { u with hold := none, carried := 0 } else u

/-- The window for which a retirement opens a handover hold (08 R134). -/
def State.nextHold (s : State) (k : Sense) : Option Slot :=
  ((s.head (senseTrack k)).filter (fun h => decide (h.start = s.epoch))).map Window.slot

theorem tally_settleTally (s : State) (k j : Sense) (w : Window) :
    (s.settleTally k w).tally j = if k = j then (s.tally k).settle (s.nextHold k) w else s.tally j := by
  unfold State.settleTally TallyUnit.settle
  cases w.state with
  | active => exact State.tally_setTally s k j _
  | pending =>
    dsimp only
    by_cases e : (s.tally k).hold = some w.slot
    · rw [if_pos e, if_pos e]
      exact State.tally_setTally s k j _
    · rw [if_neg e, if_neg e]
      split
      · next x => rw [x]
      · rfl

theorem State.nextHold_congr {s t : State} {k : Sense} (hw : t.windows = s.windows) (he : t.epoch = s.epoch) :
    t.nextHold k = s.nextHold k := by
  unfold State.nextHold State.head State.trackList
  rw [hw, he]

/-- What the settling of tracks leaves of a Tally Unit. -/
theorem tally_settleTracks (k : Sense) (ws : List Window) : ∀ m : State, (ws.foldl State.settleTrack m).tally k =
    (ws.filter (fun w => decide (w.track = senseTrack k))).foldl (TallyUnit.settle (m.nextHold k)) (m.tally k) := by
  induction ws with
  | nil => intro m; rfl
  | cons w ws ih =>
    intro m
    have hw : (m.settleTrack w).windows = m.windows ∧ (m.settleTrack w).epoch = m.epoch := by
      rw [State.settleTrack_eq]; exact ⟨rfl, rfl⟩
    rw [List.foldl_cons, ih, State.nextHold_congr hw.1 hw.2, List.filter_cons]
    by_cases e : w.track = senseTrack k
    · rw [if_pos (by simpa using e), List.foldl_cons, m.settleTrack_sense e, tally_settleTally, if_pos rfl]
    · rw [if_neg (by simpa using e), State.tally_settleTrack_other m w k e]

/-- A Tally Unit that settles for several windows, none of which is the next to start. -/
theorem TallyUnit.foldl_settle {next : Option Slot} (ws : List Window) : ∀ u : TallyUnit, (∀ w ∈ ws, next ≠ some w.slot) →
    ws.foldl (TallyUnit.settle next) u =
      if ∃ w ∈ ws, w.state = .active then { u with counting := none, hold := next, carried := 0 }
      else if ∃ w ∈ ws, u.hold = some w.slot then { u with hold := none, carried := 0 } else u := by
  induction ws with
  | nil => intro u _; simp
  | cons w ws ih =>
    intro u hn
    rw [List.foldl_cons, ih _ (fun v hv => hn v (List.mem_cons_of_mem _ hv))]
    have hsome : ¬ ∃ v ∈ ws, next = some v.slot := fun ⟨v, hv, e⟩ => hn v (List.mem_cons_of_mem _ hv) e
    unfold TallyUnit.settle
    cases hw : w.state with
    | active =>
      dsimp only
      rw [if_pos (⟨w, List.mem_cons_self, hw⟩ : ∃ v ∈ w :: ws, v.state = .active), if_neg hsome, ite_self]
    | pending =>
      have hact : (∃ v ∈ w :: ws, v.state = .active) ↔ ∃ v ∈ ws, v.state = .active := by simp [hw]
      have hhold : (∃ v ∈ w :: ws, u.hold = some v.slot) ↔ (u.hold = some w.slot ∨ ∃ v ∈ ws, u.hold = some v.slot) := by simp
      dsimp only
      by_cases ha : ∃ v ∈ ws, v.state = .active
      · rw [if_pos ha, if_pos (hact.mpr ha)]
        split <;> rfl
      · rw [if_neg ha, if_neg (fun x => ha (hact.mp x))]
        by_cases e : u.hold = some w.slot
        · rw [if_pos e, if_pos (hhold.mpr (.inl e)), if_neg (by simp)]
        · rw [if_neg e]
          by_cases e' : ∃ v ∈ ws, u.hold = some v.slot
          · rw [if_pos e', if_pos (hhold.mpr (.inr e'))]
          · rw [if_neg e', if_neg (fun x => (hhold.mp x).elim e e')]

/-! ### Windows leave -/

/-- Some windows left their lists, in one change or in several: lists, lanes and Tally Units (01 R15, R16). -/
structure Thinned (s t : State) : Prop where
  windows : ∃ f, t.windows = s.windows.filter f
  epoch : t.epoch = s.epoch
  useCounts : t.useCounts = s.useCounts
  lanes : ∀ l, t.lane l = t.settledLane (s.lane l) l
  tallies : ∀ k, t.tally k = settledTally s t k

theorem Thinned.mem {s t : State} (h : Thinned s t) {w : Window} (hw : w ∈ t.windows) : w ∈ s.windows := by
  obtain ⟨f, e⟩ := h.windows
  rw [e] at hw
  exact (List.mem_filter.mp hw).1

theorem Thinned.mem_trackList {s t : State} (h : Thinned s t) {x : Track} {w : Window} (hw : w ∈ t.trackList x) :
    w ∈ s.trackList x := by
  obtain ⟨hm, hx⟩ := (t.mem_trackList x w).mp hw
  exact (s.mem_trackList x w).mpr ⟨h.mem hm, hx⟩

theorem Thinned.slots {s t : State} (h : Thinned s t) (hs : s.SlotsDistinct) : t.SlotsDistinct := by
  obtain ⟨f, e⟩ := h.windows
  show (t.windows.map Window.slot).Nodup
  rw [e]
  exact hs.sublist (List.filter_sublist.map _)

theorem Thinned.track {s t : State} (h : Thinned s t) (hs : TrackLaw s) : TrackLaw t := by
  obtain ⟨f, e⟩ := h.windows
  obtain ⟨h1, h2⟩ := hs
  refine ⟨by rw [e]; exact h1.filter f, fun x => ?_⟩
  have hl : t.trackList x = (s.trackList x).filter f := by
    unfold State.trackList; rw [e, List.filter_comm]
  obtain ⟨h3, h4⟩ := h2 x
  rw [hl]
  exact ⟨h3.filter f, fun w hw => h4 w ((List.filter_sublist.tail).subset hw)⟩

/-- The window that a track runs after others left is the one it ran. -/
theorem Thinned.running {s t : State} (h : Thinned s t) (hs : TrackLaw s) {x : Track} {w : Window} (hr : t.running x = some w) :
    s.running x = some w := by
  obtain ⟨hm, ha⟩ := State.running_mem hr
  exact hs.active_running (h.mem_trackList hm) ha

/-- A running window that stays goes on running. -/
theorem Thinned.running_of_mem {s t : State} (h : Thinned s t) (hs : Lists s) {x : Track} {w : Window} (hr : s.running x = some w)
    (hm : w.slot ∈ (t.trackList x).map Window.slot) : t.running x = some w := by
  obtain ⟨v, hv, e⟩ := List.mem_map.mp hm
  obtain ⟨hw, ha⟩ := State.running_mem hr
  have hv' := h.mem_trackList hv
  obtain rfl := hs.slots.inj ((s.mem_trackList x v).mp hv').1 ((s.mem_trackList x w).mp hw).1 e
  exact (h.track hs.track).active_running hv ha

/-- While no window is ACTIVE no hold is open but for the waiting head. -/
theorem Lists.hold_of_running {s : State} (h : Lists s) {k : Sense} {w : Window} (hr : s.running (senseTrack k) = some w) :
    (s.tally k).hold = none ∧ (s.tally k).carried = 0 := by
  obtain ⟨hh, ha⟩ := State.running_eq_some.mp hr
  obtain ⟨_, _, h3, h4⟩ := h.tallies k
  have hn : (s.tally k).hold = none := by
    rcases h4 with e | e
    · exact e
    · rw [e, hh]
      simp [ha]
  exact ⟨hn, h3 hn⟩

theorem Lists.hold_cases {s : State} (h : Lists s) (k : Sense) : ((s.tally k).hold = none ∧ (s.tally k).carried = 0) ∨
    ∃ w, s.head (senseTrack k) = some w ∧ w.state = .pending ∧ w.start = s.epoch ∧ (s.tally k).hold = some w.slot := by
  obtain ⟨_, _, h3, h4⟩ := h.tallies k
  rcases h4 with e | e
  · exact .inl ⟨e, h3 e⟩
  · cases hf : (s.head (senseTrack k)).filter (fun w => decide (w.state = .pending) && decide (w.start = s.epoch)) with
    | none => rw [hf] at e; exact .inl ⟨e, h3 e⟩
    | some w =>
      obtain ⟨h1, h2⟩ := Option.filter_eq_some_iff.mp hf
      simp only [Bool.and_eq_true, decide_eq_true_eq] at h2
      rw [hf] at e
      exact .inr ⟨w, h1, h2.1, h2.2, e⟩

/-- Lists, lanes and Tally Units keep their laws when windows leave (01 R2, R3, 07 R105, 08 R122). -/
theorem Thinned.lists {s t : State} (h : Thinned s t) (hs : Lists s) : Lists t := by
  have htr := h.track hs.track
  have hti : ∀ w ∈ t.windows, w.Timely t.epoch := fun w hw => by rw [h.epoch]; exact hs.times w (h.mem hw)
  have pend : ∀ (k : Sense) (w v : Window), s.running (senseTrack k) = some w → v ∈ t.trackList (senseTrack k) → v ≠ w →
      v.state = .pending := by
    intro k w v hr hv hne
    exact (hs.track.head (State.running_eq_some.mp hr).1 (h.mem_trackList hv) hne).2
  refine ⟨h.slots hs.slots, htr, hti, fun l => ?_, fun k => ?_⟩
  · unfold State.laneLawful
    split
    · next w hw =>
      have hr := h.running hs.track hw
      obtain ⟨hm, ha⟩ := State.running_mem hw
      have hl := hs.lanes l
      unfold State.laneLawful at hl
      rw [hr] at hl
      have hb : t.settledLane (s.lane l) l = s.lane l := by
        unfold State.settledLane
        rw [(State.running_eq_some.mp hw).1]
        exact if_pos (.inl ha)
      rw [h.lanes l, hb, h.epoch]
      exact hl
    · next hn =>
      rw [State.running_eq_none] at hn
      rw [h.lanes l]
      unfold State.settledLane
      cases hh : t.head (laneTrack l) with
      | none => simp
      | some w =>
        have hp := hn w hh
        by_cases e : w.start = t.epoch
        · simp [e]
        · simp [e, hp]
  · rw [h.tallies k]
    unfold settledTally
    obtain ⟨c1, c2, c3, c4⟩ := hs.tallies k
    split
    · next w hr =>
      obtain ⟨hw, ha⟩ := State.running_mem hr
      split
      · next hm =>
        rw [h.running_of_mem hs hr hm]
        obtain ⟨e1, e2⟩ := hs.hold_of_running hr
        exact ⟨by rw [c1, hr], c2, c3, .inl e1⟩
      · next hm =>
        have hp : ∀ v, t.head (senseTrack k) = some v → v.state = .pending := by
          intro v hv
          have hvm : v ∈ t.trackList (senseTrack k) := List.mem_of_mem_head? hv
          refine pend k w v hr hvm (fun e => hm ?_)
          rw [← e]
          exact List.mem_map_of_mem hvm
        refine ⟨by rw [State.running_eq_none.mpr hp]; rfl, Nat.zero_le _, fun _ => rfl, .inr ?_⟩
        dsimp only
        congr 1
        cases hh : t.head (senseTrack k) with
        | none => rfl
        | some v =>
          rw [h.epoch]
          simp [Option.filter, hp v hh]
    · next hr =>
      have hp : t.running (senseTrack k) = none := by
        by_contra hc
        obtain ⟨w, hw⟩ := Option.ne_none_iff_exists'.mp hc
        rw [h.running hs.track hw] at hr
        cases hr
      rw [hr] at c1
      split
      · next hh => exact ⟨by rw [hp, c1], c2, c3, by rw [hh, h.epoch]; exact c4⟩
      · exact ⟨by rw [hp]; exact c1, Nat.zero_le _, fun _ => rfl, .inl rfl⟩

/-- A track from which no window left keeps its Tally Unit. -/
theorem settledTally_same {s t : State} {k : Sense} (h : t.trackList (senseTrack k) = s.trackList (senseTrack k)) :
    settledTally s t k = s.tally k := by
  unfold settledTally
  split
  · next w hr => exact if_pos (by rw [h]; exact List.mem_map_of_mem (State.running_mem hr).1)
  · exact if_pos (by unfold State.head; rw [h])

theorem State.head_congr {s t : State} {x : Track} (h : t.trackList x = s.trackList x) : t.head x = s.head x := by
  unfold State.head; rw [h]

theorem Thinned.refl {s : State} (h : Lists s) : Thinned s s :=
  ⟨⟨fun _ => true, (List.filter_eq_self.mpr (fun _ _ => rfl)).symm⟩, rfl, rfl, fun l => (h.settledLane_self l).symm, fun _ => (settledTally_same rfl).symm⟩

theorem settledTally_running_stays {s t : State} {k : Sense} {w : Window} (hr : s.running (senseTrack k) = some w)
    (hm : w.slot ∈ (t.trackList (senseTrack k)).map Window.slot) : settledTally s t k = s.tally k := by
  unfold settledTally; rw [hr]; exact if_pos hm

theorem settledTally_running_gone {s t : State} {k : Sense} {w : Window} (hr : s.running (senseTrack k) = some w)
    (hm : w.slot ∉ (t.trackList (senseTrack k)).map Window.slot) : settledTally s t k = { s.tally k with
      counting := none
      hold := ((t.head (senseTrack k)).filter (fun h => decide (h.start = s.epoch))).map Window.slot
      carried := 0 } := by
  unfold settledTally; rw [hr]; exact if_neg hm

theorem settledTally_idle_same {s t : State} {k : Sense} (hr : s.running (senseTrack k) = none)
    (hm : t.head (senseTrack k) = s.head (senseTrack k)) : settledTally s t k = s.tally k := by
  unfold settledTally; rw [hr]; exact if_pos hm

theorem settledTally_idle_moved {s t : State} {k : Sense} (hr : s.running (senseTrack k) = none)
    (hm : t.head (senseTrack k) ≠ s.head (senseTrack k)) :
    settledTally s t k = { s.tally k with hold := none, carried := 0 } := by
  unfold settledTally; rw [hr]; exact if_neg hm

theorem Thinned.settledLane_trans {t u : State} (ht : Lists t) (h' : Thinned t u) (l : Lane) (b : LaneDriver) :
    u.settledLane (t.settledLane b l) l = u.settledLane b l := by
  by_cases hb : u.Busy (laneTrack l)
  · have hbt : t.Busy (laneTrack l) := by
      obtain ⟨w, hw, hc⟩ := hb
      exact ⟨w, h'.mem_trackList hw, by rw [← h'.epoch]; exact hc⟩
    rw [ht.settledLane_of_busy hbt]
  · rw [State.settledLane_of_not_busy hb, State.settledLane_of_not_busy hb]
    rcases Classical.em (t.Busy (laneTrack l)) with hbt | hbt
    · rw [ht.settledLane_of_busy hbt]
    · rw [State.settledLane_of_not_busy hbt]

/-- Where no window counts, only the head can start now: what stands behind it starts later. -/
theorem Thinned.no_start_of_head_moved {t u : State} (ht : Lists t) (h' : Thinned t u) {x : Track}
    (hr : t.running x = none) (hh : u.head x ≠ t.head x) :
    (u.head x).filter (fun h => decide (h.start = t.epoch)) = none := by
  rw [Option.filter_eq_none_iff]
  intro v hv
  rw [decide_eq_true_eq]
  intro hst
  have hvt := h'.mem_trackList (List.mem_of_mem_head? hv)
  obtain ⟨hd, hhd⟩ := State.exists_head hvt
  have hne : v ≠ hd := fun e => hh (by rw [hv, hhd, e])
  have ha' := ht.active_of_behind hhd hvt hne (by rw [hst]; exact BitVec.le_refl _)
  rw [State.running_eq_some.mpr ⟨hhd, ha'⟩] at hr
  cases hr

theorem Thinned.running_eq_none_of_gone {s t : State} (hs : Lists s) (h : Thinned s t) {x : Track} {w : Window}
    (hr : s.running x = some w) (hm : w.slot ∉ (t.trackList x).map Window.slot) : t.running x = none := by
  by_contra hc
  obtain ⟨v, hv⟩ := Option.ne_none_iff_exists'.mp hc
  have := h.running hs.track hv
  rw [hr] at this
  cases this
  exact hm (List.mem_map_of_mem (State.running_mem hv).1)

theorem Thinned.running_eq_none {s t : State} (hs : Lists s) (h : Thinned s t) {x : Track} (hr : s.running x = none) :
    t.running x = none := by
  by_contra hc
  obtain ⟨v, hv⟩ := Option.ne_none_iff_exists'.mp hc
  rw [h.running hs.track hv] at hr
  cases hr

/-- A head that left once does not come back. -/
theorem Thinned.head_ne_trans {s t u : State} (hs : Lists s) (h : Thinned s t) (h' : Thinned t u) {x : Track}
    (hm : t.head x ≠ s.head x) : u.head x ≠ s.head x := by
  intro hx
  refine hm ?_
  cases hd : s.head x with
  | none =>
    by_contra hc
    obtain ⟨v, hv⟩ := Option.ne_none_iff_exists'.mp hc
    obtain ⟨y, hy⟩ := State.exists_head (h.mem_trackList (List.mem_of_mem_head? hv))
    rw [hd] at hy
    cases hy
  | some v =>
    rw [hd] at hx
    refine (h.lists hs).head_of_first (h'.mem_trackList (List.mem_of_mem_head? hx)) (fun y hy hne => ?_)
    exact (hs.track.head hd (h.mem_trackList hy) hne).1

theorem Thinned.settledTally_trans {s t u : State} (hs : Lists s) (h : Thinned s t) (h' : Thinned t u) (k : Sense) :
    settledTally t u k = settledTally s u k := by
  have htk := h.tallies k
  cases hr : s.running (senseTrack k) with
  | some w =>
    by_cases hm : w.slot ∈ (t.trackList (senseTrack k)).map Window.slot
    · have hrt := h.running_of_mem hs hr hm
      rw [settledTally_running_stays hr hm] at htk
      unfold settledTally
      rw [hr, hrt, htk, h.epoch]
    · have hmu : w.slot ∉ (u.trackList (senseTrack k)).map Window.slot := by
        intro hx
        obtain ⟨v, hv, ev⟩ := List.mem_map.mp hx
        exact hm (List.mem_map.mpr ⟨v, h'.mem_trackList hv, ev⟩)
      have hrt := h.running_eq_none_of_gone hs hr hm
      rw [settledTally_running_gone hr hm] at htk
      rw [settledTally_running_gone hr hmu]
      by_cases hh : u.head (senseTrack k) = t.head (senseTrack k)
      · rw [settledTally_idle_same hrt hh, htk, hh]
      · have hnone := h'.no_start_of_head_moved (h.lists hs) hrt hh
        rw [h.epoch] at hnone
        rw [settledTally_idle_moved hrt hh, htk, hnone]
        rfl
  | none =>
    have hrt := h.running_eq_none hs hr
    by_cases hm : t.head (senseTrack k) = s.head (senseTrack k)
    · rw [settledTally_idle_same hr hm] at htk
      unfold settledTally
      rw [hr, hrt, htk, hm]
    · rw [settledTally_idle_moved hr hm] at htk
      rw [settledTally_idle_moved hr (h.head_ne_trans hs h' hm)]
      unfold settledTally
      rw [hrt, htk]
      exact ite_self _

/-- Windows that left in two changes left. -/
theorem Thinned.trans {s t u : State} (hs : Lists s) (h : Thinned s t) (h' : Thinned t u) : Thinned s u := by
  obtain ⟨f, e⟩ := h.windows
  obtain ⟨g, e'⟩ := h'.windows
  exact ⟨⟨fun w => f w && g w, by rw [e', e, filter_filter_and]⟩, h'.epoch.trans h.epoch, h'.useCounts.trans h.useCounts,
    fun l => by rw [h'.lanes l, h.lanes l, h'.settledLane_trans (h.lists hs) l],
    fun k => by rw [h'.tallies k, h.settledTally_trans hs h' k]⟩

/-- `m` is `s` without the windows of `ws`, which are those that `f` does not keep; no track is settled yet. -/
structure Unlisted (s m : State) (f : Window → Bool) (ws : List Window) : Prop where
  windows : m.windows = s.windows.filter f
  lanes : m.lanes = s.lanes
  tallies : m.tallies = s.tallies
  epoch : m.epoch = s.epoch
  useCounts : m.useCounts = s.useCounts
  gone : ∀ w ∈ ws, w ∈ s.windows ∧ f w = false
  all : ∀ w ∈ s.windows, f w = false → w ∈ ws

theorem Unlisted.trackList {s m : State} {f : Window → Bool} {ws : List Window} (h : Unlisted s m f ws) (x : Track) :
    m.trackList x = (s.trackList x).filter f := by
  unfold State.trackList
  rw [h.windows, List.filter_comm]

theorem Unlisted.slot_notMem {s m : State} {f : Window → Bool} {ws : List Window} (h : Unlisted s m f ws) (hs : Lists s)
    {w : Window} (hw : w ∈ ws) : w.slot ∉ m.windows.map Window.slot := by
  intro hx
  obtain ⟨v, hv, ev⟩ := List.mem_map.mp hx
  rw [h.windows] at hv
  obtain ⟨hv, hfv⟩ := List.mem_filter.mp hv
  obtain ⟨hws, hfw⟩ := h.gone w hw
  rw [hs.slots.inj hv hws ev, hfw] at hfv
  cases hfv

theorem Unlisted.trackList_same {s m : State} {f : Window → Bool} {ws : List Window} (h : Unlisted s m f ws) {x : Track}
    (hx : ¬ ∃ w ∈ ws, w.track = x) : m.trackList x = s.trackList x := by
  rw [h.trackList, List.filter_eq_self]
  intro w hwx
  obtain ⟨hm, rfl⟩ := (s.mem_trackList x w).mp hwx
  by_contra hc
  exact hx ⟨w, h.all w hm (by simpa using hc), rfl⟩

theorem Unlisted.head_kept {s m : State} {f : Window → Bool} {ws : List Window} (h : Unlisted s m f ws) {x : Track}
    {w : Window} (hh : s.head x = some w) (hf : f w = true) : m.head x = some w := by
  unfold State.head at hh ⊢
  rw [h.trackList]
  cases hlist : s.trackList x with
  | nil => rw [hlist] at hh; cases hh
  | cons a l =>
    rw [hlist] at hh
    cases hh
    rw [List.filter_cons, if_pos hf]
    rfl

theorem Unlisted.head_gone {s m : State} {f : Window → Bool} {ws : List Window} (h : Unlisted s m f ws) {x : Track}
    {w : Window} (hf : f w = false) : m.head x ≠ some w := by
  intro hx
  have := List.mem_of_mem_head? hx
  rw [h.trackList] at this
  rw [(List.mem_filter.mp this).2] at hf
  cases hf

/-- Of the windows gone, an active one is the one that counted. -/
theorem Unlisted.active_running {s m : State} {f : Window → Bool} {ws : List Window} (h : Unlisted s m f ws) (hs : Lists s)
    {w : Window} (hw : w ∈ ws) (ha : w.state = .active) : s.running w.track = some w :=
  hs.track.active_running ((s.mem_trackList _ w).mpr ⟨(h.gone w hw).1, rfl⟩) ha

theorem Unlisted.settle_tally_running {s m : State} {f : Window → Bool} {ws : List Window} (h : Unlisted s m f ws)
    (hs : Lists s) {k : Sense} {w : Window} (hr : s.running (senseTrack k) = some w) :
    (if ∃ v ∈ ws, v.track = senseTrack k ∧ v.state = .active then { s.tally k with counting := none, hold := m.nextHold k, carried := 0 }
      else if ∃ v ∈ ws, v.track = senseTrack k ∧ (s.tally k).hold = some v.slot then { s.tally k with hold := none, carried := 0 }
      else s.tally k) = settledTally s m k := by
  obtain ⟨hwt, ha⟩ := State.running_mem hr
  obtain ⟨hwm, hwx⟩ := (s.mem_trackList _ w).mp hwt
  cases hf : f w with
  | false =>
    have hmem : w.slot ∉ (m.trackList (senseTrack k)).map Window.slot := by
      intro hx
      obtain ⟨v, hv, ev⟩ := List.mem_map.mp hx
      exact h.slot_notMem hs (h.all w hwm hf) (List.mem_map.mpr ⟨v, ((State.mem_trackList _ _ v).mp hv).1, ev⟩)
    rw [if_pos ⟨w, h.all w hwm hf, hwx, ha⟩, settledTally_running_gone hr hmem]
    unfold State.nextHold
    rw [h.epoch]
  | true =>
    have hmem : w.slot ∈ (m.trackList (senseTrack k)).map Window.slot := by
      rw [h.trackList]
      exact List.mem_map_of_mem (List.mem_filter.mpr ⟨hwt, hf⟩)
    rw [settledTally_running_stays hr hmem, if_neg, if_neg]
    · rintro ⟨v, _, _, hv⟩
      rw [(hs.hold_of_running hr).1] at hv
      cases hv
    · rintro ⟨v, hv, hvx, hva⟩
      have := h.active_running hs hv hva
      rw [hvx, hr] at this
      cases this
      rw [(h.gone w hv).2] at hf
      cases hf

theorem Unlisted.settle_tally_idle {s m : State} {f : Window → Bool} {ws : List Window} (h : Unlisted s m f ws)
    (hs : Lists s) {k : Sense} (hr : s.running (senseTrack k) = none) :
    (if ∃ v ∈ ws, v.track = senseTrack k ∧ v.state = .active then { s.tally k with counting := none, hold := m.nextHold k, carried := 0 }
      else if ∃ v ∈ ws, v.track = senseTrack k ∧ (s.tally k).hold = some v.slot then { s.tally k with hold := none, carried := 0 }
      else s.tally k) = settledTally s m k := by
  rw [if_neg]
  · rcases hs.hold_cases k with ⟨h1, h2⟩ | ⟨w, hh, _, _, h2⟩
    · have hsame : ({ s.tally k with hold := none, carried := 0 } : TallyUnit) = s.tally k := by
        rw [← h1, ← h2]
      unfold settledTally
      rw [hr, hsame, ite_self]
      exact (ite_self _).symm
    · obtain ⟨hwm, hwx⟩ := State.head_mem hh
      cases hf : f w with
      | false =>
        rw [if_pos ⟨w, h.all w hwm hf, hwx, h2⟩, settledTally_idle_moved hr (by rw [hh]; exact h.head_gone hf)]
      | true =>
        rw [if_neg, settledTally_idle_same hr (by rw [hh]; exact h.head_kept hh hf)]
        rintro ⟨v, hv, _, hvs⟩
        rw [h2] at hvs
        obtain rfl := hs.slots.inj hwm (h.gone v hv).1 (Option.some.inj hvs)
        rw [(h.gone w hv).2] at hf
        cases hf
  · rintro ⟨v, hv, hvx, hva⟩
    have := h.active_running hs hv hva
    rw [hvx, hr] at this
    cases this

theorem Unlisted.tally_settleTracks {s m : State} {f : Window → Bool} {ws : List Window} (h : Unlisted s m f ws)
    (hs : Lists s) (k : Sense) : (ws.foldl State.settleTrack m).tally k = settledTally s m k := by
  have htally : m.tally k = s.tally k := by unfold State.tally; rw [h.tallies]
  have hon : ∀ q : Window → Prop, (∃ w ∈ ws.filter (fun w => decide (w.track = senseTrack k)), q w) ↔
      ∃ w ∈ ws, w.track = senseTrack k ∧ q w := by simp [and_assoc]
  rw [Machine.tally_settleTracks, htally, TallyUnit.foldl_settle]
  · simp only [hon]
    cases hr : s.running (senseTrack k) with
    | some w => exact h.settle_tally_running hs hr
    | none => exact h.settle_tally_idle hs hr
  · intro w hwm hx
    refine h.slot_notMem hs (List.mem_filter.mp hwm).1 ?_
    unfold State.nextHold at hx
    obtain ⟨v, hv, ev⟩ := Option.map_eq_some_iff.mp hx
    obtain ⟨hv, _⟩ := Option.filter_eq_some_iff.mp hv
    exact List.mem_map.mpr ⟨v, (State.head_mem hv).1, ev⟩

theorem Unlisted.lane_settleTracks {s m : State} {f : Window → Bool} {ws : List Window} (h : Unlisted s m f ws)
    (hs : Lists s) (l : Lane) : (ws.foldl State.settleTrack m).lane l = m.settledLane (s.lane l) l := by
  have hlane : m.lane l = s.lane l := by unfold State.lane; rw [h.lanes]
  rw [Machine.lane_settleTracks, hlane]
  split
  · rfl
  · next hx =>
    rw [settledLane_congr (State.head_congr (h.trackList_same hx)) h.epoch]
    exact (hs.settledLane_self l).symm

theorem settledTally_congr {s t u : State} (hw : u.windows = t.windows) (k : Sense) : settledTally s u k = settledTally s t k := by
  unfold settledTally State.head State.trackList
  rw [hw]

/-- Windows gone from the lists, and the tracks they left settled in some order. -/
theorem Unlisted.thinned {s m : State} {f : Window → Bool} {ws : List Window} (h : Unlisted s m f ws) (hs : Lists s) :
    Thinned s (ws.foldl State.settleTrack m) := by
  obtain ⟨ls, ts, e⟩ := State.settleTracks_eq ws m
  have hwin : (ws.foldl State.settleTrack m).windows = m.windows := by rw [e]
  have hep : (ws.foldl State.settleTrack m).epoch = m.epoch := by rw [e]
  have hhd : ∀ x, (ws.foldl State.settleTrack m).head x = m.head x := fun x => by
    unfold State.head State.trackList; rw [hwin]
  exact ⟨⟨f, hwin.trans h.windows⟩, hep.trans h.epoch, by rw [e]; exact h.useCounts,
    fun l => (h.lane_settleTracks hs l).trans (settledLane_congr (hhd _).symm hep.symm _),
    fun k => (h.tally_settleTracks hs k).trans (settledTally_congr hwin k).symm⟩

/-- One window leaves (01 R15, R16). -/
theorem leave_thinned {s : State} (h : Lists s) {w : Window} (hw : w ∈ s.windows) : Thinned s (s.leave w) := by
  have e : (s.freeRecord w).lowerRef w = { s.freeRecord w with trigRefs := ((s.freeRecord w).lowerRef w).trigRefs } :=
    State.lowerRef_eq _ _
  have hun : Unlisted s ((s.freeRecord w).lowerRef w) (fun v => decide (v.slot ≠ w.slot)) [w] := by
    rw [e]
    refine ⟨rfl, rfl, rfl, rfl, rfl, fun v hv => ?_, fun v hv hf => ?_⟩
    · rw [List.mem_singleton.mp hv]
      exact ⟨hw, by simp⟩
    · simp only [ne_eq, decide_not, Bool.not_eq_false', decide_eq_true_eq] at hf
      exact List.mem_singleton.mpr (h.slots.inj hv hw hf)
  exact hun.thinned h

/-- Several windows leave (01 R16). -/
theorem leaveAll_thinned (ws : List Window) : ∀ {s : State}, Lists s → (∀ w ∈ ws, w ∈ s.windows) → (ws.map Window.slot).Nodup →
    Thinned s (s.leaveAll ws) := by
  induction ws with
  | nil => exact fun h _ _ => .refl h
  | cons w ws ih =>
    intro s h hw hn
    rw [List.map_cons, List.nodup_cons] at hn
    have h1 := leave_thinned h (hw w List.mem_cons_self)
    refine h1.trans h (ih (h1.lists h) (fun v hv => ?_) hn.2)
    obtain ⟨_, _, _, e, _⟩ := s.leave_spec w
    rw [e]
    refine List.mem_filter.mpr ⟨hw v (List.mem_cons_of_mem _ hv), ?_⟩
    have : v.slot ≠ w.slot := fun x => hn.1 (List.mem_map.mpr ⟨v, hv, x⟩)
    simpa using this

/-- A choice of the part's windows leaves. -/
theorem leaveAll_filter_thinned {s : State} (h : Lists s) (f : Window → Bool) : Thinned s (s.leaveAll (s.windows.filter f)) :=
  leaveAll_thinned _ h (fun _ hw => (List.mem_filter.mp hw).1) (h.slots.sublist (List.filter_sublist.map _))

/-- The windows of a port leave together in a teardown (10 R153). -/
theorem teardown_thinned {s : State} (h : Lists s) (p : Port) : Thinned s (s.teardown p) :=
  Unlisted.thinned (f := fun w => decide (w.owner ≠ p)) ⟨rfl, rfl, rfl, rfl, rfl,
    fun w hw => by
      obtain ⟨h1, h2⟩ := (s.mem_owned p w).mp hw
      exact ⟨h1, by simpa using h2⟩,
    fun w hw hf => (s.mem_owned p w).mpr ⟨hw, by simpa using hf⟩⟩ h

end Sys2Proof.Machine
end

