-- ==== Sys2Proof/Proofs/Departures.lean ====
section
/-! PROOFS. CANCEL and the ends of windows: what windows leave behind, told and untold. -/

namespace Sys2Proof.Machine

/-! ### States with the same lists -/

/-- What the laws of lists read is the same in two states. -/
structure SameLists (s t : State) : Prop where
  windows : t.windows = s.windows
  epoch : t.epoch = s.epoch
  drive : ∀ l, (t.lane l).drive = (s.lane l).drive
  counting : ∀ k, (t.tally k).counting = (s.tally k).counting
  hold : ∀ k, (t.tally k).hold = (s.tally k).hold
  carried : ∀ k, (t.tally k).carried = (s.tally k).carried

theorem Quiet.sameLists {s t : State} (h : Quiet s t) : SameLists s t :=
  ⟨h.windows, h.epoch, h.drive, h.counting, h.hold, h.carried⟩

/-- States that differ in nothing but ports, claims, references and what no list reads. -/
theorem SameLists.of_eq {s t : State} (hw : t.windows = s.windows) (he : t.epoch = s.epoch) (hl : t.lanes = s.lanes)
    (ht : t.tallies = s.tallies) : SameLists s t := by
  have hl' : ∀ l, t.lane l = s.lane l := fun l => by unfold State.lane; rw [hl]
  have ht' : ∀ k, t.tally k = s.tally k := fun k => by unfold State.tally; rw [ht]
  exact ⟨hw, he, fun l => by rw [hl'], fun k => by rw [ht'], fun k => by rw [ht'], fun k => by rw [ht']⟩

theorem SameLists.trackList {s t : State} (h : SameLists s t) (x : Track) : t.trackList x = s.trackList x := by
  unfold State.trackList; rw [h.windows]

theorem SameLists.head {s t : State} (h : SameLists s t) (x : Track) : t.head x = s.head x := State.head_congr (h.trackList x)

theorem SameLists.running {s t : State} (h : SameLists s t) (x : Track) : t.running x = s.running x := by
  unfold State.running; rw [h.head]

theorem SameLists.lists {s t : State} (h : SameLists s t) (hs : Lists s) : Lists t where
  slots := by show (t.windows.map Window.slot).Nodup; rw [h.windows]; exact hs.slots
  track := ⟨by rw [h.windows]; exact hs.track.1, fun x => by rw [h.trackList]; exact hs.track.2 x⟩
  times w hw := by rw [h.epoch]; rw [h.windows] at hw; exact hs.times w hw
  lanes l := by
    have := hs.lanes l
    unfold State.laneLawful at this ⊢
    rw [h.running, h.head, h.epoch, h.drive]
    exact this
  tallies k := by
    have := hs.tallies k
    rw [h.running, h.head, h.epoch, h.counting, h.hold, h.carried]
    exact this

/-! ### Windows of one port leave -/

/-- Windows of one port leave a state that differs from `s` in ports and draws (01 R11, R15, R16). -/
theorem leaveAll_left {s m : State} (h : Lists s) {ws : List Window} {p : Port}
    (hm : ∃ ps n, m = { s with ports := ps, freeCount := n }) (hin : ∀ w ∈ ws, w ∈ s.windows ∧ w.owner = p)
    (hn : (ws.map Window.slot).Nodup) (hp : ∀ q, q ≠ p → m.port q = s.port q) :
    Left s (m.leaveAll ws) ws p ∧ (m.leaveAll ws).claimants = s.claimants ∧
      (m.leaveAll ws).port p = { m.port p with
        held := (m.port p).held - ws.length, bundles := (m.port p).bundlesWithout ws } := by
  obtain ⟨ps, n, rfl⟩ := hm
  have hl : Lists { s with ports := ps, freeCount := n } := SameLists.lists (s := s) (.of_eq rfl rfl rfl rfl) h
  have ht := leaveAll_thinned ws hl (fun w hw => (hin w hw).1) hn
  have own : ∀ q, ws.filter (fun w => decide (w.owner = q)) = if q = p then ws else [] := by
    intro q
    split
    · next e => exact List.filter_eq_self.mpr (fun w hw => by rw [e, (hin w hw).2]; simp)
    · next e => exact List.filter_eq_nil_iff.mpr (fun w hw => by rw [(hin w hw).2]; simpa using fun x : p = q => e x.symm)
  refine ⟨⟨windows_leaveAll _ _, useCounts_leaveAll _ _, fun k q => ?_, ht.lanes, ht.tallies, fun q hq => ?_,
    timebase_leaveAll _ _⟩, claimants_leaveAll _ _, ?_⟩
  · rw [State.refs_leaveAll, ← filter_filter_and, own]
    split <;> rfl
  · rw [State.port_leaveAll, own, if_neg hq]
    exact hp q hq
  · rw [port_leaveAll_eq, own, if_pos rfl]

/-- A change of the port's own unit is outside what windows left behind. -/
theorem Left.setPort {s t : State} {ws : List Window} {p : Port} (h : Left s t ws p) (u : PortUnit) : Left s (t.setPort p u) ws p := by
  obtain ⟨h1, h2, h3, h4, h5, h6, h7⟩ := h
  refine ⟨h1, h2, h3, h4, h5, fun q hq => ?_, h7⟩
  rw [State.port_setPort, if_neg (fun e => hq e.symm)]
  exact h6 q hq

/-- The release of claims is outside what windows left behind. -/
theorem Left.sessionDown {s t : State} {ws : List Window} {p : Port} (h : Left s t ws p) : Left s (t.sessionDown p) ws p := by
  rw [State.sessionDown_eq]
  exact Left.setPort (t := { t with claimants := (t.releaseClaims p).claimants }) h _

/-! ### Ending records -/

/-- The records of windows of one port go to that port, in the order of the windows. -/
theorem recordsFor_filterMap {p : Port} {f : Window → Option (Port × EventRecord)} {g : Window → List EventRecord} :
    ∀ {ws : List Window}, (∀ w ∈ ws, (f w).toList = (g w).map (fun r => (p, r))) →
      recordsFor p (ws.filterMap f) = ws.flatMap g ∧ ∀ q, q ≠ p → recordsFor q (ws.filterMap f) = [] := by
  intro ws
  induction ws with
  | nil => exact fun _ => ⟨rfl, fun _ _ => rfl⟩
  | cons w ws ih =>
    intro h
    obtain ⟨i1, i2⟩ := ih (fun v hv => h v (List.mem_cons_of_mem _ hv))
    have hw := h w List.mem_cons_self
    have hc : (w :: ws).filterMap f = (f w).toList ++ ws.filterMap f := by
      rw [List.filterMap_cons]
      cases f w <;> rfl
    unfold recordsFor at i1 i2 ⊢
    rw [hc, hw]
    refine ⟨?_, fun q hq => ?_⟩
    · rw [List.filter_append, List.map_append, i1, List.filter_map, List.map_map, List.flatMap_cons]
      simp [Function.comp_def]
    · rw [List.filter_append, List.map_append, i2 q hq, List.filter_map]
      have : ¬ p = q := fun e => hq e.symm
      simp [Function.comp_def, this]

/-- A port without a record of its own takes none. -/
theorem recordsFor_nil_of_perm {q : Port} {rs rs' : List (Port × EventRecord)} (h : rs'.Perm rs) (hn : recordsFor q rs = []) :
    recordsFor q rs' = [] := by
  have := recordsFor_perm q h
  rw [hn] at this
  exact this.eq_nil

/-- The retirement of windows of one port: their records in some order, their leaving, and the end of the session where it comes to that (01 R15, R18). -/
theorem retire_left {s : State} (h : Lists s) {ws : List Window} {p : Port} {reason : Window → Reason} (hne : ws ≠ [])
    (hin : ∀ w ∈ ws, w ∈ s.windows ∧ w.owner = p) (hn : (ws.map Window.slot).Nodup)
    (hr : ∀ w ∈ ws, (endingRecord s.epoch (reason w) w).toList = (endRecords s.epoch (reason w) w).map (fun r => (p, r))) :
    ∃ (t : State) (rs : List EventRecord), rs.Perm (ws.flatMap (fun w => endRecords s.epoch (reason w) w)) ∧
      s.retire reason ws = t.endIfClosed p ∧ Left s t ws p ∧ t.claimants = s.claimants ∧
      t.port p = { (s.port p).appendAll rs with
        held := (s.port p).held - ws.length, bundles := (s.port p).bundlesWithout ws } := by
  obtain ⟨w, ws', rfl⟩ := List.exists_cons_of_ne_nil hne
  obtain ⟨rs, n, hp, he⟩ := s.retire_spec reason w ws'
  obtain ⟨r1, r2⟩ := recordsFor_filterMap hr
  generalize hm : ({ s with
    ports := Vector.ofFn (fun q => (s.port q).appendAll (recordsFor q rs)), freeCount := n } : State) = m at he
  have hport : ∀ q, m.port q = (s.port q).appendAll (recordsFor q rs) := fun q => by rw [← hm]; exact vector_ofFn_get _ q
  obtain ⟨h1, h2, h3⟩ := leaveAll_left h ⟨_, _, hm.symm⟩ hin hn
    (fun q hq => by rw [hport, recordsFor_nil_of_perm hp (r2 q hq)]; rfl)
  refine ⟨_, recordsFor p rs, by rw [← r1]; exact recordsFor_perm p hp, ?_, h1, h2, ?_⟩
  · rw [he, (hin w List.mem_cons_self).2]
  · rw [h3, hport]
    have e := (s.port p).appendAll_eq (recordsFor p rs)
    have e1 : ((s.port p).appendAll (recordsFor p rs)).held = (s.port p).held := by rw [e]
    have e2 : ((s.port p).appendAll (recordsFor p rs)).bundlesWithout (w :: ws') = (s.port p).bundlesWithout (w :: ws') := by
      rw [e]; rfl
    rw [e1, e2]

/-- The retirement of windows of one port with records of a settled order (01 R15, R18, 10 R152). -/
theorem retired_of_left {s t : State} {ws : List Window} {p : Port} {rs : List EventRecord} (hne : ws ≠ [])
    (hlen : ws.length ≤ (s.port p).held) (h : Left s t ws p) (hc : t.claimants = s.claimants)
    (hp : t.port p = { (s.port p).appendAll rs with
      held := (s.port p).held - ws.length, bundles := (s.port p).bundlesWithout ws }) :
    Retired s (t.endIfClosed p) ws p rs := by
  have hs : (t.port p).session = (s.port p).session := by rw [hp]; exact (PortUnit.quiet_appendAll rs _).session
  have hh : (t.port p).held = (s.port p).held - ws.length := by rw [hp]
  have hpos : 0 < ws.length := List.length_pos_iff.mpr hne
  have hep : t.epoch = s.epoch := h.2.2.2.2.2.2.1
  have hends : (s.port p).endsWith ws.length = true ↔ (t.port p).session = .closing ∧ (t.port p).held = 0 := by
    unfold PortUnit.endsWith
    rw [hs, hh, Bool.and_eq_true, decide_eq_true_eq, decide_eq_true_eq]
    refine and_congr_right fun _ => ?_
    omega
  rcases t.endIfClosed_cases p with ⟨c1, c2, e⟩ | ⟨c, e⟩ <;> rw [e]
  · have hE := hends.mpr ⟨c1, c2⟩
    refine ⟨h.sessionDown, ?_, fun x => ?_⟩
    · unfold PortUnit.retired
      dsimp only
      rw [if_pos hE, State.sessionDown_eq, ← hp, hep]
      exact (vector_get_set t.ports p p _).trans (if_pos rfl)
    · rw [hE, State.sessionDown_eq]
      show (t.releaseClaims p).claimant x = _
      rw [State.claimant_releaseClaims, State.claimant_congr hc]
      simp
  · have hE : ¬ (s.port p).endsWith ws.length = true := fun x => c (hends.mp x)
    refine ⟨h, ?_, fun x => ?_⟩
    · unfold PortUnit.retired
      dsimp only
      rw [if_neg hE, hp]
    · rw [if_neg (fun x => hE x.1), State.claimant_congr hc]

/-! ### CANCEL -/

theorem Lawful.lists {s : State} (h : Lawful s) : Lists s := by
  obtain ⟨_, _, ⟨_, ⟨hn, _⟩, _⟩, _, _, ht, hw, hl, hta⟩ := h
  refine ⟨hn, ht, fun w hw' => ?_, hl, hta⟩
  obtain ⟨_, _, h1, _, _, h2, h3⟩ := hw w hw'
  exact ⟨h1, fun e => (h2 e).1, h3⟩

theorem Lawful.runLawful {s : State} (h : Lawful s) {w : Window} (hw : w ∈ s.windows) : w.runLawful s.epoch = true := by
  obtain ⟨_, _, _, _, _, _, hl, _, _⟩ := h
  obtain ⟨_, _, _, _, hr, _⟩ := hl w hw
  exact hr

/-- The windows that act with a window are the part's own, of its owner, in slots of their own (04 R58, 05 R75). -/
theorem wholeOf_spec {s : State} (h : s.SlotsDistinct) {w : Window} (hw : w ∈ s.windows) :
    (∀ v ∈ s.wholeOf w, v ∈ s.windows ∧ v.owner = w.owner) ∧ ((s.wholeOf w).map Window.slot).Nodup ∧ w ∈ s.wholeOf w := by
  rw [← State.unitOf_eq_wholeOf h hw]
  unfold State.unitOf
  refine ⟨fun v hv => ?_, h.sublist (List.filter_sublist.map _), List.mem_filter.mpr ⟨hw, sameUnit_refl w⟩⟩
  obtain ⟨hv, hs⟩ := List.mem_filter.mp hv
  exact ⟨hv, (sameUnit_owner h hw hv hs).symm⟩

/-- A CANCEL in OPEN that is taken: the reply fills the slot of what the Pool does (05 R75). -/
theorem exec_cancel {p : Port} {seq : Seq} {h : Handle} {s t : State} {a : Answer} (hf : Fresh p seq (.cancel h) s)
    (hs : (s.port p).session = .opened) (hc : cancel p h (s.taken p seq (.cancel h)) = (t, a)) :
    exec (.cancel p seq h) s = .next (t.fillSlot p seq (requestName (.cancel h)).code a) := by
  refine (exec_rowOf p seq (.cancel h) s).trans ?_
  rw [requestCommand_fresh hf, answerFrame_passed]
  · show Host.Outcome.next ((cancel p h (s.taken p seq (.cancel h))).1.fillSlot p seq _
      (cancel p h (s.taken p seq (.cancel h))).2) = _
    rw [hc]
  · rw [(s.taken_session p seq _ p).1, hs]
    exact sessionGate_of_opened (by simp [requestName])

/-- The reply is outside what windows left behind. -/
theorem Left.fillSlot {s t : State} {ws : List Window} {p : Port} (h : Left s t ws p) (seq : Seq) (code : Byte) (a : Answer) :
    Left s (t.fillSlot p seq code a) ws p := h.setPort _

theorem State.port_fillSlot (s : State) (p : Port) (seq : Seq) (code : Byte) (a : Answer) :
    (s.fillSlot p seq code a).port p = { s.port p with
      replySlot := some { seq, code, answer := a, retry := false, overrun := false } } := by
  rw [State.fillSlot_eq]
  exact (vector_get_set _ _ _ _).trans (if_pos rfl)

/-- Records appended to a unit leave the fields of its link where they are. -/
theorem PortUnit.appendAll_taken (u : PortUnit) (a : Option Nat) (b : Option (Seq × Byte)) (rs : List EventRecord) :
    ({ u with silenceTimer := a, identity := b } : PortUnit).appendAll rs =
      { u.appendAll rs with silenceTimer := a, identity := b } := by
  induction rs generalizing u with
  | nil => rfl
  | cons r rs ih =>
    rw [appendAll_cons, appendAll_cons, ← ih]
    congr 1
    unfold PortUnit.append
    dsimp only
    split <;> rfl

theorem PortUnit.reloadedTimer_appendAll (u : PortUnit) (rs : List EventRecord) : (u.appendAll rs).reloadedTimer = u.reloadedTimer := by
  rw [u.appendAll_eq rs]
  rfl

theorem lists_taken {s : State} (h : Lists s) (p : Port) (seq : Seq) (r : Request) : Lists (s.taken p seq r) :=
  SameLists.lists (s := s) (.of_eq rfl rfl rfl rfl) h

/-- What windows left of the state in which a request is judged, they left of the state that the request met. -/
theorem Left.of_taken {s t : State} {ws : List Window} {p : Port} {seq : Seq} {r : Request} (h : Left (s.taken p seq r) t ws p) :
    Left s t ws p := by
  obtain ⟨h1, h2, h3, h4, h5, h6, h7⟩ := h
  refine ⟨h1, h2, h3, h4, h5, fun q hq => ?_, h7⟩
  rw [h6 q hq, State.port_taken, if_neg (fun e => hq e.symm)]

/-- Settles O37: the handle resolves, and the window's whole bundle leaves a state that differs in the port's link. -/
theorem cancelRemovesAPendingWindow : Obligations.CancelRemovesAPendingWindow := by
  intro p seq w s hl hf hs hw ho hp ws
  subst ho
  have hL := hl.lists
  obtain ⟨hin, hn, _⟩ := wholeOf_spec hL.slots hw
  have hc : cancel w.owner w.handle (s.taken w.owner seq (.cancel w.handle)) =
      ((s.taken w.owner seq (.cancel w.handle)).leaveAll ws, okAnswer (.removed ws.length)) := by
    unfold cancel
    rw [resolve_taken, hl.resolve hw]
    dsimp only
    rw [hp, show (s.taken w.owner seq (.cancel w.handle)).unitOf w = ws from State.unitOf_eq_wholeOf hL.slots hw]
    rfl
  obtain ⟨h1, h2, h3⟩ := leaveAll_left (m := s.taken w.owner seq (.cancel w.handle)) hL ⟨_, s.freeCount, rfl⟩ hin hn
    (fun q hq => (State.port_taken s w.owner seq _ q).trans (if_neg (fun e => hq e.symm)))
  refine ⟨_, exec_cancel hf hs hc, h1.fillSlot _ _ _, h2, ?_⟩
  rw [State.port_fillSlot, h3, State.port_taken, if_pos rfl]
  rfl

/-- Settles O38: the handle resolves, and the window's whole bundle retires; an OPEN session goes on. -/
theorem cancelEndsAnActiveWindow : Obligations.CancelEndsAnActiveWindow := by
  intro p seq w s hl hf hs hw ho ha ws
  subst ho
  have hL := hl.lists
  obtain ⟨hin, hn, hmem⟩ := wholeOf_spec hL.slots hw
  have hc : cancel w.owner w.handle (s.taken w.owner seq (.cancel w.handle)) =
      ((s.taken w.owner seq (.cancel w.handle)).retire (fun _ => .cancelled) ws, okAnswer (.ended ws.length s.epoch)) := by
    unfold cancel
    rw [resolve_taken, hl.resolve hw]
    dsimp only
    rw [ha, show (s.taken w.owner seq (.cancel w.handle)).unitOf w = ws from State.unitOf_eq_wholeOf hL.slots hw]
    rfl
  obtain ⟨t, rs, hp, he, h1, h2, h3⟩ := retire_left (lists_taken hL w.owner seq (.cancel w.handle)) (ws := ws)
    (reason := fun _ => .cancelled) (List.ne_nil_of_mem hmem) hin hn
    (fun v hv => by rw [← (hin v hv).2]; exact endingRecord_eq (hl.runLawful (hin v hv).1))
  have ht := s.port_taken w.owner seq (.cancel w.handle) w.owner
  rw [if_pos rfl] at ht
  rw [ht, PortUnit.appendAll_taken] at h3
  have hopen : (t.port w.owner).session = .opened := by
    rw [h3]
    exact ((PortUnit.quiet_appendAll rs _).session).trans hs
  have hstay : t.endIfClosed w.owner = t := by
    unfold State.endIfClosed
    rw [if_neg (fun x => by rw [hopen] at x; cases x.1)]
  refine ⟨_, rs, exec_cancel hf hs (by rw [hc, he, hstay]), (Left.of_taken h1).fillSlot _ _ _, h2, hp, ?_⟩
  rw [State.port_fillSlot, h3]
  unfold PortUnit.answered
  have hrel := (s.port w.owner).reloadedTimer_appendAll rs
  unfold PortUnit.reloadedTimer PortUnit.inSession at hrel ⊢
  dsimp only
  rw [hrel]
  rfl

/-! ### Ends that are due -/

theorem endRecords_le_one (e : Epoch) (r : Reason) (w : Window) : (endRecords e r w).length ≤ 1 := by
  unfold endRecords
  split
  · exact le_refl 1
  all_goals
    first
      | (split <;> simp)
      | simp

/-- Of at most one record there is one order. -/
theorem perm_eq_of_length_le_one {α : Type} {xs ys : List α} (h : xs.Perm ys) (hl : ys.length ≤ 1) : xs = ys := by
  match ys, hl with
  | [], _ => exact h.eq_nil
  | [y], _ => exact List.perm_singleton.mp h

theorem Lawful.held_pos {s : State} (h : Lawful s) {w : Window} (hw : w ∈ s.windows) : 1 ≤ (s.port w.owner).held := by
  obtain ⟨_, _, ⟨_, ⟨_, hh⟩, _⟩, _⟩ := h
  rw [(hh w.owner).1]
  exact List.length_pos_of_mem ((s.mem_owned w.owner w).mpr ⟨hw, rfl⟩)

/-- Settles O48: the ACTIVE head whose end is reached retires alone. -/
theorem windowsEndWhenDue : Obligations.WindowsEndWhenDue := by
  intro x w s hl hh ha hb hst
  have hL := hl.lists
  obtain ⟨hw, _⟩ := State.head_mem hh
  have hdue : s.endDue x = some w := by
    unfold State.endDue
    rw [State.running_eq_some.mpr ⟨hh, ha⟩, Option.filter_some, if_pos (by simp [hb, hst])]
  obtain ⟨t, rs, hp, he, h1, h2, h3⟩ := retire_left hL (p := w.owner) (ws := [w]) (reason := fun _ => .complete) (by simp)
    (fun v hv => by rw [List.mem_singleton.mp hv]; exact ⟨hw, rfl⟩) (List.nodup_singleton _)
    (fun v hv => by rw [List.mem_singleton.mp hv]; exact endingRecord_eq (hl.runLawful hw))
  rw [List.flatMap_singleton] at hp
  have hrs : rs = endRecords s.epoch .complete w := perm_eq_of_length_le_one hp (endRecords_le_one _ _ _)
  refine ⟨_, ?_, retired_of_left (by simp) (hl.held_pos hw) h1 h2 (hrs ▸ h3)⟩
  show execWindowEndDue x s = _
  unfold execWindowEndDue
  rw [hdue, ← he]

end Sys2Proof.Machine
end

