-- ==== Sys2Proof/Proofs/Starts.lean ====
section
/-! PROOFS. Changes of window records in their lists, and starts: what a hand over leaves, and WINDOW_START on both kinds of track. -/

namespace Sys2Proof.Machine

/-! ### Records change in their lists -/

theorem trackList_map {s t : State} {f : Window → Window} (hw : t.windows = s.windows.map f) (hf : KeepsBookings f) (x : Track) :
    t.trackList x = (s.trackList x).map f := by
  unfold State.trackList
  rw [hw]
  exact filter_map_of_keeps (fun v => by rw [(hf v).track]) _

theorem head_map {s t : State} {f : Window → Window} (hw : t.windows = s.windows.map f) (hf : KeepsBookings f) (x : Track) :
    t.head x = (s.head x).map f := by
  unfold State.head
  rw [trackList_map hw hf, List.head?_map]

theorem running_map {s t : State} {f : Window → Window} (hw : t.windows = s.windows.map f) (hf : KeepsBookings f)
    (hst : ∀ v, (f v).state = v.state) (x : Track) : t.running x = (s.running x).map f := by
  unfold State.running
  rw [head_map hw hf]
  cases s.head x with
  | none => rfl
  | some v =>
    rw [Option.map_some, Option.filter_some, Option.filter_some, hst]
    split <;> rfl

/-- Records that change in place keep their order, what is apart, and what is behind a head (01 R2, R3). -/
theorem TrackLaw.map {s t : State} {f : Window → Window} (h : TrackLaw s) (hw : t.windows = s.windows.map f)
    (hf : KeepsBookings f)
    (hd : ∀ x, ∀ v ∈ s.trackList x, ∀ u ∈ s.trackList x, v.stop ≤ u.start → (f v).stop ≤ u.start)
    (hp : ∀ x, ∀ v ∈ (s.trackList x).tail, (f v).state = .pending) : TrackLaw t := by
  refine ⟨?_, fun x => ⟨?_, fun v hv => ?_⟩⟩
  · rw [hw, List.pairwise_map]
    exact h.1.imp (fun {a b} hab => by rw [(hf a).start, (hf b).start]; exact hab)
  · rw [trackList_map hw hf, List.pairwise_map]
    exact (h.2 x).1.imp_of_mem (fun {a b} ha hb hab => by rw [(hf b).start]; exact hd x a ha b hb hab)
  · rw [trackList_map hw hf, ← List.map_tail] at hv
    obtain ⟨u, hu, rfl⟩ := List.mem_map.mp hv
    exact hp x u hu

/-- Records that take new ends or run-time parts keep lists, lanes and Tally Units, where they stay apart and the lanes that run them follow. -/
theorem Lists.map {s t : State} {f : Window → Window} (h : Lists s) (hw : t.windows = s.windows.map f) (hf : KeepsBookings f)
    (hst : ∀ v : Window, (f v).state = v.state) (he : t.epoch = s.epoch)
    (hlen : ∀ v ∈ s.windows, v.start < (f v).stop) (hact : ∀ v ∈ s.windows, v.state = .active → s.epoch ≤ (f v).stop)
    (hd : ∀ x, ∀ v ∈ s.trackList x, ∀ u ∈ s.trackList x, v.stop ≤ u.start → (f v).stop ≤ u.start)
    (hlane : ∀ l, match s.running (laneTrack l) with
      | some w => s.epoch < (f w).stop → (t.lane l).drive = (f w).driveAt s.epoch
      | none => (t.lane l).drive = (s.lane l).drive)
    (htally : ∀ k, (t.tally k).counting = (s.tally k).counting ∧ (t.tally k).hold = (s.tally k).hold ∧
      (t.tally k).carried = (s.tally k).carried) : Lists t := by
  have hrun := running_map hw hf hst
  refine ⟨?_, h.track.map hw hf hd (fun x v hv => by rw [hst]; exact (h.track.2 x).2 v hv), fun w hwt => ?_, fun l => ?_,
    fun k => ?_⟩
  · show (t.windows.map Window.slot).Nodup
    rw [hw, hf.map_slot]; exact h.slots
  · rw [hw] at hwt
    obtain ⟨v, hv, rfl⟩ := List.mem_map.mp hwt
    obtain ⟨_, t2, t3⟩ := h.times v hv
    rw [he]
    refine ⟨by rw [(hf v).start]; exact hlen v hv, fun e => ?_, fun e => ?_⟩
    · rw [(hf v).start]; rw [hst] at e; exact t2 e
    · rw [hst] at e
      rw [(hf v).start]
      exact ⟨(t3 e).1, hact v hv e⟩
  · have hl := h.lanes l
    have hc := hlane l
    unfold State.laneLawful at hl ⊢
    rw [hrun, head_map hw hf, he]
    cases hr : s.running (laneTrack l) with
    | some w =>
      rw [hr] at hc
      exact decide_eq_true hc
    | none =>
      rw [hr] at hl hc
      rw [Option.map_none]
      dsimp only at hl hc ⊢
      rw [hc]
      have ha : ((s.head (laneTrack l)).map f).any (fun w => decide (w.start = s.epoch)) =
          (s.head (laneTrack l)).any (fun w => decide (w.start = s.epoch)) := by
        cases s.head (laneTrack l) with
        | none => rfl
        | some v => rw [Option.map_some, Option.any_some, Option.any_some, (hf v).start]
      rw [ha]
      exact hl
  · obtain ⟨c1, c2, c3, c4⟩ := h.tallies k
    obtain ⟨e1, e2, e3⟩ := htally k
    have hr : (t.running (senseTrack k)).map Window.slot = (s.running (senseTrack k)).map Window.slot := by
      rw [hrun, Option.map_map]
      cases s.running (senseTrack k) with
      | none => rfl
      | some v => exact congrArg some (hf v).slot
    have hh : ((t.head (senseTrack k)).filter (fun w => decide (w.state = .pending) && decide (w.start = t.epoch))).map Window.slot =
        ((s.head (senseTrack k)).filter (fun w => decide (w.state = .pending) && decide (w.start = s.epoch))).map Window.slot := by
      rw [head_map hw hf, he]
      cases s.head (senseTrack k) with
      | none => rfl
      | some v =>
        rw [Option.map_some, Option.filter_some, Option.filter_some, (hf v).start, hst]
        split
        · exact congrArg some (hf v).slot
        · rfl
    rw [e1, e2, e3, hr, hh]
    exact ⟨c1, c2, c3, c4⟩

/-- A lane that runs a window shows it until its end (07 R106, R114). -/
theorem Lists.lane_running {s : State} (h : Lists s) {l : Lane} {w : Window} (hr : s.running (laneTrack l) = some w)
    (hlt : s.epoch < w.stop) : (s.lane l).drive = w.driveAt s.epoch := by
  have hl := h.lanes l
  unfold State.laneLawful at hl
  rw [hr] at hl
  exact of_decide_eq_true hl hlt

/-- Records whose run-time part changes keep lists, lanes and Tally Units, where the lanes that run them follow. -/
theorem Lists.mapRun {s t : State} {f : Window → Window} (h : Lists s) (hw : t.windows = s.windows.map f) (hf : KeepsBookings f)
    (ht : ∀ v : Window, (f v).stop = v.stop ∧ (f v).state = v.state) (he : t.epoch = s.epoch)
    (hlane : ∀ l, match s.running (laneTrack l) with
      | some w => (t.lane l).drive = (f w).driveAt s.epoch ∨
          ((t.lane l).drive = (s.lane l).drive ∧ (f w).driveAt s.epoch = w.driveAt s.epoch)
      | none => (t.lane l).drive = (s.lane l).drive)
    (htally : ∀ k, (t.tally k).counting = (s.tally k).counting ∧ (t.tally k).hold = (s.tally k).hold ∧
      (t.tally k).carried = (s.tally k).carried) : Lists t := by
  refine h.map hw hf (fun v => (ht v).2) he (fun v hv => by rw [(ht v).1]; exact (h.times v hv).length)
    (fun v hv ha => by rw [(ht v).1]; exact ((h.times v hv).active ha).2) (fun x v _ u _ e => by rw [(ht v).1]; exact e)
    (fun l => ?_) htally
  have hc := hlane l
  cases hr : s.running (laneTrack l) with
  | none => rw [hr] at hc; exact hc
  | some w =>
    rw [hr] at hc
    intro hlt
    rw [(ht w).1] at hlt
    rcases hc with hc | ⟨hc, hd⟩
    · exact hc
    · rw [hc, hd]; exact h.lane_running hr hlt

/-! ### Hand over -/

/-- What a hand over does to the records: the window given becomes ACTIVE with what was carried for it. -/
def State.handing (s : State) (w : Window) (v : Window) : Window :=
  if v.slot = w.slot then v.handed s.epoch (s.carriedFor w) else v

theorem State.handing_keeps (s : State) (w : Window) : KeepsBookings (s.handing w) :=
  KeepsBookings.ite (fun v => v.handed_alike _ _) _

theorem State.handing_stop (s : State) (w v : Window) : (s.handing w v).stop = v.stop := by
  unfold State.handing
  split
  · exact (v.handed_times _ _).1
  · rfl

theorem State.handing_self (s : State) (w : Window) : s.handing w w = w.handed s.epoch (s.carriedFor w) := if_pos rfl

theorem State.handing_other {s : State} {w v : Window} (h : v.slot ≠ w.slot) : s.handing w v = v := if_neg h

theorem windows_handing (s : State) (w : Window) : (s.handOver w).windows = s.windows.map (s.handing w) := windows_handOver s w

theorem carriedFor_lane {s : State} {w : Window} {l : Lane} (h : w.track = laneTrack l) : s.carriedFor w = 0 := by
  unfold State.carriedFor
  rw [h, senseOf_laneTrack]

theorem handed_lane {s : State} {w : Window} {l : Lane} (h : w.track = laneTrack l) :
    w.handed s.epoch (s.carriedFor w) = { w with state := .active } := by
  unfold Window.handed
  rw [carriedFor_lane h, Window.countEdges_zero]

/-- A hand over to a lane (01 R13, 07 R105). -/
theorem handOver_lane (s : State) {w : Window} {l : Lane} (h : w.track = laneTrack l) :
    s.handOver w = (s.updateWindow w.slot (fun v => { v with state := .active })).setDrive l (w.driveAt s.epoch) := by
  unfold State.handOver
  rw [h, laneOf_laneTrack]

/-- The lanes after a hand over. -/
theorem lane_handOver (s : State) (w : Window) (m : Lane) : (s.handOver w).lane m =
    if w.track = laneTrack m then { s.lane m with drive := w.driveAt s.epoch } else s.lane m := by
  rcases track_cases w.track with ⟨l, hl⟩ | ⟨k, hk⟩
  · rw [handOver_lane s hl, State.lane_setDrive, hl]
    by_cases e : l = m
    · subst e
      rw [if_pos rfl, if_pos rfl]
      rfl
    · rw [if_neg e, if_neg (fun x => e (laneTrack_injective x))]
      rfl
  · have : w.track ≠ laneTrack m := fun e => by
      have h1 := laneOf_senseTrack k
      rw [← hk, e, laneOf_laneTrack] at h1
      cases h1
    rw [if_neg this]
    unfold State.handOver
    rw [hk, laneOf_senseTrack, senseOf_senseTrack]
    rfl

/-- The Tally Units after a hand over (08 R122, R134). -/
theorem tally_handOver (s : State) (w : Window) (j : Sense) : (s.handOver w).tally j =
    if w.track = senseTrack j then { s.tally j with counting := some w.slot, hold := none, carried := 0 } else s.tally j := by
  rcases track_cases w.track with ⟨l, hl⟩ | ⟨k, hk⟩
  · have : w.track ≠ senseTrack j := fun e => by
      have h1 := laneOf_senseTrack j
      rw [← e, hl, laneOf_laneTrack] at h1
      cases h1
    rw [if_neg this, handOver_lane s hl]
    rfl
  · have e : s.handOver w = ((s.updateWindow w.slot (fun v => { v with state := .active })).updateWindow w.slot
        (fun v => v.countEdges s.epoch (if (s.tally k).hold = some w.slot then (s.tally k).carried else 0))).setTally k
        { s.tally k with counting := some w.slot, hold := none, carried := 0 } := by
      unfold State.handOver
      rw [hk, laneOf_senseTrack, senseOf_senseTrack]
    rw [e, State.tally_setTally, hk]
    by_cases e' : k = j
    · subst e'
      rw [if_pos rfl, if_pos rfl]
    · rw [if_neg e', if_neg (fun x => e' (senseTrack_injective x))]
      rfl

/-- The heads after a hand over of a head: that one is ACTIVE, the others stay. -/
theorem head_handOver {s : State} (h : s.SlotsDistinct) {x : Track} {w : Window} (hh : s.head x = some w) (y : Track) :
    (s.handOver w).head y = if x = y then some (w.handed s.epoch (s.carriedFor w)) else s.head y := by
  obtain ⟨hw, hx⟩ := State.head_mem hh
  rw [head_map (windows_handing s w) (s.handing_keeps w)]
  split
  · next e => rw [← e, hh, Option.map_some, s.handing_self]
  · next e =>
    cases hy : s.head y with
    | none => rfl
    | some v =>
      obtain ⟨hv, hvy⟩ := State.head_mem hy
      rw [Option.map_some, State.handing_other (fun es => e ?_)]
      obtain rfl := h.inj hv hw es
      rw [← hx, hvy]

/-- A hand over of a head whose start is reached keeps lists, lanes and Tally Units (01 R3, R13, 07 R105, 08 R122). -/
theorem Lists.handOver {s : State} (h : Lists s) {x : Track} {w : Window} (hh : s.head x = some w) (hp : w.state = .pending)
    (hs : w.start ≤ s.epoch) : Lists (s.handOver w) := by
  obtain ⟨hw, hx⟩ := State.head_mem hh
  have hwin := windows_handing s w
  have hk := s.handing_keeps w
  have hep : (s.handOver w).epoch = s.epoch := (handOver_rest s w).2.2.2.2
  have hact : (w.handed s.epoch (s.carriedFor w)).state = .active := (w.handed_times _ _).2
  have hhead := head_handOver h.slots hh
  have hrun : ∀ y, (s.handOver w).running y = if x = y then some (w.handed s.epoch (s.carriedFor w)) else s.running y := by
    intro y
    unfold State.running
    rw [hhead]
    split
    · rw [Option.filter_some, if_pos (by simp [hact])]
    · rfl
  refine ⟨?_, h.track.map hwin hk
    (fun _ v _ _ _ e => by rw [s.handing_stop]; exact e) (fun y v hv => ?_), fun u hu => ?_, fun l => ?_, fun k => ?_⟩
  · show ((s.handOver w).windows.map Window.slot).Nodup
    rw [hwin, hk.map_slot]; exact h.slots
  · have hpv := (h.track.2 y).2 v hv
    have hvm := (s.mem_trackList y v).mp (List.mem_of_mem_tail hv)
    rw [State.handing_other (fun es => ?_)]
    · exact hpv
    · obtain rfl := h.slots.inj hvm.1 hw es
      have hxy : x = y := hx.symm.trans hvm.2
      subst hxy
      unfold State.head at hh
      have hnd : (s.trackList x).Nodup := (List.Nodup.of_map _ h.slots).sublist List.filter_sublist
      cases hl : s.trackList x with
      | nil => rw [hl] at hh; cases hh
      | cons a l =>
        rw [hl] at hh hv hnd
        cases hh
        exact (List.nodup_cons.mp hnd).1 hv
  · rw [hwin] at hu
    obtain ⟨v, hv, rfl⟩ := List.mem_map.mp hu
    obtain ⟨t1, t2, t3⟩ := h.times v hv
    rw [hep]
    by_cases es : v.slot = w.slot
    · obtain rfl := h.slots.inj hv hw es
      have hlen := t1
      have hpe := t2 hp
      refine ⟨by rw [(hk v).start, s.handing_stop]; exact t1, fun e => ?_, fun _ => ?_⟩
      · rw [s.handing_self, hact] at e; cases e
      · rw [(hk v).start, s.handing_stop]
        refine ⟨hs, ?_⟩
        rw [BitVec.le_def] at hpe ⊢
        rw [BitVec.lt_def] at hlen
        omega
    · rw [State.handing_other es]
      exact ⟨t1, t2, t3⟩
  · have hl := h.lanes l
    unfold State.laneLawful at hl ⊢
    rw [hrun, hhead, hep, lane_handOver, hx]
    by_cases e : x = laneTrack l
    · rw [if_pos e, if_pos e, if_pos e]
      dsimp only
      rw [handed_lane (hx.trans e)]
      exact decide_eq_true (fun _ => rfl)
    · rw [if_neg e, if_neg e, if_neg e]
      exact hl
  · have hl := h.tallies k
    rw [hrun, hhead, hep, tally_handOver, hx]
    by_cases e : x = senseTrack k
    · rw [if_pos e, if_pos e, if_pos e]
      exact ⟨by rw [Option.map_some, (w.handed_alike _ _).slot], Nat.zero_le _, fun _ => rfl, .inl rfl⟩
    · rw [if_neg e, if_neg e, if_neg e]
      exact hl

/-! ### WINDOW_START -/

theorem State.checkLimit_below {s : State} {i : Slot} (h : ∀ w, s.windowAt i = some w → w.limitReached = false) :
    s.checkLimit i = s := by
  rcases s.checkLimit_cases i with e | ⟨w, hw, hl, _⟩
  · exact e
  · rw [h w hw] at hl
    cases hl

/-- The START record of one window (01 R13). -/
theorem post_startRecord (s : State) (e : Epoch) (w : Window) : s.postUnordered ([w].filterMap (startRecord e)) =
    s.setPort w.owner ((s.port w.owner).appendAll (startRecords e w)) := by
  unfold startRecords
  by_cases h : w.noteStart = true
  · have hr : [w].filterMap (startRecord e) = [(w.owner, .start w.handle w.tag e)] := by simp [startRecord, h]
    rw [hr, if_pos h]
    rfl
  · have hr : [w].filterMap (startRecord e) = [] := by simp [startRecord, h]
    rw [hr, if_neg h]
    exact (s.setPort_self w.owner).symm

/-- The start of one window: hand over, START record, and the check of its limit (01 R13, 08 R134). -/
theorem startAll_one (s : State) (w : Window) : s.startAll [w] =
    ((s.handOver w).setPort w.owner ((s.port w.owner).appendAll (startRecords s.epoch w))).checkLimit w.slot := by
  have h : s.startAll [w] = ((s.handOver w).postUnordered ([w].filterMap (startRecord s.epoch))).checkLimit w.slot := rfl
  have hp : (s.handOver w).port w.owner = s.port w.owner := by
    unfold State.port; rw [(handOver_rest s w).2.2.1]
  rw [h, post_startRecord, hp]

theorem exec_windowStart {s : State} {x : Track} {w : Window} (hh : s.head x = some w) (hp : w.state = .pending)
    (hb : w.bundle = none) (hs : w.start ≤ s.epoch) : exec (.windowStart x) s = .next (s.startAll [w]) := by
  have hdue : s.startDue x = some w := by
    unfold State.startDue
    rw [hh, Option.filter_some, if_pos (by simp [hp, hb, hs])]
  show execWindowStart x s = _
  unfold execWindowStart
  rw [hdue]

theorem Lawful.window {s : State} (h : Lawful s) {w : Window} (hw : w ∈ s.windows) : w.lawful s := by
  obtain ⟨_, _, _, _, _, _, hl, _, _⟩ := h
  exact hl w hw

theorem isTally_of_sense {k : Sense} {sh : Shape} (h : kindFits (senseTrack k) sh = true) : ∃ e l, sh = .tally e l := by
  unfold kindFits senseTrack at h
  cases sh with
  | tally e l => exact ⟨e, l, rfl⟩
  | _ => simp [Shape.isTally] at h

theorem isTally_of_lane {l : Lane} {sh : Shape} (h : kindFits (laneTrack l) sh = true) : sh.isTally = false := by
  unfold kindFits laneTrack at h
  have := l.isLt
  cases sh with
  | tally e l => simp [Shape.isTally] at h; omega
  | _ => rfl

theorem Window.limitReached_of_not_tally {w : Window} (h : w.shape.isTally = false) : w.limitReached = false := by
  unfold Window.limitReached
  cases hs : w.shape with
  | tally e l => rw [hs] at h; cases h
  | _ => rfl

/-- The record in the slot of a window that was handed over. -/
theorem windowAt_handed {s t : State} (h : s.SlotsDistinct) {w v : Window} (hw : w ∈ s.windows)
    (ht : t.windows = s.windows.map (s.handing w)) (hv : t.windowAt w.slot = some v) :
    v = w.handed s.epoch (s.carriedFor w) := by
  obtain ⟨hv, es⟩ := State.windowAt_mem hv
  rw [ht] at hv
  obtain ⟨u, hu, rfl⟩ := List.mem_map.mp hv
  rw [(s.handing_keeps w u).slot] at es
  obtain rfl := h.inj hu hw es
  exact s.handing_self u

/-- Settles O46: a window on a lane has no limit, so its start is the hand over and the START record. -/
theorem windowsStartOnLanes : Obligations.WindowsStartOnLanes := by
  intro l w s hl hh hp hb hs
  obtain ⟨hw, hx⟩ := State.head_mem hh
  have hn := hl.lists.slots
  obtain ⟨hk, _⟩ := hl.window hw
  rw [exec_windowStart hh hp hb hs, startAll_one, State.checkLimit_below, handOver_lane s hx]
  · rfl
  · intro v hv
    obtain rfl := windowAt_handed hn hw (windows_handing s w) hv
    refine Window.limitReached_of_not_tally ?_
    rw [(w.handed_alike _ _).shape]
    exact isTally_of_lane (by rw [← hx]; exact hk)

/-- Edges that a limit leaves room for are all counted (08 R125). -/
theorem TallyRun.countEdges_of_room (r : TallyRun) (te : Epoch) {limit : Option (BitVec 24)} {n : Nat}
    (h : ∀ l, limit = some l → r.count + n ≤ l.toNat) : r.countEdges te limit n = if n = 0 then r else
      { count := min (r.count + n) tallyMax
        saturated := r.saturated || decide (tallyMax < r.count + n)
        firstEdge := r.firstEdge <|> some te
        lastEdge := some te } := by
  unfold TallyRun.countEdges
  cases limit with
  | none => rfl
  | some l =>
    have := h l rfl
    dsimp only
    rw [Nat.min_eq_left (by omega : n ≤ l.toNat - r.count)]

/-- What a first run of a TALLY window becomes with edges carried below its limit (08 R134). -/
theorem Window.handed_below {w : Window} {e : EdgeKind} {lim : Option (BitVec 24)} {epoch : Epoch} {n : Nat}
    (hs : w.shape = .tally e lim) (hr : w.run = w.shape.firstRun) (hmax : n ≤ tallyMax)
    (hlt : ∀ l, lim = some l → n < l.toNat) : w.handed epoch n = w.started epoch n := by
  have hrun : w.run = .tally { count := 0, saturated := false, firstEdge := none, lastEdge := none } := by
    rw [hr, hs]; rfl
  unfold Window.handed Window.countEdges Window.started
  dsimp only
  rw [hs, hrun]
  dsimp only
  rw [TallyRun.countEdges_of_room]
  · have : ¬ tallyMax < n := not_lt.mpr hmax
    by_cases h0 : n = 0
    · rw [if_pos h0, if_pos h0]
    · rw [if_neg h0, if_neg h0]
      simp [this, Nat.min_eq_left hmax]
  · intro l hl
    have := hlt l hl
    show 0 + n ≤ l.toNat
    omega

/-- What a first run of a TALLY window becomes with edges carried that reach its limit (08 R126, R134). -/
theorem Window.handed_limit {w : Window} {e : EdgeKind} {l : BitVec 24} {epoch : Epoch} {n : Nat}
    (hs : w.shape = .tally e (some l)) (hr : w.run = w.shape.firstRun) (hl : 1 ≤ l.toNat) (hle : l.toNat ≤ n) :
    (w.handed epoch n).run =
      .tally { count := l.toNat, saturated := false, firstEdge := some epoch, lastEdge := some epoch } := by
  have hrun : w.run = .tally { count := 0, saturated := false, firstEdge := none, lastEdge := none } := by
    rw [hr, hs]; rfl
  have hmax : l.toNat ≤ tallyMax := by
    have := l.isLt
    unfold tallyMax
    omega
  unfold Window.handed Window.countEdges
  dsimp only
  rw [hs, hrun]
  dsimp only
  unfold TallyRun.countEdges
  have h0 : l.toNat ≠ 0 := by omega
  simp [Nat.min_eq_right hle, h0, Nat.min_eq_left hmax, not_lt.mpr hmax]

/-- A hand over to a sense track (01 R13, 08 R122, R134). -/
theorem handOver_sense {s : State} (h : s.SlotsDistinct) {w : Window} {k : Sense} (hw : w ∈ s.windows) (hk : w.track = senseTrack k) :
    s.handOver w = { s with
      windows := s.windows.map (fun v => if v.slot = w.slot then w.handed s.epoch (s.carriedFor w) else v)
      tallies := s.tallies.set k { s.tally k with counting := some w.slot, hold := none, carried := 0 } } := by
  have hwin : s.windows.map (fun v => if v.slot = w.slot then w.handed s.epoch (s.carriedFor w) else v) =
      (s.handOver w).windows := by
    rw [windows_handOver]
    refine List.map_congr_left (fun v hv => ?_)
    by_cases e : v.slot = w.slot
    · rw [h.inj hv hw e]
    · rw [if_neg e, if_neg e]
  rw [hwin]
  unfold State.handOver
  rw [hk, laneOf_senseTrack, senseOf_senseTrack]
  rfl

theorem endingRecord_tally {w : Window} {e : EdgeKind} {lim : Option (BitVec 24)} {r : TallyRun} (hs : w.shape = .tally e lim)
    (hr : w.run = .tally r) (epoch : Epoch) (reason : Reason) : endingRecord epoch reason w =
      some (w.owner, .tally w.handle w.tag epoch reason r.count r.saturated r.firstEdge r.lastEdge) := by
  unfold endingRecord
  rw [hs, hr]

theorem endRecords_tally {w : Window} {e : EdgeKind} {lim : Option (BitVec 24)} {r : TallyRun} (hs : w.shape = .tally e lim)
    (hr : w.run = .tally r) (epoch : Epoch) (reason : Reason) : endRecords epoch reason w =
      [.tally w.handle w.tag epoch reason r.count r.saturated r.firstEdge r.lastEdge] := by
  unfold endRecords
  rw [hs, hr]

theorem PortUnit.appendAll_retired (u : PortUnit) (ws : List Window) (rs rs' : List EventRecord) (e : Epoch) :
    (u.appendAll rs).retired ws rs' e = u.retired ws (rs ++ rs') e := by
  have h := u.appendAll_eq rs
  have h1 : (u.appendAll rs).held = u.held := by rw [h]
  have h2 : (u.appendAll rs).bundlesWithout ws = u.bundlesWithout ws := by rw [h]; rfl
  have h3 : (u.appendAll rs).endsWith ws.length = u.endsWith ws.length := by rw [h]; rfl
  unfold PortUnit.retired
  rw [h1, h2, h3, PortUnit.appendAll_append]

/-- Handing a sense track's head over makes no difference to what its departure leaves of the Tally Units. -/
theorem settledTally_of_handed {s x t : State} (h : Lists s) {w v : Window} {k : Sense} (hh : s.head (senseTrack k) = some w)
    (hp : w.state = .pending) (hv : v.slot = w.slot ∧ v.state = .active) (hxe : x.epoch = s.epoch)
    (hxh : ∀ y, x.head y = if senseTrack k = y then some v else s.head y)
    (hxt : ∀ j, x.tally j = if senseTrack k = senseTrack j then
      { s.tally j with counting := some w.slot, hold := none, carried := 0 } else s.tally j)
    (hgone : ∀ y, ∀ v ∈ t.trackList y, v ∈ s.trackList y ∧ v.slot ≠ w.slot) (j : Sense) :
    settledTally x t j = settledTally s t j := by
  obtain ⟨hw, _⟩ := State.head_mem hh
  by_cases e : senseTrack k = senseTrack j
  · obtain rfl := senseTrack_injective e
    have hsr : s.running (senseTrack k) = none :=
      State.running_eq_none.mpr (fun v hv => by rw [hh] at hv; cases hv; exact hp)
    have hxr : x.running (senseTrack k) = some v :=
      State.running_eq_some.mpr ⟨by rw [hxh, if_pos rfl], hv.2⟩
    have hcount := (h.tallies k).1
    rw [hsr] at hcount
    have hne : t.head (senseTrack k) ≠ s.head (senseTrack k) := by
      rw [hh]
      exact fun hx => (hgone _ w (List.mem_of_mem_head? hx)).2 rfl
    have hnone : (t.head (senseTrack k)).filter (fun v => decide (v.start = x.epoch)) = none := by
      rw [Option.filter_eq_none_iff]
      intro y hy
      obtain ⟨hvs, hvn⟩ := hgone _ y (List.mem_of_mem_head? hy)
      have h1 := (h.track.head hh hvs (fun e => hvn (by rw [e]))).1
      have h2 := (h.times w hw).length
      have h4 := (h.times w hw).pending hp
      rw [BitVec.le_def] at h1 h4
      rw [BitVec.lt_def] at h2
      rw [decide_eq_true_eq, hxe]
      intro h3
      rw [h3] at h1
      omega
    unfold settledTally
    rw [hxr, hsr, hnone, hxt, if_pos rfl]
    dsimp only
    rw [if_neg, if_neg hne, hcount]
    · rfl
    · intro hx
      obtain ⟨y, hyt, ev⟩ := List.mem_map.mp hx
      rw [hv.1] at ev
      exact (hgone _ y hyt).2 ev
  · have hr : x.running (senseTrack j) = s.running (senseTrack j) := by
      unfold State.running
      rw [hxh, if_neg e]
    unfold settledTally
    rw [hr, hxh, if_neg e, hxt, if_neg e, hxe]

/-- A window handed to a sense track and told, at once retired: the same as the window's own retirement before its start (08 R134). -/
theorem Retired.of_handed {s x t : State} (h : Lists s) {w : Window} {k : Sense} (hh : s.head (senseTrack k) = some w)
    (hp : w.state = .pending) {us rs : List EventRecord}
    (hx : x = (s.handOver w).setPort w.owner ((s.port w.owner).appendAll us))
    (ht : Retired x t [w.handed s.epoch (s.carriedFor w)] w.owner rs) : Retired s t [w] w.owner (us ++ rs) := by
  obtain ⟨hw, hk⟩ := State.head_mem hh
  obtain ⟨⟨h1, h2, h3, h4, h5, h6, h7⟩, h8, h9⟩ := ht
  have hv := w.handed_alike s.epoch (s.carriedFor w)
  have hxe : x.epoch = s.epoch := by rw [hx]; exact (handOver_rest s w).2.2.2.2
  have hxw : x.windows = s.windows.map (s.handing w) := by rw [hx]; exact windows_handing s w
  have hxp : ∀ q, x.port q = if w.owner = q then (s.port w.owner).appendAll us else s.port q := by
    intro q
    rw [hx, State.port_setPort]
    unfold State.port
    rw [(handOver_rest s w).2.2.1]
  have hxh : ∀ y, x.head y = if senseTrack k = y then some (w.handed s.epoch (s.carriedFor w)) else s.head y := by
    intro y
    rw [hx]
    exact head_handOver h.slots hh y
  have hxt : ∀ j, x.tally j = if senseTrack k = senseTrack j then
      { s.tally j with counting := some w.slot, hold := none, carried := 0 } else s.tally j := by
    intro j
    rw [hx, ← hk]
    exact tally_handOver s w j
  have htw : t.windows = s.windows.filter (fun v => !v.among [w]) := by
    rw [h1, hxw, filter_map_of_keeps (c := fun v => !v.among [w.handed s.epoch (s.carriedFor w)])
      (fun v => by unfold Window.among; rw [(s.handing_keeps w v).slot])]
    have hc : s.windows.filter (fun v => !v.among [w.handed s.epoch (s.carriedFor w)]) = s.windows.filter (fun v => !v.among [w]) :=
      List.filter_congr (fun v _ => by simp only [Window.among, List.any_cons, List.any_nil, hv.slot])
    rw [hc]
    refine (List.map_congr_left (fun v hv => State.handing_other (fun e => ?_))).trans (List.map_id _)
    have := (List.mem_filter.mp hv).2
    simp [Window.among, e] at this
  have hgone : ∀ y, ∀ v ∈ t.trackList y, v ∈ s.trackList y ∧ v.slot ≠ w.slot := by
    intro y v hv
    obtain ⟨hv, hy⟩ := (t.mem_trackList y v).mp hv
    rw [htw] at hv
    obtain ⟨hv, hne⟩ := List.mem_filter.mp hv
    refine ⟨(s.mem_trackList y v).mpr ⟨hv, hy⟩, fun e => ?_⟩
    simp [Window.among, e] at hne
  have hxends : (x.port w.owner).endsWith 1 = (s.port w.owner).endsWith 1 := by
    rw [hxp, if_pos rfl, (s.port w.owner).appendAll_eq us]
    rfl
  have hxc : x.claimants = s.claimants := by rw [hx]; exact (handOver_rest s w).1
  refine ⟨⟨htw, ?_, fun j q => ?_, fun l => ?_, fun j => ?_, fun q hq => ?_, ?_⟩, ?_, fun y => ?_⟩
  · rw [h2, hx]
    exact (handOver_rest s w).2.2.2.1
  · have hr : x.refs j q = s.refs j q := by rw [hx]; exact State.refs_congr (handOver_rest s w).2.1 j q
    rw [h3, hr]
    simp only [List.filter_cons, List.filter_nil, hv.shape]
    by_cases e : w.shape.source = some j
    · simp [e]
    · simp [e]
  · rw [h4]
    have : x.lane l = s.lane l := by
      rw [hx]
      refine (lane_handOver s w l).trans (if_neg (fun e => ?_))
      have h1 := laneOf_senseTrack k
      rw [← hk, e, laneOf_laneTrack] at h1
      cases h1
    rw [this]
  · rw [h5]
    exact settledTally_of_handed h hh hp ⟨hv.slot, (w.handed_times _ _).2⟩ hxe hxh hxt hgone j
  · rw [h6 q hq, hxp, if_neg (fun e => hq e.symm)]
  · have hsx : SameTimebase s x := by rw [hx]; exact timebase_handOver s w
    exact hsx.trans h7
  · rw [h8, hxp, if_pos rfl, hxe, PortUnit.appendAll_retired]
    have hbw : ∀ u : PortUnit, u.bundlesWithout [w.handed s.epoch (s.carriedFor w)] = u.bundlesWithout [w] :=
      fun u => vector_ext_fin (fun b => by rw [bundlesWithout_get, bundlesWithout_get]; simp [hv.bundleNo])
    unfold PortUnit.retired
    rw [hbw]
    rfl
  · rw [h9 y, State.claimant_congr hxc, List.length_singleton, hxends]
    rfl

/-- The end at its limit of a window of no bundle (08 R126). -/
theorem checkLimit_reached {s : State} (h : s.SlotsDistinct) {w : Window} (hw : w ∈ s.windows) (hl : w.limitReached = true)
    (hb : w.bundle = none) :
    s.checkLimit w.slot = s.retire (fun v => if v.slot = w.slot then .limit else .bundleLimit) [w] := by
  unfold State.checkLimit
  rw [State.windowAt_eq h hw]
  dsimp only
  rw [if_pos hl]
  unfold State.endByLimit
  rw [State.unitOf_unbundled h hw hb]

/-- A window handed a carry below its limit has not reached it. -/
theorem Window.limitReached_started_below {w : Window} {e : EdgeKind} {lim : Option (BitVec 24)} {epoch : Epoch} {c : Nat}
    (hshape : w.shape = .tally e lim) (hrun : w.run = w.shape.firstRun) (hbelow : ∀ l, lim = some l → c < l.toNat) :
    (w.started epoch c).limitReached = false := by
  unfold Window.limitReached Window.started
  dsimp only
  rw [hshape, hrun, hshape]
  cases lim with
  | none => rfl
  | some l =>
    have hlt := hbelow l rfl
    dsimp only [Shape.firstRun]
    by_cases h0 : c = 0
    · rw [if_pos h0]
      exact decide_eq_false (by dsimp only; omega)
    · rw [if_neg h0]
      exact decide_eq_false (by dsimp only; omega)

theorem Lists.carriedFor_le {s : State} (h : Lists s) {w : Window} {k : Sense} (hk : w.track = senseTrack k) :
    s.carriedFor w ≤ tallyMax := by
  unfold State.carriedFor
  rw [hk, senseOf_senseTrack]
  dsimp only
  split
  · exact (h.tallies k).2.1
  · exact Nat.zero_le _

theorem Shape.limit_tally_eq_some {e : EdgeKind} {lim : Option (BitVec 24)} {n : Nat} :
    (Shape.tally e lim).limit = some n ↔ ∃ l : BitVec 24, lim = some l ∧ n = l.toNat := by
  cases lim with
  | none => simp [Shape.limit]
  | some l => simp [Shape.limit, eq_comm]

/-- A window whose carry reaches its limit is told and retired in the step that hands it over (08 R126, R134). -/
theorem checkLimit_handed {s : State} (hl : Lawful s) {w : Window} {k : Sense} (hh : s.head (senseTrack k) = some w)
    (hp : w.state = .pending) (hb : w.bundle = none) (hs : w.start ≤ s.epoch) {e : EdgeKind} {l : BitVec 24}
    (hshape : w.shape = .tally e (some l)) (hrun : w.run = w.shape.firstRun) (h1 : 1 ≤ l.toNat)
    (hle : l.toNat ≤ s.carriedFor w) :
    Retired s (((s.handOver w).setPort w.owner ((s.port w.owner).appendAll (startRecords s.epoch w))).checkLimit w.slot)
      [w] w.owner (startRecords s.epoch w ++
        [.tally w.handle w.tag s.epoch .limit l.toNat false (some s.epoch) (some s.epoch)]) := by
  obtain ⟨hw, hk⟩ := State.head_mem hh
  have hL := hl.lists
  have hst := Window.handed_limit (epoch := s.epoch) hshape hrun h1 hle
  have hrest := handOver_rest s w
  have hv := w.handed_alike s.epoch (s.carriedFor w)
  generalize hx : (s.handOver w).setPort w.owner ((s.port w.owner).appendAll (startRecords s.epoch w)) = x
  have hLx : Lists x := by
    rw [← hx]
    exact SameLists.lists (s := s.handOver w) (.of_eq rfl rfl rfl rfl) (hL.handOver hh hp hs)
  have hxe : x.epoch = s.epoch := by rw [← hx]; exact hrest.2.2.2.2
  have hxh : (x.port w.owner).held = (s.port w.owner).held := by
    rw [← hx, State.port_setPort, if_pos rfl]
    exact (PortUnit.quiet_appendAll _ _).held
  have hmem : w.handed s.epoch (s.carriedFor w) ∈ x.windows := by
    rw [← hx, ← s.handing_self w]
    show _ ∈ (s.handOver w).windows
    rw [windows_handing]
    exact List.mem_map_of_mem hw
  have hret := fun t => Retired.of_handed (t := t) (us := startRecords s.epoch w)
    (rs := [.tally w.handle w.tag s.epoch .limit l.toNat false (some s.epoch) (some s.epoch)]) hL hh hp hx.symm
  have htag : (w.handed s.epoch (s.carriedFor w)).tag = w.tag := by rw [hv]
  rw [← hv.slot]
  generalize w.handed s.epoch (s.carriedFor w) = v at hv hst hmem hret htag ⊢
  have hvs : v.shape = .tally e (some l) := hv.shape.trans hshape
  obtain ⟨t, rs, hperm, he, h2, h3, h4⟩ := retire_left hLx (p := w.owner) (ws := [v])
    (reason := fun u => if u.slot = v.slot then .limit else .bundleLimit) (List.cons_ne_nil _ _)
    (fun u hu => by rw [List.mem_singleton.mp hu]; exact ⟨hmem, hv.owner⟩) (List.nodup_singleton _)
    (fun u hu => by
      rw [List.mem_singleton.mp hu, endingRecord_tally hvs hst, endRecords_tally hvs hst, hv.owner]
      rfl)
  rw [List.flatMap_singleton, if_pos rfl] at hperm
  have hrs := perm_eq_of_length_le_one hperm (endRecords_le_one _ _ _)
  rw [endRecords_tally hvs hst, hv.handle, htag, hxe] at hrs
  rw [checkLimit_reached hLx.slots hmem (by unfold Window.limitReached; rw [hvs, hst]; simp) (hv.bundle.trans hb), he]
  exact hret _ (retired_of_left (List.cons_ne_nil _ _) (by rw [hxh]; exact hl.held_pos hw) h2 h3 (hrs ▸ h4))

/-- Settles O47: below its limit the window counts what was carried for it; at its limit it retires at once. -/
theorem windowsStartOnSenseTracks : Obligations.WindowsStartOnSenseTracks := by
  intro k w s hl hh hp hb hs
  obtain ⟨hw, hk⟩ := State.head_mem hh
  have hslots := hl.lists.slots
  obtain ⟨hkind, hrange, _, _, _, hpend, _⟩ := hl.window hw
  obtain ⟨e, lim, hshape⟩ := isTally_of_sense (by rw [← hk]; exact hkind)
  have hrun := (hpend hp).2
  rw [exec_windowStart hh hp hb hs, startAll_one, hshape]
  simp only [Shape.limit_tally_eq_some]
  refine ⟨fun hbelow => ?_, fun n hn hle => ?_⟩
  · have hlt : ∀ l, lim = some l → s.carriedFor w < l.toNat := fun l hlm => hbelow l.toNat ⟨l, hlm, rfl⟩
    have hst := Window.handed_below (epoch := s.epoch) hshape hrun (hl.lists.carriedFor_le hk) hlt
    rw [State.checkLimit_below, handOver_sense hslots hw hk, hst]
    · rfl
    · intro v hv
      obtain rfl := windowAt_handed hslots hw (windows_handing s w) hv
      rw [hst]
      exact Window.limitReached_started_below hshape hrun hlt
  · obtain ⟨l, rfl, rfl⟩ := hn
    have h1 : 1 ≤ l.toNat := by rw [hshape] at hrange; simpa [Shape.inRange] using hrange
    exact ⟨_, rfl, checkLimit_handed hl hh hp hb hs hshape hrun h1 hle⟩

/-! ### Reset -/

/-- A part without windows, its lanes IDLE and its Tally Units at rest, has lawful lists. -/
theorem Lists.of_empty {s : State} (hw : s.windows = []) (hl : ∀ l, (s.lane l).drive = .idle)
    (ht : ∀ k, (s.tally k).counting = none ∧ (s.tally k).hold = none ∧ (s.tally k).carried = 0) : Lists s := by
  have hlist : ∀ x, s.trackList x = [] := fun x => by unfold State.trackList; rw [hw]; rfl
  have hhead : ∀ x, s.head x = none := fun x => by unfold State.head; rw [hlist]; rfl
  have hrun : ∀ x, s.running x = none := fun x => by unfold State.running; rw [hhead]; rfl
  refine ⟨?_, ⟨?_, fun x => ?_⟩, fun w h => ?_, fun l => ?_, fun k => ?_⟩
  · show (s.windows.map Window.slot).Nodup
    rw [hw]; exact List.nodup_nil
  · rw [hw]; exact List.Pairwise.nil
  · rw [hlist]; exact ⟨List.Pairwise.nil, fun v hv => by cases hv⟩
  · rw [hw] at h; cases h
  · unfold State.laneLawful
    rw [hrun, hl l]
    simp
  · obtain ⟨t1, t2, t3⟩ := ht k
    rw [hrun, t1, t2, t3]
    exact ⟨rfl, Nat.zero_le _, fun _ => rfl, .inl rfl⟩

theorem reset_port (p : Port) : State.reset.port p = PortUnit.reset := by simp [State.reset, State.port]

/-- The reset state is what RESETn leaves, as far as any law of records reads it. -/
theorem sameBooks_reset : SameBooks State.reset.cleared State.reset :=
  ⟨rfl, rfl, rfl, fun p => by rw [resets_port, reset_port]; exact .refl _⟩

/-- Settles O56: the reset state has no windows, and its ports are at rest. -/
theorem resetIsLawful : Obligations.ResetIsLawful := by
  have hL : Lists State.reset := Lists.of_empty rfl (fun l => by simp [State.reset, State.lane, LaneDriver.reset])
    (fun k => by simp [State.reset, State.tally, TallyUnit.reset])
  refine ⟨fun p => ?_, Nat.zero_lt_one, sameBooks_reset.recordLaws (recordLaws_cleared _), fun p hp => ?_,
    fun w hw => (List.not_mem_nil hw).elim, hL.track, fun w hw => (List.not_mem_nil hw).elim, hL.lanes, hL.tallies⟩
  · rw [reset_port]
    exact ⟨Nat.zero_le _, Nat.zero_le _, fun h => absurd h (Nat.lt_irrefl 0)⟩
  · rw [reset_port] at hp
    cases hp

end Sys2Proof.Machine
end

