-- ==== Sys2Proof/Proofs/Admission.lean ====
section
/-! PROOFS. RESERVE: the windows displaced, the slot taken and the record inserted, against what the reply and the rest of the part show. -/

namespace Sys2Proof.Machine

/-! ### Windows that are not yet due leave -/

/-- No window whose start is reached left: lanes and Tally Units are what they were (07 R105, 08 R122). -/
theorem Thinned.undisturbed {s t : State} (h : Thinned s t) (hs : Lists s) (hk : ∀ w ∈ s.windows, w.start ≤ s.epoch → w ∈ t.windows) :
    (∀ l, t.lane l = s.lane l) ∧ ∀ k, t.tally k = s.tally k := by
  have hkeep : ∀ {x w}, w ∈ s.trackList x → w.start ≤ s.epoch → w ∈ t.trackList x := by
    intro x w hw hle
    obtain ⟨hw, hx⟩ := (s.mem_trackList x w).mp hw
    exact (t.mem_trackList x w).mpr ⟨hk w hw hle, hx⟩
  have ht := h.lists hs
  refine ⟨fun l => ?_, fun k => ?_⟩
  · rw [h.lanes l]
    by_cases hb : s.Busy (laneTrack l)
    · obtain ⟨w, hw, hc⟩ := hb
      have hle : w.start ≤ s.epoch := by
        rcases hc with ha | he
        · exact ((hs.times w ((s.mem_trackList _ w).mp hw).1).active ha).1
        · rw [he]; exact BitVec.le_refl _
      exact ht.settledLane_of_busy ⟨w, hkeep hw hle, by rw [h.epoch]; exact hc⟩ _
    · have h1 := hs.settledLane_self l
      rw [State.settledLane_of_not_busy hb] at h1
      rw [State.settledLane_of_not_busy]
      · exact h1
      · rintro ⟨w, hw, hc⟩
        exact hb ⟨w, h.mem_trackList hw, by rw [← h.epoch]; exact hc⟩
  · rw [h.tallies k]
    unfold settledTally
    cases hr : s.running (senseTrack k) with
    | some w =>
      obtain ⟨hw, ha⟩ := State.running_mem hr
      have hle := ((hs.times w ((s.mem_trackList _ w).mp hw).1).active ha).1
      exact if_pos (List.mem_map_of_mem (hkeep hw hle))
    | none =>
      dsimp only
      split
      · rfl
      · next hne =>
        rcases hs.hold_cases k with ⟨h1, h2⟩ | ⟨w, hh, _, he, _⟩
        · rw [← h1, ← h2]
        · refine absurd ?_ hne
          have hw : w ∈ s.trackList (senseTrack k) := List.mem_of_mem_head? hh
          rw [hh]
          refine ht.head_of_first (hkeep hw (by rw [he]; exact BitVec.le_refl _)) (fun v hv hvw => ?_)
          exact (hs.track.head hh (h.mem_trackList hv) hvw).1

/-- What a displacement is: other ports are told, the bumped windows leave, the truncated ones end at the new start (03 R42 to R53). -/
theorem displace_stages {s : State} (h : Lists s) (p : Port) (priority : Fin 4) (tracks : List Track) (start stop : Epoch) :
    ∃ (rs : List (Port × EventRecord)) (y : State),
      rs.Perm ((s.displaced p priority tracks start stop).map (displacedRecord s.epoch priority start)) ∧
      Thinned s y ∧ SameTimebase s y ∧ y.claimants = s.claimants ∧
      y.windows = s.windows.filter (fun v => !v.among (bumpedOf start (s.displaced p priority tracks start stop))) ∧
      (∀ k q, y.refs k q = s.refs k q - ((bumpedOf start (s.displaced p priority tracks start stop)).filter
        (fun w => decide (w.owner = q) && decide (w.shape.source = some k))).length) ∧
      (∀ q, y.port q = { (s.port q).appendAll (recordsFor q rs) with
        held := (s.port q).held - ((bumpedOf start (s.displaced p priority tracks start stop)).filter
          (fun w => decide (w.owner = q))).length
        bundles := (s.port q).bundlesWithout ((bumpedOf start (s.displaced p priority tracks start stop)).filter
          (fun w => decide (w.owner = q))) }) ∧
      s.displace p priority tracks start stop =
        y.setStops (truncatedOf start (s.displaced p priority tracks start stop)) start := by
  obtain ⟨rs, n, hp, he⟩ := s.displace_spec p priority tracks start stop
  have hb : (s.displaced p priority tracks start stop).filter (fun w => decide (¬ w.start < start)) =
      bumpedOf start (s.displaced p priority tracks start stop) := by
    unfold bumpedOf
    refine List.filter_congr (fun w _ => ?_)
    simp only [BitVec.not_lt]
  rw [hb] at he
  generalize hx : ({ s with
    ports := Vector.ofFn (fun q => (s.port q).appendAll (recordsFor q rs)), freeCount := n } : State) = x at he
  have hport : ∀ q, x.port q = (s.port q).appendAll (recordsFor q rs) := fun q => by rw [← hx]; exact vector_ofFn_get _ q
  have hin : ∀ w ∈ bumpedOf start (s.displaced p priority tracks start stop), w ∈ s.windows := fun w hw =>
    (List.mem_filter.mp (List.mem_filter.mp hw).1).1
  have hnd : ((bumpedOf start (s.displaced p priority tracks start stop)).map Window.slot).Nodup :=
    h.slots.sublist ((List.filter_sublist.trans List.filter_sublist).map _)
  have hth : Thinned x (x.leaveAll (bumpedOf start (s.displaced p priority tracks start stop))) := by
    refine leaveAll_thinned _ (SameLists.lists (s := s) ?_ h) (fun w hw => ?_) hnd
    · rw [← hx]; exact .of_eq rfl rfl rfl rfl
    · rw [← hx]; exact hin w hw
  refine ⟨rs, x.leaveAll (bumpedOf start (s.displaced p priority tracks start stop)), hp, ?_, ?_, ?_, ?_, fun k q => ?_,
    fun q => ?_, he⟩
  · obtain ⟨h1, h2, h3, h4, h5⟩ := hth
    rw [← hx] at h1 h2 h3 h4 h5 ⊢
    exact ⟨h1, h2, h3, h4, h5⟩
  · have : SameTimebase s x := by rw [← hx]; exact ⟨rfl, rfl, rfl, rfl, rfl, rfl⟩
    exact this.trans (timebase_leaveAll _ _)
  · rw [claimants_leaveAll, ← hx]
  · rw [windows_leaveAll, ← hx]
  · rw [State.refs_leaveAll, ← hx]
    rfl
  · rw [port_leaveAll_eq, hport]
    have e := (s.port q).appendAll_eq (recordsFor q rs)
    have e1 : ((s.port q).appendAll (recordsFor q rs)).held = (s.port q).held := by rw [e]
    have e2 : ∀ ws, ((s.port q).appendAll (recordsFor q rs)).bundlesWithout ws = (s.port q).bundlesWithout ws := by
      intro ws; rw [e]; rfl
    rw [e1, e2]

/-! ### Admission -/

theorem rest_setStops (s : State) (ws : List Window) (stop : Epoch) :
    (s.setStops ws stop).useCounts = s.useCounts ∧ (s.setStops ws stop).claimants = s.claimants ∧
      (s.setStops ws stop).trigRefs = s.trigRefs ∧ (s.setStops ws stop).lanes = s.lanes ∧
      (s.setStops ws stop).tallies = s.tallies := by
  obtain ⟨_, e⟩ := s.setStops_spec ws stop
  rw [e]
  exact ⟨rfl, rfl, rfl, rfl, rfl⟩

/-- The records of bundles after bumped windows left and truncated ones got their new end (03 R50, R51). -/
theorem bundlesDisplaced_eq (u v : PortUnit) (start : Epoch) (ws : List Window)
    (hv : v.bundles = u.bundlesWithout (bumpedOf start ws)) :
    (v.withStops (truncatedOf start ws) start).bundles = u.bundlesDisplaced start ws := by
  refine vector_ext_fin (fun b => ?_)
  rw [PortUnit.withStops_get, hv, bundlesWithout_get]
  unfold PortUnit.bundlesDisplaced
  rw [vector_ofFn_get]
  simp only [List.any_eq_true, decide_eq_true_eq]
  by_cases h1 : ∃ w ∈ bumpedOf start ws, w.bundleNo = some b
  · rw [if_pos h1, if_pos h1]
    split <;> rfl
  · rw [if_neg h1, if_neg h1]

/-- The slots that are free once the bumped windows are gone (01 R10, 03 R44). -/
theorem freeSlots_eq_slotsWithout {s t : State} {gone : List Window} {f : Window → Window} (hf : KeepsBookings f)
    (h : t.windows = (s.windows.filter (fun v => !v.among gone)).map f) : t.freeSlots = s.slotsWithout gone := by
  unfold State.freeSlots State.slotsWithout
  refine List.filter_congr (fun i _ => ?_)
  rw [h, List.all_map, List.all_filter]
  refine congrArg _ (funext fun v => ?_)
  simp only [Function.comp, (hf v).slot, Bool.not_not, Bool.or_comm]

/-- What a port is told of a displacement. -/
theorem recordsFor_displacedRecord (q : Port) (e : Epoch) (pr : Fin 4) (start : Epoch) (ds : List Window) :
    recordsFor q (ds.map (displacedRecord e pr start)) = (ds.filter (fun w => decide (w.owner = q))).map (fun w =>
      if w.start < start then .truncated w.handle w.tag e pr start else .bumped w.handle w.tag e pr) := by
  have hrec : ∀ v : Window, displacedRecord e pr start v = (v.owner,
      if v.start < start then .truncated v.handle v.tag e pr start else .bumped v.handle v.tag e pr) := by
    intro v
    unfold displacedRecord
    split <;> rfl
  unfold recordsFor
  rw [List.filter_map, List.map_map]
  refine (List.map_congr_left (fun v _ => ?_)).trans (congrArg _ (List.filter_congr (fun v _ => ?_)))
  · simp only [Function.comp, hrec]
  · simp only [Function.comp, hrec]

/-- A displacement and the insertion of one record of the port in the lowest free slot (02 R33 to R35). -/
theorem admitted_one {s : State} (h : Lists s) {p : Port} {b : Booking} {m : Member} (htime : s.epoch.toNat + 64 ≤ b.start.toNat)
    {i : Slot} {is : List Slot} (hi : (s.displace p m.priority [m.track] b.start b.stop).freeSlots = i :: is) :
    Admitted s ((s.displace p m.priority [m.track] b.start b.stop).insertWindow
        (newWindow (s.displace p m.priority [m.track] b.start b.stop) p b none m i)) p m.priority b.start
      (s.displaced p m.priority [m.track] b.start b.stop) [bookedWindow p b m none i (s.useCount i + 1)] := by
  obtain ⟨rs, y, hp, hth, htb, hcl, hwin, hrefs, hport, he⟩ := displace_stages h p m.priority [m.track] b.start b.stop
  generalize hd : s.displaced p m.priority [m.track] b.start b.stop = ds at *
  have hds : ∀ w ∈ ds, w ∈ s.windows := fun w hw => by rw [← hd] at hw; exact (List.mem_filter.mp hw).1
  obtain ⟨hlanes, htallies⟩ := hth.undisturbed h (fun w hw hle => by
    rw [hwin]
    refine List.mem_filter.mpr ⟨hw, ?_⟩
    rw [Bool.not_eq_true', ← Bool.not_eq_true, Window.among_eq_true]
    rintro ⟨v, hv, e⟩
    obtain ⟨hv, hst⟩ := List.mem_filter.mp hv
    rw [h.slots.inj (hds v hv) hw e, decide_eq_true_eq, BitVec.le_def] at hst
    rw [BitVec.le_def] at hle
    omega)
  generalize htx : s.displace p m.priority [m.track] b.start b.stop = x at *
  obtain ⟨r1, r2, r3, r4, r5⟩ := rest_setStops y (truncatedOf b.start ds) b.start
  rw [← he] at r1 r2 r3 r4 r5
  have hxw : x.windows = (s.windows.filter (fun v => !v.among (bumpedOf b.start ds))).map
      (fun v => if v.among (truncatedOf b.start ds) = true then { v with stop := b.start } else v) := by
    rw [he, windows_setStops, hwin]
  have hxu : x.useCounts = s.useCounts := r1.trans hth.useCounts
  have hnew : newWindow x p b none m i = bookedWindow p b m none i (s.useCount i + 1) := by
    unfold newWindow bookedWindow State.useCount
    rw [hxu]
  rw [hnew]
  generalize hw : bookedWindow p b m none i (s.useCount i + 1) = w
  have hwo : w.owner = p := by rw [← hw]; rfl
  have hws : w.slot = i := by rw [← hw]; rfl
  have hfield := x.insertWindow_eq w
  refine ⟨?_, ?_, fun j => ?_, fun k q => ?_, ?_, ?_, ?_, ?_, fun q hq => ?_⟩
  · rw [hfield]
    show insertByStart w x.windows = _
    rw [hxw]
    rfl
  · rw [← freeSlots_eq_slotsWithout (setStops_keeps _ b.start) hxw, hi, List.map_cons, hws]
    rfl
  · have hj : (x.insertWindow w).useCount j = if w.slot = j then w.useCount else x.useCount j := by
      rw [hfield]
      exact vector_get_set x.useCounts w.slot j w.useCount
    have hxj : x.useCount j = s.useCount j := by unfold State.useCount; rw [hxu]
    rw [hj, hxj, List.map_singleton]
    by_cases e : w.slot = j
    · rw [if_pos e, if_pos (List.mem_singleton.mpr e.symm), ← e, hws, ← hw]
      rfl
    · rw [if_neg e, if_neg (fun x => e (List.mem_singleton.mp x).symm)]
  · rw [refs_insertWindow, State.refs_congr r3, hrefs]
    congr 1
    by_cases e : q = p
    · rw [if_pos e]
      by_cases e' : w.shape.source = some k
      · simp [e, e', hwo]
      · simp [e']
    · rw [if_neg e, if_neg (fun x => e (x.1.symm.trans hwo))]
  · rw [hfield]
    exact vector_ext_fin (fun l => by
      show x.lanes[l] = _
      rw [r4]; exact hlanes l)
  · rw [hfield]
    exact vector_ext_fin (fun k => by
      show x.tallies[k] = _
      rw [r5]; exact htallies k)
  · rw [hfield]
    exact r2.trans hcl
  · rw [he]
    exact (htb.trans (timebase_setStops _ _ _)).trans (timebase_insertWindow _ _)
  · have hxp : (x.insertWindow w).port q = x.port q := by
      rw [port_insertWindow, if_neg (fun e => hq (e.symm.trans hwo))]
    refine ⟨recordsFor q rs, ?_, ?_⟩
    · exact (recordsFor_perm q hp).trans (List.Perm.of_eq (recordsFor_displacedRecord _ _ _ _ _))
    · have hbq : (bumpedOf b.start ds).filter (fun w => decide (w.owner = q)) = bumpedOf b.start (ds.filter (fun w => decide (w.owner = q))) :=
        List.filter_comm _ _ _
      have htq : (truncatedOf b.start ds).filter (fun w => decide (w.owner = q)) =
          truncatedOf b.start (ds.filter (fun w => decide (w.owner = q))) := List.filter_comm _ _ _
      have hyq := hport q
      rw [hbq] at hyq
      rw [hxp, he, State.port_setStops, htq, hbq]
      have hbun := bundlesDisplaced_eq (s.port q) (y.port q) b.start (ds.filter (fun w => decide (w.owner = q))) (by rw [hyq])
      have hrest : (y.port q).withStops (truncatedOf b.start (ds.filter (fun w => decide (w.owner = q)))) b.start =
          { y.port q with bundles := ((y.port q).withStops (truncatedOf b.start (ds.filter (fun w => decide (w.owner = q)))) b.start).bundles } := rfl
      rw [hrest, hbun, hyq]

/-! ### RESERVE -/

/-- Start and end that the checks 3 and 4 let pass (02 R26, R27). -/
theorem judgeTime_none {epoch start stop : Epoch} (h1 : epoch.toNat + 64 ≤ start.toNat) (h2 : start.toNat ≤ epoch.toNat + 2 ^ 40)
    (h3 : start.toNat + 4 ≤ stop.toNat) (h4 : stop.toNat ≤ start.toNat + 2 ^ 40) : judgeTime epoch start stop = none := by
  unfold judgeTime lead horizon minLength
  rw [if_neg (by omega), if_neg (by omega), if_neg (by omega), if_neg (by omega)]

/-- An admissible RESERVE of a good member passes every check (02 R23). -/
theorem judgeReserve_of_admissible {p : Port} {b : Booking} {d : Descriptor} {s : State} {m : Member}
    (hm : judgeMember b d = .ok m) (ha : Admissible s p b [m]) : judgeReserve p b d s = .ok m := by
  obtain ⟨h1, h2, h3, h4, hq, hall⟩ := ha
  obtain ⟨hc, ht, hw⟩ := hall m List.mem_cons_self
  have hown : s.ownOverlap p m.track b.start b.stop = false := by
    unfold State.ownOverlap
    refine List.any_eq_false.mpr (fun w hwm => ?_)
    rw [Bool.and_eq_true, decide_eq_true_eq]
    exact fun x => (hw w hwm x.2).1 x.1
  have hconf : s.firstConflict p m.track m.priority b.start b.stop = none := by
    unfold State.firstConflict
    refine List.find?_eq_none.mpr (fun w hwm => ?_)
    simp only [Bool.and_eq_true, decide_eq_true_eq]
    exact fun x => absurd x.2 (not_le.mpr (hw w hwm x.1.2).2)
  rw [List.length_singleton] at hq
  unfold judgeReserve
  rw [hm]
  dsimp only
  rw [judgeTime_none h1 h2 h3 h4]
  dsimp only
  rw [hc, ht, hown, hconf, if_neg Bool.false_ne_true, if_neg Bool.false_ne_true, if_neg (not_lt.mpr hq), if_neg Bool.false_ne_true]

/-- A request in OPEN that is taken: the reply fills the slot of what the owning block does (12 R175). -/
theorem exec_taken {p : Port} {seq : Seq} {r : Request} {s t : State} {a : Answer} (hf : Fresh p seq r s)
    (hs : (s.port p).session = .opened) (hr : requestName r ≠ .openSession)
    (ha : answerRequest p r (s.taken p seq r) = (t, a)) :
    exec (rowOf p seq r) s = .next (t.fillSlot p seq (requestName r).code a) := by
  rw [exec_rowOf, requestCommand_fresh hf, answerFrame_passed, ha]
  rw [(s.taken_session p seq r p).1, hs]
  exact sessionGate_of_opened hr

theorem quiet_taken (s : State) (p : Port) (seq : Seq) (r : Request) : Quiet s (s.taken p seq r) :=
  quiet_setPort s p ((s.port p).quiet_reload.trans (PortUnit.quiet_link _ _ _ _ _ _))

/-- An admission seen from the state in which it is judged is one seen from the state that the request met, the reply in place. -/
theorem Admitted.of_taken {s t : State} {p : Port} {priority : Fin 4} {start : Epoch} {ws news : List Window} {seq : Seq}
    {r : Request} (h : Admitted (s.taken p seq r) t p priority start ws news) (code : Byte) (a : Answer) :
    Admitted s (t.fillSlot p seq code a) p priority start ws news := by
  obtain ⟨h1, h2, h3, h4, h5, h6, h7, h8, h9⟩ := h
  refine ⟨h1, h2, h3, h4, h5, h6, h7, h8, fun q hq => ?_⟩
  have e : (s.taken p seq r).port q = s.port q := by rw [State.port_taken, if_neg (fun e => hq e.symm)]
  have e' : (t.fillSlot p seq code a).port q = t.port q := by
    rw [State.fillSlot_eq]
    exact (vector_get_set _ _ _ _).trans (if_neg (fun e => hq e.symm))
  obtain ⟨rs, hp, hq⟩ := h9 q hq
  rw [e] at hq
  exact ⟨rs, hp, e'.trans hq⟩

theorem admissible_taken {s : State} {p : Port} {b : Booking} {ms : List Member} (h : Admissible s p b ms) (seq : Seq)
    (r : Request) : Admissible (s.taken p seq r) p b ms := by
  obtain ⟨h1, h2, h3, h4, hq, hall⟩ := h
  obtain ⟨_, e1, e2, _⟩ := s.taken_session p seq r p
  exact ⟨h1, h2, h3, h4, by rw [e1, e2]; exact hq, hall⟩

/-- Settles O32: the checks pass, the quota leaves a free slot, and the record goes into the lowest one. -/
theorem reserveAdmitsTheWindow : Obligations.ReserveAdmitsTheWindow := by
  intro p seq b d m s hl hf hs hm ha
  have hL := lists_taken hl.lists p seq (.reserve b d)
  have hR : RecordLaws (s.taken p seq (.reserve b d)) := (quiet_taken s p seq _).sameBooks.recordLaws hl.2.2.1
  have haT := admissible_taken ha seq (.reserve b d)
  have hroom := (hR.displace p m.priority [m.track] b.start b.stop).room
    (displace_quota hL.slots p b m.priority [m.track] haT.2.2.2.2.1)
  obtain ⟨i, is, hi⟩ := List.exists_cons_of_length_pos (Nat.lt_of_lt_of_le Nat.zero_lt_one hroom)
  have hadm := admitted_one hL haT.1 hi
  have huse : (s.taken p seq (.reserve b d)).useCount i = s.useCount i := rfl
  rw [huse] at hadm
  have hport := (displace_own hL.slots p m.priority [m.track] b.start b.stop).1
  have hcount := (displace_own hL.slots p m.priority [m.track] b.start b.stop).2.2.1
  generalize hx : (s.taken p seq (.reserve b d)).displace p m.priority [m.track] b.start b.stop = x at *
  have hnew : newWindow x p b none m i = bookedWindow p b m none i (s.useCount i + 1) := by
    unfold newWindow bookedWindow State.useCount
    rw [hcount]
    rfl
  have hans : answerRequest p (.reserve b d) (s.taken p seq (.reserve b d)) =
      (x.insertWindow (bookedWindow p b m none i (s.useCount i + 1)),
        okAnswer (.reserved (bookedWindow p b m none i (s.useCount i + 1)).handle)) := by
    show reserve p b d _ = _
    unfold reserve
    rw [judgeReserve_of_admissible hm haT]
    dsimp only
    rw [hx, hi]
    dsimp only
    rw [hnew]
    rfl
  have hhandle : (bookedWindow p b m none i (s.useCount i + 1)).handle =
      BitVec.ofNat 16 (256 * (s.useCount i + 1).toNat + i.val) := by
    apply BitVec.eq_of_toNat_eq
    have := i.isLt
    have := (s.useCount i + 1).isLt
    rw [Window.handle_toNat, BitVec.toNat_ofNat]
    show 256 * (s.useCount i + 1).toNat + i.val = _
    rw [Nat.mod_eq_of_lt]
    omega
  refine ⟨_, bookedWindow p b m none i (s.useCount i + 1), exec_taken hf hs (by simp [requestName]) hans, rfl,
    (hnew ▸ hadm).of_taken _ _, ?_⟩
  have hown : (bookedWindow p b m none i (s.useCount i + 1)).owner = p := rfl
  rw [State.port_fillSlot, port_insertWindow, hown, if_pos rfl, hport, State.port_taken, if_pos rfl, hhandle]
  rfl

end Sys2Proof.Machine
end

