-- ==== Sys2Proof/Proofs/Laws.lean ====
section
/-! PROOFS. The laws of lists, of single records, of claims, of closing sessions and of queues as one invariant, with room for windows that stand at their limit inside one change. -/

namespace Sys2Proof.Machine

/-! ### The invariant -/

/-- What holds of one record besides its times; `full` are the slots whose windows may stand at their limit until the change they do so in ends them (08 R126, R134). -/
structure Window.Sound (w : Window) (counts : Vector Byte 192) (epoch : Epoch) (full : List Slot) : Prop where
  kind : kindFits w.track w.shape = true
  range : w.shape.inRange = true
  count : w.useCount = counts[w.slot]
  run : w.runLawful epoch = true ∨ (w.slot ∈ full ∧ w.limitReached = true)
  first : w.state = .pending → w.run = w.shape.firstRun

/-- The laws of the part besides timebase and record counts. -/
structure Laws (s : State) (full : List Slot) : Prop where
  lists : Lists s
  sound : ∀ w ∈ s.windows, w.Sound s.useCounts s.epoch full
  claims : ClaimLaw s
  closing : ∀ w ∈ s.windows, (s.port w.owner).session = .closing → w.state = .active
  holding : ∀ p, (s.port p).session = .closing → (s.port p).held ≠ 0
  queues : ∀ p, (s.port p).QueueLawful

theorem lawful_iff (s : State) : Lawful s ↔ TimebaseLaw s ∧ RecordLaws s ∧ Laws s [] := by
  constructor
  · intro h
    obtain ⟨hq, ht, hr, hc, hcl, _, hw, _, _⟩ := id h
    obtain ⟨_, ⟨_, hh⟩, _⟩ := id hr
    refine ⟨ht, hr, h.lists, fun w hwm => ?_, hcl, fun w hwm hx => ?_, fun p hx => ?_, hq⟩
    · obtain ⟨h1, h2, _, h4, h5, h6, _⟩ := hw w hwm
      exact ⟨h1, h2, h4, .inl h5, fun e => (h6 e).2⟩
    · exact (hc w.owner hx).2 w ((s.mem_owned _ w).mpr ⟨hwm, rfl⟩)
    · rw [(hh p).1]
      exact fun e => (hc p hx).1 (List.length_eq_zero_iff.mp e)
  · rintro ⟨ht, hr, hL, hs, hcl, hc, hh, hq⟩
    obtain ⟨_, ⟨_, hp⟩, _⟩ := id hr
    refine ⟨hq, ht, hr, fun p hx => ⟨fun e => ?_, fun w hw => ?_⟩, hcl, hL.track, fun w hw => ?_, hL.lanes, hL.tallies⟩
    · exact hh p hx (by rw [(hp p).1, e]; rfl)
    · obtain ⟨hwm, ho⟩ := (s.mem_owned p w).mp hw
      exact hc w hwm (by rw [ho]; exact hx)
    · obtain ⟨h1, h2, h3, h4, h5⟩ := hs w hw
      obtain ⟨t1, t2, t3⟩ := hL.times w hw
      exact ⟨h1, h2, t1, h3, h4.resolve_right (fun e => by cases e.1), fun e => ⟨t2 e, h5 e⟩, t3⟩

theorem Window.Sound.mono {w : Window} {c : Vector Byte 192} {e : Epoch} {full full' : List Slot} (h : w.Sound c e full)
    (hf : w.slot ∈ full → w.limitReached = true → w.slot ∈ full') : w.Sound c e full' :=
  ⟨h.kind, h.range, h.count, h.run.imp id (fun x => ⟨hf x.1 x.2, x.2⟩), h.first⟩

theorem Laws.mono {s : State} {full full' : List Slot} (h : Laws s full)
    (hf : ∀ w ∈ s.windows, w.slot ∈ full → w.limitReached = true → w.slot ∈ full') : Laws s full' :=
  ⟨h.lists, fun w hw => (h.sound w hw).mono (hf w hw), h.claims, h.closing, h.holding, h.queues⟩

/-! ### Claims -/

theorem claimedByOther_eq_false {s : State} {p : Port} {x : Track} :
    s.claimedByOther p x = false ↔ ∀ q, s.claimant x = some q → q = p := by
  unfold State.claimedByOther
  cases s.claimant x <;> simp

theorem triggerClaimed_eq_false {s : State} {p : Port} {sh : Shape} :
    s.triggerClaimed p sh = false ↔ ∀ k, sh.source = some k → s.claimedByOther p (senseTrack k) = false := by
  unfold State.triggerClaimed
  cases sh.source <;> simp

/-- What a window's claims are against: no claim of another port on its track or its trigger sense input (06 R90). -/
theorem claims_of_fewer {s t : State} (hc : ∀ x q, t.claimant x = some q → s.claimant x = some q) {p : Port} {x : Track}
    {sh : Shape} (h : s.claimedByOther p x = false ∧ s.triggerClaimed p sh = false) :
    t.claimedByOther p x = false ∧ t.triggerClaimed p sh = false := by
  have mono : ∀ y, s.claimedByOther p y = false → t.claimedByOther p y = false := fun y hy =>
    claimedByOther_eq_false.mpr (fun q hq => claimedByOther_eq_false.mp hy q (hc y q hq))
  exact ⟨mono x h.1, triggerClaimed_eq_false.mpr (fun k hk => mono _ (triggerClaimed_eq_false.mp h.2 k hk))⟩

theorem claimant_of_eq {s t : State} (h : t.claimants = s.claimants) : ∀ x q, t.claimant x = some q → s.claimant x = some q :=
  fun x q hx => by rw [← State.claimant_congr h]; exact hx

/-! ### Changes that keep the laws -/

/-- Windows left or nothing did: what stays keeps its laws, where no session comes to CLOSING and the CLOSING ones hold windows. -/
theorem Laws.of_sub {s t : State} {full : List Slot} (h : Laws s full) (hL : Lists t) (hw : ∀ w ∈ t.windows, w ∈ s.windows)
    (he : t.epoch = s.epoch) (hu : t.useCounts = s.useCounts) (hc : ∀ x q, t.claimant x = some q → s.claimant x = some q)
    (hp : ∀ p, (t.port p).session = .closing → (s.port p).session = .closing)
    (hh : ∀ p, (t.port p).session = .closing → (t.port p).held ≠ 0) (hq : ∀ p, (t.port p).QueueLawful) : Laws t full where
  lists := hL
  sound w hm := by rw [he, hu]; exact h.sound w (hw w hm)
  claims w hm := claims_of_fewer hc (h.claims w (hw w hm))
  closing w hm hx := h.closing w (hw w hm) (hp _ hx)
  holding := hh
  queues := hq

theorem Laws.quiet {s t : State} {full : List Slot} (h : Laws s full) (q : Quiet s t) : Laws t full :=
  h.of_sub (q.sameLists.lists h.lists) (fun w hw => by rw [← q.windows]; exact hw) q.epoch q.useCounts
    (claimant_of_eq q.claimants) (fun p hx => by rw [← (q.port p).session]; exact hx)
    (fun p hx => by rw [(q.port p).held]; exact h.holding p (by rw [← (q.port p).session]; exact hx))
    (fun p => (q.port p).queue (h.queues p))

/-- Records that change in place keep their laws where each keeps those of its run-time part. -/
theorem Laws.map {s t : State} {full full' : List Slot} {f : Window → Window} (h : Laws s full)
    (hw : t.windows = s.windows.map f) (hf : KeepsBookings f) (hL : Lists t) (he : t.epoch = s.epoch)
    (hu : t.useCounts = s.useCounts) (hc : t.claimants = s.claimants)
    (hp : ∀ q, (s.port q).Quiet { t.port q with bundles := (s.port q).bundles })
    (ha : ∀ v ∈ s.windows, v.state = .active → (f v).state = .active)
    (hr : ∀ v ∈ s.windows, (f v).runLawful s.epoch = true ∨ ((f v).slot ∈ full' ∧ (f v).limitReached = true))
    (h1 : ∀ v ∈ s.windows, (f v).state = .pending → (f v).run = v.shape.firstRun) : Laws t full' := by
  refine ⟨hL, fun w hm => ?_, fun w hm => ?_, fun w hm hx => ?_, fun p hx => ?_, fun p => (hp p).queue (h.queues p)⟩
  all_goals try
    rw [hw] at hm
    obtain ⟨v, hv, rfl⟩ := List.mem_map.mp hm
  · obtain ⟨k1, k2, k3, _, _⟩ := h.sound v hv
    refine ⟨by rw [(hf v).track, (hf v).shape]; exact k1, by rw [(hf v).shape]; exact k2, ?_, by rw [he]; exact hr v hv,
      fun e => by rw [(hf v).shape]; exact h1 v hv e⟩
    rw [(hf v).useCount, hu, k3]
    congr 1
    exact (hf v).slot.symm
  · rw [(hf v).owner, (hf v).track, (hf v).shape]
    exact claims_of_fewer (claimant_of_eq hc) (h.claims v hv)
  · rw [(hf v).owner] at hx
    exact ha v hv (h.closing v hv (by rw [← (hp v.owner).session]; exact hx))
  · have e : (t.port p).held = (s.port p).held := (hp p).held
    rw [e]
    exact h.holding p (by rw [← (hp p).session]; exact hx)

/-! ### Retirement -/

theorem closedDown_session (u : PortUnit) (e : Epoch) : (u.closedDown e).session = .down :=
  (PortUnit.quiet_append _ _).session

/-- The end of a session in DOWN keeps the laws (10 R152). -/
theorem Laws.sessionDown {s : State} {full : List Slot} {p : Port}
    (h : Lists s ∧ (∀ w ∈ s.windows, w.Sound s.useCounts s.epoch full) ∧ ClaimLaw s ∧ (∀ q, (s.port q).QueueLawful) ∧
      ∀ q, q ≠ p → (s.port q).session = .closing →
        (s.port q).held ≠ 0 ∧ ∀ w ∈ s.windows, w.owner = q → w.state = .active) : Laws (s.sessionDown p) full := by
  obtain ⟨hL, hs, hc, hq, ho⟩ := h
  have hport : ∀ q, (s.sessionDown p).port q = if p = q then (s.port p).closedDown s.epoch else s.port q := by
    intro q
    rw [State.sessionDown_eq]
    exact vector_get_set _ _ _ _
  have hne : ∀ q, ((s.sessionDown p).port q).session = .closing → q ≠ p ∧ (s.port q).session = .closing := by
    intro q hx
    rw [hport] at hx
    by_cases e : p = q
    · rw [if_pos e, closedDown_session] at hx
      cases hx
    · rw [if_neg e] at hx
      exact ⟨fun x => e x.symm, hx⟩
  have hw : (s.sessionDown p).windows = s.windows := by rw [State.sessionDown_eq]
  have hcl : ∀ x q, (s.sessionDown p).claimant x = some q → s.claimant x = some q := by
    intro x q hx
    rw [State.sessionDown_eq] at hx
    have hx : (s.releaseClaims p).claimant x = some q := hx
    rw [State.claimant_releaseClaims] at hx
    split at hx
    · cases hx
    · exact hx
  refine ⟨?_, ?_, ?_, fun w hm hx => ?_, fun q hx => ?_, fun q => ?_⟩
  · refine SameLists.lists (s := s) ?_ hL
    rw [State.sessionDown_eq]
    exact .of_eq rfl rfl rfl rfl
  · rw [State.sessionDown_eq]; exact hs
  · intro w hm
    rw [hw] at hm
    exact claims_of_fewer hcl (hc w hm)
  · obtain ⟨h1, h2⟩ := hne _ hx
    rw [hw] at hm
    exact (ho _ h1 h2).2 w hm rfl
  · obtain ⟨h1, h2⟩ := hne q hx
    rw [hport, if_neg (fun e => h1 e.symm)]
    exact (ho q h1 h2).1
  · rw [hport]
    split
    · exact PortUnit.append_queueLawful _ _ (hq p)
    · exact hq q

theorem queueLawful_leaveAll {s : State} (ws : List Window) {q : Port} (h : (s.port q).QueueLawful) :
    ((s.leaveAll ws).port q).QueueLawful := by
  rw [port_leaveAll_eq]
  exact h

/-- Some of the windows of one port leave; its session ends if it was CLOSING and holds no more (01 R18). -/
theorem Laws.leave {s : State} {full : List Slot} {p : Port} {f : Window → Bool} (h : Laws s full)
    (ho : ∀ w ∈ s.windows, f w = true → w.owner = p) : Laws ((s.leaveAll (s.windows.filter f)).endIfClosed p) full := by
  have hth := leaveAll_filter_thinned h.lists f
  have hport : ∀ q, q ≠ p → (s.leaveAll (s.windows.filter f)).port q = s.port q := by
    intro q hq
    rw [State.port_leaveAll, List.filter_filter, List.filter_eq_nil_iff.mpr]
    · rfl
    · intro w hw x
      rw [Bool.and_eq_true, decide_eq_true_eq] at x
      exact hq (x.1.symm.trans (ho w hw x.2))
  have hses : ∀ q, ((s.leaveAll (s.windows.filter f)).port q).session = (s.port q).session := session_leaveAll s _
  have hq : ∀ q, ((s.leaveAll (s.windows.filter f)).port q).QueueLawful := fun q => queueLawful_leaveAll _ (h.queues q)
  have hcl := claimant_of_eq (claimants_leaveAll s (s.windows.filter f))
  rcases (s.leaveAll (s.windows.filter f)).endIfClosed_cases p with ⟨_, _, e⟩ | ⟨hn, e⟩ <;> rw [e]
  · refine Laws.sessionDown ⟨hth.lists h.lists, fun w hw => ?_, fun w hw => ?_, hq, fun q hne hx => ⟨?_, fun w hw hwo => ?_⟩⟩
    · rw [hth.epoch, hth.useCounts]; exact h.sound w (hth.mem hw)
    · exact claims_of_fewer hcl (h.claims w (hth.mem hw))
    · rw [hport q hne] at hx ⊢
      exact h.holding q hx
    · rw [hses] at hx
      exact h.closing w (hth.mem hw) (by rw [hwo]; exact hx)
  · refine h.of_sub (hth.lists h.lists) (fun w hw => hth.mem hw) hth.epoch hth.useCounts hcl
      (fun q hx => by rw [← hses]; exact hx) (fun q hx => ?_) hq
    by_cases hne : q = p
    · subst hne
      exact fun h0 => hn ⟨hx, h0⟩
    · rw [hport q hne] at hx ⊢
      exact h.holding q hx

/-- Windows of one port retire (01 R15, R18). -/
theorem Laws.retire {s : State} {full : List Slot} {p : Port} {f : Window → Bool} (h : Laws s full)
    (ho : ∀ w ∈ s.windows, f w = true → w.owner = p) (reason : Window → Reason) :
    Laws (s.retire reason (s.windows.filter f)) full := by
  cases hws : s.windows.filter f with
  | nil => exact h
  | cons w ws =>
    have hwp : w.owner = p := by
      have hm : w ∈ s.windows.filter f := by rw [hws]; exact List.mem_cons_self
      exact ho w (List.mem_filter.mp hm).1 (List.mem_filter.mp hm).2
    unfold State.retire
    dsimp only
    rw [← hws, hwp]
    generalize hx : s.postUnordered _ = x
    have hq : Quiet s x := by rw [← hx]; exact quiet_postUnordered s _
    rw [← hq.windows]
    exact (h.quiet hq).leave (fun w hw => ho w (by rw [← hq.windows]; exact hw))

theorem windows_endIfClosed (s : State) (p : Port) : (s.endIfClosed p).windows = s.windows := by
  rcases s.endIfClosed_cases p with ⟨_, _, e⟩ | ⟨_, e⟩ <;> rw [e]
  rw [State.sessionDown_eq]

/-- The windows that stay at a retirement (01 R15). -/
theorem windows_retire (s : State) (reason : Window → Reason) (ws : List Window) :
    (s.retire reason ws).windows = s.windows.filter (fun v => !v.among ws) := by
  have hw : ∀ rs, ((s.postUnordered rs).leaveAll ws).windows = s.windows.filter (fun v => !v.among ws) := by
    intro rs
    rw [windows_leaveAll, (quiet_postUnordered s rs).windows]
  unfold State.retire
  dsimp only
  split
  · exact hw _
  · rw [windows_endIfClosed, hw]

/-- The unit of a window is one port's. -/
theorem Laws.retireUnit {s : State} {full : List Slot} (h : Laws s full) {w : Window} (hw : w ∈ s.windows)
    (reason : Window → Reason) : Laws (s.retire reason (s.unitOf w)) full :=
  h.retire (p := w.owner) (fun _ hv hs => (sameUnit_owner h.lists.slots hw hv hs).symm) reason

/-- After the check of its limit no window stands in a slot at its limit (08 R125 step 4). -/
theorem Laws.checkLimit {s : State} {full : List Slot} (h : Laws s full) (i : Slot) :
    Laws (s.checkLimit i) (full.filter (fun j => decide (j ≠ i))) := by
  unfold State.checkLimit
  cases hw : s.windowAt i with
  | none =>
    refine h.mono (fun v hv hf hl => List.mem_filter.mpr ⟨hf, decide_eq_true (fun e => ?_)⟩)
    have := State.windowAt_eq h.lists.slots hv
    rw [e, hw] at this
    cases this
  | some w =>
    obtain ⟨hwm, hwi⟩ := State.windowAt_mem hw
    dsimp only
    split
    · refine (h.retireUnit hwm _).mono (fun v hv hf hl => List.mem_filter.mpr ⟨hf, decide_eq_true (fun e => ?_)⟩)
      rw [windows_retire] at hv
      have hin : v.among (s.unitOf w) = true :=
        (Window.among_eq_true v _).mpr ⟨w, List.mem_filter.mpr ⟨hwm, sameUnit_refl w⟩, hwi.trans e.symm⟩
      rw [List.mem_filter, hin] at hv
      cases hv.2
    · next hl' =>
      refine h.mono (fun v hv hf hl => List.mem_filter.mpr ⟨hf, decide_eq_true (fun e => hl' ?_)⟩)
      obtain rfl := h.lists.slots.inj hv hwm (e.trans hwi.symm)
      exact hl

theorem Laws.checkLimits (ws : List Window) : ∀ {s : State} {full : List Slot}, Laws s full →
    (∀ i ∈ full, ∃ w ∈ ws, w.slot = i) → Laws (ws.foldl (fun t w => t.checkLimit w.slot) s) [] := by
  induction ws with
  | nil =>
    intro s full h hf
    exact h.mono (fun w _ hx _ => by obtain ⟨_, hw, _⟩ := hf _ hx; cases hw)
  | cons w ws ih =>
    intro s full h hf
    refine ih (h.checkLimit w.slot) (fun i hi => ?_)
    obtain ⟨hi, hne⟩ := List.mem_filter.mp hi
    obtain ⟨v, hv, e⟩ := hf i hi
    rcases List.mem_cons.mp hv with rfl | hv
    · exact absurd e.symm (of_decide_eq_true hne)
    · exact ⟨v, hv, e⟩

/-! ### Counted edges -/

/-- The law of a TALLY run, part by part (08 R125). -/
theorem TallyRun.lawful_iff (r : TallyRun) (limit : Option (BitVec 24)) (start epoch : Epoch) :
    r.lawful limit start epoch = true ↔ r.count ≤ tallyMax ∧ (r.saturated = true → r.count = tallyMax) ∧
      (∀ l, limit = some l → r.count < l.toNat) ∧
      ((r.firstEdge = none ∧ r.lastEdge = none ∧ r.count = 0) ∨
        ∃ a b, r.firstEdge = some a ∧ r.lastEdge = some b ∧ 0 < r.count ∧ start ≤ a ∧ a ≤ b ∧ b ≤ epoch) := by
  obtain ⟨count, saturated, firstEdge, lastEdge⟩ := r
  unfold TallyRun.lawful
  cases firstEdge <;> cases lastEdge <;> cases limit <;> cases saturated <;> simp [and_assoc]

/-- Edges counted at the epoch value bring a lawful run to a lawful run, or to its limit (08 R125, R126). -/
theorem TallyRun.countEdges_lawful {r : TallyRun} {limit : Option (BitVec 24)} {start epoch : Epoch} (n : Nat)
    (h : r.lawful limit start epoch = true) (hs : start ≤ epoch) :
    (r.countEdges epoch limit n).lawful limit start epoch = true ∨
      ∃ l, limit = some l ∧ (r.countEdges epoch limit n).count = l.toNat := by
  have key : ∀ m, (∀ l, limit = some l → r.count + m ≤ l.toNat) → m ≠ 0 →
      let r' : TallyRun :=
        { count := min (r.count + m) tallyMax
          saturated := r.saturated || decide (tallyMax < r.count + m)
          firstEdge := r.firstEdge <|> some epoch
          lastEdge := some epoch }
      r'.lawful limit start epoch = true ∨ ∃ l, limit = some l ∧ r'.count = l.toNat := by
    intro m hm h0 r'
    obtain ⟨h1, h2, h3, h4⟩ := (r.lawful_iff limit start epoch).mp h
    by_cases hl : ∃ l, limit = some l ∧ r'.count = l.toNat
    · exact .inr hl
    · refine .inl ((r'.lawful_iff limit start epoch).mpr ⟨Nat.min_le_right _ _, fun hsat => ?_, fun l e => ?_, .inr ?_⟩)
      · rcases Bool.or_eq_true_iff.mp hsat with hsat | hsat
        · have := h2 hsat
          exact Nat.min_eq_right (by omega)
        · exact Nat.min_eq_right (le_of_lt (of_decide_eq_true hsat))
      · have h5 := hm l e
        have h6 : min (r.count + m) tallyMax ≤ r.count + m := Nat.min_le_left _ _
        have h7 : min (r.count + m) tallyMax ≠ l.toNat := fun x => hl ⟨l, e, x⟩
        show min (r.count + m) tallyMax < l.toNat
        omega
      · have hpos : 0 < min (r.count + m) tallyMax := Nat.lt_min.mpr ⟨by omega, by decide⟩
        rcases h4 with ⟨e1, _, _⟩ | ⟨a, b, e1, _, _, ha, hab, hb⟩
        · exact ⟨epoch, epoch, by show (r.firstEdge <|> some epoch) = _; rw [e1]; rfl, rfl, hpos, hs, BitVec.le_refl _, BitVec.le_refl _⟩
        · exact ⟨a, epoch, by show (r.firstEdge <|> some epoch) = _; rw [e1]; rfl, rfl, hpos, ha, BitVec.le_trans hab hb, BitVec.le_refl _⟩
  unfold TallyRun.countEdges
  cases limit with
  | none =>
    by_cases h0 : n = 0
    · exact .inl (by rw [if_pos h0]; exact h)
    · dsimp only
      rw [if_neg h0]
      exact key n (fun l e => by cases e) h0
  | some l =>
    by_cases h0 : min n (l.toNat - r.count) = 0
    · exact .inl (by rw [if_pos h0]; exact h)
    · have := ((r.lawful_iff _ start epoch).mp h).2.2.1 l rfl
      dsimp only
      rw [if_neg h0]
      exact key _ (fun l' e => by cases e; omega) h0

/-- The law of a run reads state, start and limit alone besides the run. -/
theorem Window.countEdges_run {w : Window} {epoch : Epoch} (n : Nat) (h : w.runLawful epoch = true) (hs : w.start ≤ epoch) :
    (w.countEdges epoch n).runLawful epoch = true ∨ (w.countEdges epoch n).limitReached = true := by
  unfold Window.countEdges
  split
  · next e limit r hsh hrun =>
    unfold Window.runLawful at h ⊢
    unfold Window.limitReached
    rw [hsh, hrun] at h
    rw [hsh]
    dsimp only at h ⊢
    rcases r.countEdges_lawful n h hs with h1 | ⟨l, rfl, h1⟩
    · exact .inl h1
    · exact .inr (decide_eq_true h1)
  · exact .inl h

/-- A first run is lawful in either state (01 R7). -/
theorem Window.runLawful_first {w : Window} (hr : w.shape.inRange = true) (hf : w.run = w.shape.firstRun) (epoch : Epoch) :
    w.runLawful epoch = true := by
  unfold Window.runLawful
  rw [hf]
  cases hs : w.shape with
  | steady => rfl
  | train => rfl
  | toggle => rfl
  | triggered k e wd n =>
    rw [hs] at hr
    unfold Shape.inRange at hr
    rw [Bool.and_eq_true, decide_eq_true_eq, decide_eq_true_eq] at hr
    have : n.toNat ≠ 0 := by omega
    simp [Shape.firstRun, TriggerRun.lawful, this.symm]
  | tally e lim =>
    rw [hs] at hr
    show TallyRun.lawful { count := 0, saturated := false, firstEdge := none, lastEdge := none } lim w.start epoch = true
    refine (TallyRun.lawful_iff _ _ _ _).mpr ⟨Nat.zero_le _, fun h => absurd h Bool.false_ne_true, fun l hl => ?_,
      .inl ⟨rfl, rfl, rfl⟩⟩
    subst hl
    unfold Shape.inRange at hr
    exact of_decide_eq_true hr

/-! ### Starts -/

/-- A hand over keeps the laws, the window's limit aside (01 R13, 08 R134). -/
theorem Laws.handOver {s : State} {full : List Slot} (h : Laws s full) {x : Track} {w : Window} (hh : s.head x = some w)
    (hp : w.state = .pending) (hs : w.start ≤ s.epoch) (hf : w.slot ∈ full) : Laws (s.handOver w) full := by
  obtain ⟨hw, _⟩ := State.head_mem hh
  obtain ⟨r1, _, r3, r4, r5⟩ := handOver_rest s w
  refine h.map (windows_handing s w) (s.handing_keeps w) (h.lists.handOver hh hp hs) r5 r4 r1
    (fun q => by rw [show (s.handOver w).port q = s.port q by unfold State.port; rw [r3]]; exact .refl _)
    (fun v hv ha => ?_) (fun v hv => ?_) (fun v hv hpe => ?_)
  · by_cases e : v.slot = w.slot
    · unfold State.handing; rw [if_pos e]; exact (v.handed_times _ _).2
    · rw [State.handing_other e]; exact ha
  · by_cases e : v.slot = w.slot
    · obtain rfl := h.lists.slots.inj hv hw e
      have hsd := h.sound v hv
      rw [s.handing_self, (v.handed_alike _ _).slot]
      have hfirst : Window.runLawful { v with state := .active } s.epoch = true :=
        Window.runLawful_first (w := { v with state := .active }) hsd.range (hsd.first hp) _
      exact (Window.countEdges_run (s.carriedFor v) hfirst hs).imp id (fun hl => ⟨hf, hl⟩)
    · rw [State.handing_other e]; exact (h.sound v hv).run
  · by_cases e : v.slot = w.slot
    · unfold State.handing at hpe
      rw [if_pos e, (v.handed_times _ _).2] at hpe
      cases hpe
    · rw [State.handing_other e] at hpe ⊢
      exact (h.sound v hv).first hpe

/-- Heads on tracks of their own are handed over one after another (04 R66). -/
theorem Laws.handOvers (ws : List Window) : ∀ {s : State} {full : List Slot}, Laws s full →
    (∀ w ∈ ws, s.head w.track = some w ∧ w.state = .pending ∧ w.start ≤ s.epoch ∧ w.slot ∈ full) → (ws.map Window.track).Nodup →
    Laws (ws.foldl State.handOver s) full := by
  induction ws with
  | nil => exact fun h _ _ => h
  | cons w ws ih =>
    intro s full h hw hn
    rw [List.map_cons, List.nodup_cons] at hn
    obtain ⟨h1, h2, h3, h4⟩ := hw w List.mem_cons_self
    refine ih (h.handOver h1 h2 h3 h4) (fun v hv => ?_) hn.2
    obtain ⟨g1, g2, g3, g4⟩ := hw v (List.mem_cons_of_mem _ hv)
    refine ⟨?_, g2, by rw [(handOver_rest s w).2.2.2.2]; exact g3, g4⟩
    rw [head_handOver h.lists.slots h1, if_neg (fun e => hn.1 (by rw [e]; exact List.mem_map_of_mem hv)), g1]

/-- A start in one change keeps the laws: whoever stands at its limit ends within it (01 R13, 04 R66, 08 R134). -/
theorem Laws.startAll {s : State} (h : Laws s []) {ws : List Window}
    (hw : ∀ w ∈ ws, s.head w.track = some w ∧ w.state = .pending ∧ w.start ≤ s.epoch) (hn : (ws.map Window.track).Nodup) :
    Laws (s.startAll ws) [] := by
  obtain ⟨t, hq, e⟩ := startAll_quiet s ws
  rw [e]
  have h0 : Laws s (ws.map Window.slot) := h.mono (fun w _ hx => by cases hx)
  have h1 := h0.handOvers ws (fun w hwm => ?_) hn
  · exact (h1.quiet hq).checkLimits ws (fun i hi => List.mem_map.mp hi)
  · obtain ⟨g1, g2, g3⟩ := hw w hwm
    exact ⟨g1, g2, g3, List.mem_map_of_mem hwm⟩

end Sys2Proof.Machine
end

