-- ==== Sys2Proof/Proofs/Passing.lean ====
section
/-! PROOFS. What edges, pulses and ticks leave of the laws of the part. -/

namespace Sys2Proof.Machine

/-! ### Edges counted -/

/-- Counted edges change no level that a lane could show. -/
theorem Window.countEdges_driveAt (w : Window) (te : Epoch) (n : Nat) (e : Epoch) : (w.countEdges te n).driveAt e = w.driveAt e := by
  unfold Window.countEdges
  split
  · next hs hr =>
    unfold Window.driveAt
    dsimp only
    rw [hs]
    rfl
  · rfl

theorem Lists.updateRun {s : State} {i : Slot} {f : Window → Window} (h : Lists s) (hf : KeepsBookings f)
    (ht : ∀ v : Window, (f v).stop = v.stop ∧ (f v).state = v.state) (hd : ∀ v : Window, (f v).driveAt s.epoch = v.driveAt s.epoch) :
    Lists (s.updateWindow i f) := by
  obtain ⟨k1, k2⟩ := ite_keeps hf ht (fun v => v.slot = i)
  refine h.mapRun (f := fun v => if v.slot = i then f v else v) rfl k1 k2 rfl (fun l => ?_) (fun _ => ⟨rfl, rfl, rfl⟩)
  split
  · next w _ =>
    refine .inr ⟨rfl, ?_⟩
    split
    · exact hd w
    · rfl
  · rfl

/-- A window that a Tally Unit counts into is the one its track runs (08 R122). -/
theorem Lists.counting_spec {s : State} (h : Lists s) {k : Sense} {i : Slot} {w : Window} (hc : (s.tally k).counting = some i)
    (hw : s.windowAt i = some w) : s.running (senseTrack k) = some w := by
  rw [(h.tallies k).1] at hc
  obtain ⟨v, hv, e⟩ := Option.map_eq_some_iff.mp hc
  have hm := ((s.mem_trackList _ v).mp (State.running_mem hv).1).1
  have := State.windowAt_eq h.slots hm
  rw [e, hw] at this
  cases this
  exact hv

/-- A carried edge more keeps the lists (08 R134). -/
theorem Lists.carry {s : State} (h : Lists s) {k : Sense} {i : Slot} {n : Nat} (hh : (s.tally k).hold = some i) (hn : n ≤ tallyMax) :
    Lists (s.setTally k { s.tally k with carried := n }) := by
  refine ⟨h.slots, h.track, h.times, h.lanes, fun j => ?_⟩
  obtain ⟨c1, c2, c3, c4⟩ := h.tallies j
  rw [State.tally_setTally]
  by_cases e : k = j
  · subst e
    rw [if_pos rfl]
    refine ⟨c1, hn, fun x => ?_, c4⟩
    have x : (s.tally k).hold = none := x
    rw [hh] at x
    cases x
  · rw [if_neg e]
    exact ⟨c1, c2, c3, c4⟩

/-- The counting of an edge keeps the laws: a window at its limit ends in the same change (08 R125 to R127). -/
theorem Laws.countEdge {s : State} (h : Laws s []) (k : Sense) (level : Level) : Laws (s.countEdge k level) [] := by
  rcases s.countEdge_cases k level with e | ⟨i, w, hc, hw, _, e⟩ | ⟨i, w, _, hh, _, _, e⟩ <;> rw [e]
  · exact h
  · have hrun := h.lists.counting_spec hc hw
    obtain ⟨hwt, ha⟩ := State.running_mem hrun
    obtain ⟨hwm, hwi⟩ := State.windowAt_mem hw
    have hstart := ((h.lists.times w hwm).active ha).1
    have hk := (ite_keeps (f := fun v : Window => v.countEdges s.epoch 1) (fun v => v.countEdges_alike _ _)
      (fun v => v.countEdges_times _ _) (fun v => v.slot = i))
    refine Laws.checkLimit (full := [i]) ?_ i |>.mono (fun v _ hf _ => ?_)
    · refine h.map (f := fun v => if v.slot = i then v.countEdges s.epoch 1 else v) rfl hk.1
        (h.lists.updateRun (fun v => v.countEdges_alike _ _) (fun v => v.countEdges_times _ _)
          (fun v => v.countEdges_driveAt _ _ _)) rfl rfl rfl (fun q => .refl _) (fun v _ hv => by rw [(hk.2 v).2]; exact hv)
        (fun v hv => ?_) (fun v hv hp => ?_)
      · rw [(hk.1 v).slot]
        have hr := (h.sound v hv).run.resolve_right (fun x => by cases x.1)
        by_cases ev : v.slot = i
        · rw [if_pos ev]
          obtain rfl := h.lists.slots.inj hv hwm (ev.trans hwi.symm)
          exact (Window.countEdges_run 1 hr hstart).imp id (fun hl => ⟨by rw [ev]; exact List.mem_singleton_self i, hl⟩)
        · rw [if_neg ev]; exact .inl hr
      · rw [(hk.2 v).2] at hp
        by_cases ev : v.slot = i
        · obtain rfl := h.lists.slots.inj hv hwm (ev.trans hwi.symm)
          rw [ha] at hp
          cases hp
        · rw [if_neg ev]; exact (h.sound v hv).first hp
    · simp at hf
  · exact h.of_sub (h.lists.carry hh (Nat.min_le_right _ _)) (fun w hw => hw) rfl rfl (fun _ _ x => x) (fun _ x => x)
      h.holding h.queues

/-! ### Edges reported -/

/-- A window in which an edge starts a pulse (07 R110). -/
theorem Window.startsPulse_spec {w : Window} {k : Sense} {level : Level} (h : w.startsPulse k level = true) :
    w.state = .active ∧ ∃ e wd n r, w.shape = .triggered k e wd n ∧ w.run = .trigger r ∧ r.pulseEnd = none ∧ r.arming = .armed := by
  unfold Window.startsPulse at h
  split at h
  · next ha hs hr =>
    simp only [Bool.and_eq_true, decide_eq_true_eq, Option.isNone_iff_eq_none] at h
    obtain ⟨⟨⟨rfl, _⟩, hp⟩, harm⟩ := h
    exact ⟨ha, _, _, _, _, hs, hr, hp, harm⟩
  · cases h

/-- The law of a TRIGGERED run, part by part (01 R7, 07 R109). -/
theorem TriggerRun.lawful_iff (r : TriggerRun) (n : Nat) (st : WindowState) (epoch : Epoch) :
    r.lawful n st epoch = true ↔ r.emitted ≤ n ∧ (r.arming = .done ↔ r.emitted = n ∧ r.pulseEnd = none) ∧
      ∀ e, r.pulseEnd = some e → st = .active ∧ 0 < r.emitted ∧ epoch ≤ e := by
  unfold TriggerRun.lawful
  cases r.pulseEnd <;> simp [and_assoc]

/-- Far from the top of the epoch a pulse that starts ends later (07 R110, 09 R139). -/
theorem le_pulseEndOf {s : State} (h : FarFromTop s) {w : Window} : s.epoch ≤ s.pulseEndOf w := by
  have hw : w.shape.width < 65536 := by
    unfold Shape.width
    split
    · next wd _ _ => exact wd.isLt
    · omega
  unfold State.pulseEndOf epochPlus
  rw [if_pos (by omega), BitVec.le_def, BitVec.toNat_add, BitVec.toNat_ofNat]
  omega

/-- A pulse that starts keeps the run lawful (07 R109, R110). -/
theorem Window.withPulse_run {w : Window} {k : Sense} {level : Level} {epoch e : Epoch} (h : w.runLawful epoch = true)
    (hp : w.startsPulse k level = true) (he : epoch ≤ e) : (w.withPulse e).runLawful epoch = true := by
  obtain ⟨ha, ek, wd, n, r, hs, hr, hn, harm⟩ := Window.startsPulse_spec hp
  unfold Window.runLawful at h
  rw [hs, hr] at h
  obtain ⟨h1, h2, h3⟩ := (TriggerRun.lawful_iff _ _ _ _).mp h
  have hlt : r.emitted ≠ n.toNat := fun x => by
    have := h2.mpr ⟨x, hn⟩
    rw [harm] at this
    cases this
  unfold Window.withPulse Window.runLawful
  rw [hr]
  dsimp only
  rw [hs, ha]
  refine (TriggerRun.lawful_iff _ _ _ _).mpr ⟨by dsimp only; omega, ?_, fun x hx => ?_⟩
  · dsimp only
    rw [harm]
    simp
  · cases hx
    exact ⟨rfl, Nat.succ_pos _, he⟩

theorem Window.withPulse_driveAt {w : Window} {k : Sense} {level : Level} (hp : w.startsPulse k level = true) (e epoch : Epoch) :
    (w.withPulse e).driveAt epoch = .active := by
  obtain ⟨_, ek, wd, n, r, hs, hr, _⟩ := Window.startsPulse_spec hp
  unfold Window.withPulse Window.driveAt
  rw [hr]
  dsimp only
  rw [hs]
  rfl

theorem lane_reportEdge (s : State) (k : Sense) (level : Level) (l : Lane) : (s.reportEdge k level).lane l =
    if s.pulseOn k level l then { s.lane l with drive := .active } else s.lane l := vector_ofFn_get _ l

/-- The report of an edge keeps the laws (07 R110). -/
theorem Laws.reportEdge {s : State} (h : Laws s []) (hfar : FarFromTop s) (k : Sense) (level : Level) :
    Laws (s.reportEdge k level) [] := by
  have hk : KeepsBookings (fun w => if w.startsPulse k level then w.withPulse (s.pulseEndOf w) else w) := by
    intro w
    dsimp only
    split
    · exact w.withPulse_alike _
    · exact .refl w
  have ht : ∀ w : Window, (if w.startsPulse k level then w.withPulse (s.pulseEndOf w) else w).stop = w.stop ∧
      (if w.startsPulse k level then w.withPulse (s.pulseEndOf w) else w).state = w.state := by
    intro w
    split
    · exact w.withPulse_times _
    · exact ⟨rfl, rfl⟩
  refine h.map (f := fun w => if w.startsPulse k level then w.withPulse (s.pulseEndOf w) else w) rfl hk
    (h.lists.mapRun (f := fun w => if w.startsPulse k level then w.withPulse (s.pulseEndOf w) else w) rfl hk ht rfl
      (fun l => ?_) (fun _ => ⟨rfl, rfl, rfl⟩)) rfl rfl rfl (fun q => .refl _)
    (fun v _ hv => (ht v).2.trans hv) (fun v hv => ?_) (fun v hv hp => ?_)
  · rw [lane_reportEdge]
    unfold State.pulseOn
    cases hr : s.running (laneTrack l) with
    | none => rfl
    | some w =>
      dsimp only
      by_cases hp : w.startsPulse k level = true
      · rw [if_pos hp, if_pos hp]
        exact .inl (Window.withPulse_driveAt hp _ _).symm
      · rw [if_neg hp, if_neg hp]
        exact .inr ⟨rfl, rfl⟩
  · have hr := (h.sound v hv).run.resolve_right (fun x => by cases x.1)
    left
    split
    · next hp => exact Window.withPulse_run hr hp (le_pulseEndOf hfar)
    · exact hr
  · rw [show _ = v.state from (ht v).2] at hp
    rw [if_neg]
    · exact (h.sound v hv).first hp
    · intro hx
      rw [(Window.startsPulse_spec hx).1] at hp
      cases hp

/-- The taking of an edge keeps the laws, in whichever order it is counted and reported (08 R123, R129). -/
theorem Laws.takeEdge {s : State} (h : Laws s []) (hfar : FarFromTop s) (k : Sense) (level : Level) : Laws (s.takeEdge k level) [] := by
  obtain ⟨n, seen, hs, e⟩ := takeEdge_phases s k level
  have hj : ∀ j, seen.tally j = if k = j then { s.tally k with seen := level } else s.tally j := fun j => by
    rw [hs, State.tally_setTally]
  have hseen : Laws seen [] := by
    have hsame : SameLists s seen := by
      refine ⟨by rw [hs]; rfl, by rw [hs]; rfl, fun l => by rw [hs]; rfl, fun j => ?_, fun j => ?_, fun j => ?_⟩
      all_goals
        rw [hj]
        by_cases e : k = j
        · rw [if_pos e, ← e]
        · rw [if_neg e]
    refine h.of_sub (hsame.lists h.lists) ?_ ?_ ?_ ?_ ?_ ?_ ?_
    all_goals rw [hs]
    · exact fun w hw => hw
    · rfl
    · rfl
    · exact fun _ _ x => x
    · exact fun _ x => x
    · exact h.holding
    · exact h.queues
  have hfs : FarFromTop seen := by rw [hs]; exact hfar
  have drawn : ∀ t : State, Laws t [] → Laws { t with freeCount := n } [] := fun t ht =>
    ht.of_sub (SameLists.lists (s := t) (.of_eq rfl rfl rfl rfl) ht.lists) (fun _ hw => hw) rfl rfl (fun _ _ x => x)
      (fun _ x => x) ht.holding ht.queues
  rcases e with e | e <;> rw [e]
  · exact drawn _ ((hseen.reportEdge hfs k level).countEdge k level)
  · refine drawn _ ((hseen.countEdge k level).reportEdge ?_ k level)
    show (seen.countEdge k level).epoch.toNat + 65536 < 2 ^ 64
    rw [(timebase_countEdge seen k level).1]
    exact hfs

/-! ### Pulses end -/

theorem State.pulseDue_spec {s : State} {l : Lane} {w : Window} (h : s.pulseDue l = some w) :
    s.running (laneTrack l) = some w ∧ ∃ k e wd n r x, w.shape = .triggered k e wd n ∧ w.run = .trigger r ∧ r.pulseEnd = some x := by
  unfold State.pulseDue at h
  obtain ⟨h1, h2⟩ := Option.filter_eq_some_iff.mp h
  refine ⟨h1, ?_⟩
  split at h2
  · next x hx =>
    unfold Window.pulseEnd at hx
    split at hx
    · next hs hr => exact ⟨_, _, _, _, _, x, hs, hr, hx⟩
    · cases hx
  · cases h2

/-- A pulse that ends keeps the run lawful (07 R111). -/
theorem Window.endPulse_run {w : Window} {epoch : Epoch} {k : Sense} {e : EdgeKind} {wd : BitVec 16} {n : Byte} {r : TriggerRun}
    {x : Epoch} (h : w.runLawful epoch = true) (hs : w.shape = .triggered k e wd n) (hr : w.run = .trigger r)
    (hx : r.pulseEnd = some x) : w.endPulse.runLawful epoch = true ∧ ∀ y, w.endPulse.driveAt y = .inactive := by
  unfold Window.runLawful at h
  rw [hs, hr] at h
  obtain ⟨h1, h2, _⟩ := (TriggerRun.lawful_iff _ _ _ _).mp h
  have harm : r.arming ≠ .done := fun y => by
    have := (h2.mp y).2
    rw [hx] at this
    cases this
  have he : w.endPulse = { w with
      run := .trigger { r with pulseEnd := none, arming := if r.emitted = n.toNat then .done else r.arming } } := by
    unfold Window.endPulse
    rw [hs, hr]
  rw [he]
  refine ⟨?_, fun y => ?_⟩
  · unfold Window.runLawful
    dsimp only
    rw [hs]
    refine (TriggerRun.lawful_iff _ _ _ _).mpr ⟨h1, ?_, fun y hy => by cases hy⟩
    dsimp only
    by_cases hn : r.emitted = n.toNat
    · simp [hn]
    · simp [hn, harm]
  · unfold Window.driveAt
    dsimp only
    rw [hs]
    rfl

/-- The end of a pulse keeps the laws (07 R111). -/
theorem Laws.endPulse {s : State} (h : Laws s []) {l : Lane} {w : Window} (hd : s.pulseDue l = some w) :
    Laws ((s.updateWindow w.slot Window.endPulse).setDrive l .inactive) [] := by
  obtain ⟨hrun, k, e, wd, n, r, x, hs, hr, hx⟩ := State.pulseDue_spec hd
  obtain ⟨hwt, ha⟩ := State.running_mem hrun
  obtain ⟨hwm, hwl⟩ := (s.mem_trackList _ w).mp hwt
  have hk := ite_keeps (f := Window.endPulse) (fun v => v.endPulse_alike) (fun v => v.endPulse_times) (fun v => v.slot = w.slot)
  have hrw := (h.sound w hwm).run.resolve_right (fun x => by cases x.1)
  obtain ⟨hlaw, hdrive⟩ := Window.endPulse_run hrw hs hr hx
  have hlane : ∀ m, ((s.updateWindow w.slot Window.endPulse).setDrive l .inactive).lane m =
      if l = m then { s.lane l with drive := .inactive } else s.lane m := fun m => State.lane_setDrive _ l m _
  refine h.map (f := fun v => if v.slot = w.slot then v.endPulse else v) rfl hk.1
    (h.lists.mapRun (f := fun v => if v.slot = w.slot then v.endPulse else v) rfl hk.1 hk.2 rfl (fun m => ?_)
      (fun _ => ⟨rfl, rfl, rfl⟩)) rfl rfl rfl (fun q => .refl _)
    (fun v _ hv => by rw [(hk.2 v).2]; exact hv) (fun v hv => ?_) (fun v hv hp => ?_)
  · rw [hlane]
    by_cases e : l = m
    · subst e
      rw [hrun, if_pos rfl]
      dsimp only
      rw [if_pos rfl]
      exact .inl (hdrive _).symm
    · rw [if_neg e]
      split
      · next v hv =>
        have hvm := (s.mem_trackList _ v).mp (State.running_mem hv).1
        have hne : v.slot ≠ w.slot := fun es => by
          obtain rfl := h.lists.slots.inj hvm.1 hwm es
          exact e (laneTrack_injective (hwl.symm.trans hvm.2))
        rw [if_neg hne]
        exact .inr ⟨rfl, rfl⟩
      · rfl
  · left
    by_cases ev : v.slot = w.slot
    · obtain rfl := h.lists.slots.inj hv hwm ev
      rw [if_pos rfl]
      exact hlaw
    · rw [if_neg ev]
      exact (h.sound v hv).run.resolve_right (fun x => by cases x.1)
  · rw [(hk.2 v).2] at hp
    by_cases ev : v.slot = w.slot
    · obtain rfl := h.lists.slots.inj hv hwm ev
      rw [ha] at hp
      cases hp
    · rw [if_neg ev]; exact (h.sound v hv).first hp

end Sys2Proof.Machine
end

