-- ==== Sys2Proof/Proofs/Ticks.lean ====
section
/-! PROOFS. A tick is taken where no event is due, so nothing is overdue after it. -/

namespace Sys2Proof.Machine

theorem State.trackList_congr {s t : State} (h : t.windows = s.windows) (x : Track) : t.trackList x = s.trackList x := by
  unfold State.trackList; rw [h]

theorem State.running_congr {s t : State} (h : t.windows = s.windows) (x : Track) : t.running x = s.running x := by
  unfold State.running; rw [State.head_congr (State.trackList_congr h x)]

/-- Where no command is due, none of the events of the timeline is (01 R12, R14, 04 R65, R68, 07 R111). -/
theorem nothing_due {s : State} (h : s.dueCommands = []) (hr : s.resetHeld = false) :
    (∀ t, s.endDue t = none ∧ s.startDue t = none) ∧ (∀ p b, s.jointEndDue p b = false ∧ s.jointStartDue p b = false) ∧
      ∀ l, s.pulseDue l = none := by
  have listed_nil : ∀ {d : Bool} {c : Instr}, listed d c = [] ↔ d = false := by
    intro d c
    cases d <;> simp [listed]
  unfold State.dueCommands at h
  rw [if_neg (by rw [hr]; exact Bool.false_ne_true)] at h
  simp only [List.append_eq_nil_iff, List.flatMap_eq_nil_iff, List.mem_finRange, true_implies, listed_nil,
    Option.isSome_eq_false_iff, Option.isNone_iff_eq_none] at h
  obtain ⟨⟨⟨h1, h2⟩, h3⟩, _⟩ := h
  exact ⟨h1, h2, h3⟩

/-- A bundled window has its bundle's record, which describes it (04 R58). -/
theorem RecordLaws.bundle_of {s : State} (h : RecordLaws s) {w : Window} (hw : w ∈ s.windows) {b : BundleNo}
    (hb : w.bundleNo = some b) : ∃ r, s.bundle w.owner b = some r ∧ w ∈ s.members w.owner b ∧
      ∀ v ∈ s.members w.owner b, v ∈ s.windows ∧ v.start = r.start ∧ v.stop = r.stop ∧ v.state = r.state := by
  obtain ⟨_, _, hB⟩ := (recordLaws_iff s).mp h
  have hm : w ∈ s.members w.owner b := (s.mem_members _ _ _).mpr ⟨hw, rfl, hb⟩
  have hm' := hm
  rw [State.members_eq] at hm'
  obtain ⟨r, hr, hl⟩ := ((hB w.owner).bundles b).of_mem hm'
  obtain ⟨_, _, _, _, h5, _⟩ := (r.lawful_iff b _).mp hl
  refine ⟨r, hr, hm, fun v hv => ⟨((s.mem_members _ _ _).mp hv).1, ?_⟩⟩
  rw [State.members_eq] at hv
  exact h5 v hv

/-- Where nothing is due, every ACTIVE window ends later (01 R14, 04 R68). -/
theorem Lists.stop_later {s : State} (h : Lists s) (hR : RecordLaws s) (hd : s.dueCommands = []) (hr : s.resetHeld = false)
    {w : Window} (hw : w ∈ s.windows) (ha : w.state = .active) : s.epoch < w.stop := by
  obtain ⟨d1, d2, _⟩ := nothing_due hd hr
  by_contra hc
  have hle : w.stop ≤ s.epoch := BitVec.not_lt.mp hc
  cases hb : w.bundleNo with
  | none =>
    have hrun := h.track.active_running ((s.mem_trackList _ w).mpr ⟨hw, rfl⟩) ha
    have hb' : w.bundle.isNone = true := by
      unfold Window.bundleNo at hb
      rwa [Option.map_eq_none_iff, ← Option.isNone_iff_eq_none] at hb
    have := (d1 w.track).1
    unfold State.endDue at this
    rw [hrun, Option.filter_some, if_pos (by simp [hb', hle])] at this
    cases this
  | some b =>
    obtain ⟨r, hr, hm, hall⟩ := hR.bundle_of hw hb
    obtain ⟨_, _, e2, e3⟩ := hall w hm
    have := (d2 w.owner b).1
    unfold State.jointEndDue at this
    rw [hr] at this
    dsimp only at this
    rw [← e3, ← e2, ha] at this
    simp [hle] at this

/-- Where nothing is due, every PENDING window starts later (01 R12, 04 R65). -/
theorem Lists.start_later {s : State} (h : Lists s) (hR : RecordLaws s) (hd : s.dueCommands = []) (hr : s.resetHeld = false)
    {w : Window} (hw : w ∈ s.windows) (hp : w.state = .pending) : s.epoch < w.start := by
  obtain ⟨d1, d2, _⟩ := nothing_due hd hr
  by_contra hc
  have hle : w.start ≤ s.epoch := BitVec.not_lt.mp hc
  have head : ∀ v ∈ s.windows, v.start ≤ s.epoch → v.state = .pending → s.head v.track = some v := by
    intro v hv hvle hvp
    have hvt := (s.mem_trackList v.track v).mpr ⟨hv, rfl⟩
    obtain ⟨hd', hh⟩ := State.exists_head hvt
    by_cases e : v = hd'
    · rw [hh, e]
    · have hact := h.active_of_behind hh hvt e hvle
      have h1 := h.stop_later hR hd hr (State.head_mem hh).1 hact
      have h2 := (h.track.head hh hvt e).1
      rw [BitVec.lt_def] at h1
      rw [BitVec.le_def] at h2 hvle
      omega
  cases hb : w.bundleNo with
  | none =>
    have hb' : w.bundle.isNone = true := by
      unfold Window.bundleNo at hb
      rwa [Option.map_eq_none_iff, ← Option.isNone_iff_eq_none] at hb
    have := (d1 w.track).2
    unfold State.startDue at this
    rw [head w hw hle hp, Option.filter_some, if_pos (by simp [hp, hb', hle])] at this
    cases this
  | some b =>
    obtain ⟨r, hr, hm, hall⟩ := hR.bundle_of hw hb
    obtain ⟨_, e1, _, e3⟩ := hall w hm
    have := (d2 w.owner b).2
    unfold State.jointStartDue at this
    rw [hr] at this
    dsimp only at this
    rw [← e3, ← e1, hp] at this
    have hheads : (s.members w.owner b).all (fun v => decide (s.head v.track = some v)) = true := by
      rw [List.all_eq_true]
      intro v hv
      obtain ⟨g0, g1, _, g3⟩ := hall v hv
      exact decide_eq_true (head v g0 (by rw [g1, ← e1]; exact hle) (by rw [g3, ← e3]; exact hp))
    rw [hheads] at this
    simp [hle] at this

/-- Where nothing is due, every pulse in progress ends later (07 R111). -/
theorem Laws.pulse_later {s : State} (h : Laws s []) (hd : s.dueCommands = []) (hr : s.resetHeld = false) {w : Window}
    (hw : w ∈ s.windows) (ha : w.state = .active) {k : Sense} {e : EdgeKind} {wd : BitVec 16} {n : Byte} {r : TriggerRun} {x : Epoch}
    (hsh : w.shape = .triggered k e wd n) (hrn : w.run = .trigger r) (hx : r.pulseEnd = some x) : s.epoch < x := by
  obtain ⟨_, _, d3⟩ := nothing_due hd hr
  by_contra hc
  have hle : x ≤ s.epoch := BitVec.not_lt.mp hc
  have hkind := (h.sound w hw).kind
  rcases track_cases w.track with ⟨l, hl⟩ | ⟨j, hj⟩
  · have hrun := h.lists.track.active_running ((s.mem_trackList _ w).mpr ⟨hw, rfl⟩) ha
    rw [hl] at hrun
    have := d3 l
    have hpe : w.pulseEnd = some x := by
      unfold Window.pulseEnd
      rw [ha, hsh, hrn]
      exact hx
    unfold State.pulseDue at this
    rw [hrun, Option.filter_some, hpe, if_pos (decide_eq_true hle)] at this
    cases this
  · obtain ⟨_, _, e⟩ := isTally_of_sense (by rw [← hj]; exact hkind)
    rw [hsh] at e
    cases e

theorem Laws.runLawful {s : State} (h : Laws s []) {w : Window} (hw : w ∈ s.windows) : w.runLawful s.epoch = true :=
  (h.sound w hw).run.resolve_right (fun x => by cases x.1)

/-- A run is lawful one epoch value later where its pulse, if any, ends later (07 R109, 08 R125). -/
theorem Window.runLawful_later {w : Window} {epoch later : Epoch} (h : w.runLawful epoch = true) (hle : epoch ≤ later)
    (hx : ∀ k e wd n r x, w.state = .active → w.shape = .triggered k e wd n → w.run = .trigger r → r.pulseEnd = some x → later ≤ x) :
    w.runLawful later = true := by
  unfold Window.runLawful at h ⊢
  split at h
  · next k e wd n r hs hr =>
    obtain ⟨h1, h2, h3⟩ := (TriggerRun.lawful_iff _ _ _ _).mp h
    refine (TriggerRun.lawful_iff _ _ _ _).mpr ⟨h1, h2, fun x e => ?_⟩
    obtain ⟨g1, g2, _⟩ := h3 x e
    exact ⟨g1, g2, hx _ _ _ _ _ x g1 hs hr e⟩
  · obtain ⟨h1, h2, h3, h4⟩ := (TallyRun.lawful_iff _ _ _ _).mp h
    refine (TallyRun.lawful_iff _ _ _ _).mpr ⟨h1, h2, h3, h4.imp id ?_⟩
    rintro ⟨a, b, e1, e2, e3, e4, e5, e6⟩
    exact ⟨a, b, e1, e2, e3, e4, e5, BitVec.le_trans e6 hle⟩
  · rfl
  · rfl
  · rfl
  · cases h

theorem lane_takeTick (s : State) (l : Lane) : s.takeTick.lane l =
    State.refreshedLane { s with epoch := epochPlus s.freeCount 16 s.epoch 1, progress := 0 } l := by
  obtain ⟨_, _, _, _, _, _, _, _, _, h, _⟩ := takeTick_rest s
  unfold State.lane
  rw [h]
  exact vector_ofFn_get _ l

/-- A tick keeps the laws: it is taken where nothing is due (01 R12, R14, 07 R106, 09 R139). -/
theorem Laws.takeTick {s : State} (h : Laws s []) (hR : RecordLaws s) (hfar : FarFromTop s) (hc : s.tickCompletes = true)
    (hd : s.dueCommands = []) : Laws s.takeTick [] := by
  have hr : s.resetHeld = false := by
    unfold State.tickCompletes at hc
    simp only [Bool.and_eq_true, Bool.not_eq_true'] at hc
    exact hc.1.1
  obtain ⟨t1, t2, _, t4, t5, t6, t7, _, _, _, _⟩ := takeTick_rest s
  have hlane := lane_takeTick s
  have hep : (epochPlus s.freeCount 16 s.epoch 1).toNat = s.epoch.toNat + 1 := by
    unfold epochPlus
    rw [if_pos (by omega), BitVec.toNat_add, BitVec.toNat_ofNat]
    omega
  generalize epochPlus s.freeCount 16 s.epoch 1 = later at hep t7 hlane
  have hle : s.epoch ≤ later := by rw [BitVec.le_def]; omega
  have next_le : ∀ {x : Epoch}, s.epoch < x → later ≤ x := by
    intro x hx
    rw [BitVec.lt_def] at hx
    rw [BitVec.le_def]
    omega
  have hpend : ∀ {w}, w ∈ s.windows → w.state = .pending → s.epoch < w.start := fun hw hp =>
    h.lists.start_later hR hd hr hw hp
  have hport : ∀ p, s.takeTick.port p = s.port p := fun p => by unfold State.port; rw [t4]
  refine ⟨⟨?_, ⟨by rw [t1]; exact h.lists.track.1, fun x => by rw [State.trackList_congr t1]; exact h.lists.track.2 x⟩,
    fun w hw => ?_, fun l => ?_, fun k => ?_⟩, fun w hw => ?_, fun w hw => ?_, fun w hw hx => ?_, fun p hx => ?_, fun p => ?_⟩
  · show (s.takeTick.windows.map Window.slot).Nodup
    rw [t1]; exact h.lists.slots
  · rw [t1] at hw
    obtain ⟨g1, g2, g3⟩ := h.lists.times w hw
    rw [t7]
    exact ⟨g1, fun e => next_le (hpend hw e), fun e => ⟨BitVec.le_trans (g3 e).1 hle,
      next_le (h.lists.stop_later hR hd hr hw e)⟩⟩
  · have hl := h.lists.lanes l
    unfold State.laneLawful at hl ⊢
    rw [State.running_congr t1, State.head_congr (State.trackList_congr t1 _), hlane, t7]
    unfold State.refreshedLane
    have hrX : State.running { s with epoch := later, progress := 0 } (laneTrack l) = s.running (laneTrack l) := rfl
    rw [hrX]
    cases hrun : s.running (laneTrack l) with
    | some w =>
      refine decide_eq_true (fun hlt => ?_)
      dsimp only
      rw [if_pos hlt]
    | none =>
      rw [hrun] at hl
      dsimp only at hl ⊢
      rcases Bool.or_eq_true_iff.mp hl with hl | hl
      · rw [Option.any_eq_true] at hl
        obtain ⟨w, hw, he⟩ := hl
        have := hpend (State.head_mem hw).1 (State.running_eq_none.mp hrun w hw)
        rw [of_decide_eq_true he, BitVec.lt_def] at this
        omega
      · exact Bool.or_eq_true_iff.mpr (.inr hl)
  · obtain ⟨c1, c2, c3, _⟩ := h.lists.tallies k
    have htk : s.takeTick.tally k = s.tally k := by unfold State.tally; rw [t6]
    rw [State.running_congr t1, htk]
    refine ⟨c1, c2, c3, .inl ?_⟩
    rcases h.lists.hold_cases k with ⟨h1, _⟩ | ⟨w, hw, hp, he, _⟩
    · exact h1
    · have := hpend (State.head_mem hw).1 hp
      rw [he, BitVec.lt_def] at this
      omega
  · rw [t1] at hw
    obtain ⟨k1, k2, k3, _, k5⟩ := h.sound w hw
    rw [t5, t7]
    exact ⟨k1, k2, k3, .inl (Window.runLawful_later (h.runLawful hw) hle
      (fun k e wd n r x ha hs hrn hx => next_le (h.pulse_later hd hr hw ha hs hrn hx))), k5⟩
  · rw [t1] at hw
    exact claims_of_fewer (claimant_of_eq t2) (h.claims w hw)
  · rw [t1] at hw
    rw [hport] at hx
    exact h.closing w hw hx
  · rw [hport] at hx ⊢
    exact h.holding p hx
  · rw [hport]
    exact h.queues p

end Sys2Proof.Machine
end

