-- ==== Sys2Proof/Proofs/Entering.lean ====
section
/-! PROOFS. New ends and new records: what displacement, admission and AMEND_END leave of the laws of the part. -/

namespace Sys2Proof.Machine

/-! ### New ends -/

/-- A record with the new end where it is one of those given (03 R46, 05 R82). -/
def Window.endedAt (ws : List Window) (stop : Epoch) (v : Window) : Window :=
  if v.among ws = true then { v with stop := stop } else v

theorem windows_setStops_endedAt (s : State) (ws : List Window) (stop : Epoch) :
    (s.setStops ws stop).windows = s.windows.map (Window.endedAt ws stop) := windows_setStops s ws stop

theorem Window.endedAt_keeps (ws : List Window) (stop : Epoch) : KeepsBookings (Window.endedAt ws stop) := setStops_keeps ws stop

theorem Window.endedAt_of_among {ws : List Window} {v : Window} (h : v.among ws = true) (stop : Epoch) :
    v.endedAt ws stop = { v with stop := stop } := if_pos h

theorem Window.endedAt_of_not_among {ws : List Window} {v : Window} (h : ¬ v.among ws = true) (stop : Epoch) :
    v.endedAt ws stop = v := if_neg h

/-- A new end is all that changes: state, run-time part and level stay. -/
theorem Window.endedAt_rest (ws : List Window) (stop : Epoch) (v : Window) :
    (v.endedAt ws stop).state = v.state ∧ (v.endedAt ws stop).run = v.run ∧ (∀ e, (v.endedAt ws stop).driveAt e = v.driveAt e) ∧
      ∀ e, (v.endedAt ws stop).runLawful e = v.runLawful e := by
  unfold Window.endedAt
  split
  · exact ⟨rfl, rfl, fun _ => rfl, fun _ => rfl⟩
  · exact ⟨rfl, rfl, fun _ => rfl, fun _ => rfl⟩

/-- New ends keep the lists where what they end stays apart from what follows and the lanes that run it follow (01 R2, 07 R106). -/
theorem Lists.restop {s t : State} {ws : List Window} {stop : Epoch} (h : Lists s)
    (hw : t.windows = s.windows.map (Window.endedAt ws stop)) (he : t.epoch = s.epoch) (ht : t.tallies = s.tallies)
    (hnew : ∀ v ∈ s.windows, v.among ws = true → v.start < stop ∧ s.epoch ≤ stop)
    (hd : ∀ x, ∀ v ∈ s.trackList x, ∀ u ∈ s.trackList x, v.among ws = true → v.stop ≤ u.start → stop ≤ u.start)
    (hlane : ∀ l, match s.running (laneTrack l) with
      | some w => s.epoch < (w.endedAt ws stop).stop → (t.lane l).drive = w.driveAt s.epoch
      | none => (t.lane l).drive = (s.lane l).drive) : Lists t := by
  have ht' : ∀ k, t.tally k = s.tally k := fun k => by unfold State.tally; rw [ht]
  refine h.map hw (Window.endedAt_keeps ws stop) (fun v => (v.endedAt_rest ws stop).1) he (fun v hv => ?_) (fun v hv ha => ?_)
    (fun x v hv u hu hle => ?_) (fun l => ?_) (fun k => by rw [ht']; exact ⟨rfl, rfl, rfl⟩)
  · by_cases e : v.among ws = true
    · rw [Window.endedAt_of_among e]; exact (hnew v hv e).1
    · rw [Window.endedAt_of_not_among e]; exact (h.times v hv).length
  · by_cases e : v.among ws = true
    · rw [Window.endedAt_of_among e]; exact (hnew v hv e).2
    · rw [Window.endedAt_of_not_among e]; exact ((h.times v hv).active ha).2
  · by_cases e : v.among ws = true
    · rw [Window.endedAt_of_among e]; exact hd x v hv u hu e hle
    · rw [Window.endedAt_of_not_among e]; exact hle
  · have hl := hlane l
    cases hr : s.running (laneTrack l) with
    | none => rw [hr] at hl; exact hl
    | some w =>
      rw [hr] at hl
      intro hlt
      rw [(w.endedAt_rest ws stop).2.2.1]
      exact hl hlt

/-- New ends keep the laws where they keep the lists. -/
theorem Laws.restop {s t : State} {ws : List Window} {stop : Epoch} (h : Laws s [])
    (hw : t.windows = s.windows.map (Window.endedAt ws stop)) (hL : Lists t) (he : t.epoch = s.epoch)
    (hu : t.useCounts = s.useCounts) (hc : t.claimants = s.claimants)
    (hp : ∀ q, (s.port q).Quiet { t.port q with bundles := (s.port q).bundles }) : Laws t [] :=
  h.map hw (Window.endedAt_keeps ws stop) hL he hu hc hp (fun v _ ha => by rw [(v.endedAt_rest ws stop).1]; exact ha)
    (fun v hv => .inl (by rw [(v.endedAt_rest ws stop).2.2.2]; exact h.runLawful hv))
    (fun v hv hx => by
      rw [(v.endedAt_rest ws stop).1] at hx
      rw [(v.endedAt_rest ws stop).2.1]
      exact (h.sound v hv).first hx)

/-! ### AMEND_END -/

/-- What a CANCEL or an AMEND_END acts on is one choice of the part's windows. -/
theorem among_unit {s : State} (h : s.SlotsDistinct) {w v : Window} (hv : v ∈ s.windows) :
    v.among (s.unitOf w) = sameUnit w v := among_filter h (sameUnit w) hv

theorem extensionConflict_none {s : State} {p : Port} {stop : Epoch} : ∀ (ws : List Window) (i : Nat),
    s.extensionConflict p stop i ws = none → ∀ v ∈ ws, s.inAddedTime stop v (fun x => decide (x.owner ≠ p)) = none := by
  intro ws
  induction ws with
  | nil => intro i _ v hv; cases hv
  | cons w ws ih =>
    intro i h v hv
    unfold State.extensionConflict at h
    split at h
    · cases h
    · next hn =>
      rcases List.mem_cons.mp hv with rfl | hv
      · exact hn
      · exact ih _ h v hv

/-- An end that AMEND_END accepts: behind the start and the lead, and the added time is free on every track (05 R79 to R81). -/
theorem amendRefusal_none {s : State} {p : Port} {w : Window} {stop : Epoch} (h : s.amendRefusal p w stop = none) :
    w.start < stop ∧ s.epoch.toNat + 64 ≤ stop.toNat ∧ (w.stop < stop → ∀ v ∈ s.unitOf w, ∀ x ∈ s.trackList v.track,
      x.slot ≠ v.slot → intersects x.start x.stop v.stop stop = false) := by
  unfold State.amendRefusal lead at h
  split at h
  · cases h
  · next h1 =>
    split at h
    · cases h
    · next h2 =>
      split at h
      · cases h
      · refine ⟨by rw [BitVec.lt_def]; omega, by omega, fun hlt v hv x hx hne => ?_⟩
        rw [if_pos hlt] at h
        split at h
        · cases h
        · next hown =>
          split at h
          · cases h
          · next hoth =>
            by_contra hc
            rw [Bool.not_eq_false] at hc
            rw [List.findIdx?_eq_none_iff] at hown
            have h3 := hown v hv
            have h4 := extensionConflict_none _ _ hoth v hv
            rw [Option.isSome_eq_false_iff, Option.isNone_iff_eq_none] at h3
            unfold State.inAddedTime at h3 h4
            have h3 := List.find?_eq_none.mp h3 x hx
            have h4 := List.find?_eq_none.mp h4 x hx
            simp only [hc, hne, ne_eq, not_false_eq_true, decide_true, Bool.and_self, Bool.true_and, decide_eq_true_eq] at h3 h4
            exact h4 h3

/-- The level that a lane computes anew (07 R106, R114). -/
theorem drive_refreshedLane (s : State) (l : Lane) : (s.refreshedLane l).drive =
    ((s.running (laneTrack l)).elim (s.lane l).drive
      (fun w => if s.epoch < w.stop then w.driveAt s.epoch else (s.lane l).drive)) := by
  unfold State.refreshedLane
  cases s.running (laneTrack l) with
  | none => rfl
  | some w =>
    rw [Option.elim_some]
    dsimp only
    split <;> rfl

/-- A lane that computed its level anew computes it again. -/
theorem drive_refreshedLane_setLane (s : State) (l m : Lane) :
    ((s.setLane m (s.refreshedLane m)).refreshedLane l).drive = (s.refreshedLane l).drive := by
  have hrun : (s.setLane m (s.refreshedLane m)).running (laneTrack l) = s.running (laneTrack l) := rfl
  have hep : (s.setLane m (s.refreshedLane m)).epoch = s.epoch := rfl
  have hlane : (s.setLane m (s.refreshedLane m)).lane l = if m = l then s.refreshedLane m else s.lane l :=
    State.lane_setLane s m l _
  rw [drive_refreshedLane, hrun, hep, hlane]
  by_cases e : m = l
  · subst e
    rw [if_pos rfl, drive_refreshedLane]
    cases s.running (laneTrack m) with
    | none => rfl
    | some w =>
      simp only [Option.elim_some]
      split
      · rfl
      · rfl
  · rw [if_neg e, drive_refreshedLane]

/-- What a lane is after the lanes of some windows computed their levels anew (07 R106). -/
theorem lane_refreshLanesOf (l : Lane) (ws : List Window) : ∀ s : State,
    ((s.refreshLanesOf ws).lane l).drive = (s.refreshedLane l).drive ∨
      ((s.refreshLanesOf ws).lane l = s.lane l ∧ ∀ w ∈ ws, w.track ≠ laneTrack l) := by
  induction ws with
  | nil => exact fun s => .inr ⟨rfl, fun w hw => by cases hw⟩
  | cons w ws ih =>
    intro s
    have he : s.refreshLanesOf (w :: ws) = (match laneOf w.track with
      | some m => s.setLane m (s.refreshedLane m)
      | none => s).refreshLanesOf ws := rfl
    rw [he]
    cases hm : laneOf w.track with
    | none =>
      have hne : w.track ≠ laneTrack l := fun e => by rw [e, laneOf_laneTrack] at hm; cases hm
      rcases ih s with h | ⟨h1, h2⟩
      · exact .inl h
      · exact .inr ⟨h1, fun v hv => (List.mem_cons.mp hv).elim (fun e => by rw [e]; exact hne) (h2 v)⟩
    | some m =>
      dsimp only
      have hlane : (s.setLane m (s.refreshedLane m)).lane l = if m = l then s.refreshedLane m else s.lane l :=
        State.lane_setLane s m l _
      rcases ih (s.setLane m (s.refreshedLane m)) with h | ⟨h1, h2⟩
      · exact .inl (h.trans (drive_refreshedLane_setLane s l m))
      · rw [h1, hlane]
        by_cases e : m = l
        · subst e; exact .inl (by rw [if_pos rfl])
        · refine .inr ⟨if_neg e, fun v hv => (List.mem_cons.mp hv).elim (fun ev => ?_) (h2 v)⟩
          rw [ev, laneOf_eq_some.mp hm]
          exact fun x => e (laneTrack_injective x)

/-- An accepted AMEND_END keeps the order on each track: what follows the unit's windows still follows them (05 R82). -/
theorem amend_stop_le {s : State} (h : Lists s) {w : Window} {stop : Epoch} (hr : s.amendRefusal w.owner w stop = none)
    {y : Track} {v u : Window} (hv : v ∈ s.trackList y) (hu : u ∈ s.trackList y) (hvu : v ∈ s.unitOf w)
    (hstop : w.stop = v.stop) (hle : v.stop ≤ u.start) : stop ≤ u.start := by
  obtain ⟨_, _, h3⟩ := amendRefusal_none hr
  obtain ⟨hvm, hvy⟩ := (s.mem_trackList y v).mp hv
  obtain ⟨hum, _⟩ := (s.mem_trackList y u).mp hu
  have hulen := (h.times u hum).length
  have hvlen := (h.times v hvm).length
  by_cases hlt : w.stop < stop
  · have hne : u.slot ≠ v.slot := fun es => by
      rw [h.slots.inj hum hvm es] at hle
      rw [BitVec.le_def] at hle
      rw [BitVec.lt_def] at hvlen
      omega
    have hno := h3 hlt v hvu u (by rw [hvy]; exact hu) hne
    unfold intersects at hno
    rw [Bool.and_eq_false_iff, decide_eq_false_iff_not, decide_eq_false_iff_not] at hno
    rw [BitVec.lt_def, BitVec.lt_def] at hno
    rw [BitVec.lt_def] at hulen
    rw [BitVec.le_def] at hle ⊢
    omega
  · exact BitVec.le_trans (by rw [← hstop]; exact BitVec.not_lt.mp hlt) hle

/-- AMEND_END keeps the laws (05 R79 to R82, 07 R106). -/
theorem Laws.amend {s : State} (h : Laws s []) (hR : RecordLaws s) {w : Window} (hw : w ∈ s.windows) {stop : Epoch}
    (hr : s.amendRefusal w.owner w stop = none) :
    Laws ((s.setStops (s.unitOf w) stop).refreshLanesOf (s.unitOf w)) [] := by
  obtain ⟨h1, h2, _⟩ := amendRefusal_none hr
  have hmend := fun {y v u} => amend_stop_le h.lists hr (y := y) (v := v) (u := u)
  have hn := h.lists.slots
  have mate : ∀ v ∈ s.windows, v.among (s.unitOf w) = true → v ∈ s.unitOf w ∧ w.start = v.start ∧ w.stop = v.stop := by
    intro v hv e
    rw [among_unit hn hv] at e
    obtain ⟨m1, m2, _⟩ := hR.mates hw hv e
    exact ⟨List.mem_filter.mpr ⟨hv, e⟩, m1, m2⟩
  have hlate : s.epoch < stop := by rw [BitVec.lt_def]; omega
  obtain ⟨ls, he⟩ := State.refreshLanesOf_spec (s.unitOf w) (s.setStops (s.unitOf w) stop)
  obtain ⟨r1, r2, _, r4, r5⟩ := rest_setStops s (s.unitOf w) stop
  have hep : (s.setStops (s.unitOf w) stop).epoch = s.epoch := (timebase_setStops s _ stop).1
  have hwin := windows_setStops_endedAt s (s.unitOf w) stop
  have hlanes := fun l => lane_refreshLanesOf l (s.unitOf w) (s.setStops (s.unitOf w) stop)
  have hbase : ∀ l, (s.setStops (s.unitOf w) stop).lane l = s.lane l := fun l => by unfold State.lane; rw [r4]
  have hrun := running_map hwin (Window.endedAt_keeps _ _) (fun v => (v.endedAt_rest _ _).1)
  have hports : ∀ q, (s.port q).Quiet { (s.setStops (s.unitOf w) stop).port q with bundles := (s.port q).bundles } := fun q => by
    rw [State.port_setStops]; exact .refl _
  generalize s.setStops (s.unitOf w) stop = x at *
  have hrefreshed : ∀ l, (x.refreshedLane l).drive = ((s.running (laneTrack l)).elim (s.lane l).drive
      (fun v => if s.epoch < (v.endedAt (s.unitOf w) stop).stop then v.driveAt s.epoch else (s.lane l).drive)) := by
    intro l
    rw [drive_refreshedLane, hrun, hep, hbase]
    cases s.running (laneTrack l) with
    | none => rfl
    | some v =>
      rw [Option.map_some, Option.elim_some, Option.elim_some, (v.endedAt_rest _ _).2.2.1]
  have hL : Lists (x.refreshLanesOf (s.unitOf w)) := by
    refine h.lists.restop (ws := s.unitOf w) (stop := stop) (by rw [he]; exact hwin) (by rw [he]; exact hep)
      (by rw [he]; exact r5) (fun v hv e => ?_) (fun y v hv u hu e hle => ?_) (fun l => ?_)
    · obtain ⟨_, m1, _⟩ := mate v hv e
      exact ⟨by rw [← m1]; exact h1, BitVec.le_of_lt hlate⟩
    · obtain ⟨hvu, _, m2⟩ := mate v ((s.mem_trackList y v).mp hv).1 e
      exact hmend hv hu hvu m2 hle
    · have hl := hlanes l
      rw [hrefreshed, hbase] at hl
      cases hrl : s.running (laneTrack l) with
      | none =>
        rw [hrl] at hl
        rcases hl with hl | ⟨hl, _⟩
        · exact hl
        · exact congrArg LaneDriver.drive hl
      | some v =>
        rw [hrl] at hl
        intro hlt
        rcases hl with hl | ⟨hl, hno⟩
        · exact hl.trans (if_pos hlt)
        · rw [hl]
          obtain ⟨hvm, hvl⟩ := (s.mem_trackList _ v).mp (State.running_mem hrl).1
          rw [Window.endedAt_of_not_among (fun e => hno v (mate v hvm e).1 hvl)] at hlt
          exact h.lists.lane_running hrl hlt
  exact h.restop (ws := s.unitOf w) (stop := stop) (by rw [he]; exact hwin) hL (by rw [he]; exact hep) (by rw [he]; exact r1)
    (by rw [he]; exact r2) (fun q => by rw [he]; exact hports q)

/-! ### Displacement -/

/-- A displaced window reaches into the time of the new one (03 R42, R49). -/
theorem displaced_stop {s : State} (hR : RecordLaws s) {p : Port} {priority : Fin 4} {tracks : List Track} {start stop : Epoch}
    {w : Window} (hw : w ∈ s.displaced p priority tracks start stop) : w ∈ s.windows ∧ start < w.stop := by
  obtain ⟨hw, hd⟩ := List.mem_filter.mp hw
  obtain ⟨v, hv, hvw⟩ := List.any_eq_true.mp hd
  obtain ⟨hv, hi⟩ := List.mem_filter.mp hv
  unfold isVictim intersects at hi
  simp only [Bool.and_eq_true, decide_eq_true_eq] at hi
  rw [← (hR.mates hv hw hvw).2.1]
  exact ⟨hw, hi.1.2.2⟩

/-- Displacement keeps the laws: what is bumped waits, what is truncated ends behind the lead (03 R42 to R53). -/
theorem Laws.displace {s : State} (h : Laws s []) (hR : RecordLaws s) (p : Port) (priority : Fin 4) (tracks : List Track)
    {start : Epoch} (stop : Epoch) (ht : s.epoch.toNat + 64 ≤ start.toNat) : Laws (s.displace p priority tracks start stop) [] := by
  obtain ⟨rs, y, _, hth, htb, hcl, hwin, _, hport, he⟩ := displace_stages h.lists p priority tracks start stop
  have hds := fun w (hw : w ∈ s.displaced p priority tracks start stop) => displaced_stop hR hw
  generalize s.displaced p priority tracks start stop = ds at *
  have hses : ∀ q, (y.port q).session = (s.port q).session := fun q => by
    rw [hport]; exact (PortUnit.quiet_appendAll _ _).session
  have hy : Laws y [] := by
    refine h.of_sub (hth.lists h.lists) (fun w hw => hth.mem hw) hth.epoch hth.useCounts (claimant_of_eq hcl)
      (fun q hx => by rw [← hses]; exact hx) (fun q hx => ?_) (fun q => ?_)
    · rw [hses] at hx
      have hnone : (bumpedOf start ds).filter (fun w => decide (w.owner = q)) = [] := by
        refine List.filter_eq_nil_iff.mpr (fun w hw e => ?_)
        obtain ⟨hw, hst⟩ := List.mem_filter.mp hw
        have hwm := (hds w hw).1
        have ha := h.closing w hwm (by rw [of_decide_eq_true e]; exact hx)
        have hle := ((h.lists.times w hwm).active ha).1
        have hst := of_decide_eq_true hst
        rw [BitVec.le_def] at hle hst
        omega
      rw [hport, hnone]
      exact h.holding q hx
    · rw [hport]
      exact PortUnit.appendAll_queueLawful _ _ (h.queues q)
  have hepy : y.epoch = s.epoch := htb.1
  obtain ⟨r1, r2, _, r4, r5⟩ := rest_setStops y (truncatedOf start ds) start
  have hlane : ∀ l, (y.setStops (truncatedOf start ds) start).lane l = y.lane l := fun l => by unfold State.lane; rw [r4]
  have hamong : ∀ v ∈ y.windows, v.among (truncatedOf start ds) = true → v.start < start ∧ start < v.stop := by
    intro v hv e
    obtain ⟨u, hu, eu⟩ := (Window.among_eq_true _ _).mp e
    obtain ⟨hu, hst⟩ := List.mem_filter.mp hu
    obtain ⟨hum, hstop⟩ := hds u hu
    rw [← h.lists.slots.inj hum (hth.mem hv) eu]
    exact ⟨of_decide_eq_true hst, hstop⟩
  have hlate : y.epoch < start := by rw [hepy, BitVec.lt_def]; omega
  rw [he]
  refine hy.restop (windows_setStops_endedAt y _ start) ?_ (timebase_setStops y _ start).1 r1 r2
    (fun q => by rw [State.port_setStops]; exact .refl _)
  refine hy.lists.restop (windows_setStops_endedAt y _ start) (timebase_setStops y _ start).1 r5
    (fun v hv e => ⟨(hamong v hv e).1, BitVec.le_of_lt hlate⟩) (fun x v hv u _ e hle => ?_) (fun l => ?_)
  · exact BitVec.le_trans (BitVec.le_of_lt (hamong v ((y.mem_trackList x v).mp hv).1 e).2) hle
  · rw [hlane]
    cases hrl : y.running (laneTrack l) with
    | none => rfl
    | some v =>
      intro hlt
      have hvm := ((y.mem_trackList _ v).mp (State.running_mem hrl).1).1
      refine hy.lists.lane_running hrl ?_
      by_cases e : v.among (truncatedOf start ds) = true
      · have := (hamong v hvm e).2
        rw [BitVec.lt_def] at hlate this ⊢
        omega
      · rwa [Window.endedAt_of_not_among e] at hlt

end Sys2Proof.Machine
end

