-- ==== Sys2Proof/Proofs/LawSteps.lean ====
section
/-! PROOFS. New records in their lists, sessions and claims, and with them all operations: every step keeps every law of the part. -/

namespace Sys2Proof.Machine

/-! ### New records -/

/-- A record that may enter the lists: its slot free, its start to come, its track clear of it, its claims standing (02 R23, R34). -/
structure Window.Enters (w : Window) (s : State) : Prop where
  slot : ∀ v ∈ s.windows, v.slot ≠ w.slot
  pending : w.state = .pending
  start : s.epoch < w.start
  length : w.start < w.stop
  apart : ∀ v ∈ s.trackList w.track, v.stop ≤ w.start ∨ w.stop ≤ v.start
  kind : kindFits w.track w.shape = true
  range : w.shape.inRange = true
  run : w.run = w.shape.firstRun
  claims : s.claimedByOther w.owner w.track = false ∧ s.triggerClaimed w.owner w.shape = false
  opened : (s.port w.owner).session = .opened

theorem mem_insertByStart {w v : Window} {l : List Window} : v ∈ insertByStart w l ↔ v = w ∨ v ∈ l := by
  rw [(insertByStart_perm w l).mem_iff, List.mem_cons]

/-- Windows of one track that are apart, in the order of their starts, each end before the next starts (01 R2). -/
theorem pairwise_stop_le_start {l : List Window} (hs : l.Pairwise (fun v w => v.start ≤ w.start))
    (ha : l.Pairwise (fun v w => v.stop ≤ w.start ∨ w.stop ≤ v.start)) (hl : ∀ v ∈ l, v.start < v.stop) :
    l.Pairwise (fun v w => v.stop ≤ w.start) := by
  refine (hs.and ha).imp_of_mem (fun {v w} hv hw h => ?_)
  obtain ⟨h1, h2⟩ := h
  have := hl w hw
  rcases h2 with h2 | h2
  · exact h2
  · rw [BitVec.le_def] at h1 h2
    rw [BitVec.lt_def] at this
    omega

/-- The track lists after a record entered (01 R2, 02 R34). -/
theorem trackList_insert_perm {s t : State} {w : Window} (hw : t.windows = insertByStart w s.windows) (x : Track) :
    (t.trackList x).Perm (if w.track = x then w :: s.trackList x else s.trackList x) := by
  unfold State.trackList
  rw [hw]
  refine ((insertByStart_perm w s.windows).filter _).trans ?_
  rw [List.filter_cons]
  by_cases e : w.track = x
  · rw [if_pos (decide_eq_true e), if_pos e]
  · rw [if_neg (by simpa using e), if_neg e]

theorem mem_trackList_insert {s t : State} {w : Window} (hw : t.windows = insertByStart w s.windows) (x : Track) (v : Window) :
    v ∈ t.trackList x ↔ (v = w ∧ w.track = x) ∨ v ∈ s.trackList x := by
  rw [(trackList_insert_perm hw x).mem_iff]
  by_cases e : w.track = x
  · rw [if_pos e, List.mem_cons]
    simp [e]
  · rw [if_neg e]
    simp [e]

/-- Records end behind their starts also after one entered (01 R2). -/
theorem Lists.length_insert {s t : State} {w : Window} (h : Lists s) (hE : w.Enters s)
    (hw : t.windows = insertByStart w s.windows) {x : Track} {v : Window} (hv : v ∈ t.trackList x) : v.start < v.stop := by
  rcases (mem_trackList_insert hw x v).mp hv with ⟨rfl, _⟩ | hv
  · exact hE.length
  · exact (h.times v ((s.mem_trackList x v).mp hv).1).length

/-- A track stays disjoint where the record that enters is apart from it (01 R2). -/
theorem Lists.apart_insert {s t : State} {w : Window} (h : Lists s) (hE : w.Enters s)
    (hw : t.windows = insertByStart w s.windows) (x : Track) : (t.trackList x).Pairwise (fun v u => v.stop ≤ u.start) := by
  have hsorted : t.windows.Pairwise (fun v u => v.start ≤ u.start) := by
    rw [hw]; exact insertByStart_sorted w _ h.track.1
  refine pairwise_stop_le_start (hsorted.sublist (t.trackList_sublist x)) ?_ (fun v hv => h.length_insert hE hw hv)
  refine ((trackList_insert_perm hw x).pairwise_iff (fun {a b} e => e.symm)).mpr ?_
  have hold : (s.trackList x).Pairwise (fun v u => v.stop ≤ u.start ∨ u.stop ≤ v.start) := (h.track.2 x).1.imp .inl
  split
  · next e => exact List.pairwise_cons.mpr ⟨fun v hv => (hE.apart v (by rw [e]; exact hv)).symm, hold⟩
  · exact hold

/-- A head whose start is reached stays the head where a record to come enters (02 R34). -/
theorem Lists.head_insert {s t : State} {w : Window} (h : Lists s) (hE : w.Enters s)
    (hw : t.windows = insertByStart w s.windows) {x : Track} {hd : Window} (hh : s.head x = some hd) (hle : hd.start ≤ s.epoch) :
    t.head x = some hd := by
  have hmh : hd ∈ s.trackList x := List.mem_of_mem_head? hh
  refine State.head_of_first (h.apart_insert hE hw x) (fun v hv => h.length_insert hE hw hv)
    ((mem_trackList_insert hw x hd).mpr (.inr hmh)) (fun v hv hne => ?_)
  rcases (mem_trackList_insert hw x v).mp hv with ⟨rfl, e⟩ | hv
  · have h1 := hE.start
    have h2 := hE.length
    rcases hE.apart hd (by rw [e]; exact hmh) with h3 | h3
    · exact h3
    · rw [BitVec.lt_def] at h1 h2
      rw [BitVec.le_def] at h3 hle
      omega
  · exact (h.track.head hh hv hne).1

/-- An ACTIVE window of a track after a record entered ran there before, and still does. -/
theorem Lists.active_insert {s t : State} {w : Window} (h : Lists s) (hE : w.Enters s)
    (hw : t.windows = insertByStart w s.windows) {x : Track} {v : Window} (hv : v ∈ t.trackList x) (ha : v.state = .active) :
    s.running x = some v ∧ t.head x = some v := by
  have hvs : v ∈ s.trackList x := by
    rcases (mem_trackList_insert hw x v).mp hv with ⟨rfl, _⟩ | hv
    · rw [hE.pending] at ha; cases ha
    · exact hv
  exact ⟨h.track.active_running hvs ha, h.head_insert hE hw (h.track.active_head hvs ha)
    ((h.times v ((s.mem_trackList x v).mp hvs).1).active ha).1⟩

/-- What runs on a track is what ran there before a record entered (01 R3). -/
theorem Lists.running_insert {s t : State} {w : Window} (h : Lists s) (hE : w.Enters s)
    (hw : t.windows = insertByStart w s.windows) (x : Track) : t.running x = s.running x := by
  cases hs : s.running x with
  | some v =>
    obtain ⟨hv, ha⟩ := State.running_mem hs
    exact State.running_eq_some.mpr ⟨(h.active_insert hE hw ((mem_trackList_insert hw x v).mpr (.inr hv)) ha).2, ha⟩
  | none =>
    by_contra hc
    obtain ⟨v, hv⟩ := Option.ne_none_iff_exists'.mp hc
    obtain ⟨hv, ha⟩ := State.running_mem hv
    rw [(h.active_insert hE hw hv ha).1] at hs
    cases hs

theorem Lists.track_insert {s t : State} {w : Window} (h : Lists s) (hE : w.Enters s)
    (hw : t.windows = insertByStart w s.windows) : TrackLaw t := by
  refine ⟨by rw [hw]; exact insertByStart_sorted w _ h.track.1, fun x => ⟨h.apart_insert hE hw x, fun v hv => ?_⟩⟩
  by_contra hc
  have hvt := List.mem_of_mem_tail hv
  have hh := (h.active_insert hE hw hvt (Window.active_of_not_pending hc)).2
  have hp := h.apart_insert hE hw x
  have h2 := h.length_insert hE hw hvt
  unfold State.head at hh
  cases hlist : t.trackList x with
  | nil => rw [hlist] at hv; cases hv
  | cons a l =>
    rw [hlist] at hh hp hv
    cases hh
    have h1 := (List.pairwise_cons.mp hp).1 v hv
    rw [BitVec.le_def] at h1
    rw [BitVec.lt_def] at h2
    omega

/-- A record that enters behind what is due keeps lists, lanes and Tally Units (01 R2, R3, 02 R34). -/
theorem Lists.insert {s t : State} {w : Window} (h : Lists s) (hE : w.Enters s) (hw : t.windows = insertByStart w s.windows)
    (he : t.epoch = s.epoch) (hl : t.lanes = s.lanes) (ht : t.tallies = s.tallies) : Lists t := by
  refine ⟨?_, h.track_insert hE hw, fun v hv => ?_, fun l => ?_, fun k => ?_⟩
  · show (t.windows.map Window.slot).Nodup
    rw [hw, ((insertByStart_perm w s.windows).map Window.slot).nodup_iff, List.map_cons, List.nodup_cons]
    refine ⟨fun hx => ?_, h.slots⟩
    obtain ⟨v, hv, e⟩ := List.mem_map.mp hx
    exact hE.slot v hv e
  · rw [hw] at hv
    rw [he]
    rcases mem_insertByStart.mp hv with rfl | hv
    · exact ⟨hE.length, fun _ => BitVec.le_of_lt hE.start, fun e => by rw [hE.pending] at e; cases e⟩
    · exact h.times v hv
  · have hla := h.lanes l
    have hlane : t.lane l = s.lane l := by unfold State.lane; rw [hl]
    unfold State.laneLawful at hla ⊢
    rw [h.running_insert hE hw, hlane, he]
    cases hr : s.running (laneTrack l) with
    | some v => rw [hr] at hla; exact hla
    | none =>
      rw [hr] at hla
      dsimp only at hla ⊢
      rcases Bool.or_eq_true_iff.mp hla with hla | hla
      · rw [Option.any_eq_true] at hla
        obtain ⟨v, hv, e⟩ := hla
        rw [h.head_insert hE hw hv (by rw [of_decide_eq_true e]; exact BitVec.le_refl _), Option.any_some, e]
        rfl
      · rw [hla, Bool.or_true]
  · obtain ⟨c1, c2, c3, _⟩ := h.tallies k
    have htk : t.tally k = s.tally k := by unfold State.tally; rw [ht]
    rw [h.running_insert hE hw, htk, he]
    refine ⟨c1, c2, c3, ?_⟩
    rcases h.hold_cases k with ⟨h1, _⟩ | ⟨v, hv, hp, hst, hh⟩
    · exact .inl h1
    · right
      rw [h.head_insert hE hw hv (by rw [hst]; exact BitVec.le_refl _), Option.filter_some, if_pos (by simp [hp, hst])]
      exact hh

/-- A record that may enter keeps the laws (02 R34, R35). -/
theorem Laws.insertWindow {s : State} (h : Laws s []) {w : Window} (hE : w.Enters s) : Laws (s.insertWindow w) [] := by
  have hfield := s.insertWindow_eq w
  have hport := port_insertWindow s w
  have hwin : (s.insertWindow w).windows = insertByStart w s.windows := by rw [hfield]
  have hep : (s.insertWindow w).epoch = s.epoch := by rw [hfield]
  have hcl : (s.insertWindow w).claimants = s.claimants := by rw [hfield]
  have huse : ∀ i : Slot, (s.insertWindow w).useCounts[i] = if w.slot = i then w.useCount else s.useCounts[i] := by
    intro i
    rw [hfield]
    exact vector_get_set s.useCounts w.slot i w.useCount
  have hses : ∀ q, ((s.insertWindow w).port q).session = (s.port q).session := fun q => by rw [hport]; split <;> rfl
  refine ⟨h.lists.insert hE hwin hep (by rw [hfield]) (by rw [hfield]), fun v hv => ?_, fun v hv => ?_, fun v hv hx => ?_,
    fun q hx => ?_, fun q => ?_⟩
  · rw [hwin] at hv
    rw [hep]
    rcases mem_insertByStart.mp hv with rfl | hv
    · exact ⟨hE.kind, hE.range, ((huse _).trans (if_pos rfl)).symm, .inl (Window.runLawful_first hE.range hE.run _), fun _ => hE.run⟩
    · obtain ⟨k1, k2, k3, k4, k5⟩ := h.sound v hv
      exact ⟨k1, k2, k3.trans ((huse _).trans (if_neg (fun e => hE.slot v hv e.symm))).symm, k4, k5⟩
  · rw [hwin] at hv
    refine claims_of_fewer (claimant_of_eq hcl) ?_
    rcases mem_insertByStart.mp hv with rfl | hv
    · exact hE.claims
    · exact h.claims v hv
  · rw [hwin] at hv
    rw [hses] at hx
    rcases mem_insertByStart.mp hv with rfl | hv
    · rw [hE.opened] at hx; cases hx
    · exact h.closing v hv hx
  · rw [hses] at hx
    rw [hport]
    split
    · exact Nat.succ_ne_zero _
    · exact h.holding q hx
  · rw [hport]
    split
    · exact h.queues q
    · exact h.queues q

/-- What may enter still may once another record, of another slot and track, entered. -/
theorem Window.Enters.insertWindow {s : State} {w u : Window} (h : w.Enters s) (hs : u.slot ≠ w.slot) (ht : u.track ≠ w.track) :
    w.Enters (s.insertWindow u) := by
  have hfield := s.insertWindow_eq u
  have hwin : (s.insertWindow u).windows = insertByStart u s.windows := by rw [hfield]
  refine ⟨fun v hv => ?_, h.pending, by rw [hfield]; exact h.start, h.length, fun v hv => ?_, h.kind, h.range, h.run,
    claims_of_fewer (claimant_of_eq (by rw [hfield])) h.claims, ?_⟩
  · rw [hwin] at hv
    rcases mem_insertByStart.mp hv with rfl | hv
    · exact hs
    · exact h.slot v hv
  · obtain ⟨hv, e⟩ := (State.mem_trackList _ _ _).mp hv
    rw [hwin] at hv
    rcases mem_insertByStart.mp hv with rfl | hv
    · exact absurd e ht
    · exact h.apart v ((s.mem_trackList _ v).mpr ⟨hv, e⟩)
  · rw [port_insertWindow]
    split
    · exact h.opened
    · exact h.opened

/-- Records of slots and tracks of their own enter one after another (04 R64). -/
theorem Laws.insertWindows (news : List Window) : ∀ {s : State}, Laws s [] → (∀ w ∈ news, w.Enters s) →
    (news.map Window.slot).Nodup → (news.map Window.track).Nodup → Laws (news.foldl State.insertWindow s) [] := by
  induction news with
  | nil => exact fun h _ _ _ => h
  | cons u news ih =>
    intro s h hE hs ht
    rw [List.map_cons, List.nodup_cons] at hs ht
    refine ih (h.insertWindow (hE u List.mem_cons_self)) (fun w hw => ?_) hs.2 ht.2
    exact (hE w (List.mem_cons_of_mem _ hw)).insertWindow (fun e => hs.1 (by rw [e]; exact List.mem_map_of_mem hw))
      (fun e => ht.1 (by rw [e]; exact List.mem_map_of_mem hw))

/-! ### Admissions -/

/-- Once the victims of an admission gave way, its tracks are clear of its time (03 R42, R43). -/
theorem displace_apart {s : State} (h : Lists s) {p : Port} {priority : Fin 4} {tracks : List Track} {start stop : Epoch} {x : Track}
    (hx : x ∈ tracks) (hv : ∀ w ∈ s.trackList x, intersects w.start w.stop start stop = true → w.owner ≠ p ∧ w.priority < priority) :
    ∀ v ∈ (s.displace p priority tracks start stop).trackList x, v.stop ≤ start ∨ stop ≤ v.start := by
  obtain ⟨_, y, _, _, _, _, hwin, _, _, he⟩ := displace_stages h p priority tracks start stop
  intro v hvm
  obtain ⟨hvm, hvx⟩ := (State.mem_trackList _ _ _).mp hvm
  rw [he, windows_setStops_endedAt, hwin] at hvm
  obtain ⟨u, hu, rfl⟩ := List.mem_map.mp hvm
  obtain ⟨hu, hnb⟩ := List.mem_filter.mp hu
  have hk := Window.endedAt_keeps (truncatedOf start (s.displaced p priority tracks start stop)) start u
  rw [hk.track] at hvx
  rw [hk.start]
  by_cases hi : intersects u.start u.stop start stop = true
  · left
    obtain ⟨ho, hp⟩ := hv u ((s.mem_trackList x u).mpr ⟨hu, hvx⟩) hi
    have hd : u ∈ s.displaced p priority tracks start stop := by
      refine List.mem_filter.mpr ⟨hu, List.any_eq_true.mpr ⟨u, List.mem_filter.mpr ⟨hu, ?_⟩, sameUnit_refl u⟩⟩
      unfold isVictim
      simp [ho, hvx, hx, hi, hp]
    have htr : u.start < start := by
      by_contra hc
      rw [Bool.not_eq_true', ← Bool.not_eq_true, Window.among_eq_true] at hnb
      exact hnb ⟨u, List.mem_filter.mpr ⟨hd, decide_eq_true (BitVec.not_lt.mp hc)⟩, rfl⟩
    have hmt : u.among (truncatedOf start (s.displaced p priority tracks start stop)) = true :=
      (Window.among_eq_true _ _).mpr ⟨u, List.mem_filter.mpr ⟨hd, decide_eq_true htr⟩, rfl⟩
    rw [Window.endedAt_of_among hmt]
    exact BitVec.le_refl _
  · have hor : u.stop ≤ start ∨ stop ≤ u.start := by
      unfold intersects at hi
      rw [Bool.and_eq_true, decide_eq_true_eq, decide_eq_true_eq, not_and_or] at hi
      exact hi.symm.imp BitVec.not_lt.mp BitVec.not_lt.mp
    refine hor.imp (fun hle => ?_) id
    by_cases e : u.among (truncatedOf start (s.displaced p priority tracks start stop)) = true
    · rw [Window.endedAt_of_among e]; exact BitVec.le_refl _
    · rw [Window.endedAt_of_not_among e]; exact hle

/-- A member that passed the checks may enter as a record once its victims gave way (02 R23, R34, 04 R64). -/
theorem enters_of_admissible {s : State} (h : Lists s) {p : Port} {priority : Fin 4} {tracks : List Track} {b : Booking}
    {ms : List Member} {d : Descriptor} {m : Member} {w : Window} (hs : (s.port p).session = .opened) (ha : Admissible s p b ms)
    (hm : m ∈ ms) (hj : judgeMember b d = .ok m) (hpr : m.priority = priority) (ht : m.track ∈ tracks)
    (hw : w.owner = p ∧ w.start = b.start ∧ w.stop = b.stop ∧ w.state = .pending ∧ w.run = w.shape.firstRun ∧
      w.track = m.track ∧ w.shape = m.shape)
    (hslot : w.slot ∈ (s.displace p priority tracks b.start b.stop).freeSlots) :
    w.Enters (s.displace p priority tracks b.start b.stop) := by
  obtain ⟨t1, _, t3, _, _, hall⟩ := ha
  obtain ⟨hc1, hc2, hv⟩ := hall m hm
  obtain ⟨_, _, hkind, hrange, _⟩ := judgeMember_ok hj
  obtain ⟨w1, w2, w3, w4, w5, w6, w7⟩ := hw
  obtain ⟨o1, o2, _, o4⟩ := displace_own h.slots p priority tracks b.start b.stop
  refine ⟨(State.mem_freeSlots _ _).mp hslot, w4, ?_, ?_, ?_, by rw [w6, w7]; exact hkind, by rw [w7]; exact hrange, w5, ?_, ?_⟩
  · rw [o4, w2, BitVec.lt_def]; omega
  · rw [w2, w3, BitVec.lt_def]; omega
  · rw [w2, w3, w6]
    exact displace_apart h ht (by rw [← hpr]; exact hv)
  · rw [w1, w6, w7]
    exact claims_of_fewer (claimant_of_eq o2) ⟨hc1, hc2⟩
  · rw [w1, o1]; exact hs

/-- RESERVE keeps the laws (02 R33 to R36). -/
theorem Laws.books {s : State} (h : Laws s []) (hR : RecordLaws s) {p : Port} {b : Booking} {d : Descriptor} {m : Member} {i : Slot}
    (hs : (s.port p).session = .opened) (hj : judgeReserve p b d s = .ok m)
    (hi : i ∈ (s.displace p m.priority [m.track] b.start b.stop).freeSlots) :
    Laws ((s.displace p m.priority [m.track] b.start b.stop).insertWindow
      (newWindow (s.displace p m.priority [m.track] b.start b.stop) p b none m i)) [] := by
  obtain ⟨hm, ha⟩ := judgeReserve_ok hj
  refine (h.displace hR p m.priority [m.track] b.stop ha.1).insertWindow ?_
  exact enters_of_admissible h.lists hs ha List.mem_cons_self hm rfl List.mem_cons_self ⟨rfl, rfl, rfl, rfl, rfl, rfl, rfl⟩ hi

theorem Laws.setBundle {s : State} {full : List Slot} (h : Laws s full) (p : Port) (b : BundleNo) (r : Option BundleRecord) :
    Laws (s.setBundle p b r) full := by
  have hport : ∀ q, ((s.setBundle p b r).port q).session = (s.port q).session ∧ ((s.setBundle p b r).port q).held = (s.port q).held ∧
      ((s.setBundle p b r).port q).queue = (s.port q).queue ∧ ((s.setBundle p b r).port q).lost = (s.port q).lost := by
    intro q
    unfold State.setBundle
    rw [State.port_setPort]
    split
    · next e => subst e; exact ⟨rfl, rfl, rfl, rfl⟩
    · exact ⟨rfl, rfl, rfl, rfl⟩
  refine h.of_sub (SameLists.lists (s := s) (.of_eq rfl rfl rfl rfl) h.lists) (fun _ hw => hw) rfl rfl (fun _ _ x => x)
    (fun q hx => by rw [← (hport q).1]; exact hx)
    (fun q hx => by rw [(hport q).2.1]; exact h.holding q (by rw [← (hport q).1]; exact hx)) (fun q => ?_)
  obtain ⟨_, _, e3, e4⟩ := hport q
  unfold PortUnit.QueueLawful
  rw [e3, e4]
  exact h.queues q

/-- RESERVE_BUNDLE keeps the laws (04 R60 to R64). -/
theorem Laws.booksBundle {s : State} (h : Laws s []) (hR : RecordLaws s) {p : Port} {b : Booking} {ds : List Descriptor}
    {ms : List Member} {n : BundleNo} (hs : (s.port p).session = .opened) (hj : judgeBundle p b ds s = .ok (ms, n)) :
    Laws (reserveBundle p b ds s).1 [] := by
  obtain ⟨_, _, hm, _, ha⟩ := judgeBundle_ok hj
  obtain ⟨hmap, ht, _⟩ := judgeMembers_ok ds 0 [] ms hm
  rw [reserveBundle_ok hj]
  have hjudged : ∀ m ∈ ms, ∃ d, judgeMember b d = .ok m := by
    intro m hm
    have : (Except.ok m : Except Status Member) ∈ ds.map (judgeMember b) := by rw [hmap]; exact List.mem_map_of_mem hm
    obtain ⟨d, _, e⟩ := List.mem_map.mp this
    exact ⟨d, e⟩
  have hprio : ∀ m ∈ ms, m.priority = (ms.head?.map Member.priority).getD 0 := by
    intro m hm
    cases ms with
    | nil => cases hm
    | cons m0 ms =>
      obtain ⟨d, hd⟩ := hjudged m hm
      obtain ⟨d0, hd0⟩ := hjudged m0 List.mem_cons_self
      exact Fin.ext ((judgeMember_ok hd).2.1.trans (judgeMember_ok hd0).2.1.symm)
  have hroom := (hR.displace p ((ms.head?.map Member.priority).getD 0) (ms.map Member.track) b.start b.stop).room
    (displace_quota h.lists.slots p b _ _ ha.2.2.2.2.1)
  have hnew := newMembers_spec (s.displace p ((ms.head?.map Member.priority).getD 0) (ms.map Member.track) b.start b.stop) p b n ms
    true _ hroom
  obtain ⟨_, g2, g3, _, g5⟩ := hnew
  unfold State.bookedBundle
  refine Laws.setBundle ((h.displace hR p _ _ b.stop ha.1).insertWindows _ (fun w hw => ?_) ?_ ?_) p n _
  · obtain ⟨k1, k2, k3, k4, _, _, k7, m, hm, k8, k9, _⟩ := g5 w hw
    obtain ⟨d, hd⟩ := hjudged m hm
    refine enters_of_admissible h.lists hs ha hm hd (hprio m hm) (List.mem_map_of_mem hm) ⟨k1, k2, k3, k4, k7, k8, k9⟩ ?_
    have hmem := List.mem_map_of_mem (f := Window.slot) hw
    rw [g2] at hmem
    exact List.mem_of_mem_take hmem
  · rw [g2]
    exact (State.freeSlots_nodup _).sublist (List.take_sublist _ _)
  · rw [g3]; exact ht

end Sys2Proof.Machine
end

