-- ==== Sys2Proof/Proofs/EveryLaw.lean ====
section
/-! PROOFS. Sessions, claims and resets, and all operations together: every step keeps every law of the part. -/

namespace Sys2Proof.Machine

/-! ### Sessions -/

/-- Windows of a port whose session is OPEN leave, and the session goes on (05 R76, R84). -/
theorem Laws.leaveOpened {s : State} (h : Laws s []) {p : Port} {f : Window → Bool} (hs : (s.port p).session = .opened)
    (ho : ∀ w ∈ s.windows, f w = true → w.owner = p) : Laws (s.leaveAll (s.windows.filter f)) [] := by
  have hl := h.leave ho
  rcases (s.leaveAll (s.windows.filter f)).endIfClosed_cases p with ⟨hc, _⟩ | ⟨_, e⟩
  · rw [session_leaveAll, hs] at hc
    cases hc
  · rwa [e] at hl

theorem Laws.down {s : State} (h : Laws s []) (p : Port) : Laws (s.sessionDown p) [] :=
  Laws.sessionDown ⟨h.lists, h.sound, h.claims, h.queues, fun q _ hx => ⟨h.holding q hx, fun w hw e => h.closing w hw (by rw [e]; exact hx)⟩⟩

/-- A change of one port's unit after which it is not CLOSING. -/
theorem Laws.setPort {s : State} (h : Laws s []) {p : Port} {u : PortUnit} (hu : u.session ≠ .closing) (hq : u.QueueLawful) :
    Laws (s.setPort p u) [] := by
  have hport : ∀ q, ((s.setPort p u).port q).session = .closing → p ≠ q ∧ (s.port q).session = .closing := by
    intro q hx
    rw [State.port_setPort] at hx
    by_cases e : p = q
    · rw [if_pos e] at hx; exact absurd hx hu
    · rw [if_neg e] at hx; exact ⟨e, hx⟩
  refine h.of_sub (SameLists.lists (s := s) (.of_eq rfl rfl rfl rfl) h.lists) (fun _ hw => hw) rfl rfl (fun _ _ x => x)
    (fun q hx => (hport q hx).2) (fun q hx => ?_) (fun q => ?_)
  · obtain ⟨hne, hc⟩ := hport q hx
    rw [State.port_setPort, if_neg hne]
    exact h.holding q hc
  · rw [State.port_setPort]
    split
    · exact hq
    · exact h.queues q

/-- A port that holds only ACTIVE windows, and some, may go to CLOSING (10 R151). -/
theorem Laws.toClosing {s : State} (h : Laws s []) {p : Port} (hh : (s.port p).held ≠ 0)
    (ha : ∀ w ∈ s.windows, w.owner = p → w.state = .active) : Laws (s.setPort p { s.port p with session := .closing }) [] := by
  refine ⟨SameLists.lists (s := s) (.of_eq rfl rfl rfl rfl) h.lists, h.sound, h.claims, fun w hw hx => ?_, fun q hx => ?_,
    fun q => ?_⟩
  · by_cases e : w.owner = p
    · exact ha w hw e
    · rw [State.port_setPort, if_neg (fun x => e x.symm)] at hx
      exact h.closing w hw hx
  · rw [State.port_setPort] at hx ⊢
    by_cases e : p = q
    · rw [if_pos e]; exact hh
    · rw [if_neg e] at hx ⊢
      exact h.holding q hx
  · rw [State.port_setPort]
    split
    · exact h.queues p
    · exact h.queues q

/-- CLOSE GRACEFUL keeps the laws (10 R151). -/
theorem Laws.closes {s : State} (h : Laws s []) {p : Port} (hs : (s.port p).session = .opened) : Laws (closeGraceful p s).1 [] := by
  have hl : Laws (s.leaveAll (s.pendingOf p)) [] := by
    rw [State.pendingOf_eq]
    exact h.leaveOpened hs (fun w _ e => of_decide_eq_true (Bool.and_eq_true_iff.mp e).1)
  have hwin : ∀ w ∈ (s.leaveAll (s.pendingOf p)).windows, w.owner = p → w.state = .active := by
    intro w hw ho
    rw [State.pendingOf_eq, windows_leaveAll_filter h.lists.slots] at hw
    obtain ⟨_, hf⟩ := List.mem_filter.mp hw
    by_contra hc
    have hp : w.state = .pending := by
      by_contra hx
      exact hc (Window.active_of_not_pending hx)
    simp [ho, hp] at hf
  rcases closeGraceful_opened hs with ⟨_, e⟩ | ⟨hh, e⟩ <;> rw [e]
  · exact hl.down p
  · exact hl.toClosing hh hwin

/-- A teardown leaves the laws to all ports but its own, which holds nothing any more (10 R153). -/
theorem Laws.teardown {s : State} (h : Laws s []) (p : Port) :
    Lists (s.teardown p) ∧ (∀ w ∈ (s.teardown p).windows, w.Sound (s.teardown p).useCounts (s.teardown p).epoch []) ∧
      ClaimLaw (s.teardown p) ∧ (∀ q, ((s.teardown p).port q).QueueLawful) ∧
      ∀ q, q ≠ p → ((s.teardown p).port q).session = .closing →
        ((s.teardown p).port q).held ≠ 0 ∧ ∀ w ∈ (s.teardown p).windows, w.owner = q → w.state = .active := by
  have hth := teardown_thinned h.lists p
  refine ⟨hth.lists h.lists, fun w hw => ?_, fun w hw => ?_, fun q => ?_, fun q hq hx => ?_⟩
  · rw [hth.epoch, hth.useCounts]; exact h.sound w (hth.mem hw)
  · exact claims_of_fewer (claimant_of_eq (claimants_teardown s p)) (h.claims w (hth.mem hw))
  · rw [port_teardown]
    split
    · exact h.queues p
    · exact h.queues q
  · rw [port_teardown, if_neg (fun e => hq e.symm)] at hx ⊢
    exact ⟨h.holding q hx, fun w hw e => h.closing w (hth.mem hw) (by rw [e]; exact hx)⟩

/-- A lapse keeps the laws (10 R158). -/
theorem Laws.lapse {s : State} (h : Laws s []) (p : Port) (cause : LapseCause) : Laws (s.lapse p cause) [] := by
  obtain ⟨hL, hs, hc, hq, ho⟩ := h.teardown p
  have hport : ∀ q, (s.lapse p cause).port q = if p = q then (s.port p).lapsed s.epoch cause else s.port q := by
    intro q
    obtain ⟨_, _, e⟩ := s.lapse_spec p cause
    rw [e]
    exact vector_get_set _ _ _ _
  have hne : ∀ q, ((s.lapse p cause).port q).session = .closing → q ≠ p ∧ (s.port q).session = .closing := by
    intro q hx
    rw [hport] at hx
    by_cases e : p = q
    · rw [if_pos e] at hx; cases hx
    · rw [if_neg e] at hx; exact ⟨fun x => e x.symm, hx⟩
  have hwin : (s.lapse p cause).windows = (s.teardown p).windows := rfl
  have hold : ∀ q, q ≠ p → (s.teardown p).port q = s.port q := fun q e => by
    rw [port_teardown, if_neg (fun x => e x.symm)]
  refine ⟨SameLists.lists (s := s.teardown p) (.of_eq rfl rfl rfl rfl) hL, hs, fun w hw => claims_of_fewer (fun x q hx => ?_) (hc w hw),
    fun w hw hx => ?_, fun q hx => ?_, fun q => ?_⟩
  · have hx : ((s.teardown p).releaseClaims p).claimant x = some q := hx
    rw [State.claimant_releaseClaims] at hx
    split at hx
    · cases hx
    · exact hx
  · obtain ⟨h1, h2⟩ := hne _ hx
    exact (ho _ h1 (by rw [hold _ h1]; exact h2)).2 w hw rfl
  · obtain ⟨h1, h2⟩ := hne q hx
    rw [hport, if_neg (fun e => h1 e.symm)]
    exact h.holding q h2
  · rw [hport]
    split
    · exact ⟨(by decide : 1 ≤ queueDepth), Nat.zero_le _, fun e => absurd e (Nat.lt_irrefl 0)⟩
    · exact h.queues q

/-! ### Claims -/

/-- CLAIM keeps the laws: no other port has business on the track (06 R90 to R92). -/
theorem Laws.claims_track {s : State} (h : Laws s []) (hR : RecordLaws s) {p : Port} {x : Track} (hh : s.heldByOthers p x = false) :
    Laws (s.setClaimant x (some p)) [] := by
  unfold State.heldByOthers at hh
  obtain ⟨hh1, hh2⟩ := Bool.or_eq_false_iff.mp hh
  obtain ⟨_, _, hRef, _⟩ := id hR
  have hown : ∀ w ∈ s.windows, w.track = x → w.owner = p := by
    intro w hw e
    have := List.any_eq_false.mp hh1 w ((s.mem_trackList x w).mpr ⟨hw, e⟩)
    simpa using this
  have hsrc : ∀ w ∈ s.windows, ∀ k, w.shape.source = some k → senseTrack k = x → w.owner = p := by
    intro w hw k hk e
    rw [← e, senseOf_senseTrack] at hh2
    by_contra hc
    have := List.any_eq_false.mp hh2 w.owner (List.mem_finRange _)
    have hpos : 0 < s.refs k w.owner := by
      rw [hRef k w.owner]
      exact List.length_pos_of_mem (List.mem_filter.mpr ⟨(s.mem_owned _ w).mpr ⟨hw, rfl⟩, decide_eq_true hk⟩)
    simp [hc, hpos] at this
  have hcl : ∀ w ∈ s.windows, ∀ y, (y = x → w.owner = p) → s.claimedByOther w.owner y = false →
      (s.setClaimant x (some p)).claimedByOther w.owner y = false := by
    intro w hw y hy hc
    refine claimedByOther_eq_false.mpr (fun q hq => ?_)
    rw [State.claimant_setClaimant] at hq
    split at hq
    · next e => cases hq; exact (hy e.symm).symm
    · exact claimedByOther_eq_false.mp hc q hq
  refine ⟨SameLists.lists (s := s) (.of_eq rfl rfl rfl rfl) h.lists, h.sound, fun w hw => ?_, h.closing, h.holding, h.queues⟩
  obtain ⟨c1, c2⟩ := h.claims w hw
  refine ⟨hcl w hw _ (hown w hw) c1, triggerClaimed_eq_false.mpr (fun k hk => ?_)⟩
  exact hcl w hw _ (hsrc w hw k hk) (triggerClaimed_eq_false.mp c2 k hk)

/-- RELEASE keeps the laws (06 R94). -/
theorem Laws.releases {s : State} (h : Laws s []) (x : Track) : Laws (s.setClaimant x none) [] := by
  refine h.of_sub (SameLists.lists (s := s) (.of_eq rfl rfl rfl rfl) h.lists) (fun _ hw => hw) rfl rfl (fun y q hy => ?_)
    (fun _ x => x) h.holding h.queues
  rw [State.claimant_setClaimant] at hy
  split at hy
  · cases hy
  · exact hy

/-! ### Starts together, ends together, resets -/

/-- BUNDLE_JOINT_START keeps the laws: every member is a head that waits (04 R65, R66). -/
theorem Laws.startsTogether {s : State} (h : Laws s []) (hR : RecordLaws s) {p : Port} {b : BundleNo}
    (hd : s.jointStartDue p b = true) (r : Option BundleRecord) : Laws ((s.setBundle p b r).startAll (s.members p b)) [] := by
  obtain ⟨_, _, hB⟩ := (recordLaws_iff s).mp hR
  unfold State.jointStartDue at hd
  split at hd
  · next rec hrec =>
    rw [Bool.and_eq_true, Bool.and_eq_true, decide_eq_true_eq, decide_eq_true_eq] at hd
    obtain ⟨⟨d1, d2⟩, d3⟩ := hd
    have hok : bundleOk (s.bundle p b) b (membersOf b (s.owned p)) := (hB p).bundles b
    rw [hrec, bundleOk_some, ← State.members_eq] at hok
    obtain ⟨_, _, _, hnd, hall, _⟩ := (rec.lawful_iff b _).mp hok
    refine (h.setBundle p b r).startAll (fun w hw => ?_) hnd
    obtain ⟨e1, _, e3⟩ := hall w hw
    exact ⟨of_decide_eq_true (List.all_eq_true.mp d3 w hw), e3.trans d1, by rw [e1]; exact d2⟩
  · cases hd

theorem Laws.resets (s : State) (held : Bool) (d : Divider) (f : FreezeState) (seen : Sense → Level) :
    Laws { s.cleared with
      resetHeld := held, divider := d, freeze := f, tallies := Vector.ofFn (fun k => { TallyUnit.reset with seen := seen k }) } [] := by
  have hport : ∀ p, ((s.cleared).port p).session = .down ∧ ((s.cleared).port p).QueueLawful := fun p => by
    rw [resets_port]
    exact ⟨rfl, Nat.zero_le _, Nat.zero_le _, fun e => absurd e (Nat.lt_irrefl 0)⟩
  refine ⟨Lists.of_empty rfl (fun l => congrArg LaneDriver.drive (cleared_lane s l)) (fun k => ?_), fun w hw => (List.not_mem_nil hw).elim,
    fun w hw => (List.not_mem_nil hw).elim, fun w hw => (List.not_mem_nil hw).elim, fun p hx => ?_, fun p => (hport p).2⟩
  · have e : State.tally { s.cleared with
        resetHeld := held, divider := d, freeze := f, tallies := Vector.ofFn (fun k => { TallyUnit.reset with seen := seen k }) } k =
        { TallyUnit.reset with seen := seen k } := vector_ofFn_get _ k
    rw [e]
    exact ⟨rfl, rfl, rfl⟩
  · have hx : (s.cleared.port p).session = .closing := hx
    rw [(hport p).1] at hx
    cases hx

/-! ### Steps -/

/-- Every operation keeps the laws, far from the top of the epoch. -/
theorem Op.laws {s t : State} (o : Op s t) (hR : RecordLaws s) (hfar : FarFromTop s) (h : Laws s []) : Laws t [] := by
  have hn := h.lists.slots
  cases o with
  | none => exact h
  | opens p q l hs hq hl hl' hsum => exact h.setPort (by simp) (h.queues p)
  | closes p hs => exact h.closes hs
  | closesAbruptly p hs => exact Laws.sessionDown (h.teardown p)
  | lapses p cause hs => exact h.lapse p cause
  | claims p x hs hf hh => exact h.claims_track hR hh
  | releases p x hc => exact h.releases x
  | books p b d m i hs hj hi => exact h.books hR hs hj (List.mem_of_mem_head? hi)
  | booksBundle p b ds ms n hs hj => exact h.booksBundle hR hs hj
  | removes w hs hw hp => exact h.leaveOpened hs (fun v hv e => (sameUnit_owner hn hw hv e).symm)
  | flushes p target hs =>
    refine h.leaveOpened (p := p) hs (fun v hv e => ?_)
    obtain ⟨u, hu, huv⟩ := List.any_eq_true.mp e
    obtain ⟨hu, hc⟩ := List.mem_filter.mp hu
    rw [← sameUnit_owner hn hu hv huv]
    rw [Bool.and_eq_true, Bool.and_eq_true] at hc
    exact of_decide_eq_true hc.1.1
  | cancels w hw ha => exact h.retireUnit hw _
  | amends w e hs hw hr => exact h.amend hR hw hr
  | starts x w hd =>
    obtain ⟨hh, hp, _, hst⟩ := State.startDue_spec hd
    refine h.startAll (fun v hv => ?_) (List.nodup_singleton _)
    rw [List.mem_singleton.mp hv, (State.head_mem hh).2]
    exact ⟨hh, hp, hst⟩
  | ends x w hd =>
    obtain ⟨hh, _, hb, _⟩ := State.endDue_spec hd
    have hw := (State.head_mem hh).1
    have := h.retireUnit hw (fun _ => .complete)
    rwa [State.unitOf_unbundled hn hw hb] at this
  | startsTogether p b hd => exact h.startsTogether hR hd _
  | endsTogether p b hd =>
    exact (h.setBundle p b Option.none).retire (p := p) (fun w _ e => of_decide_eq_true (Bool.and_eq_true_iff.mp e).1) _
  | endsPulse l w hd => exact h.endPulse hd
  | edge k level => exact h.takeEdge hfar k level
  | tick hc hd => exact h.takeTick hR hfar hc hd
  | resets held d f seen => exact Laws.resets s held d f seen

/-- Every operation keeps the tick progress below the divider (09 R138). -/
theorem Op.timebaseLaw {s t : State} (o : Op s t) (h : TimebaseLaw s) : TimebaseLaw t := by
  rcases o.timebase with ⟨_, hd, _, hp, _⟩ | ⟨_, _, rfl⟩ | ⟨held, d, f, seen, rfl⟩
  · show t.progress < t.divider.periods
    rw [hd, hp]; exact h
  · obtain ⟨_, _, _, _, _, _, _, hp, _⟩ := takeTick_rest s
    show s.takeTick.progress < s.takeTick.divider.periods
    rw [hp]
    cases s.takeTick.divider <;> decide
  · show 0 < d.periods
    cases d <;> decide

theorem Does.lawful {s t : State} (d : Does s t) (hfar : FarFromTop s) (h : Lawful s) : Lawful t := by
  obtain ⟨ht, hR, hL⟩ := (lawful_iff s).mp h
  obtain ⟨u, v, hu, ho, hv⟩ := id d
  have hRu := hu.sameBooks.recordLaws hR
  have hfu : FarFromTop u := by
    show u.epoch.toNat + 65536 < 2 ^ 64
    rw [hu.epoch]; exact hfar
  exact (lawful_iff t).mpr ⟨hv.timebase (ho.timebaseLaw (hu.timebase ht)), d.recordLaws hR,
    (ho.laws hRu hfu (hL.quiet hu)).quiet hv⟩

/-- Settles O60: no law reads the waiting commands or the free-value counter, and every operation keeps each. -/
theorem stepsKeepEveryLaw : Obligations.StepsKeepEveryLaw := by
  intro s t h hfar hs
  obtain ⟨rest, n, d⟩ := step_does hs
  exact d.lawful (s := { s with pending := rest, freeCount := n }) hfar h

end Sys2Proof.Machine
end

