-- ==== Sys2Proof/Proofs/Judging.lean ====
section
/-! PROOFS. How an admission is refused: a member descriptor by its form, ranges and track kind, a RESERVE by its first failing check. -/

namespace Sys2Proof.Machine

/-! ### Operands and bytes -/

theorem notifyFlags_eq_none_iff {b : Byte} : notifyFlags b = none ↔ 3 < b.toNat := by
  unfold notifyFlags
  split <;> simp <;> omega

theorem trackOperand_eq_none_iff {b : Byte} : trackOperand b = none ↔ 23 < b.toNat := by
  unfold trackOperand
  split <;> simp <;> omega

theorem priorityOperand_eq_none_iff {b : Byte} : priorityOperand b = none ↔ 3 < b.toNat := by
  unfold priorityOperand
  split <;> simp <;> omega

theorem edgeOperand_eq_none_iff {b : Byte} : edgeOperand b = none ↔ b.toNat ∉ [1, 2, 3] := by
  unfold edgeOperand
  simp only [BitVec.toNat_eq]
  split_ifs <;> simp_all

theorem initialOperand_eq_none_iff {b : Byte} : initialOperand b = none ↔ 1 < b.toNat := by
  unfold initialOperand
  simp only [BitVec.toNat_eq]
  split_ifs <;> simp_all
  omega

theorem limitOperand_eq_none_iff {present high middle low : Byte} : limitOperand present high middle low = none ↔
    1 < present.toNat ∨ (present.toNat = 0 ∧ ∃ x ∈ [high, middle, low], x.toNat ≠ 0) := by
  unfold limitOperand
  simp only [BitVec.toNat_eq]
  split_ifs <;> simp_all <;> omega

/-- A limit place that is read: absent, or present with its three bytes (12 R181). -/
theorem limitOperand_eq_some {present high middle low : Byte} {l : Option (BitVec 24)}
    (h : limitOperand present high middle low = some l) :
    (l = none ∧ present.toNat = 0) ∨ (l = some (high ++ middle ++ low) ∧ present.toNat = 1) := by
  unfold limitOperand at h
  split at h
  · next hp =>
    split at h <;> cases h
    exact .inl ⟨rfl, by rw [hp]; rfl⟩
  · split at h <;> cases h
    next hp => exact .inr ⟨rfl, by rw [hp]; rfl⟩

theorem toNat_eq_zero_iff (x : Byte) : x.toNat = 0 ↔ x = 0 := by
  rw [BitVec.toNat_eq]
  rfl

theorem toNat_append_two (a b : Byte) : (a ++ b).toNat = 256 * a.toNat + b.toNat := by
  rw [BitVec.toNat_append, ← Nat.shiftLeft_add_eq_or_of_lt b.isLt, Nat.shiftLeft_eq]
  omega

theorem toNat_append_three (a b c : Byte) : (a ++ b ++ c).toNat = 65536 * a.toNat + 256 * b.toNat + c.toNat := by
  rw [BitVec.toNat_append, ← Nat.shiftLeft_add_eq_or_of_lt c.isLt, Nat.shiftLeft_eq, toNat_append_two]
  omega

/-! ### The three parts of check 2 (02 R25) -/

/-- The places of a descriptor that its kind and shape do not use (12 R181). -/
def unusedPlaces (d : Descriptor) : List Byte := [d.b7, d.b8, d.b9] ++
  (if d.kind.toNat = 1 then [d.b2, d.b3, d.b4, d.b5, d.b6] else if d.kind.toNat = 2 then [d.b6]
    else if d.kind.toNat = 3 then [d.b5, d.b6]
    else if d.kind.toNat = 8 ∧ d.b3.toNat = 0 then [d.b4, d.b5, d.b6] else [])

/-- A descriptor of bad form: a kind, a code or an unused place that the table does not allow (02 R25 part 1). -/
def Malformed (d : Descriptor) : Prop :=
  d.kind.toNat ∉ [1, 2, 3, 4, 8] ∨ (∃ x ∈ unusedPlaces d, x.toNat ≠ 0) ∨
    (d.kind.toNat = 3 ∧ 1 < d.b4.toNat) ∨ (d.kind.toNat = 4 ∧ d.b3.toNat ∉ [1, 2, 3]) ∨
    (d.kind.toNat = 8 ∧ (d.b2.toNat ∉ [1, 2, 3] ∨ 1 < d.b3.toNat))

/-- A descriptor with a shape parameter out of its range (02 R25 part 2, 01 R6). -/
def OutOfRange (d : Descriptor) : Prop :=
  (d.kind.toNat = 2 ∧ d.b2.toNat = 0 ∧ d.b3.toNat < 2) ∨ (d.kind.toNat = 3 ∧ d.b2.toNat = 0 ∧ d.b3.toNat = 0) ∨
    (d.kind.toNat = 4 ∧ (7 < d.b2.toNat ∨ (d.b4.toNat = 0 ∧ d.b5.toNat = 0) ∨ d.b6.toNat = 0)) ∨
    (d.kind.toNat = 8 ∧ d.b3.toNat = 1 ∧ d.b4.toNat = 0 ∧ d.b5.toNat = 0 ∧ d.b6.toNat = 0)

/-- A draft that holds the parameters of a descriptor as sent (12 R181). -/
def Draft.Holds (d : Descriptor) : Draft → Prop
  | .steady => d.kind.toNat = 1
  | .train p _ => d.kind.toNat = 2 ∧ p = d.b2 ++ d.b3
  | .toggle i _ => d.kind.toNat = 3 ∧ i = d.b2 ++ d.b3
  | .triggered k _ w n => d.kind.toNat = 4 ∧ k = d.b2 ∧ w = d.b4 ++ d.b5 ∧ n = d.b6
  | .tally _ none => d.kind.toNat = 8 ∧ d.b3.toNat = 0
  | .tally _ (some l) => d.kind.toNat = 8 ∧ d.b3.toNat = 1 ∧ l = d.b4 ++ d.b5 ++ d.b6

/-- A TALLY descriptor has a bad form exactly where its edge or its limit place cannot be read (12 R181). -/
theorem descriptorForm_tally_eq_none_iff {d : Descriptor} (h7 : d.b7 = 0) (h8 : d.b8 = 0) (h9 : d.b9 = 0)
    (hk : d.kind = 0x08) :
    descriptorForm d = none ↔ edgeOperand d.b2 = none ∨ limitOperand d.b3 d.b4 d.b5 d.b6 = none := by
  simp only [descriptorForm, h7, h8, h9, hk]
  cases edgeOperand d.b2 <;> cases limitOperand d.b3 d.b4 d.b5 d.b6 <;> simp

/-- The form is bad exactly where one of its rules is broken (02 R25 part 1). -/
theorem descriptorForm_eq_none_iff {d : Descriptor} : descriptorForm d = none ↔ Malformed d := by
  by_cases hz : d.b7 ≠ 0 ∨ d.b8 ≠ 0 ∨ d.b9 ≠ 0
  · have hbad : ∃ x ∈ unusedPlaces d, x.toNat ≠ 0 := by
      simp only [ne_eq, BitVec.toNat_eq] at hz
      rcases hz with h | h | h
      · exact ⟨d.b7, by simp [unusedPlaces], h⟩
      · exact ⟨d.b8, by simp [unusedPlaces], h⟩
      · exact ⟨d.b9, by simp [unusedPlaces], h⟩
    exact iff_of_true (if_pos hz) (.inr (.inl hbad))
  · obtain ⟨h7, h8, h9⟩ : d.b7 = 0 ∧ d.b8 = 0 ∧ d.b9 = 0 := by simpa using hz
    by_cases steady : d.kind = 0x01
    · simp [descriptorForm, Malformed, unusedPlaces, steady, h7, h8, h9, toNat_eq_zero_iff, imp_iff_not_or]
    by_cases train : d.kind = 0x02
    · simp [descriptorForm, Malformed, unusedPlaces, train, h7, h8, h9, toNat_eq_zero_iff]
    by_cases toggle : d.kind = 0x03
    · simp [descriptorForm, Malformed, unusedPlaces, toggle, h7, h8, h9, toNat_eq_zero_iff, imp_iff_not_or,
        initialOperand_eq_none_iff, or_assoc]
    by_cases triggered : d.kind = 0x04
    · simp [descriptorForm, Malformed, unusedPlaces, triggered, h7, h8, h9, edgeOperand_eq_none_iff]
    by_cases tally : d.kind = 0x08
    · rw [descriptorForm_tally_eq_none_iff h7 h8 h9 tally, edgeOperand_eq_none_iff, limitOperand_eq_none_iff]
      by_cases absent : d.b3.toNat = 0
      · simp [Malformed, unusedPlaces, tally, h7, h8, h9, absent, or_comm]
      · simp [Malformed, unusedPlaces, tally, h7, h8, h9, absent]
    · have unknown : d.kind.toNat ∉ [1, 2, 3, 4, 8] := by
        simp_all [BitVec.toNat_eq]
      have unread : descriptorForm d = none := by
        unfold descriptorForm
        rw [if_neg hz, if_neg steady, if_neg train, if_neg toggle, if_neg triggered, if_neg tally]
      exact iff_of_true unread (.inl unknown)

/-- A draft holds the parameters of the descriptor it is read from. -/
theorem holds_of_descriptorForm {d : Descriptor} {x : Draft} (h : descriptorForm d = some x) : x.Holds d := by
  unfold descriptorForm at h
  split at h
  · cases h
  split at h
  · next steady =>
    split at h <;> cases h
    simp [Draft.Holds, steady]
  split at h
  · next train =>
    split at h <;> cases h
    simp [Draft.Holds, train]
  split at h
  · next toggle =>
    split at h
    · obtain ⟨i, _, rfl⟩ := Option.map_eq_some_iff.mp h
      simp [Draft.Holds, toggle]
    · cases h
  split at h
  · next triggered =>
    obtain ⟨e, _, rfl⟩ := Option.map_eq_some_iff.mp h
    simp [Draft.Holds, triggered]
  split at h
  · next tally =>
    split at h
    · next e l _ hl =>
      cases h
      rcases limitOperand_eq_some hl with ⟨rfl, h3⟩ | ⟨rfl, h3⟩ <;> simp [Draft.Holds, tally, h3]
    · cases h
  · cases h

/-- The ranges refuse a draft exactly where a parameter of its descriptor lies outside its own (02 R25 part 2). -/
theorem Draft.ranged_eq_none_iff {d : Descriptor} {x : Draft} (h : x.Holds d) : x.ranged = none ↔ OutOfRange d := by
  match x, h with
  | .steady, hk =>
    have hk : d.kind.toNat = 1 := hk
    simp [OutOfRange, Draft.ranged, hk]
  | .train _ _, ⟨hk, hp⟩ =>
    simp [OutOfRange, Draft.ranged, hk, hp, toNat_append_two]
    omega
  | .toggle _ _, ⟨hk, hi⟩ =>
    simp [OutOfRange, Draft.ranged, hk, hi, toNat_append_two]
  | .triggered _ _ _ _, ⟨hk, hs, hw, hn⟩ =>
    simp [OutOfRange, Draft.ranged, hk, hs, hw, hn, toNat_append_two]
    omega
  | .tally _ none, ⟨hk, h3⟩ =>
    simp [OutOfRange, Draft.ranged, hk, h3]
  | .tally _ (some _), ⟨hk, h3, hl⟩ =>
    simp [OutOfRange, Draft.ranged, hk, h3, hl, toNat_append_three]
    omega

/-- The shape read from a descriptor is TALLY exactly where its kind is 0x08 (12 R181). -/
theorem Draft.isTally_ranged {d : Descriptor} {x : Draft} {sh : Shape} (h : x.Holds d) (hr : x.ranged = some sh) :
    sh.isTally = true ↔ d.kind.toNat = 8 := by
  match x, h with
  | .steady, hk =>
    have hk : d.kind.toNat = 1 := hk
    cases hr
    simp [Shape.isTally, hk]
  | .tally _ none, ⟨hk, _⟩ =>
    cases hr
    simp [Shape.isTally, hk]
  | .train _ _, ⟨hk, _⟩ | .toggle _ _, ⟨hk, _⟩ | .triggered _ _ _ _, ⟨hk, _⟩ | .tally _ (some _), ⟨hk, _⟩ =>
    simp only [Draft.ranged] at hr
    split_ifs at hr
    cases hr
    simp [Shape.isTally, hk]

/-- TALLY belongs on a sense track, every other shape on a lane (02 R25 part 3). -/
theorem kindFits_iff {t : Track} {sh : Shape} :
    kindFits t sh = true ↔ ¬ ((sh.isTally = true ∧ t.val < 16) ∨ (¬ sh.isTally = true ∧ 16 ≤ t.val)) := by
  unfold kindFits
  cases sh.isTally <;> simp

/-! ### The outcomes of check 2 -/

theorem judgeMember_badRequest {b : Booking} {d : Descriptor} (h : notifyFlags b.notify = none ∨ descriptorForm d = none) :
    judgeMember b d = .error .badRequest := by
  unfold judgeMember
  rcases h with h | h
  · rw [h]
  · rw [h]
    cases notifyFlags b.notify <;> rfl

section
variable {b : Booking} {d : Descriptor} {flags : Bool × Bool} {x : Draft}

theorem judgeMember_badRange (hn : notifyFlags b.notify = some flags) (hf : descriptorForm d = some x)
    (h : trackOperand d.track = none ∨ priorityOperand b.priority = none ∨ x.ranged = none) :
    judgeMember b d = .error .badRange := by
  unfold judgeMember
  rw [hn, hf]
  dsimp only
  rcases h with h | h | h <;> rw [h]
  · cases trackOperand d.track <;> rfl
  · cases trackOperand d.track <;> cases priorityOperand b.priority <;> rfl

theorem judgeMember_ranged {t : Track} {pr : Fin 4} {sh : Shape} (hn : notifyFlags b.notify = some flags)
    (hf : descriptorForm d = some x) (ht : trackOperand d.track = some t) (hp : priorityOperand b.priority = some pr)
    (hr : x.ranged = some sh) :
    judgeMember b d = if kindFits t sh = true then
        .ok { track := t, shape := sh, priority := pr, noteStart := flags.1, noteEnd := flags.2 }
      else .error .wrongTrackKind := by
  unfold judgeMember
  rw [hn, hf]
  dsimp only
  rw [ht, hp, hr]

end

/-- Settles O30: each rule of a part is one operand that cannot be read, and the parts are judged in their order. -/
theorem memberDescriptorsAreJudgedInThreeParts : Obligations.MemberDescriptorsAreJudgedInThreeParts := by
  intro b d unused badForm badValue wrongKind
  have hform : badForm ↔ notifyFlags b.notify = none ∨ descriptorForm d = none :=
    (or_congr notifyFlags_eq_none_iff descriptorForm_eq_none_iff).symm
  refine ⟨fun bad => judgeMember_badRequest (hform.mp bad), ?_⟩
  by_cases bad : badForm
  · exact ⟨fun h => absurd bad h, fun h => absurd bad h, fun h => absurd bad h⟩
  obtain ⟨hn, hf⟩ := not_or.mp (mt hform.mpr bad)
  obtain ⟨flags, hn⟩ := Option.ne_none_iff_exists'.mp hn
  obtain ⟨x, hf⟩ := Option.ne_none_iff_exists'.mp hf
  have hx := holds_of_descriptorForm hf
  have hvalue : badValue ↔ trackOperand d.track = none ∨ priorityOperand b.priority = none ∨ x.ranged = none :=
    (or_congr trackOperand_eq_none_iff (or_congr priorityOperand_eq_none_iff (Draft.ranged_eq_none_iff hx))).symm
  refine ⟨fun _ out => judgeMember_badRange hn hf (hvalue.mp out), ?_⟩
  by_cases out : badValue
  · exact ⟨fun _ h => absurd out h, fun _ h => absurd out h⟩
  obtain ⟨ht, hpr⟩ := not_or.mp (mt hvalue.mpr out)
  obtain ⟨hp, hr⟩ := not_or.mp hpr
  obtain ⟨t, ht⟩ := Option.ne_none_iff_exists'.mp ht
  obtain ⟨pr, hp⟩ := Option.ne_none_iff_exists'.mp hp
  obtain ⟨sh, hr⟩ := Option.ne_none_iff_exists'.mp hr
  have hfits : kindFits t sh = true ↔ ¬ wrongKind := by
    rw [kindFits_iff, Draft.isTally_ranged hx hr, trackOperand_val ht]
  have hjudged := judgeMember_ranged hn hf ht hp hr
  refine ⟨fun _ _ wrong => ?_, fun _ _ right => ?_⟩
  · rw [hjudged, if_neg (fun fits => hfits.mp fits wrong)]
  · rw [hjudged, if_pos (hfits.mpr right)]
    exact ⟨_, rfl, trackOperand_val ht, priorityOperand_val hp⟩

/-! ### The checks of RESERVE behind the first two (02 R23) -/

/-- The first failing check of a list is its head, or the head passes. -/
theorem firstFailure_cons {fails : Bool} {a : Answer} {c : Bool × Answer} {checks : List (Bool × Answer)}
    (h : ((fails, a) :: checks).find? (fun c => c.1) = some c) :
    (fails = true ∧ c.2 = a) ∨ (fails = false ∧ checks.find? (fun c => c.1) = some c) := by
  cases fails with
  | true => cases h; exact .inl ⟨rfl, rfl⟩
  | false => exact .inr ⟨rfl, h⟩

theorem firstFailure_cons_decide {q : Prop} [Decidable q] {a : Answer} {c : Bool × Answer} {checks : List (Bool × Answer)}
    (h : ((decide q, a) :: checks).find? (fun c => c.1) = some c) :
    (q ∧ c.2 = a) ∨ (¬ q ∧ checks.find? (fun c => c.1) = some c) := by
  simpa only [decide_eq_true_eq, decide_eq_false_iff_not] using firstFailure_cons h

section
variable {p : Port} {b : Booking} {d : Descriptor} {s : State} {m : Member}

/-- A member that stands, at a time that does not, is refused with the status of the time (02 R26, R27). -/
theorem judgeReserve_untimely {st : Status} (hm : judgeMember b d = .ok m) (ht : judgeTime s.epoch b.start b.stop = some st) :
    judgeReserve p b d s =
      .error { status := st, results := ((epochFor st s.epoch).map Results.value).getD .none } := by
  unfold judgeReserve
  rw [hm]
  dsimp only
  rw [ht]

/-- A member and a time that stand are judged by claims, quota, overlap and conflict (02 R28 to R32). -/
theorem judgeReserve_timely (hm : judgeMember b d = .ok m) (ht : judgeTime s.epoch b.start b.stop = none) :
    judgeReserve p b d s =
      if s.claimedByOther p m.track then .error (plainAnswer .claimed)
      else if s.triggerClaimed p m.shape then .error (plainAnswer .triggerUnavailable)
      else if (s.port p).quota < (s.port p).held + 1 then .error (plainAnswer .quotaFull)
      else if s.ownOverlap p m.track b.start b.stop then .error (plainAnswer .overlap)
      else (s.firstConflict p m.track m.priority b.start b.stop).elim (.ok m)
        (fun w => .error { status := .conflict, results := .value w.start }) := by
  unfold judgeReserve
  rw [hm]
  dsimp only
  rw [ht]
  dsimp only
  cases s.firstConflict p m.track m.priority b.start b.stop <;> rfl

/-- The checks in the words of the Admission Unit (02 R26 to R32). -/
theorem State.reserveChecks_eq (s : State) (p : Port) (b : Booking) (m : Member) : s.reserveChecks p b m =
    [(decide (b.start.toNat < s.epoch.toNat + lead), { status := .tooLate, results := .value s.epoch }),
      (decide (s.epoch.toNat + horizon < b.start.toNat), { status := .tooFar, results := .value s.epoch }),
      (decide (b.stop.toNat < b.start.toNat + minLength), plainAnswer .badRange),
      (decide (b.start.toNat + horizon < b.stop.toNat), { status := .tooFar, results := .value s.epoch }),
      (s.claimedByOther p m.track, plainAnswer .claimed),
      (s.triggerClaimed p m.shape, plainAnswer .triggerUnavailable),
      (decide ((s.port p).quota ≤ (s.port p).held), plainAnswer .quotaFull),
      (s.ownOverlap p m.track b.start b.stop, plainAnswer .overlap),
      ((s.firstConflict p m.track m.priority b.start b.stop).isSome,
        { status := .conflict
          results := .value (((s.firstConflict p m.track m.priority b.start b.stop).map Window.start).getD 0) })] := rfl

/-- The first of the checks 3 to 9 that fails answers (02 R23). -/
theorem judgeReserve_refused {c : Bool × Answer} (hm : judgeMember b d = .ok m)
    (hc : (s.reserveChecks p b m).find? (fun c => c.1) = some c) : judgeReserve p b d s = .error c.2 := by
  rw [State.reserveChecks_eq] at hc
  rcases firstFailure_cons_decide hc with ⟨early, e⟩ | ⟨early, hc⟩
  · rw [e]
    exact judgeReserve_untimely hm (if_pos early)
  rcases firstFailure_cons_decide hc with ⟨far, e⟩ | ⟨far, hc⟩
  · rw [e]
    exact judgeReserve_untimely hm ((if_neg early).trans (if_pos far))
  rcases firstFailure_cons_decide hc with ⟨short, e⟩ | ⟨short, hc⟩
  · rw [e]
    exact judgeReserve_untimely hm ((if_neg early).trans ((if_neg far).trans (if_pos short)))
  rcases firstFailure_cons_decide hc with ⟨long, e⟩ | ⟨long, hc⟩
  · rw [e]
    exact judgeReserve_untimely hm
      ((if_neg early).trans ((if_neg far).trans ((if_neg short).trans (if_pos long))))
  rw [judgeReserve_timely hm (judgeTime_none (not_lt.mp early) (not_lt.mp far) (not_lt.mp short) (not_lt.mp long))]
  rcases firstFailure_cons hc with ⟨claimed, e⟩ | ⟨claimed, hc⟩
  · rw [e, if_pos claimed]
  rcases firstFailure_cons hc with ⟨trigger, e⟩ | ⟨trigger, hc⟩
  · simp [e, claimed, trigger]
  rcases firstFailure_cons_decide hc with ⟨quota, e⟩ | ⟨quota, hc⟩
  · simp [e, claimed, trigger, Nat.lt_succ_of_le quota]
  have room : ¬ (s.port p).quota < (s.port p).held + 1 := fun h => quota (Nat.le_of_lt_succ h)
  rcases firstFailure_cons hc with ⟨overlap, e⟩ | ⟨overlap, hc⟩
  · simp [e, claimed, trigger, room, overlap]
  rcases firstFailure_cons hc with ⟨conflict, e⟩ | ⟨_, none⟩
  · obtain ⟨w, hw⟩ := Option.isSome_iff_exists.mp conflict
    simp [e, claimed, trigger, room, overlap, hw]
  · cases none

/-- A refused RESERVE changes nothing (02 R23). -/
theorem reserve_refused {a : Answer} (h : judgeReserve p b d s = .error a) : reserve p b d s = (s, a) := by
  unfold reserve
  rw [h]

theorem judgeReserve_malformed {st : Status} (h : judgeMember b d = .error st) :
    judgeReserve p b d s = .error (plainAnswer st) := by
  unfold judgeReserve
  rw [h]

/-- The checks read nothing that the taking of a request changes. -/
theorem reserveChecks_taken (seq : Seq) (r : Request) : (s.taken p seq r).reserveChecks p b m = s.reserveChecks p b m := by
  obtain ⟨_, hq, hh, _⟩ := s.taken_session p seq r p
  unfold State.reserveChecks
  rw [hq, hh]
  rfl

/-- A fresh RESERVE in OPEN that is refused: the reply is the whole of its effect (02 R23). -/
theorem exec_reserve_refused {seq : Seq} {a : Answer} (hf : Fresh p seq (.reserve b d) s) (hs : (s.port p).session = .opened)
    (h : judgeReserve p b d (s.taken p seq (.reserve b d)) = .error a) :
    exec (.reserve p seq b d) s = .next (s.answered p seq (.reserve b d) a) := by
  refine (exec_rowOf p seq (.reserve b d) s).trans (congrArg _ (requestCommand_unchanged hf ?_ (reserve_refused h)))
  rw [hs]
  exact sessionGate_of_opened (by simp [requestName])

end

/-- Settles O31: the first failing check decides the answer, judged in the state in which the request is taken. -/
theorem reserveIsRefusedByTheFirstCheck : Obligations.ReserveIsRefusedByTheFirstCheck := by
  intro p seq b d s hf hs
  refine ⟨fun st hm => exec_reserve_refused hf hs (judgeReserve_malformed hm), fun m hm c hc => ?_⟩
  exact exec_reserve_refused hf hs (judgeReserve_refused hm (by rw [reserveChecks_taken]; exact hc))

end Sys2Proof.Machine
end

section
/-! PROOFS. Bundles that start and end together: what BUNDLE_JOINT_START and BUNDLE_JOINT_END leave of the part (04 R65 to R68). -/

namespace Sys2Proof.Machine

/-! ### Members and their record -/

/-- A used bundle record describes its members (04 R58). -/
theorem Lawful.bundle {s : State} (h : Lawful s) {p : Port} {b : BundleNo} {r : BundleRecord} (hr : s.bundle p b = some r) :
    r.lawful b (s.members p b) = true := by
  obtain ⟨_, _, ⟨_, _, _, hb, _⟩, _⟩ := h
  have := hb p b
  rwa [hr] at this

theorem State.members_nodup {s : State} (h : s.SlotsDistinct) (p : Port) (b : BundleNo) :
    ((s.members p b).map Window.slot).Nodup := h.sublist (List.filter_sublist.map _)

/-- A port holds at least the members of each of its bundles (01 R11). -/
theorem Lawful.members_le_held {s : State} (h : Lawful s) (p : Port) (b : BundleNo) :
    (s.members p b).length ≤ (s.port p).held := by
  obtain ⟨_, _, ⟨_, ⟨_, hh⟩, _⟩, _⟩ := h
  rw [(hh p).1, State.members_eq]
  exact List.length_filter_le _ _

/-- Records go to the queue whatever the bundle records hold. -/
theorem PortUnit.appendAll_withBundles (u : PortUnit) (bs : Vector (Option BundleRecord) 8) (rs : List EventRecord) :
    ({ u with bundles := bs } : PortUnit).appendAll rs = { u.appendAll rs with bundles := bs } := by
  induction rs generalizing u with
  | nil => rfl
  | cons r rs ih =>
    have step : ({ u with bundles := bs } : PortUnit).append r = { u.append r with bundles := bs } := by
      unfold PortUnit.append
      dsimp only
      split <;> rfl
    rw [appendAll_cons, appendAll_cons, step, ih]

/-! ### BUNDLE_JOINT_START -/

theorem exec_bundleJointStart {s : State} {p : Port} {b : BundleNo} {r : BundleRecord} (hr : s.bundle p b = some r)
    (hp : r.state = .pending) (hs : r.start ≤ s.epoch) (hh : ∀ w ∈ s.members p b, s.head w.track = some w) :
    exec (.bundleJointStart p b) s =
      .next ((s.setBundle p b (some { r with state := .active })).startAll (s.members p b)) := by
  have hdue : s.jointStartDue p b = true := by
    unfold State.jointStartDue
    rw [hr]
    simpa [hp, hs] using hh
  have h : exec (.bundleJointStart p b) s =
      .next ((s.setBundle p b ((s.bundle p b).map (fun r => { r with state := .active }))).startAll (s.members p b)) :=
    if_pos hdue
  rw [h, hr]
  rfl

/-- The carry of a window is read from its own track alone (08 R134). -/
theorem carriedFor_handOver (s : State) {v w : Window} (h : v.track ≠ w.track) : (s.handOver w).carriedFor v = s.carriedFor v := by
  rcases track_cases v.track with ⟨l, hl⟩ | ⟨k, hk⟩
  · rw [carriedFor_lane hl, carriedFor_lane hl]
  · unfold State.carriedFor
    rw [hk, senseOf_senseTrack]
    dsimp only
    rw [tally_handOver, if_neg (fun e : w.track = senseTrack k => h (hk.trans e.symm))]

theorem find?_track_eq_none {ws : List Window} {x : Track} (h : x ∉ ws.map Window.track) :
    ws.find? (fun w => decide (w.track = x)) = none := by
  rw [List.find?_eq_none]
  exact fun w hw e => h (of_decide_eq_true e ▸ List.mem_map_of_mem hw)

/-- The records after windows of the part on tracks of their own were handed over (04 R66). -/
theorem windows_handOvers (ws : List Window) : ∀ {s : State}, s.SlotsDistinct → (∀ w ∈ ws, w ∈ s.windows) →
    (ws.map Window.track).Nodup → (ws.foldl State.handOver s).windows =
      s.windows.map (fun v => if v.among ws then v.handed s.epoch (s.carriedFor v) else v) := by
  induction ws with
  | nil =>
    intro s _ _ _
    simp [Window.among]
  | cons w ws ih =>
    intro s hd hin hn
    rw [List.map_cons, List.nodup_cons] at hn
    have hw := hin w List.mem_cons_self
    have hwin := windows_handing s w
    have apart : ∀ v ∈ ws, v.track ≠ w.track := fun v hv e => hn.1 (e ▸ List.mem_map_of_mem hv)
    have other : ∀ v ∈ ws, v.slot ≠ w.slot := fun v hv e =>
      apart v hv (by rw [hd.inj (hin v (List.mem_cons_of_mem _ hv)) hw e])
    have hd' : (s.handOver w).SlotsDistinct := by
      show ((s.handOver w).windows.map Window.slot).Nodup
      rw [hwin, (s.handing_keeps w).map_slot]
      exact hd
    have hin' : ∀ v ∈ ws, v ∈ (s.handOver w).windows := fun v hv => by
      rw [hwin, ← State.handing_other (s := s) (other v hv)]
      exact List.mem_map_of_mem (hin v (List.mem_cons_of_mem _ hv))
    rw [List.foldl_cons, ih hd' hin' hn.2, hwin, List.map_map, (handOver_rest s w).2.2.2.2]
    refine List.map_congr_left (fun v hv => ?_)
    by_cases e : v.slot = w.slot
    · obtain rfl := hd.inj hv hw e
      have hout : ¬ (s.handing v v).among ws = true := fun h => by
        obtain ⟨u, hu, eu⟩ := (Window.among_eq_true _ _).mp h
        exact other u hu (eu.trans (s.handing_keeps v v).slot)
      rw [Function.comp_apply, if_neg hout, if_pos ((Window.among_eq_true _ _).mpr ⟨v, List.mem_cons_self, rfl⟩), s.handing_self]
    · have hamong : v.among (w :: ws) = v.among ws := by
        unfold Window.among
        rw [List.any_cons, decide_eq_false (fun x => e x.symm), Bool.false_or]
      rw [Function.comp_apply, State.handing_other e, hamong]
      by_cases h : v.among ws = true
      · obtain ⟨u, hu, eu⟩ := (Window.among_eq_true _ _).mp h
        obtain rfl := hd.inj (hin u (List.mem_cons_of_mem _ hu)) hv eu
        rw [if_pos h, if_pos h, carriedFor_handOver s (apart u hu)]
      · rw [if_neg h, if_neg h]

/-- What is read of one track after windows on tracks of their own were handed over is changed by the one on that track (04 R66). -/
theorem handOvers_read {α : Type} {g : State → α} {f : Epoch → Window → α → α} {x : Track}
    (hg : ∀ s w, g (s.handOver w) = if w.track = x then f s.epoch w (g s) else g s) (ws : List Window) :
    ∀ {s : State}, (ws.map Window.track).Nodup → g (ws.foldl State.handOver s) =
      (ws.find? (fun w => decide (w.track = x))).elim (g s) (fun w => f s.epoch w (g s)) := by
  induction ws with
  | nil => exact fun _ => rfl
  | cons w ws ih =>
    intro s hn
    rw [List.map_cons, List.nodup_cons] at hn
    rw [List.foldl_cons, ih hn.2, hg, (handOver_rest s w).2.2.2.2, List.find?_cons]
    by_cases e : w.track = x
    · rw [find?_track_eq_none (e ▸ hn.1), if_pos e, decide_eq_true e]
      rfl
    · rw [if_neg e, decide_eq_false e]

theorem handOvers_rest (ws : List Window) : ∀ s : State,
    (ws.foldl State.handOver s).claimants = s.claimants ∧ (ws.foldl State.handOver s).trigRefs = s.trigRefs ∧
      (ws.foldl State.handOver s).ports = s.ports ∧ (ws.foldl State.handOver s).useCounts = s.useCounts := by
  induction ws with
  | nil => exact fun s => ⟨rfl, rfl, rfl, rfl⟩
  | cons w ws ih =>
    intro s
    obtain ⟨e1, e2, e3, e4⟩ := ih (s.handOver w)
    obtain ⟨h1, h2, h3, h4, _⟩ := handOver_rest s w
    exact ⟨e1.trans h1, e2.trans h2, e3.trans h3, e4.trans h4⟩

/-- A window on a lane that starts has nothing carried for it. -/
theorem Window.started_zero (w : Window) (epoch : Epoch) : w.started epoch 0 = { w with state := .active } := by
  obtain ⟨_, _, _, _, _, _, _, _, _, _, _, _, _, run⟩ := w
  cases run <;> rfl

/-- A waiting window that starts below its limit counts what is carried for it, and does not stand at its limit (01 R13, 08 R134). -/
theorem Lawful.handed_below {s : State} (h : Lawful s) {w : Window} (hw : w ∈ s.windows) (hp : w.state = .pending)
    (hlt : ∀ n, w.shape.limit = some n → s.carriedFor w < n) :
    w.handed s.epoch (s.carriedFor w) = w.started s.epoch (s.carriedFor w) ∧
      (w.started s.epoch (s.carriedFor w)).limitReached = false := by
  obtain ⟨hkind, _, _, _, _, hpend, _⟩ := h.window hw
  have hrun := (hpend hp).2
  rcases track_cases w.track with ⟨l, hl⟩ | ⟨k, hk⟩
  · rw [handed_lane hl, carriedFor_lane hl, Window.started_zero]
    exact ⟨rfl, Window.limitReached_of_not_tally (isTally_of_lane (hl ▸ hkind))⟩
  · obtain ⟨e, lim, hshape⟩ := isTally_of_sense (hk ▸ hkind)
    have hbelow : ∀ l, lim = some l → s.carriedFor w < l.toNat := fun l hlm =>
      hlt l.toNat (by rw [hshape]; exact Shape.limit_tally_eq_some.mpr ⟨l, hlm, rfl⟩)
    exact ⟨Window.handed_below hshape hrun (h.lists.carriedFor_le hk) hbelow,
      Window.limitReached_started_below hshape hrun hbelow⟩

/-- Where no window of those checked stands at its limit, the checks do nothing (08 R125 step 4). -/
theorem checkLimits_below {s : State} (ws : List Window)
    (h : ∀ w ∈ ws, ∀ v ∈ s.windows, v.slot = w.slot → v.limitReached = false) :
    ws.foldl (fun t w => t.checkLimit w.slot) s = s := by
  induction ws with
  | nil => rfl
  | cons w ws ih =>
    have hw : s.checkLimit w.slot = s := State.checkLimit_below (fun v hv =>
      h w List.mem_cons_self v (State.windowAt_mem hv).1 (State.windowAt_mem hv).2)
    rw [List.foldl_cons, hw]
    exact ih (fun v hv => h v (List.mem_cons_of_mem _ hv))

/-- Waiting windows of the part, each below its limit, that start together (04 R66). -/
structure State.Starters (s : State) (ws : List Window) : Prop where
  mem : ∀ w ∈ ws, w ∈ s.windows
  pending : ∀ w ∈ ws, w.state = .pending
  below : ∀ w ∈ ws, ∀ n, w.shape.limit = some n → s.carriedFor w < n

/-- The records once such windows started: each counts what was carried for it. -/
theorem State.Starters.map_handed {s : State} {ws : List Window} (hw : s.Starters ws) (h : Lawful s) :
    s.windows.map (fun v => if v.among ws then v.handed s.epoch (s.carriedFor v) else v) =
      s.windows.map (fun v => if v.among ws then v.started s.epoch (s.carriedFor v) else v) := by
  refine List.map_congr_left (fun v hv => ?_)
  by_cases hv' : v.among ws = true
  · obtain ⟨w, hm, e⟩ := (Window.among_eq_true v ws).mp hv'
    obtain rfl := h.lists.slots.inj (hw.mem w hm) hv e
    rw [if_pos hv', if_pos hv', (h.handed_below hv (hw.pending w hm) (hw.below w hm)).1]
  · rw [if_neg hv', if_neg hv']

/-- None of them stands at its limit once it started. -/
theorem State.Starters.limitReached {s : State} {ws : List Window} (hw : s.Starters ws) (h : Lawful s) {w v : Window} (hm : w ∈ ws)
    (hv : v ∈ s.windows.map (fun v => if v.among ws then v.started s.epoch (s.carriedFor v) else v)) (e : v.slot = w.slot) :
    v.limitReached = false := by
  obtain ⟨u, hu, rfl⟩ := List.mem_map.mp hv
  have hslot : (if u.among ws = true then u.started s.epoch (s.carriedFor u) else u).slot = u.slot := by
    split <;> rfl
  obtain rfl := h.lists.slots.inj hu (hw.mem w hm) (hslot.symm.trans e)
  rw [if_pos ((Window.among_eq_true u ws).mpr ⟨u, hm, rfl⟩)]
  exact (h.handed_below hu (hw.pending u hm) (hw.below u hm)).2

/-- A start in one change of windows on tracks of their own, where `s` differs from the lawful part in ports alone: hand overs and START records, and no end at a limit (04 R66). -/
theorem State.Starters.startAll {s s' : State} {ws : List Window} (hw : s.Starters ws) (h : Lawful s)
    (hs : ∃ ps, s' = { s with ports := ps }) (hn : (ws.map Window.track).Nodup) :
    ∃ (rs : List (Port × EventRecord)) (n : Nat), rs.Perm (ws.filterMap (startRecord s.epoch)) ∧
      s'.startAll ws = { ws.foldl State.handOver s' with
        windows := s.windows.map (fun v => if v.among ws then v.started s.epoch (s.carriedFor v) else v)
        ports := Vector.ofFn (fun q => (s'.port q).appendAll (recordsFor q rs))
        freeCount := n } := by
  obtain ⟨ps, rfl⟩ := hs
  obtain ⟨rs, n, hperm, he⟩ := ({ s with ports := ps } : State).startAll_spec ws
  have hwin := (windows_handOvers ws (s := { s with ports := ps }) h.lists.slots hw.mem hn).trans (hw.map_handed h)
  have hport : (ws.foldl State.handOver { s with ports := ps }).ports = ps := (handOvers_rest ws _).2.2.1
  refine ⟨rs, n, hperm, ?_⟩
  rw [he, checkLimits_below, ← hwin]
  · unfold State.port
    rw [hport]
  · intro w hm v hv e
    exact hw.limitReached h hm (hwin ▸ hv) e

/-- Settles O49: the members are heads on tracks of their own, each handed over once and below its limit. -/
theorem bundlesStartTogether : Obligations.BundlesStartTogether := by
  intro p b r s hl hr hp hs hh hlt ws
  obtain ⟨_, _, _, htracks, hall, _⟩ := (r.lawful_iff b ws).mp (hl.bundle hr)
  have hmem := fun w => (s.mem_members p b w).mp
  have hstart : s.Starters ws := ⟨fun w hw => (hmem w hw).1, fun w hw => (hall w hw).2.2.trans hp, hlt⟩
  obtain ⟨rs, n, hperm, he⟩ := hstart.startAll hl (s' := s.setBundle p b (some { r with state := .active })) ⟨_, rfl⟩ htracks
  obtain ⟨hown, hother⟩ := recordsFor_filterMap (p := p) (ws := ws) (f := startRecord s.epoch)
    (fun w hw => (hmem w hw).2.1 ▸ startRecord_eq s.epoch w)
  obtain ⟨hclaims, hrefs, _, huse⟩ := handOvers_rest ws (s.setBundle p b (some { r with state := .active }))
  refine ⟨_, recordsFor p rs, (exec_bundleJointStart hr hp hs hh).trans (congrArg _ he), hown ▸ recordsFor_perm p hperm, rfl,
    fun l => ?_, fun k => ?_, huse, hclaims, hrefs, ?_, fun q hq => ?_, ?_⟩
  · refine (handOvers_read (g := fun t => t.lane l) (f := fun e w d => { d with drive := w.driveAt e })
      (fun s w => lane_handOver s w l) ws htracks).trans ?_
    cases ws.find? (fun w => decide (w.track = laneTrack l)) <;> rfl
  · refine (handOvers_read (g := fun t => t.tally k)
      (f := fun _ w u => { u with counting := some w.slot, hold := none, carried := 0 })
      (fun s w => tally_handOver s w k) ws htracks).trans ?_
    cases ws.find? (fun w => decide (w.track = senseTrack k)) <;> rfl
  · exact SameTimebase.foldl timebase_handOver ws (s.setBundle p b (some { r with state := .active }))
  · refine (vector_ofFn_get _ q).trans ?_
    rw [recordsFor_nil_of_perm hperm (hother q hq)]
    unfold State.setBundle
    rw [State.port_setPort, if_neg (fun e => hq e.symm)]
    rfl
  · refine (vector_ofFn_get _ p).trans ?_
    unfold State.setBundle
    rw [State.port_setPort, if_pos rfl, PortUnit.appendAll_withBundles]

/-! ### BUNDLE_JOINT_END -/

/-- A bundle record that goes with a member of its bundle may as well go before it (04 R68). -/
theorem PortUnit.bundlesWithout_freed (u : PortUnit) {ws : List Window} {b : BundleNo} (h : ∃ w ∈ ws, w.bundleNo = some b) :
    ({ u with bundles := u.bundles.set b none } : PortUnit).bundlesWithout ws = u.bundlesWithout ws := by
  refine vector_ext_fin (fun c => ?_)
  rw [bundlesWithout_get, bundlesWithout_get, vector_get_set]
  by_cases e : b = c
  · subst e
    rw [if_pos h, if_pos h]
  · rw [if_neg e]

theorem PortUnit.retired_freed (u : PortUnit) {ws : List Window} {b : BundleNo} (h : ∃ w ∈ ws, w.bundleNo = some b)
    (rs : List EventRecord) (epoch : Epoch) :
    ({ u with bundles := u.bundles.set b none } : PortUnit).retired ws rs epoch = u.retired ws rs epoch := by
  unfold PortUnit.retired
  rw [PortUnit.bundlesWithout_freed u h, PortUnit.appendAll_withBundles]
  rfl

/-- Members that retire from a state whose bundle record is freed retire from the state before (04 R68). -/
theorem Retired.of_freed {s t : State} {ws : List Window} {p : Port} {b : BundleNo} {rs : List EventRecord}
    (h : Retired (s.setBundle p b none) t ws p rs) (hb : ∃ w ∈ ws, w.bundleNo = some b) : Retired s t ws p rs := by
  obtain ⟨⟨hwin, huse, hrefs, hlane, htally, hport, htime⟩, hown, hclaims⟩ := h
  have hunit : (s.setBundle p b none).port p = { s.port p with bundles := (s.port p).bundles.set b none } := by
    unfold State.setBundle
    rw [State.port_setPort, if_pos rfl]
  have hother : ∀ q, q ≠ p → (s.setBundle p b none).port q = s.port q := fun q hq => by
    unfold State.setBundle
    rw [State.port_setPort, if_neg (fun e => hq e.symm)]
  rw [hunit] at hown hclaims
  exact ⟨⟨hwin, huse, hrefs, hlane, htally, fun q hq => (hport q hq).trans (hother q hq), htime⟩,
    hown.trans (PortUnit.retired_freed _ hb rs s.epoch), hclaims⟩

theorem exec_bundleJointEnd {s : State} {p : Port} {b : BundleNo} {r : BundleRecord} (hr : s.bundle p b = some r)
    (ha : r.state = .active) (hs : r.stop ≤ s.epoch) : exec (.bundleJointEnd p b) s =
      .next ((s.setBundle p b none).retire (fun _ => .complete) (s.members p b)) := by
  have hdue : s.jointEndDue p b = true := by
    unfold State.jointEndDue
    rw [hr]
    simp [ha, hs]
  exact if_pos hdue

/-- Settles O51: the members retire from the state whose bundle record is freed, and each would have freed it. -/
theorem bundlesEndTogether : Obligations.BundlesEndTogether := by
  intro p b r s hl hr ha hs
  have hmem := fun w => (s.mem_members p b w).mp
  have hne : s.members p b ≠ [] := by
    obtain ⟨_, hlen, _⟩ := (r.lawful_iff b _).mp (hl.bundle hr)
    exact List.length_pos_iff.mp hlen
  obtain ⟨w, hw⟩ := List.exists_mem_of_ne_nil _ hne
  have hlists : Lists (s.setBundle p b none) := SameLists.lists (s := s) (.of_eq rfl rfl rfl rfl) hl.lists
  obtain ⟨t, rs, hp, he, hleft, hclaims, hport⟩ := retire_left hlists (reason := fun _ => .complete) hne
    (fun v hv => ⟨(hmem v hv).1, (hmem v hv).2.1⟩) (State.members_nodup hl.lists.slots p b)
    (fun v hv => by rw [← (hmem v hv).2.1]; exact endingRecord_eq (hl.runLawful (hmem v hv).1))
  have hheld : ((s.setBundle p b none).port p).held = (s.port p).held := by
    unfold State.setBundle
    rw [State.port_setPort, if_pos rfl]
  refine ⟨_, rs, (exec_bundleJointEnd hr ha hs).trans (congrArg _ he), hp, ?_⟩
  exact (retired_of_left hne (hheld ▸ hl.members_le_held p b) hleft hclaims hport).of_freed ⟨w, hw, (hmem w hw).2.2⟩

end Sys2Proof.Machine
end

section
/-! PROOFS. RESERVE_BUNDLE: how it is refused, step by step (04 R60 to R64). -/

namespace Sys2Proof.Machine

/-! ### Step 2b (04 R61) -/

/-- Where its form can be read, a descriptor carries a limit exactly where its places say so (12 R181). -/
theorem hasLimit_iff {d : Descriptor} {x : Draft} (h : descriptorForm d = some x) :
    hasLimit d = true ↔ d.kind = 0x08 ∧ d.b3 = 0x01 := by
  have hx := holds_of_descriptorForm h
  have hbytes : (d.kind = 0x08 ∧ d.b3 = 0x01) ↔ (d.kind.toNat = 8 ∧ d.b3.toNat = 1) := by
    simp only [BitVec.toNat_eq]
    rfl
  unfold hasLimit
  rw [h, hbytes]
  match x, hx with
  | .tally _ (some _), ⟨hk, h3, _⟩ => simp [hk, h3]
  | .tally _ none, ⟨hk, h3⟩ => simp [h3]
  | .steady, hk =>
    have hk : d.kind.toNat = 1 := hk
    simp [hk]
  | .train _ _, ⟨hk, _⟩ | .toggle _ _, ⟨hk, _⟩ | .triggered _ _ _ _, ⟨hk, _⟩ => simp [hk]

/-- The failure of a judged descriptor, if it fails. -/
def failureOf : Except Status Member → Option Status
  | .error st => some st
  | .ok _ => none

theorem failureOf_eq_none {r : Except Status Member} : failureOf r = none ↔ ∃ m, r = .ok m := by
  cases r <;> simp [failureOf]

theorem failureOf_eq_some {r : Except Status Member} {st : Status} : failureOf r = some st ↔ r = .error st := by
  cases r <;> simp [failureOf]

/-- Behind the last member none is judged. -/
theorem memberFailure_beyond {b : Booking} {ds : List Descriptor} {i : Nat} (h : ds.length ≤ i) : memberFailure b ds i = none := by
  unfold memberFailure
  rw [List.getElem?_eq_none h]

section
variable {b : Booking} {pre rest : List Descriptor} {d : Descriptor} {earlier : List Byte}

/-- A member behind `pre`, judged alone: its index, the tracks before it, then its own descriptor (04 R61). A limit whose form cannot be read fails by its form. -/
theorem memberFailure_append (he : ∀ x, x ∈ earlier ↔ ∃ e ∈ pre, e.track = x) :
    memberFailure b (pre ++ d :: rest) pre.length =
      if (pre.length ≠ 0 ∧ hasLimit d = true) ∨ d.track ∈ earlier then some .badRequest
      else failureOf (judgeMember b d) := by
  have alone : memberFailure b (pre ++ d :: rest) pre.length =
      if (pre.length ≠ 0 ∧ d.kind = 0x08 ∧ d.b3 = 0x01) ∨ ∃ e ∈ pre, e.track = d.track then some .badRequest
      else failureOf (judgeMember b d) := by
    unfold memberFailure
    rw [List.getElem?_append_right (le_refl _), Nat.sub_self, List.take_left]
    rfl
  rw [alone]
  cases hform : descriptorForm d with
  | none =>
    rw [judgeMember_badRequest (.inr hform)]
    exact (ite_self _).trans (ite_self _).symm
  | some x => simp only [hasLimit_iff hform, he]

/-- Step 2b goes no further than a member that fails (04 R61). -/
theorem judgeMembers_fails {st : Status} (he : ∀ x, x ∈ earlier ↔ ∃ e ∈ pre, e.track = x)
    (h : memberFailure b (pre ++ d :: rest) pre.length = some st) :
    judgeMembers b pre.length earlier (d :: rest) = .error (pre.length, st) := by
  rw [memberFailure_append he] at h
  unfold judgeMembers
  by_cases off : (pre.length ≠ 0 ∧ hasLimit d = true) ∨ d.track ∈ earlier
  · rw [if_pos off] at h ⊢
    cases h
    rfl
  · rw [if_neg off] at h ⊢
    rw [failureOf_eq_some.mp h]

/-- A member that passes is booked with those behind it (04 R61). -/
theorem judgeMembers_passes (he : ∀ x, x ∈ earlier ↔ ∃ e ∈ pre, e.track = x)
    (h : memberFailure b (pre ++ d :: rest) pre.length = none) :
    ∃ m, judgeMember b d = .ok m ∧ judgeMembers b pre.length earlier (d :: rest) =
      (judgeMembers b (pre ++ [d]).length (d.track :: earlier) rest).map (m :: ·) := by
  rw [memberFailure_append he] at h
  rw [judgeMembers]
  by_cases off : (pre.length ≠ 0 ∧ hasLimit d = true) ∨ d.track ∈ earlier
  · rw [if_pos off] at h
    cases h
  · rw [if_neg off] at h ⊢
    obtain ⟨m, hm⟩ := failureOf_eq_none.mp h
    refine ⟨m, hm, ?_⟩
    rw [hm, List.length_append, List.length_singleton]
    dsimp only
    cases judgeMembers b (pre.length + 1) (d.track :: earlier) rest <;> rfl

/-- The tracks judged so far, one member on. -/
theorem mem_earlier_cons (he : ∀ x, x ∈ earlier ↔ ∃ e ∈ pre, e.track = x) (x : Byte) :
    x ∈ d.track :: earlier ↔ ∃ e ∈ pre ++ [d], e.track = x := by
  rw [List.mem_cons, he]
  simp only [List.mem_append, List.mem_singleton]
  constructor
  · rintro (rfl | ⟨e, he, ex⟩)
    · exact ⟨d, .inr rfl, rfl⟩
    · exact ⟨e, .inl he, ex⟩
  · rintro ⟨e, he | rfl, ex⟩
    · exact .inr ⟨e, he, ex⟩
    · exact .inl ex.symm

end

/-- Step 2b answers with the lowest member that fails, and its status (04 R61). -/
theorem judgeMembers_refused {b : Booking} : ∀ (rest pre : List Descriptor) (earlier : List Byte),
    (∀ x, x ∈ earlier ↔ ∃ e ∈ pre, e.track = x) → ∀ {i : Nat} {st : Status}, memberFailure b (pre ++ rest) i = some st →
    (∀ j, j < i → memberFailure b (pre ++ rest) j = none) → pre.length ≤ i →
    judgeMembers b pre.length earlier rest = .error (i, st) := by
  intro rest
  induction rest with
  | nil =>
    intro pre _ _ i st h _ hle
    rw [memberFailure_beyond (by simpa using hle)] at h
    cases h
  | cons d rest ih =>
    intro pre earlier he i st h hlow hle
    rcases Nat.eq_or_lt_of_le hle with rfl | hlt
    · exact judgeMembers_fails he h
    · obtain ⟨m, _, e⟩ := judgeMembers_passes he (hlow _ hlt)
      rw [e, ih (pre ++ [d]) _ (mem_earlier_cons he) (i := i) (st := st)]
      · rfl
      · simpa using h
      · simpa using hlow
      · simpa using hlt

/-- Step 2b lets members pass that fail nowhere (04 R61). -/
theorem judgeMembers_of_pass {b : Booking} : ∀ (rest pre : List Descriptor) (earlier : List Byte),
    (∀ x, x ∈ earlier ↔ ∃ e ∈ pre, e.track = x) → (∀ i, memberFailure b (pre ++ rest) i = none) → ∀ {ms : List Member},
    rest.map (judgeMember b) = ms.map Except.ok → judgeMembers b pre.length earlier rest = .ok ms := by
  intro rest
  induction rest with
  | nil =>
    intro _ _ _ _ ms hms
    obtain rfl := List.map_eq_nil_iff.mp hms.symm
    rfl
  | cons d rest ih =>
    intro pre earlier he h ms hms
    obtain ⟨m, hm, e⟩ := judgeMembers_passes he (h pre.length)
    cases ms with
    | nil => cases hms
    | cons m' ms =>
      obtain ⟨h1, h2⟩ := List.cons.inj hms
      obtain rfl := Except.ok.inj (hm.symm.trans h1)
      rw [e, ih (pre ++ [d]) _ (mem_earlier_cons he) (fun i => by simpa using h i) h2]
      rfl

/-- Members that pass step 2b are those it books (04 R61). -/
theorem MembersPass.judged {b : Booking} {ds : List Descriptor} {ms : List Member} (h : MembersPass b ds ms) :
    judgeMembers b 0 [] ds = .ok ms := by
  obtain ⟨hpass, hms⟩ := h
  refine judgeMembers_of_pass ds [] [] (by simp) (fun i => ?_) hms
  by_cases hi : i < ds.length
  · exact hpass i hi
  · exact memberFailure_beyond (not_lt.mp hi)

/-! ### Steps 3 to 9 (04 R60 to R64) -/

theorem firstFailure_cons_isSome {α : Type} {o : Option α} {a : Answer} {c : Bool × Answer} {checks : List (Bool × Answer)}
    (h : ((o.isSome, a) :: checks).find? (fun c => c.1) = some c) :
    (∃ x, o = some x ∧ c.2 = a) ∨ (o = none ∧ checks.find? (fun c => c.1) = some c) := by
  rcases firstFailure_cons h with ⟨hs, e⟩ | ⟨hn, h⟩
  · obtain ⟨x, hx⟩ := Option.isSome_iff_exists.mp hs
    exact .inl ⟨x, hx, e⟩
  · exact .inr ⟨by simpa using hn, h⟩

/-- A port has no free bundle record where each of its eight is used (04 R62). -/
theorem freeBundle_eq_none_iff {s : State} {p : Port} : (s.port p).freeBundle = none ↔ ∀ n, s.bundle p n ≠ none := by
  unfold PortUnit.freeBundle
  rw [List.find?_eq_none]
  simp [State.bundle]

/-- The lowest member in conflict, with the window it meets (04 R60 step 9). -/
theorem firstConflictOf_of_findIdx? {s : State} {p : Port} {b : Booking} : ∀ {ms : List Member} {j : Nat} (i : Nat),
    ms.findIdx? (fun m => (s.firstConflict p m.track m.priority b.start b.stop).isSome) = some j →
    ∃ m w, ms[j]? = some m ∧ s.firstConflict p m.track m.priority b.start b.stop = some w ∧
      s.firstConflictOf p b i ms = some (i + j, w.start) := by
  intro ms
  induction ms with
  | nil =>
    intro j i h
    cases h
  | cons m ms ih =>
    intro j i h
    rw [List.findIdx?_cons] at h
    unfold State.firstConflictOf
    cases hm : s.firstConflict p m.track m.priority b.start b.stop with
    | some w =>
      rw [hm] at h
      cases h
      exact ⟨m, w, rfl, hm, rfl⟩
    | none =>
      rw [hm] at h
      obtain ⟨k, hk, rfl⟩ := Option.map_eq_some_iff.mp h
      obtain ⟨m', w, h1, h2, h3⟩ := ih (i + 1) hk
      exact ⟨m', w, by simpa using h1, h2, h3.trans (congrArg (fun n => some (n, w.start)) (Nat.add_right_comm i 1 k))⟩

/-- A step of a bundle as a check with its answer. -/
def checkOf (c : Bool × Status × Option Nat × Option Epoch) : Bool × Answer :=
  (c.1, bundleRefusal c.2.1 c.2.2.1 c.2.2.2)

/-- The steps in the words of the Admission Unit (04 R60). -/
theorem State.bundleSteps_checks (s : State) (p : Port) (b : Booking) (ms : List Member) :
    (s.bundleSteps p b ms).map checkOf =
    [(decide (b.start.toNat < s.epoch.toNat + lead), bundleRefusal .tooLate none (some s.epoch)),
      (decide (s.epoch.toNat + horizon < b.start.toNat), bundleRefusal .tooFar none (some s.epoch)),
      (decide (b.stop.toNat < b.start.toNat + minLength), bundleRefusal .badRange none none),
      (decide (b.start.toNat + horizon < b.stop.toNat), bundleRefusal .tooFar none (some s.epoch)),
      (decide (∀ n, s.bundle p n ≠ none), bundleRefusal .noBundleRecord none none),
      ((ms.findIdx? (fun m => s.claimedByOther p m.track)).isSome,
        bundleRefusal .claimed (ms.findIdx? (fun m => s.claimedByOther p m.track)) none),
      ((ms.findIdx? (fun m => s.triggerClaimed p m.shape)).isSome,
        bundleRefusal .triggerUnavailable (ms.findIdx? (fun m => s.triggerClaimed p m.shape)) none),
      (decide ((s.port p).quota < (s.port p).held + ms.length), bundleRefusal .quotaFull none none),
      ((ms.findIdx? (fun m => s.ownOverlap p m.track b.start b.stop)).isSome,
        bundleRefusal .overlap (ms.findIdx? (fun m => s.ownOverlap p m.track b.start b.stop)) none),
      ((ms.findIdx? (fun m => (s.firstConflict p m.track m.priority b.start b.stop).isSome)).isSome,
        bundleRefusal .conflict (ms.findIdx? (fun m => (s.firstConflict p m.track m.priority b.start b.stop).isSome))
          (some (((((ms.findIdx? (fun m => (s.firstConflict p m.track m.priority b.start b.stop).isSome)).bind
            (fun i => ms[i]?)).bind (fun m => s.firstConflict p m.track m.priority b.start b.stop)).map Window.start).getD 0)))] := rfl

section
variable {p : Port} {b : Booking} {ds : List Descriptor} {s : State} {ms : List Member}

/-- No member, or more than eight: step 2a refuses (04 R60). -/
theorem judgeBundle_badCount (h : ds = [] ∨ 8 < ds.length) :
    judgeBundle p b ds s = .error (bundleRefusal .badRequest none none) :=
  if_pos (h.imp_left List.length_eq_zero_iff.mpr)

theorem judgeBundle_malformed {i : Nat} {st : Status} (hne : ds ≠ []) (h8 : ds.length ≤ 8)
    (h : judgeMembers b 0 [] ds = .error (i, st)) : judgeBundle p b ds s = .error (bundleRefusal st (some i) none) := by
  unfold judgeBundle
  rw [if_neg (by simpa [hne] using h8), h]

theorem judgeBundle_untimely {st : Status} (hne : ds ≠ []) (h8 : ds.length ≤ 8) (hm : judgeMembers b 0 [] ds = .ok ms)
    (ht : judgeTime s.epoch b.start b.stop = some st) :
    judgeBundle p b ds s = .error (bundleRefusal st none (epochFor st s.epoch)) := by
  unfold judgeBundle
  rw [if_neg (by simpa [hne] using h8), hm]
  dsimp only
  rw [ht]

/-- Members and a time that stand are judged by bundle record, claims, quota, overlap and conflict (04 R62 to R64). -/
theorem judgeBundle_timely (hne : ds ≠ []) (h8 : ds.length ≤ 8) (hm : judgeMembers b 0 [] ds = .ok ms)
    (ht : judgeTime s.epoch b.start b.stop = none) : judgeBundle p b ds s =
      (s.port p).freeBundle.elim (.error (bundleRefusal .noBundleRecord none none)) (fun n =>
        (ms.findIdx? (fun m => s.claimedByOther p m.track)).elim
          ((ms.findIdx? (fun m => s.triggerClaimed p m.shape)).elim
            (if (s.port p).quota < (s.port p).held + ms.length then .error (bundleRefusal .quotaFull none none)
              else (ms.findIdx? (fun m => s.ownOverlap p m.track b.start b.stop)).elim
                ((s.firstConflictOf p b 0 ms).elim (.ok (ms, n))
                  (fun c => .error (bundleRefusal .conflict (some c.1) (some c.2))))
                (fun i => .error (bundleRefusal .overlap (some i) none)))
            (fun i => .error (bundleRefusal .triggerUnavailable (some i) none)))
          (fun i => .error (bundleRefusal .claimed (some i) none))) := by
  unfold judgeBundle
  rw [if_neg (by simpa [hne] using h8), hm]
  dsimp only
  rw [ht]
  dsimp only
  cases (s.port p).freeBundle with
  | none => rfl
  | some n =>
    cases ms.findIdx? (fun m => s.claimedByOther p m.track) with
    | some i => rfl
    | none =>
      cases ms.findIdx? (fun m => s.triggerClaimed p m.shape) with
      | some i => rfl
      | none =>
        cases ms.findIdx? (fun m => s.ownOverlap p m.track b.start b.stop) with
        | some i => rfl
        | none => cases s.firstConflictOf p b 0 ms <;> rfl

/-- The first of the steps 3 to 9 that fails answers (04 R60). -/
theorem judgeBundle_refused {c : Bool × Answer} (hne : ds ≠ []) (h8 : ds.length ≤ 8) (hm : judgeMembers b 0 [] ds = .ok ms)
    (hc : ((s.bundleSteps p b ms).map checkOf).find? (fun c => c.1) = some c) : judgeBundle p b ds s = .error c.2 := by
  rw [State.bundleSteps_checks] at hc
  rcases firstFailure_cons_decide hc with ⟨early, e⟩ | ⟨early, hc⟩
  · rw [e]
    exact judgeBundle_untimely hne h8 hm (if_pos early)
  rcases firstFailure_cons_decide hc with ⟨far, e⟩ | ⟨far, hc⟩
  · rw [e]
    exact judgeBundle_untimely hne h8 hm ((if_neg early).trans (if_pos far))
  rcases firstFailure_cons_decide hc with ⟨short, e⟩ | ⟨short, hc⟩
  · rw [e]
    exact judgeBundle_untimely hne h8 hm ((if_neg early).trans ((if_neg far).trans (if_pos short)))
  rcases firstFailure_cons_decide hc with ⟨long, e⟩ | ⟨long, hc⟩
  · rw [e]
    exact judgeBundle_untimely hne h8 hm
      ((if_neg early).trans ((if_neg far).trans ((if_neg short).trans (if_pos long))))
  rw [judgeBundle_timely hne h8 hm
    (judgeTime_none (not_lt.mp early) (not_lt.mp far) (not_lt.mp short) (not_lt.mp long))]
  rcases firstFailure_cons_decide hc with ⟨used, e⟩ | ⟨free, hc⟩
  · rw [e, freeBundle_eq_none_iff.mpr used, Option.elim_none]
  obtain ⟨n, hn⟩ := Option.ne_none_iff_exists'.mp (mt freeBundle_eq_none_iff.mp free)
  rw [hn, Option.elim_some]
  rcases firstFailure_cons_isSome hc with ⟨i, claimed, e⟩ | ⟨claimed, hc⟩
  · rw [e, claimed, Option.elim_some]
  rw [claimed, Option.elim_none]
  rcases firstFailure_cons_isSome hc with ⟨i, trigger, e⟩ | ⟨trigger, hc⟩
  · rw [e, trigger, Option.elim_some]
  rw [trigger, Option.elim_none]
  rcases firstFailure_cons_decide hc with ⟨quota, e⟩ | ⟨quota, hc⟩
  · rw [e, if_pos quota]
  rw [if_neg quota]
  rcases firstFailure_cons_isSome hc with ⟨i, overlap, e⟩ | ⟨overlap, hc⟩
  · rw [e, overlap, Option.elim_some]
  rw [overlap, Option.elim_none]
  rcases firstFailure_cons_isSome hc with ⟨i, conflict, e⟩ | ⟨_, none⟩
  · obtain ⟨m, w, hm, hw, hfirst⟩ := firstConflictOf_of_findIdx? 0 conflict
    rw [e, hfirst, conflict, Option.elim_some, Option.bind_some, hm, Option.bind_some, hw, Nat.zero_add]
    rfl
  · cases none

/-- A refused RESERVE_BUNDLE changes nothing (04 R60). -/
theorem reserveBundle_refused {a : Answer} (h : judgeBundle p b ds s = .error a) : reserveBundle p b ds s = (s, a) := by
  unfold reserveBundle
  rw [h]

/-- The steps read nothing that the taking of a request changes. -/
theorem bundleSteps_taken (seq : Seq) (r : Request) : (s.taken p seq r).bundleSteps p b ms = s.bundleSteps p b ms := by
  obtain ⟨_, hq, hh, hb⟩ := s.taken_session p seq r p
  unfold State.bundleSteps State.bundle
  rw [hq, hh, hb]
  rfl

/-- A fresh RESERVE_BUNDLE in OPEN that is refused: the reply is the whole of its effect (04 R60). -/
theorem exec_reserveBundle_refused {seq : Seq} {a : Answer} (hf : Fresh p seq (.reserveBundle b ds) s)
    (hs : (s.port p).session = .opened) (h : judgeBundle p b ds (s.taken p seq (.reserveBundle b ds)) = .error a) :
    exec (.reserveBundle p seq b ds) s = .next (s.answered p seq (.reserveBundle b ds) a) :=
  (exec_taken hf hs (by simp [requestName]) (reserveBundle_refused h)).trans (congrArg _ (taken_fillSlot s p seq _ a))

end

/-- Settles O33: step 2b answers with the lowest member that fails, and of the steps behind it the first that fails, judged in the state in which the request is taken. -/
theorem reserveBundleIsRefusedByTheFirstStep : Obligations.ReserveBundleIsRefusedByTheFirstStep := by
  intro p seq b ds s hf hs reply
  refine ⟨fun h => exec_reserveBundle_refused hf hs (judgeBundle_badCount h), fun hne h8 => ⟨fun i st h hlow => ?_,
    fun ms hms c hc => ?_⟩⟩
  · exact exec_reserveBundle_refused hf hs
      (judgeBundle_malformed hne h8 (judgeMembers_refused ds [] [] (by simp) h hlow (Nat.zero_le i)))
  · refine exec_reserveBundle_refused hf hs (judgeBundle_refused (c := checkOf c) hne h8 (MembersPass.judged hms) ?_)
    rw [bundleSteps_taken, List.find?_map]
    exact congrArg (Option.map checkOf) hc

end Sys2Proof.Machine
end

section
/-! PROOFS. RESERVE_BUNDLE admitted: the windows displaced, the slots and records of the members and the bundle record, against the reply (04 R64). -/

namespace Sys2Proof.Machine

/-! ### The steps pass (04 R60) -/

/-- On the track of an open member no window stands in the way (02 R31, R32). -/
theorem State.Open.clear {s : State} {p : Port} {b : Booking} {m : Member} (h : s.Open p b m) :
    s.ownOverlap p m.track b.start b.stop = false ∧ s.firstConflict p m.track m.priority b.start b.stop = none := by
  obtain ⟨_, _, hw⟩ := h
  constructor
  · refine List.any_eq_false.mpr (fun w hwm => ?_)
    rw [Bool.and_eq_true, decide_eq_true_eq]
    exact fun x => (hw w hwm x.2).1 x.1
  · refine List.find?_eq_none.mpr (fun w hwm => ?_)
    simp only [Bool.and_eq_true, decide_eq_true_eq]
    exact fun x => absurd x.2 (not_le.mpr (hw w hwm x.1.2).2)

theorem firstConflictOf_eq_none {s : State} {p : Port} {b : Booking} {ms : List Member}
    (h : ∀ m ∈ ms, s.firstConflict p m.track m.priority b.start b.stop = none) (i : Nat) : s.firstConflictOf p b i ms = none := by
  induction ms generalizing i with
  | nil => rfl
  | cons m ms ih =>
    unfold State.firstConflictOf
    rw [h m List.mem_cons_self]
    exact ih (fun x hx => h x (List.mem_cons_of_mem _ hx)) (i + 1)

/-- An admissible RESERVE_BUNDLE of good members passes every step where a bundle record is free (04 R60 to R64). -/
theorem judgeBundle_of_admissible {p : Port} {b : Booking} {ds : List Descriptor} {s : State} {ms : List Member} {n : BundleNo}
    (hne : ds ≠ []) (h8 : ds.length ≤ 8) (hm : judgeMembers b 0 [] ds = .ok ms) (ha : Admissible s p b ms)
    (hn : (s.port p).freeBundle = some n) : judgeBundle p b ds s = .ok (ms, n) := by
  obtain ⟨h1, h2, h3, h4, hq, hall⟩ := ha
  have hopen : ∀ m ∈ ms, s.Open p b m := hall
  have claimed : ms.findIdx? (fun m => s.claimedByOther p m.track) = none :=
    List.findIdx?_eq_none_iff.mpr (fun m hm => (hopen m hm).1)
  have trigger : ms.findIdx? (fun m => s.triggerClaimed p m.shape) = none :=
    List.findIdx?_eq_none_iff.mpr (fun m hm => (hopen m hm).2.1)
  have overlap : ms.findIdx? (fun m => s.ownOverlap p m.track b.start b.stop) = none :=
    List.findIdx?_eq_none_iff.mpr (fun m hm => (hopen m hm).clear.1)
  have conflict := firstConflictOf_eq_none (fun m hm => (hopen m hm).clear.2) 0
  rw [judgeBundle_timely hne h8 hm (judgeTime_none h1 h2 h3 h4), hn, claimed, trigger, overlap, conflict, Option.elim_some,
    Option.elim_none, Option.elim_none, if_neg (not_lt.mpr hq), Option.elim_none, Option.elim_none]

/-- The free bundle record that is taken is the lowest (04 R62, R64). -/
theorem freeBundle_lowest {s : State} {p : Port} {n : BundleNo} (h : (s.port p).freeBundle = some n) :
    ∀ n', n' < n → s.bundle p n' ≠ none := by
  intro n' hlt
  obtain ⟨_, i, hi, e, hlow⟩ := List.find?_eq_some_iff_getElem.mp h
  rw [List.getElem_finRange] at e
  have := hlow n'.val (by subst e; exact hlt)
  simpa [State.bundle, Option.isSome_iff_ne_none] using this

/-- The members of a bundle share the priority of its booking (02 R25, 04 R61). -/
theorem MembersPass.priority {b : Booking} {ds : List Descriptor} {ms : List Member} (h : MembersPass b ds ms) (hne : ds ≠ []) :
    ∃ pr : Fin 4, b.priority.toNat = pr.val ∧ (∀ m ∈ ms, m.priority = pr) ∧ (ms.head?.map Member.priority).getD 0 = pr := by
  have judged : ∀ m ∈ ms, m.priority.val = b.priority.toNat := fun m hm => by
    have hmem : (Except.ok m : Except Status Member) ∈ ds.map (judgeMember b) := h.2 ▸ List.mem_map_of_mem hm
    obtain ⟨d, _, hd⟩ := List.mem_map.mp hmem
    exact (judgeMember_ok hd).2.1
  cases ms with
  | nil => exact absurd (List.map_eq_nil_iff.mp h.2) hne
  | cons m ms =>
    have hm := judged m List.mem_cons_self
    exact ⟨m.priority, hm.symm, fun x hx => Fin.ext ((judged x hx).trans hm.symm), rfl⟩

/-! ### Displacement -/

section
variable {s : State} {p : Port} {priority : Fin 4} {tracks : List Track} {start stop : Epoch}

/-- What an admission displaces, before any record of its own enters (03 R42 to R53). -/
theorem displace_admits (h : Lists s) (htime : s.epoch < start) :
    Admitted s (s.displace p priority tracks start stop) p priority start (s.displaced p priority tracks start stop) [] := by
  obtain ⟨rs, y, hp, hth, htb, hcl, hwin, hrefs, hport, he⟩ := displace_stages h p priority tracks start stop
  have hds : ∀ w ∈ s.displaced p priority tracks start stop, w ∈ s.windows := fun w hw => (List.mem_filter.mp hw).1
  generalize s.displaced p priority tracks start stop = ds at *
  have due_stays : ∀ w ∈ s.windows, w.start ≤ s.epoch → w ∈ y.windows := fun w hw hle => by
    rw [hwin, List.mem_filter, Bool.not_eq_true', ← Bool.not_eq_true, Window.among_eq_true]
    refine ⟨hw, ?_⟩
    rintro ⟨v, hv, e⟩
    obtain ⟨hv, hst⟩ := List.mem_filter.mp hv
    rw [h.slots.inj (hds v hv) hw e, decide_eq_true_eq, BitVec.le_def] at hst
    rw [BitVec.le_def] at hle
    rw [BitVec.lt_def] at htime
    omega
  obtain ⟨hlanes, htallies⟩ := hth.undisturbed h due_stays
  obtain ⟨r1, r2, r3, r4, r5⟩ := rest_setStops y (truncatedOf start ds) start
  rw [he]
  refine ⟨by rw [windows_setStops, hwin]; rfl, rfl, fun i => ?_, fun k q => ?_, ?_, ?_, r2.trans hcl,
    htb.trans (timebase_setStops _ _ _), fun q _ => ⟨recordsFor q rs, ?_, ?_⟩⟩
  · unfold State.useCount
    rw [r1, hth.useCounts]
    rfl
  · rw [State.refs_congr r3, hrefs, List.filter_nil, List.length_nil, ite_self, Nat.add_zero]
  · exact r4.trans (vector_ext_fin hlanes)
  · exact r5.trans (vector_ext_fin htallies)
  · exact (recordsFor_perm q hp).trans (List.Perm.of_eq (recordsFor_displacedRecord _ _ _ _ _))
  · have hb : (bumpedOf start ds).filter (fun w => decide (w.owner = q)) = bumpedOf start (ds.filter (fun w => decide (w.owner = q))) :=
      List.filter_comm _ _ _
    have ht : (truncatedOf start ds).filter (fun w => decide (w.owner = q)) =
        truncatedOf start (ds.filter (fun w => decide (w.owner = q))) := List.filter_comm _ _ _
    have hy := hport q
    rw [hb] at hy
    have hbun := bundlesDisplaced_eq (s.port q) (y.port q) start (ds.filter (fun w => decide (w.owner = q))) (by rw [hy])
    rw [State.port_setStops, ht, hb, ← hbun, hy]
    rfl

/-- The slots free after a displacement are those an admission may take (01 R10, 03 R44). -/
theorem freeSlots_displace (h : Lists s) : (s.displace p priority tracks start stop).freeSlots =
    s.slotsWithout (bumpedOf start (s.displaced p priority tracks start stop)) := by
  obtain ⟨_, y, _, _, _, _, hwin, _, _, he⟩ := displace_stages h p priority tracks start stop
  exact freeSlots_eq_slotsWithout (setStops_keeps (truncatedOf start (s.displaced p priority tracks start stop)) start)
    (by rw [he, windows_setStops, hwin])

end

/-! ### Members enter -/

/-- The use counts after records entered that carry those of their slots (01 R8, R10). -/
theorem useCount_insertWindows {c : Slot → Byte} (news : List Window) : ∀ (t : State), (∀ w ∈ news, w.useCount = c w.slot) →
    ∀ i, (news.foldl State.insertWindow t).useCount i = if i ∈ news.map Window.slot then c i else t.useCount i := by
  induction news with
  | nil => exact fun t _ i => (if_neg List.not_mem_nil).symm
  | cons w news ih =>
    intro t h i
    have hw : (t.insertWindow w).useCount i = if w.slot = i then c i else t.useCount i := by
      rw [State.insertWindow_eq]
      refine (vector_get_set t.useCounts w.slot i w.useCount).trans ?_
      by_cases e : w.slot = i
      · rw [if_pos e, if_pos e, h w List.mem_cons_self, e]
      · rw [if_neg e, if_neg e]
        rfl
    rw [List.foldl_cons, ih _ (fun v hv => h v (List.mem_cons_of_mem _ hv)), hw, List.map_cons]
    by_cases hi : i ∈ news.map Window.slot
    · rw [if_pos hi, if_pos (List.mem_cons_of_mem _ hi)]
    · rw [if_neg hi]
      simp only [List.mem_cons, hi, or_false, eq_comm]

/-- Records of the port enter the lowest free slots, in their order, behind a displacement (01 R10, 04 R64). -/
theorem Admitted.insertWindows {s x : State} {p : Port} {priority : Fin 4} {start : Epoch} {ds news : List Window}
    (h : Admitted s x p priority start ds []) (ho : ∀ w ∈ news, w.owner = p)
    (hs : news.map Window.slot = (s.slotsWithout (bumpedOf start ds)).take news.length)
    (hc : ∀ w ∈ news, w.useCount = s.useCount w.slot + 1) :
    Admitted s (news.foldl State.insertWindow x) p priority start ds news := by
  obtain ⟨hwin, _, huse, hrefs, hlanes, htallies, hclaims, htime, hports⟩ := h
  obtain ⟨_, _, _, he⟩ := insertWindows_eq news x
  have own : ∀ q, news.filter (fun w => decide (w.owner = q)) = if q = p then news else [] := by
    intro q
    split
    · next e => exact List.filter_eq_self.mpr (fun w hw => by rw [e, ho w hw]; simp)
    · next e => exact List.filter_eq_nil_iff.mpr (fun w hw => by rw [ho w hw]; simpa using fun x : p = q => e x.symm)
  refine ⟨?_, hs, fun i => ?_, fun k q => ?_, by rw [he]; exact hlanes, by rw [he]; exact htallies, by rw [he]; exact hclaims,
    htime.trans (SameTimebase.foldl timebase_insertWindow news x), fun q hq => ?_⟩
  · rw [he]
    exact congrArg (insertAll news) hwin
  · rw [useCount_insertWindows (c := fun i => s.useCount i + 1) news x hc i, huse]
    rfl
  · rw [refs_insertWindows, hrefs, own]
    split <;> simp
  · obtain ⟨rs, hp, hx⟩ := hports q hq
    refine ⟨rs, hp, ?_⟩
    rw [port_insertWindows, own, if_neg hq]
    exact hx

/-- The port's own unit is outside what an admission says of the rest. -/
theorem Admitted.setPort {s t : State} {p : Port} {priority : Fin 4} {start : Epoch} {ws news : List Window}
    (h : Admitted s t p priority start ws news) (u : PortUnit) : Admitted s (t.setPort p u) p priority start ws news := by
  obtain ⟨h1, h2, h3, h4, h5, h6, h7, h8, h9⟩ := h
  refine ⟨h1, h2, h3, h4, h5, h6, h7, h8, fun q hq => ?_⟩
  rw [State.port_setPort, if_neg (fun e => hq e.symm)]
  exact h9 q hq

/-- New members one by one: each a record of its own slot, the first the leader (01 R10, 04 R64). -/
theorem newMembers_eq_mapIdx (s : State) (p : Port) (b : Booking) (n : BundleNo) : ∀ (ms : List Member) (leader : Bool) (is : List Slot),
    newMembers s p b n leader ms is = (ms.zip is).mapIdx (fun i x =>
      bookedWindow p b x.1 (some { number := n, leader := leader && decide (i = 0) }) x.2 (s.useCount x.2 + 1)) := by
  intro ms
  induction ms with
  | nil => intro leader is; unfold newMembers; rfl
  | cons m ms ih =>
    intro leader is
    cases is with
    | nil => rfl
    | cons i is =>
      have head : newMembers s p b n leader (m :: ms) (i :: is) =
        newWindow s p b (some { number := n, leader }) m i :: newMembers s p b n false ms is := rfl
      rw [head, ih, List.zip_cons_cons, List.mapIdx_cons]
      simp [newWindow, bookedWindow]

/-- The members of a bundle in terms of the slots they took (04 R64). -/
theorem newMembers_eq_own {s : State} {p : Port} {b : Booking} {n : BundleNo} {ms : List Member} {is : List Slot}
    (h : ms.length ≤ is.length) : newMembers s p b n true ms is =
      (ms.zip ((newMembers s p b n true ms is).map Window.slot)).mapIdx (fun i x =>
        bookedWindow p b x.1 (some { number := n, leader := decide (i = 0) }) x.2 (s.useCount x.2 + 1)) := by
  rw [(newMembers_spec s p b n ms true is h).2.1]
  have hzip : ms.zip (is.take ms.length) = ms.zip is := by
    have := List.zip_eq_zip_take_min (l₁ := ms) (l₂ := is)
    rw [Nat.min_eq_left h, List.take_length] at this
    exact this.symm
  rw [hzip, newMembers_eq_mapIdx]
  rfl

/-- The unit of the port once its members entered and its bundle record was filled (04 R64). -/
theorem port_bookedBundle {x : State} {p : Port} {b : Booking} {ms : List Member} {n : BundleNo}
    (hroom : ms.length ≤ x.freeSlots.length) : (x.bookedBundle p b ms n).port p = { x.port p with
      held := (x.port p).held + (newMembers x p b n true ms x.freeSlots).length
      bundles := (x.port p).bundles.set n (some {
        handles := (newMembers x p b n true ms x.freeSlots).map Window.handle
        start := b.start, stop := b.stop, state := .pending }) } := by
  obtain ⟨_, _, _, _, hnew⟩ := newMembers_spec x p b n ms true x.freeSlots hroom
  unfold State.bookedBundle State.setBundle
  rw [State.port_setPort, if_pos rfl, port_insertWindows,
    List.filter_eq_self.mpr (fun w hw => decide_eq_true (hnew w hw).1)]

/-- A displacement, and the members of a bundle in the lowest slots then free (04 R64). -/
theorem admitted_bundle {s : State} (h : Lists s) {p : Port} {priority : Fin 4} {b : Booking} {ms : List Member} {n : BundleNo}
    (htime : s.epoch < b.start)
    (hroom : ms.length ≤ (s.displace p priority (ms.map Member.track) b.start b.stop).freeSlots.length) :
    Admitted s ((s.displace p priority (ms.map Member.track) b.start b.stop).bookedBundle p b ms n) p priority b.start
      (s.displaced p priority (ms.map Member.track) b.start b.stop)
      (newMembers (s.displace p priority (ms.map Member.track) b.start b.stop) p b n true ms
        (s.displace p priority (ms.map Member.track) b.start b.stop).freeSlots) := by
  obtain ⟨hlen, hslots, _, _, hnew⟩ := newMembers_spec _ p b n ms true _ hroom
  have huse := (displace_own h.slots p priority (ms.map Member.track) b.start b.stop).2.2.1
  refine ((displace_admits h htime).insertWindows (fun w hw => (hnew w hw).1) ?_ (fun w hw => ?_)).setPort _
  · rw [hslots, hlen, freeSlots_displace h]
  · obtain ⟨_, _, _, _, _, hcount, _⟩ := hnew w hw
    rw [hcount]
    unfold State.useCount
    rw [huse]

/-- What a RESERVE_BUNDLE that passes every step leaves and answers (04 R64). -/
theorem reserveBundle_admitted {s x : State} {p : Port} {b : Booking} {ds : List Descriptor} {ms : List Member} {n : BundleNo}
    (hj : judgeBundle p b ds s = .ok (ms, n))
    (hx : s.displace p ((ms.head?.map Member.priority).getD 0) (ms.map Member.track) b.start b.stop = x) :
    reserveBundle p b ds s = (x.bookedBundle p b ms n,
      okAnswer (.bundled n ((newMembers x p b n true ms x.freeSlots).map Window.handle))) := by
  unfold reserveBundle
  rw [hj]
  dsimp only
  rw [hx]
  rfl

/-- Settles O34: the steps pass, the quota leaves a free slot for every member, and the members enter the lowest ones behind the displacement. -/
theorem reserveBundleAdmitsEveryMember : Obligations.ReserveBundleAdmitsEveryMember := by
  intro p seq b ds ms s hl hf hs hne h8 hms ha hfree
  obtain ⟨pr, hpr, hprs, hhead⟩ := hms.priority hne
  obtain ⟨n, hn⟩ := Option.ne_none_iff_exists'.mp (mt freeBundle_eq_none_iff.mp (by simpa using hfree))
  obtain ⟨_, _, hrecords, _⟩ := id hl
  have hL := lists_taken hl.lists p seq (.reserveBundle b ds)
  have hR := (quiet_taken s p seq (.reserveBundle b ds)).sameBooks.recordLaws hrecords
  have haT := admissible_taken ha seq (.reserveBundle b ds)
  have hnT : ((s.taken p seq (.reserveBundle b ds)).port p).freeBundle = some n := by
    rw [State.port_taken, if_pos rfl]
    exact hn
  obtain ⟨hlead, _, _, _, hquota, _⟩ := id haT
  have htime : (s.taken p seq (.reserveBundle b ds)).epoch < b.start := by
    rw [BitVec.lt_def]
    omega
  have hroom := (hR.displace p pr (ms.map Member.track) b.start b.stop).room
    (displace_quota hL.slots p b pr (ms.map Member.track) hquota)
  have hadm := admitted_bundle (n := n) hL htime hroom
  obtain ⟨hown, _, huse, _⟩ := displace_own hL.slots p pr (ms.map Member.track) b.start b.stop
  have hans : answerRequest p (.reserveBundle b ds) (s.taken p seq (.reserveBundle b ds)) = _ :=
    reserveBundle_admitted (judgeBundle_of_admissible hne h8 hms.judged haT hnT) (by rw [hhead])
  generalize (s.taken p seq (.reserveBundle b ds)).displace p pr (ms.map Member.track) b.start b.stop = x at hroom hadm hown huse hans
  refine ⟨_, n, pr, newMembers x p b n true ms x.freeSlots, exec_taken hf hs (by simp [requestName]) hans,
    PortUnit.freeBundle_none hn, freeBundle_lowest hn, hpr, hprs, ?_, (newMembers_spec x p b n ms true _ hroom).1,
    hadm.of_taken _ _, ?_⟩
  · have hcount : ∀ i, x.useCount i = s.useCount i := fun i => by
      unfold State.useCount
      rw [huse]
      rfl
    simpa only [hcount] using newMembers_eq_own (s := x) (p := p) (b := b) (n := n) hroom
  · rw [State.port_fillSlot, port_bookedBundle hroom, hown, State.port_taken, if_pos rfl]
    rfl

end Sys2Proof.Machine
end

section
/-! PROOFS. AMEND_END: how it is refused, step by step, and what an accepted one moves (05 R79 to R82). -/

namespace Sys2Proof.Machine

/-! ### AMEND_END refused (05 R79 to R81) -/

/-- The answer of the first failing check, if one fails. -/
def firstRefusal (checks : List (Bool × Answer)) : Option Answer := (checks.find? (fun c => c.1)).map Prod.snd

theorem firstRefusal_cons (fails : Bool) (a : Answer) (checks : List (Bool × Answer)) :
    firstRefusal ((fails, a) :: checks) = if fails = true then some a else firstRefusal checks := by
  cases fails <;> rfl

/-- Step 5 in words of lists: the lowest member in conflict, and the first window in its way (05 R81). -/
theorem extensionConflict_eq (s : State) (p : Port) (stop : Epoch) : ∀ (ws : List Window) (i : Nat),
    s.extensionConflict p stop i ws =
      (ws.findIdx? (fun v => (s.inAddedTime stop v (fun x => decide (x.owner ≠ p))).isSome)).map (fun j =>
        (i + j, ((ws[j]?.bind (fun v => s.inAddedTime stop v (fun x => decide (x.owner ≠ p)))).map Window.start).getD 0)) := by
  intro ws
  induction ws with
  | nil => exact fun _ => rfl
  | cons v ws ih =>
    intro i
    rw [List.findIdx?_cons]
    unfold State.extensionConflict
    cases hv : s.inAddedTime stop v (fun x => decide (x.owner ≠ p)) with
    | some x =>
      show some (i, x.start) = some (i + 0, ((s.inAddedTime stop v (fun x => decide (x.owner ≠ p))).map Window.start).getD 0)
      rw [hv]
      rfl
    | none =>
      simp only [ih, Option.isSome_none, Bool.false_eq_true, if_false, Option.map_map]
      refine congrArg (Option.map · _) (funext fun j => ?_)
      simp [Nat.add_assoc, Nat.add_comm 1]

/-- The steps in the words of the Timeline Table (05 R79, R81). -/
theorem State.amendSteps_eq {s : State} (h : s.SlotsDistinct) {w : Window} (hw : w ∈ s.windows) (p : Port) (stop : Epoch) :
    s.amendSteps p w stop =
      let own := (s.unitOf w).findIdx? (fun v => (s.inAddedTime stop v (fun x => decide (x.owner = p))).isSome)
      let other := fun v => s.inAddedTime stop v (fun x => decide (x.owner ≠ p))
      let conflict := (s.unitOf w).findIdx? (fun v => (other v).isSome)
      let start := (((conflict.bind (fun i => (s.unitOf w)[i]?)).bind other).map Window.start).getD 0
      [(decide (stop.toNat ≤ w.start.toNat), plainAnswer .badRange),
        (decide (stop.toNat < s.epoch.toNat + lead), { status := .tooLate, results := .value s.epoch }),
        (decide (w.start.toNat + horizon < stop.toNat), { status := .tooFar, results := .value s.epoch }),
        (decide (w.stop < stop) && own.isSome, { status := .overlap, results := .member own none }),
        (decide (w.stop < stop) && conflict.isSome, { status := .conflict, results := .member conflict (some start) })] := by
  rw [State.unitOf_eq_wholeOf h hw]
  rfl

/-- The refusal of AMEND_END is the answer of the first step that fails (05 R79). -/
theorem amendRefusal_eq {s : State} (h : s.SlotsDistinct) {w : Window} (hw : w ∈ s.windows) (p : Port) (stop : Epoch) :
    s.amendRefusal p w stop = firstRefusal (s.amendSteps p w stop) := by
  unfold State.amendRefusal
  rw [State.amendSteps_eq h hw, extensionConflict_eq]
  simp only [firstRefusal_cons, decide_eq_true_eq, Bool.and_eq_true]
  refine ite_congr rfl (fun _ => rfl) (fun _ => ite_congr rfl (fun _ => rfl) (fun _ => ite_congr rfl (fun _ => rfl) (fun _ => ?_)))
  by_cases longer : w.stop < stop
  · simp only [longer, if_true, true_and]
    cases (s.unitOf w).findIdx? (fun v => (s.inAddedTime stop v (fun x => decide (x.owner = p))).isSome) with
    | some i => rfl
    | none =>
      cases (s.unitOf w).findIdx? (fun v => (s.inAddedTime stop v (fun x => decide (x.owner ≠ p))).isSome) with
      | some i => simp
      | none => rfl
  · simp only [longer, if_false, false_and]
    rfl

/-- An AMEND_END that a step refuses changes nothing (05 R75, R79). -/
theorem amendEnd_refused {s : State} {w : Window} {stop : Epoch} {a : Answer} (hw : s.resolve w.owner w.handle = some w)
    (h : s.amendRefusal w.owner w stop = some a) : amendEnd w.owner w.handle stop s = (s, a) := by
  unfold amendEnd
  rw [hw]
  dsimp only
  rw [h]

/-- Settles O39: the handle resolves, and the first step that fails is the refusal, judged in the state in which the request is taken. -/
theorem amendEndIsRefusedByTheFirstStep : Obligations.AmendEndIsRefusedByTheFirstStep := by
  intro p seq w newEnd s hl hf hs hw ho c hc
  subst ho
  have hrefused : (s.taken w.owner seq (.amendEnd w.handle newEnd)).amendRefusal w.owner w newEnd = some c.2 := by
    rw [amendRefusal_eq (s := s.taken w.owner seq _) hl.lists.slots hw]
    exact congrArg (Option.map Prod.snd) hc
  exact (exec_taken hf hs (by simp [requestName])
    (amendEnd_refused ((resolve_taken s w.owner seq _ _).trans (hl.resolve hw)) hrefused)).trans
    (congrArg _ (taken_fillSlot s w.owner seq _ c.2))

/-! ### AMEND_END accepted (05 R79 to R82) -/

/-- No window in the way, of either kind (05 R81). -/
theorem inAddedTime_eq_none {s : State} {stop : Epoch} {v : Window} (f : Window → Bool)
    (h : ∀ x ∈ s.trackList v.track, x.slot ≠ v.slot → intersects x.start x.stop v.stop stop = false) :
    s.inAddedTime stop v f = none := by
  unfold State.inAddedTime
  rw [List.find?_eq_none]
  intro x hx
  by_cases hne : x.slot = v.slot
  · simp [hne]
  · simp [h x hx hne]

/-- An end behind the start and the lead, within the horizon, with the added time free, passes every step (05 R79). -/
theorem amendRefusal_eq_none {s : State} {p : Port} {w : Window} {stop : Epoch} (hstart : w.start.toNat < stop.toNat)
    (hlead : s.epoch.toNat + 64 ≤ stop.toNat) (hfar : stop.toNat ≤ w.start.toNat + 2 ^ 40)
    (hfree : w.stop < stop → ∀ v ∈ s.unitOf w, ∀ x ∈ s.trackList v.track, x.slot ≠ v.slot →
      intersects x.start x.stop v.stop stop = false) : s.amendRefusal p w stop = none := by
  unfold State.amendRefusal
  rw [if_neg (by omega), if_neg (by unfold lead; omega), if_neg (by unfold horizon; omega)]
  by_cases longer : w.stop < stop
  · have hfind : ∀ f : Window → Bool, (s.unitOf w).findIdx? (fun v => (s.inAddedTime stop v f).isSome) = none := by
      intro f
      rw [List.findIdx?_eq_none_iff]
      intro v hv
      rw [inAddedTime_eq_none f (hfree longer v hv)]
      rfl
    rw [if_pos longer, extensionConflict_eq, hfind, hfind]
    rfl
  · exact if_neg longer

/-- All that a new end for windows changes: their records, and the records of their bundles (05 R82). -/
theorem State.setStops_eq (s : State) (ws : List Window) (stop : Epoch) : s.setStops ws stop = { s with
    windows := s.windows.map (Window.endedAt ws stop)
    ports := Vector.ofFn (fun q => (s.port q).withStops (ws.filter (fun w => decide (w.owner = q))) stop) } := by
  have hports : (s.setStops ws stop).ports = Vector.ofFn (fun q => (s.port q).withStops (ws.filter (fun w => decide (w.owner = q))) stop) := by
    simp only [← State.port_setStops]
    exact State.ports_eq_ofFn _
  have hwindows := windows_setStops_endedAt s ws stop
  obtain ⟨ps, e⟩ := s.setStops_spec ws stop
  rw [e] at hports hwindows ⊢
  rw [← hports, ← hwindows]

/-- A lane that computes its level anew keeps its attributes (07 R103, R106). -/
theorem refreshedLane_eq (s : State) (l : Lane) : s.refreshedLane l = { s.lane l with drive := (s.refreshedLane l).drive } := by
  unfold State.refreshedLane
  split
  · split <;> rfl
  · rfl

/-- A level computed anew is the level computed once (07 R106). -/
theorem refreshedLane_setLane (s : State) (l m : Lane) :
    (s.setLane m (s.refreshedLane m)).refreshedLane l = s.refreshedLane l := by
  rw [refreshedLane_eq, drive_refreshedLane_setLane, State.lane_setLane]
  by_cases e : m = l
  · rw [if_pos e, e]
  · rw [if_neg e]
    exact (refreshedLane_eq s l).symm

/-- The lanes of the windows given compute their level anew, and no other (07 R106). -/
theorem lane_refreshLanesOf_eq (l : Lane) (ws : List Window) : ∀ s : State, (s.refreshLanesOf ws).lane l =
    if ∃ w ∈ ws, w.track = laneTrack l then s.refreshedLane l else s.lane l := by
  induction ws with
  | nil => intro s; simp [State.refreshLanesOf]
  | cons w ws ih =>
    intro s
    have hcons : s.refreshLanesOf (w :: ws) = (match laneOf w.track with
      | some m => s.setLane m (s.refreshedLane m)
      | none => s).refreshLanesOf ws := rfl
    have hw : w.track = laneTrack l ↔ laneOf w.track = some l := laneOf_eq_some.symm
    simp only [hcons, ih, List.mem_cons, exists_eq_or_imp, hw]
    cases laneOf w.track with
    | none => simp
    | some m =>
      dsimp only
      rw [refreshedLane_setLane, State.lane_setLane]
      by_cases e : m = l
      · simp [e]
      · simp [e]

/-- The part after an accepted AMEND_END of a window (05 R82). -/
def State.amended (s : State) (w : Window) (stop : Epoch) : State :=
  (s.setStops (s.unitOf w) stop).refreshLanesOf (s.unitOf w)

section
variable {s : State} {w : Window} {stop : Epoch}

/-- Besides lanes, an accepted AMEND_END changes window records and bundle records only (05 R82). -/
theorem State.amended_eq (s : State) (w : Window) (stop : Epoch) : s.amended w stop = { s with
    windows := s.windows.map (Window.endedAt (s.unitOf w) stop)
    ports := Vector.ofFn (fun q => (s.port q).withStops ((s.unitOf w).filter (fun v => decide (v.owner = q))) stop)
    lanes := (s.amended w stop).lanes } := by
  obtain ⟨ls, e⟩ := State.refreshLanesOf_spec (s.unitOf w) (s.setStops (s.unitOf w) stop)
  unfold State.amended
  rw [e, State.setStops_eq]

theorem rest_amended (s : State) (w : Window) (stop : Epoch) :
    (s.amended w stop).windows = s.windows.map (Window.endedAt (s.unitOf w) stop) ∧
      (s.amended w stop).useCounts = s.useCounts ∧ (s.amended w stop).claimants = s.claimants ∧
      (s.amended w stop).trigRefs = s.trigRefs ∧ (s.amended w stop).tallies = s.tallies ∧ SameTimebase s (s.amended w stop) := by
  rw [State.amended_eq]
  exact ⟨rfl, rfl, rfl, rfl, rfl, rfl, rfl, rfl, rfl, rfl, rfl⟩

/-- The window that a lane runs is the same after a new end, with its end. -/
theorem running_setStops (s : State) (ws : List Window) (stop : Epoch) (x : Track) :
    (s.setStops ws stop).running x = (s.running x).map (Window.endedAt ws stop) :=
  running_map (windows_setStops_endedAt s ws stop) (Window.endedAt_keeps _ _) (fun v => (v.endedAt_rest _ _).1) x

/-- An accepted AMEND_END leaves the attributes of every lane (07 R103). -/
theorem attributes_amended (s : State) (w : Window) (stop : Epoch) (l : Lane) :
    ((s.amended w stop).lane l).polarity = (s.lane l).polarity ∧ ((s.amended w stop).lane l).idleDrive = (s.lane l).idleDrive := by
  have hlane : (s.setStops (s.unitOf w) stop).lane l = s.lane l := by rw [State.setStops_eq]; rfl
  unfold State.amended
  rw [lane_refreshLanesOf_eq, refreshedLane_eq, hlane]
  split <;> exact ⟨rfl, rfl⟩

/-- Where no end is due, a lane computes the level it shows (07 R106). -/
theorem refreshedLane_setStops (h : Lists s) (ws : List Window) (hws : ∀ v ∈ s.windows, v.among ws = true → s.epoch < v.stop)
    (stop : Epoch) (l : Lane) : (s.setStops ws stop).refreshedLane l = s.lane l := by
  have hlane : (s.setStops ws stop).lane l = s.lane l := by rw [State.setStops_eq]; rfl
  have hep : (s.setStops ws stop).epoch = s.epoch := (timebase_setStops s ws stop).1
  have hdrive : ((s.setStops ws stop).refreshedLane l).drive = (s.lane l).drive := by
    rw [drive_refreshedLane, running_setStops, hep, hlane]
    cases hr : s.running (laneTrack l) with
    | none => rfl
    | some v =>
      rw [Option.map_some, Option.elim_some, (v.endedAt_rest ws stop).2.2.1]
      split
      · next hlt =>
        refine (h.lane_running hr ?_).symm
        by_cases e : v.among ws = true
        · exact hws v ((s.mem_trackList _ v).mp (State.running_mem hr).1).1 e
        · rwa [Window.endedAt_of_not_among e] at hlt
      · rfl
  rw [refreshedLane_eq, hdrive, hlane]

/-- An accepted AMEND_END ahead of the end leaves every lane as it was (05 R80). -/
theorem lanes_amended (h : Lists s) (hR : RecordLaws s) (hw : w ∈ s.windows) (hlt : s.epoch < w.stop) :
    (s.amended w stop).lanes = s.lanes := by
  refine vector_ext_fin (fun l => (lane_refreshLanesOf_eq l _ _).trans ?_)
  rw [refreshedLane_setStops h, State.setStops_eq]
  · exact ite_self _
  · intro v hv e
    rw [among_unit h.slots hv] at e
    rwa [← (hR.mates hw hv e).2.1]

/-- An accepted AMEND_END where the end is due shows each window at this phase on its lane (log entry 12). -/
theorem lane_amended_due (h : Lists s) (hR : RecordLaws s) (hw : w ∈ s.windows) (hdue : w.stop ≤ s.epoch)
    (hstop : s.epoch < stop) (l : Lane) : (s.amended w stop).lane l =
      match (s.unitOf w).find? (fun v => decide (v.track = laneTrack l)) with
      | some v => { s.lane l with drive := v.driveAt s.epoch }
      | none => s.lane l := by
  have hlane : (s.setStops (s.unitOf w) stop).lane l = s.lane l := by rw [State.setStops_eq]; rfl
  have hep : (s.setStops (s.unitOf w) stop).epoch = s.epoch := (timebase_setStops s _ stop).1
  refine (lane_refreshLanesOf_eq l _ _).trans ?_
  cases hfind : (s.unitOf w).find? (fun v => decide (v.track = laneTrack l)) with
  | none =>
    rw [List.find?_eq_none] at hfind
    rw [if_neg (fun ⟨v, hv, e⟩ => hfind v hv (by simpa using e)), hlane]
  | some v =>
    have hv := List.mem_of_find?_eq_some hfind
    have hvl : v.track = laneTrack l := by simpa using List.find?_some hfind
    obtain ⟨hvm, hwv⟩ := List.mem_filter.mp hv
    obtain ⟨_, hvstop, hvstate⟩ := hR.mates hw hvm hwv
    have hactive : v.state = .active := by
      refine Window.active_of_not_pending (fun hp => ?_)
      have h1 := (h.times v hvm).pending hp
      have h2 := (h.times v hvm).length
      rw [hvstop] at hdue
      rw [BitVec.le_def] at hdue h1
      rw [BitVec.lt_def] at h2
      omega
    have hrun := h.track.active_running ((s.mem_trackList _ v).mpr ⟨hvm, hvl⟩) hactive
    rw [if_pos ⟨v, hv, hvl⟩, refreshedLane_eq, drive_refreshedLane, running_setStops, hrun, hep, hlane, Option.map_some,
      Option.elim_some, Window.endedAt_of_among ((among_unit h.slots hvm).trans hwv)]
    exact congrArg (fun d => ({ s.lane l with drive := d } : LaneDriver)) (if_pos hstop)

/-- The unit of the port after an accepted AMEND_END: the record of the window's bundle ends there (05 R82). -/
theorem port_amended (h : s.SlotsDistinct) (hw : w ∈ s.windows) (q : Port) : (s.amended w stop).port q =
    if q = w.owner then { s.port q with bundles := Vector.ofFn (fun n : BundleNo =>
      if w.bundleNo = some n then ((s.port q).bundles[n]).map (fun r : BundleRecord => { r with stop := stop })
      else (s.port q).bundles[n]) } else s.port q := by
  have howner : ∀ v ∈ s.unitOf w, v.owner = w.owner := fun v hv =>
    (sameUnit_owner h hw (List.mem_filter.mp hv).1 (List.mem_filter.mp hv).2).symm
  rw [State.amended_eq]
  refine (vector_ofFn_get _ q).trans ?_
  split
  · next e =>
    rw [List.filter_eq_self.mpr (fun v hv => by rw [howner v hv, e]; simp)]
    unfold PortUnit.withStops
    congr 2
    funext n
    have hany : (s.unitOf w).any (fun v => decide (v.bundleNo = some n)) = true ↔ w.bundleNo = some n := by
      simp only [List.any_eq_true, decide_eq_true_eq]
      constructor
      · rintro ⟨v, hv, hn⟩
        obtain ⟨hvm, hwv⟩ := List.mem_filter.mp hv
        rcases (sameUnit_iff h hw hvm).mp hwv with rfl | ⟨b, h1, h2, _⟩
        · exact hn
        · rw [h1, ← h2, hn]
      · exact fun hn => ⟨w, List.mem_filter.mpr ⟨hw, sameUnit_refl w⟩, hn⟩
    exact if_congr hany rfl rfl
  · next e =>
    rw [List.filter_eq_nil_iff.mpr (fun v hv => by rw [howner v hv]; simpa using fun x : w.owner = q => e x.symm)]
    exact PortUnit.withStops_nil _ _

/-- The record of a window's bundle carries the window's end (04 R58). -/
theorem RecordLaws.bundle_stop (hR : RecordLaws s) (hw : w ∈ s.windows) {n : BundleNo} (hn : w.bundleNo = some n) :
    ∃ r : BundleRecord, (s.port w.owner).bundles[n] = some r ∧ r.stop = w.stop := by
  obtain ⟨_, _, hB⟩ := (recordLaws_iff s).mp hR
  have hmem : w ∈ membersOf n (s.owned w.owner) := mem_membersOf.mpr ⟨(s.mem_owned _ w).mpr ⟨hw, rfl⟩, hn⟩
  obtain ⟨r, hr, hlawful⟩ := ((hB w.owner).bundles n).of_mem hmem
  obtain ⟨_, _, _, _, hall, _⟩ := (r.lawful_iff n _).mp hlawful
  exact ⟨r, hr, (hall w hmem).2.1.symm⟩

/-- A new end equal to the current end changes nothing (05 R79). -/
theorem amended_self (h : Lists s) (hR : RecordLaws s) (hw : w ∈ s.windows) (hlt : s.epoch < w.stop) :
    s.amended w w.stop = s := by
  have hwindows : s.windows.map (Window.endedAt (s.unitOf w) w.stop) = s.windows := by
    refine (List.map_congr_left (fun v hv => ?_)).trans (List.map_id _)
    by_cases e : v.among (s.unitOf w) = true
    · rw [Window.endedAt_of_among e, (hR.mates hw hv ((among_unit h.slots hv).symm.trans e)).2.1]
      rfl
    · exact Window.endedAt_of_not_among e _
  have hports : (s.amended w w.stop).ports = s.ports := by
    refine vector_ext_fin (fun q => (port_amended h.slots hw q).trans ?_)
    split
    · next e =>
      subst e
      refine congrArg (fun bs => ({ s.port w.owner with bundles := bs } : PortUnit)) (vector_ext_fin (fun n => ?_))
      rw [vector_ofFn_get]
      split
      · next hn =>
        obtain ⟨r, hr, hstop⟩ := hR.bundle_stop hw hn
        refine Eq.trans ?_ hr.symm
        rw [hr, ← hstop]
        rfl
      · rfl
    · rfl
  have e := s.amended_eq w w.stop
  rw [hwindows, lanes_amended h hR hw hlt] at e
  rw [e] at hports ⊢
  dsimp only at hports
  rw [hports]

/-- An AMEND_END that passes every step leaves the part amended (05 R79 to R82). -/
theorem amendEnd_accepted (h : Lists s) (hR : RecordLaws s) (hw : w ∈ s.windows) (hresolve : s.resolve w.owner w.handle = some w)
    (hr : s.amendRefusal w.owner w stop = none) :
    amendEnd w.owner w.handle stop s = (s.amended w stop, okAnswer (.amended stop)) := by
  unfold amendEnd
  rw [hresolve]
  dsimp only
  rw [hr]
  dsimp only
  by_cases e : stop = w.stop
  · obtain ⟨_, hlead, _⟩ := amendRefusal_none hr
    have hlate : s.epoch < stop := by rw [BitVec.lt_def]; omega
    rw [if_pos e, e, amended_self h hR hw (e ▸ hlate)]
    rfl
  · rw [if_neg e]
    rfl

end

/-- Settles O40: the handle resolves, every step passes, and the unit of the window takes the new end in a state that differs in the port's link. -/
theorem amendEndMovesTheEnd : Obligations.AmendEndMovesTheEnd := by
  intro p seq w newEnd s hl hf hs hw ho hstart hlead hfar hfree ws
  subst ho
  have hL := lists_taken hl.lists w.owner seq (.amendEnd w.handle newEnd)
  obtain ⟨_, _, hrecords, _⟩ := id hl
  have hR := (quiet_taken s w.owner seq (.amendEnd w.handle newEnd)).sameBooks.recordLaws hrecords
  have hwhole : (s.taken w.owner seq (.amendEnd w.handle newEnd)).unitOf w = ws := State.unitOf_eq_wholeOf hl.lists.slots hw
  have hlate : s.epoch < newEnd := by rw [BitVec.lt_def]; omega
  have hans := amendEnd_accepted (s := s.taken w.owner seq (.amendEnd w.handle newEnd)) hL hR hw
    ((resolve_taken s w.owner seq _ _).trans (hl.resolve hw))
    (amendRefusal_eq_none hstart hlead hfar (fun hlt v hv => hfree hlt v (by rw [hwhole] at hv; exact hv)))
  have hport := port_amended (stop := newEnd) hL.slots hw
  obtain ⟨hwindows, huse, hclaims, hrefs, htallies, htime⟩ := rest_amended (s.taken w.owner seq (.amendEnd w.handle newEnd)) w newEnd
  have hdue := fun hle => lane_amended_due (stop := newEnd) hL hR hw hle hlate
  rw [hwhole] at hwindows hdue
  refine ⟨_, exec_taken hf hs (by simp [requestName]) hans, hwindows, huse, hclaims, hrefs, htallies, lanes_amended hL hR hw, hdue,
    attributes_amended _ w newEnd, htime, fun q hq => ?_, ?_⟩
  · refine (State.port_setPort _ w.owner q _).trans ((if_neg (fun e => hq e.symm)).trans ?_)
    rw [hport, if_neg hq, State.port_taken, if_neg (fun e => hq e.symm)]
  · rw [State.port_fillSlot, hport, if_pos rfl, State.port_taken, if_pos rfl]
    rfl

end Sys2Proof.Machine
end

section
/-! PROOFS. FLUSH: its target byte, and the windows it takes with their bundles (05 R84, 12 R180). -/

namespace Sys2Proof.Machine

/-! ### The target (12 R180) -/

/-- The tracks that a FLUSH names (05 R84). -/
def FlushTarget.names : FlushTarget → Track → Bool
  | .all, _ => true
  | .track t, x => decide (x = t)

/-- A target byte from 0x80 to 0xFE (12 R180). -/
theorem flushOperand_badRequest {b : Byte} (h1 : 0x80 ≤ b.toNat) (h2 : b.toNat ≤ 0xFE) : flushOperand b = .error .badRequest := by
  have hall : b ≠ 0xFF := by
    rintro rfl
    exact absurd h2 (by decide)
  unfold flushOperand
  rw [if_neg hall, if_pos h1]

/-- A target byte from 24 to 127 (12 R180). -/
theorem flushOperand_badRange {b : Byte} (h1 : 24 ≤ b.toNat) (h2 : b.toNat < 0x80) : flushOperand b = .error .badRange := by
  have hall : b ≠ 0xFF := by
    rintro rfl
    exact absurd h2 (by decide)
  unfold flushOperand
  rw [if_neg hall, if_neg (not_le.mpr h2), trackOperand_eq_none_iff.mpr h1]

/-- A target byte that names a track, or ALL (12 R180). -/
theorem flushOperand_ok {b : Byte} (h : b.toNat < 24 ∨ b.toNat = 0xFF) : ∃ target, flushOperand b = .ok target ∧
    ∀ x, target.names x = (decide (b.toNat = 0xFF) || decide (x.val = b.toNat)) := by
  unfold flushOperand
  by_cases hall : b = 0xFF
  · refine ⟨.all, if_pos hall, fun x => ?_⟩
    subst hall
    rfl
  · have hne : b.toNat ≠ 0xFF := fun e => hall (BitVec.eq_of_toNat_eq e)
    have htrack : b.toNat < 24 := h.resolve_right hne
    refine ⟨.track ⟨b.toNat, htrack⟩, ?_, fun x => ?_⟩
    · rw [if_neg hall, if_neg (by omega)]
      unfold trackOperand
      rw [dif_pos htrack]
    · simp [FlushTarget.names, hne, Fin.ext_iff]

/-! ### The windows taken (05 R84) -/

/-- What a FLUSH takes: the windows that act with a PENDING window of the port on a track it names (05 R84). -/
theorem State.flushed_eq (s : State) (p : Port) (target : FlushTarget) : s.flushed p target =
    s.windows.filter (fun w => (s.windows.filter (fun v =>
      decide (v.owner = p) && decide (v.state = .pending) && target.names v.track)).any (fun v => sameUnit v w)) := by
  cases target <;> rfl

/-- A FLUSH takes each PENDING window of the port that has a member of its bundle, or itself, on a track named (05 R84). -/
theorem flushed_eq_filter {s : State} (h : RecordLaws s) (p : Port) (target : FlushTarget) : s.flushed p target =
    s.windows.filter (fun w => decide (w.owner = p) && decide (w.state = .pending) &&
      (s.wholeOf w).any (fun v => target.names v.track)) := by
  obtain ⟨hn, _⟩ := (recordLaws_iff s).mp h
  rw [State.flushed_eq]
  refine List.filter_congr (fun w hw => ?_)
  rw [← State.unitOf_eq_wholeOf hn hw, Bool.eq_iff_iff]
  simp only [State.unitOf, List.any_eq_true, List.mem_filter, Bool.and_eq_true, decide_eq_true_eq]
  constructor
  · rintro ⟨v, ⟨hv, ⟨hown, hpending⟩, hnames⟩, hvw⟩
    obtain ⟨_, _, hstate⟩ := h.mates hv hw hvw
    exact ⟨⟨(sameUnit_owner hn hv hw hvw).symm.trans hown, hstate.symm.trans hpending⟩, v, ⟨hv, sameUnit_symm hn hv hw hvw⟩, hnames⟩
  · rintro ⟨⟨hown, hpending⟩, v, ⟨hv, hwv⟩, hnames⟩
    obtain ⟨_, _, hstate⟩ := h.mates hw hv hwv
    exact ⟨v, ⟨hv, ⟨(sameUnit_owner hn hw hv hwv).symm.trans hown, hstate.symm.trans hpending⟩, hnames⟩, sameUnit_symm hn hw hv hwv⟩

/-- A FLUSH whose target names nothing changes nothing (05 R84). -/
theorem exec_flush_refused {p : Port} {seq : Seq} {b : Byte} {s : State} {st : Status} (hf : Fresh p seq (.flush b) s)
    (hs : (s.port p).session = .opened) (h : flushOperand b = .error st) :
    exec (.flush p seq b) s = .next (s.answered p seq (.flush b) (plainAnswer st)) := by
  have hans : flush p b (s.taken p seq (.flush b)) = (s.taken p seq (.flush b), plainAnswer st) := by
    unfold flush
    rw [h]
  exact (exec_taken hf hs (by simp [requestName]) hans).trans (congrArg _ (taken_fillSlot s p seq _ _))

/-- Settles O41: the target byte decides between two refusals and what leaves, from a state that differs in the port's link. -/
theorem flushRemovesPendingWindows : Obligations.FlushRemovesPendingWindows := by
  intro p seq b s hl hf hs
  refine ⟨fun h1 h2 => exec_flush_refused hf hs (flushOperand_badRequest h1 h2),
    fun h1 h2 => exec_flush_refused hf hs (flushOperand_badRange h1 h2), fun hb => ?_⟩
  intro ws
  obtain ⟨target, htarget, hnames⟩ := flushOperand_ok hb
  obtain ⟨_, _, hrecords, _⟩ := id hl
  have hws : (s.taken p seq (.flush b)).flushed p target = ws := by
    refine (flushed_eq_filter hrecords p target).trans ?_
    simp only [hnames]
    rfl
  have hans : flush p b (s.taken p seq (.flush b)) =
      ((s.taken p seq (.flush b)).leaveAll ws, okAnswer (.flushed ws.length)) := by
    unfold flush
    rw [htarget]
    dsimp only
    rw [hws]
    rfl
  have hin : ∀ w ∈ ws, w ∈ s.windows ∧ w.owner = p := by
    intro w hw
    obtain ⟨hw, hc⟩ := List.mem_filter.mp hw
    simp only [Bool.and_eq_true, decide_eq_true_eq] at hc
    exact ⟨hw, hc.1.1⟩
  obtain ⟨hleft, hclaims, hport⟩ := leaveAll_left (m := s.taken p seq (.flush b)) hl.lists ⟨_, s.freeCount, rfl⟩ hin
    (hl.lists.slots.sublist (List.filter_sublist.map _))
    (fun q hq => (State.port_taken s p seq _ q).trans (if_neg (fun e => hq e.symm)))
  refine ⟨_, exec_taken hf hs (by simp [requestName]) hans, hleft.fillSlot _ _ _, hclaims, ?_⟩
  rw [State.port_fillSlot, hport, State.port_taken, if_pos rfl]
  rfl

end Sys2Proof.Machine
end

section
/-! PROOFS. CLAIM, RELEASE and QUERY_TRACK: what each answers for every track operand, and the claims it leaves (06 R91, R92, R94, R99). -/

namespace Sys2Proof.Machine

/-! ### Track operands and business on a track -/

/-- A byte that names a track (12 R181). -/
theorem trackOperand_of_val {b : Byte} {t : Track} (h : b.toNat = t.val) : trackOperand b = some t := by
  unfold trackOperand
  rw [dif_pos (h ▸ t.isLt)]
  exact congrArg some (Fin.ext h)

/-- Another port's trigger reference on a sense input (06 R92 step 4). -/
theorem State.othersRefs_iff {s : State} {k : Sense} {p : Port} :
    s.othersRefs k p = true ↔ ∃ q, q ≠ p ∧ 0 < s.refs k q := by
  simp [State.othersRefs]

/-- Another port's business on a track: a window there, or a reference on the sense input that the track is (06 R92). -/
theorem State.heldByOthers_iff {s : State} {p : Port} {t : Track} : s.heldByOthers p t = true ↔
    (∃ w ∈ s.windows, w.track = t ∧ w.owner ≠ p) ∨
      ∃ (k : Sense) (q : Port), t = senseTrack k ∧ q ≠ p ∧ 0 < s.refs k q := by
  unfold State.heldByOthers
  rw [Bool.or_eq_true]
  refine or_congr ?_ ?_
  · simp only [List.any_eq_true, s.mem_trackList, decide_eq_true_eq, and_assoc]
  · cases hk : senseOf t with
    | none =>
      refine iff_of_false Bool.false_ne_true ?_
      rintro ⟨k, _, e, _⟩
      exact Option.some_ne_none k ((senseOf_eq_some.mpr e).symm.trans hk)
    | some k =>
      obtain rfl := senseOf_eq_some.mp hk
      refine State.othersRefs_iff.trans ⟨fun ⟨q, h⟩ => ⟨k, q, rfl, h⟩, ?_⟩
      rintro ⟨j, q, e, h⟩
      exact ⟨q, senseTrack_injective e ▸ h⟩

/-! ### CLAIM and RELEASE (06 R91 to R94) -/

section
variable {s : State} {p : Port} {b : Byte} {t : Track}

/-- CLAIM of a track above 23 (06 R91). -/
theorem claim_badRange (h : 24 ≤ b.toNat) : claim p b s = (s, plainAnswer .badRange) := by
  unfold claim
  rw [trackOperand_eq_none_iff.mpr h]

/-- CLAIM by the claimant (06 R92 step 1). -/
theorem claim_own (h : b.toNat = t.val) (hc : s.claimant t = some p) : claim p b s = (s, plainAnswer .ok) := by
  unfold claim
  rw [trackOperand_of_val h]
  dsimp only
  rw [hc]
  exact if_pos rfl

/-- CLAIM of another port's track (06 R92 step 2). -/
theorem claim_claimed {q : Port} (h : b.toNat = t.val) (hq : q ≠ p) (hc : s.claimant t = some q) :
    claim p b s = (s, plainAnswer .claimed) := by
  unfold claim
  rw [trackOperand_of_val h]
  dsimp only
  rw [hc]
  exact if_neg hq

/-- CLAIM of an open track: another port's business there decides (06 R92 steps 3 to 5). -/
theorem claim_unclaimed (h : b.toNat = t.val) (hc : s.claimant t = none) : claim p b s =
    if s.heldByOthers p t then (s, plainAnswer .heldByOthers) else (s.setClaimant t (some p), plainAnswer .ok) := by
  unfold claim
  rw [trackOperand_of_val h]
  dsimp only
  rw [hc]

/-- RELEASE of a track above 23 (06 R94). -/
theorem release_badRange (h : 24 ≤ b.toNat) : release p b s = (s, plainAnswer .badRange) := by
  unfold release
  rw [trackOperand_eq_none_iff.mpr h]

/-- RELEASE of a track: its claimant decides (06 R94). -/
theorem release_track (h : b.toNat = t.val) : release p b s =
    if s.claimant t = some p then (s.setClaimant t none, plainAnswer .ok) else (s, plainAnswer .notClaimant) := by
  unfold release
  rw [trackOperand_of_val h]

end

/-! ### QUERY_TRACK (06 R99) -/

section
variable {s : State} {b : Byte}

/-- QUERY_TRACK of a track above 23 (06 R99). -/
theorem queryTrack_badRange (h : 24 ≤ b.toNat) : queryTrack b s = (s, plainAnswer .badRange) := by
  unfold queryTrack
  rw [trackOperand_eq_none_iff.mpr h]

/-- QUERY_TRACK of a track (06 R99). -/
theorem queryTrack_track {t : Track} (h : b.toNat = t.val) : queryTrack b s = (s, okAnswer (s.trackReport t)) := by
  unfold queryTrack
  rw [trackOperand_of_val h]
  rfl

/-- The trigger references of the four ports, summed (06 R98). -/
theorem State.refSum_eq (s : State) (k : Sense) : s.refSum k = s.refs k 0 + s.refs k 1 + s.refs k 2 + s.refs k 3 := by
  unfold State.refSum
  rw [show List.finRange 4 = [0, 1, 2, 3] from rfl]
  simp [Nat.add_assoc]

/-- The report of a lane: its attributes, and no references (06 R99). -/
theorem State.trackReport_lane (s : State) (l : Lane) : s.trackReport (laneTrack l) =
    .trackReport (s.claimant (laneTrack l)) (s.trackList (laneTrack l)).length
      ((s.trackList (laneTrack l)).head?.map Window.start) none (some ((s.lane l).polarity, (s.lane l).idleDrive)) := by
  unfold State.trackReport
  rw [laneOf_laneTrack, senseOf_laneTrack]
  rfl

/-- The report of a sense track: its references, and no attributes (06 R99). -/
theorem State.trackReport_sense (s : State) (k : Sense) : s.trackReport (senseTrack k) =
    .trackReport (s.claimant (senseTrack k)) (s.trackList (senseTrack k)).length
      ((s.trackList (senseTrack k)).head?.map Window.start)
      (some (s.refs k 0 + s.refs k 1 + s.refs k 2 + s.refs k 3)) none := by
  unfold State.trackReport
  rw [laneOf_senseTrack, senseOf_senseTrack, Option.map_some, State.refSum_eq]
  rfl

end

/-! ### At the link -/

/-- A request in OPEN that is taken and whose owning block leaves `t` but for the link of the port: `t` with the reply (12 R175). -/
theorem exec_answered {p : Port} {seq : Seq} {r : Request} {s t : State} {a : Answer} (hf : Fresh p seq r s)
    (hs : (s.port p).session = .opened) (hr : requestName r ≠ .openSession)
    (ha : answerRequest p r (s.taken p seq r) = (t.taken p seq r, a)) :
    exec (rowOf p seq r) s = .next (t.answered p seq r a) :=
  (exec_taken hf hs hr ha).trans (congrArg _ (taken_fillSlot t p seq r a))

/-- CLAIM in OPEN: the reply, on what the claim leaves (06 R92). -/
theorem exec_claim {p : Port} {seq : Seq} {b : Byte} {s t : State} {st : Status} (hf : Fresh p seq (.claim b) s)
    (hs : (s.port p).session = .opened)
    (ha : claim p b (s.taken p seq (.claim b)) = (t.taken p seq (.claim b), plainAnswer st)) :
    exec (.claim p seq b) s = .next (t.answered p seq (.claim b) (plainAnswer st)) :=
  exec_answered hf hs (by simp [requestName]) ha

/-- RELEASE in OPEN: the reply, on what the release leaves (06 R94). -/
theorem exec_release {p : Port} {seq : Seq} {b : Byte} {s t : State} {st : Status} (hf : Fresh p seq (.release b) s)
    (hs : (s.port p).session = .opened)
    (ha : release p b (s.taken p seq (.release b)) = (t.taken p seq (.release b), plainAnswer st)) :
    exec (.release p seq b) s = .next (t.answered p seq (.release b) (plainAnswer st)) :=
  exec_answered hf hs (by simp [requestName]) ha

/-- QUERY_TRACK passes its gate in every session state (10 R146). -/
theorem exec_queryTrack {p : Port} {seq : Seq} {b : Byte} {s : State} {a : Answer} (hf : Fresh p seq (.queryTrack b) s)
    (ha : queryTrack b (s.taken p seq (.queryTrack b)) = (s.taken p seq (.queryTrack b), a)) :
    exec (.queryTrack p seq b) s = .next (s.answered p seq (.queryTrack b) a) :=
  (exec_rowOf p seq (.queryTrack b) s).trans (congrArg _ (requestCommand_unchanged hf rfl ha))

/-- Settles O23: the operand names no track, or the report of a lane or of a sense track, whose fields no link state touches. -/
theorem tracksAreReported : Obligations.TracksAreReported := by
  intro p seq b s hf
  refine ⟨fun h => exec_queryTrack hf (queryTrack_badRange h), fun l h => ?_, fun k h => ?_⟩
  · have hreport := queryTrack_track (s := s.taken p seq (.queryTrack b)) (t := laneTrack l) h
    rw [State.trackReport_lane] at hreport
    exact exec_queryTrack hf hreport
  · have hreport := queryTrack_track (s := s.taken p seq (.queryTrack b)) (t := senseTrack k) h
    rw [State.trackReport_sense] at hreport
    exact exec_queryTrack hf hreport

/-- Settles O24: the claimant decides; on an open track the business of the other ports does. -/
theorem claimIsJudged : Obligations.ClaimIsJudged := by
  intro p seq b s hf hs reply
  refine ⟨fun h => exec_claim hf hs (claim_badRange h), fun t h => ?_⟩
  intro held
  have business : (s.taken p seq (.claim b)).heldByOthers p t = true ↔ held := State.heldByOthers_iff
  refine ⟨fun hc => exec_claim hf hs (claim_own h hc), fun q hq hc => exec_claim hf hs (claim_claimed h hq hc),
    fun hc hh => exec_claim hf hs ?_, fun hc hh => exec_claim (t := s.setClaimant t (some p)) hf hs ?_⟩
  · exact (claim_unclaimed (s := s.taken p seq (.claim b)) h hc).trans (if_pos (business.mpr hh))
  · exact (claim_unclaimed (s := s.taken p seq (.claim b)) h hc).trans (if_neg (fun e => hh (business.mp e)))

/-- Settles O25: the track is open behind a RELEASE of its claimant, and any other RELEASE is refused. -/
theorem releaseIsJudged : Obligations.ReleaseIsJudged := by
  intro p seq b s hf hs reply
  refine ⟨fun h => exec_release hf hs (release_badRange h), fun t h => ⟨fun hc => exec_release hf hs ?_,
    fun hc => exec_release (t := s.setClaimant t none) hf hs ?_⟩⟩
  · exact (release_track (s := s.taken p seq (.release b)) h).trans (if_neg hc)
  · exact (release_track (s := s.taken p seq (.release b)) h).trans (if_pos hc)

end Sys2Proof.Machine
end

section
/-! PROOFS. The Lane Drivers: the pin level, the levels of the shapes, the end of a pulse, and what SET_LANE answers and leaves (07 R103, R104, R107, R108, R111, R117 to R119). -/

namespace Sys2Proof.Machine

/-! ### The pin level (07 R103) -/

/-- A lane at the ACTIVE level, from its window or from its idle drive (07 R103). -/
theorem LaneDriver.pin_of_active {d : LaneDriver} (h : d.drive = .active ∨ (d.drive = .idle ∧ d.idleDrive = .active)) :
    d.pin = if d.polarity = .activeHigh then .high else .low := by
  obtain ⟨polarity, idleDrive, drive⟩ := d
  rcases h with rfl | ⟨rfl, rfl⟩ <;> cases polarity <;> rfl

/-- A lane at the INACTIVE level, from its window or from its idle drive (07 R103). -/
theorem LaneDriver.pin_of_inactive {d : LaneDriver} (h : d.drive = .inactive ∨ (d.drive = .idle ∧ d.idleDrive = .inactive)) :
    d.pin = if d.polarity = .activeHigh then .low else .high := by
  obtain ⟨polarity, idleDrive, drive⟩ := d
  rcases h with rfl | ⟨rfl, rfl⟩ <;> cases polarity <;> rfl

/-- An IDLE lane that idles FLOAT is not driven, whatever its polarity (07 R103). -/
theorem LaneDriver.pin_of_idle_float {d : LaneDriver} (h : d.drive = .idle) (hi : d.idleDrive = .float) :
    d.pin = .highImpedance := by
  obtain ⟨polarity, idleDrive, drive⟩ := d
  subst h hi
  rfl

/-- Settles O27: outside RESETn the pin is the Lane Driver's, by its drive state and then its idle drive. -/
theorem pinLevelFollowsTheLane : Obligations.PinLevelFollowsTheLane := by
  intro s l
  refine ⟨fun h => if_pos h, fun h => ?_⟩
  intro high
  have hpin : s.lanePin l = (s.lane l).pin := if_neg (by simp [h])
  rw [hpin]
  exact ⟨fun hd => LaneDriver.pin_of_active (.inl hd), fun hd => LaneDriver.pin_of_inactive (.inl hd),
    fun hd hi => LaneDriver.pin_of_active (.inr ⟨hd, hi⟩), fun hd hi => LaneDriver.pin_of_inactive (.inr ⟨hd, hi⟩),
    LaneDriver.pin_of_idle_float⟩

/-! ### The levels of the shapes (07 R107, R108) -/

section
variable (run : RunTime) {phase : Nat} {P D I : BitVec 16}

/-- A TRAIN within the active time of its period (07 R108). -/
theorem shapeLevel_train_active (h : phase % P.toNat < D.toNat) : shapeLevel (.train P D) run phase = .active := if_pos h

/-- A TRAIN past the active time of its period (07 R108). -/
theorem shapeLevel_train_inactive (h : D.toNat ≤ phase % P.toNat) : shapeLevel (.train P D) run phase = .inactive :=
  if_neg (not_lt.mpr h)

theorem ShapeLevel.opposite_eq (x : ShapeLevel) : x.opposite = if x = .active then .inactive else .active := by
  cases x <;> rfl

/-- A TOGGLE within its interval number `q` (07 R108). -/
theorem shapeLevel_toggle_interval (initial : ShapeLevel) {q r : Nat} (h : r < I.toNat) :
    shapeLevel (.toggle I initial) run (q * I.toNat + r) = if q % 2 = 0 then initial else initial.opposite := by
  have hq : (q * I.toNat + r) / I.toNat = q := by
    rw [Nat.mul_comm, Nat.mul_add_div (by omega), Nat.div_eq_of_lt h, Nat.add_zero]
  show (if (q * I.toNat + r) / I.toNat % 2 = 0 then initial else initial.opposite) = _
  rw [hq]

/-- The interval number is even exactly in the first half of a double interval. -/
theorem div_even_iff_mod_lt {n : Nat} (h : 1 ≤ n) (x : Nat) : x / n % 2 = 0 ↔ x % (2 * n) < n := by
  have hmod : x % (2 * n) = x % n + n * (x / n % 2) := by rw [Nat.mul_comm, Nat.mod_mul]
  have hlt : x % n < n := Nat.mod_lt x h
  rcases Nat.mod_two_eq_zero_or_one (x / n) with e | e <;> rw [hmod, e] <;> omega

/-- A TOGGLE that starts ACTIVE is a TRAIN over two intervals, active in the first (07 R108). -/
theorem shapeLevel_toggle_eq_train (h : 1 ≤ I.toNat) (hp : P.toNat = 2 * I.toNat) :
    shapeLevel (.toggle I .active) run phase = shapeLevel (.train P I) run phase := by
  show (if phase / I.toNat % 2 = 0 then ShapeLevel.active else .inactive) =
    if phase % P.toNat < I.toNat then .active else .inactive
  simp only [hp, div_even_iff_mod_lt h]

end

/-- Settles O28: a TRAIN compares the remainder on its period with its active time; a TOGGLE looks at the number of the interval. -/
theorem shapesShowTheirLevels : Obligations.ShapesShowTheirLevels := by
  intro run phase P D I initial q r hP hI
  have hrem : phase % P.toNat < P.toNat := Nat.mod_lt _ (by omega)
  refine ⟨rfl, shapeLevel_train_active run, shapeLevel_train_inactive run,
    fun h => shapeLevel_train_inactive run (by omega), fun h => shapeLevel_train_active run (by omega),
    fun h => ?_, fun h => shapeLevel_toggle_eq_train run hI ?_⟩
  · rw [shapeLevel_toggle_interval run initial h, ShapeLevel.opposite_eq]
  · rw [BitVec.toNat_ofNat, Nat.mod_eq_of_lt h]

/-! ### The end of a pulse (07 R111) -/

/-- A TRIGGERED window whose pulse ends: the budget decides its arming (07 R111). -/
theorem Window.endPulse_triggered {w : Window} {k : Sense} {edge : EdgeKind} {W : BitVec 16} {N : Byte} {r : TriggerRun}
    (hs : w.shape = .triggered k edge W N) (hr : w.run = .trigger r) :
    w.endPulse = { w with run := .trigger { r with
      pulseEnd := none, arming := if r.emitted = N.toNat then .done else r.arming } } := by
  unfold Window.endPulse
  rw [hs, hr]

/-- The pulse end of an ACTIVE TRIGGERED window is the one of its run-time part (07 R109). -/
theorem Window.pulseEnd_triggered {w : Window} {k : Sense} {edge : EdgeKind} {W : BitVec 16} {N : Byte} {r : TriggerRun}
    (ha : w.state = .active) (hs : w.shape = .triggered k edge W N) (hr : w.run = .trigger r) : w.pulseEnd = r.pulseEnd := by
  unfold Window.pulseEnd
  rw [ha, hs, hr]

/-- The pulse of a lane's running window is due from its end on (07 R111). -/
theorem State.pulseDue_of_le {s : State} {l : Lane} {w : Window} {e : Epoch} (hw : s.running (laneTrack l) = some w)
    (hp : w.pulseEnd = some e) (he : e ≤ s.epoch) : s.pulseDue l = some w := by
  unfold State.pulseDue
  rw [hw, Option.filter_some, hp]
  exact if_pos (decide_eq_true he)

/-- PULSE_END where a pulse is due (07 R111). -/
theorem exec_pulseEnd {s : State} {l : Lane} {w : Window} (h : s.pulseDue l = some w) :
    exec (.pulseEnd l) s = .next ((s.updateWindow w.slot Window.endPulse).setDrive l .inactive) := by
  show execPulseEnd l s = _
  unfold execPulseEnd
  rw [h]

/-- A change of the record in a window's slot is decided by that window alone: no other holds the slot (01 R8). -/
theorem State.updateWindow_congr {s : State} (h : s.SlotsDistinct) {w : Window} (hw : w ∈ s.windows) {f g : Window → Window}
    (e : f w = g w) : s.updateWindow w.slot f = s.updateWindow w.slot g := by
  have hmap : ∀ v ∈ s.windows, (if v.slot = w.slot then f v else v) = if v.slot = w.slot then g v else v := by
    intro v hv
    split
    · next hslot =>
      obtain rfl := h.inj hv hw hslot
      exact e
    · rfl
  unfold State.updateWindow
  rw [List.map_congr_left hmap]

/-- Settles O52: the lane's head runs and its pulse is due; the record in its slot is its own. -/
theorem pulsesEndWhenDue : Obligations.PulsesEndWhenDue := by
  intro l w k edge W N r e s hl hh ha hs hr hp he
  obtain ⟨hw, _⟩ := State.head_mem hh
  have hdue : s.pulseDue l = some w :=
    State.pulseDue_of_le (State.running_eq_some.mpr ⟨hh, ha⟩) ((Window.pulseEnd_triggered ha hs hr).trans hp) he
  have hend : s.updateWindow w.slot Window.endPulse = s.updateWindow w.slot (fun v => { v with run := .trigger { r with
      pulseEnd := none, arming := if r.emitted = N.toNat then .done else r.arming } }) :=
    State.updateWindow_congr hl.lists.slots hw (Window.endPulse_triggered hs hr)
  rw [exec_pulseEnd hdue, hend]
  rfl

/-! ### The operands of SET_LANE (07 R117, 12 R180) -/

/-- A polarity code as a number. -/
theorem polarityOperand_eq (b : Byte) : polarityOperand b =
    if b.toNat = 0 then some .activeHigh else if b.toNat = 1 then some .activeLow else none := by
  simp [polarityOperand, BitVec.toNat_eq]

/-- An idle drive code as a number. -/
theorem idleOperand_eq (b : Byte) : idleOperand b =
    if b.toNat = 0 then some .inactive else if b.toNat = 1 then some .active else if b.toNat = 2 then some .float else none := by
  simp [idleOperand, BitVec.toNat_eq]

theorem polarityOperand_eq_none {b : Byte} (h : 1 < b.toNat) : polarityOperand b = none := by
  rw [polarityOperand_eq, if_neg (by omega), if_neg (by omega)]

theorem idleOperand_eq_none {b : Byte} (h : 2 < b.toNat) : idleOperand b = none := by
  rw [idleOperand_eq, if_neg (by omega), if_neg (by omega), if_neg (by omega)]

theorem polarityOperand_of_le {b : Byte} (h : b.toNat ≤ 1) :
    polarityOperand b = some (if b.toNat = 0 then .activeHigh else .activeLow) := by
  rw [polarityOperand_eq]
  split
  · rfl
  · rw [if_pos (by omega)]

theorem idleOperand_of_le {b : Byte} (h : b.toNat ≤ 2) :
    idleOperand b = some (if b.toNat = 0 then .inactive else if b.toNat = 1 then .active else .float) := by
  rw [idleOperand_eq]
  split
  · rfl
  · split
    · rfl
    · rw [if_pos (by omega)]

/-- A lane operand above 15 names no lane (07 R117). -/
theorem laneOperand_eq_none {b : Byte} (h : 16 ≤ b.toNat) : laneOperand b = none := by
  unfold laneOperand
  rw [dif_neg (by omega)]

/-- A byte that names a lane (07 R117). -/
theorem laneOperand_of_val {b : Byte} {l : Lane} (h : b.toNat = l.val) : laneOperand b = some l := by
  unfold laneOperand
  rw [dif_pos (h ▸ l.isLt)]
  exact congrArg some (Fin.ext h)

/-! ### The judgement of SET_LANE (07 R118) -/

section
variable {s : State} {p : Port} {l : Lane}

/-- A lane of another port is refused, whatever its list holds (07 R118). -/
theorem State.laneRefusal_claimed {q : Port} (hq : q ≠ p) (hc : s.claimant (laneTrack l) = some q) :
    s.laneRefusal p l = some .claimed := by
  unfold State.laneRefusal
  rw [hc]
  exact if_neg hq

/-- An open lane with a window is refused (07 R118). -/
theorem State.laneRefusal_trackBusy (hc : s.claimant (laneTrack l) = none) (hw : s.trackList (laneTrack l) ≠ []) :
    s.laneRefusal p l = some .trackBusy := by
  unfold State.laneRefusal
  rw [hc]
  exact if_neg (fun e => hw (List.isEmpty_iff.mp e))

/-- The claimant's own lane, and an open lane without windows, may be set (07 R118). -/
theorem State.laneRefusal_none (h : s.claimant (laneTrack l) = some p ∨
    (s.claimant (laneTrack l) = none ∧ s.trackList (laneTrack l) = [])) : s.laneRefusal p l = none := by
  unfold State.laneRefusal
  rcases h with hc | ⟨hc, hw⟩
  · rw [hc]
    exact if_pos rfl
  · rw [hc, hw]
    rfl

end

section
variable {s : State} {p : Port} {b pol idl : Byte}

/-- SET_LANE with a polarity or an idle drive outside its list (07 R117). -/
theorem setLane_badRequest (h : 1 < pol.toNat ∨ 2 < idl.toNat) : setLane p b pol idl s = (s, plainAnswer .badRequest) := by
  unfold setLane
  rcases h with h | h
  · rw [polarityOperand_eq_none h]
  · rw [idleOperand_eq_none h]
    cases polarityOperand pol <;> rfl

/-- SET_LANE of a lane above 15 (07 R117). -/
theorem setLane_badRange (hp : pol.toNat ≤ 1) (hi : idl.toNat ≤ 2) (h : 16 ≤ b.toNat) :
    setLane p b pol idl s = (s, plainAnswer .badRange) := by
  unfold setLane
  rw [polarityOperand_of_le hp, idleOperand_of_le hi, laneOperand_eq_none h]

/-- The Lane Driver that a SET_LANE leaves: both attributes as sent, and the drive state it had (07 R119). -/
def LaneDriver.withAttributes (d : LaneDriver) (pol idl : Byte) : LaneDriver :=
  { polarity := if pol.toNat = 0 then .activeHigh else .activeLow
    idleDrive := if idl.toNat = 0 then .inactive else if idl.toNat = 1 then .active else .float
    drive := d.drive }

/-- SET_LANE of a lane that the judgement refuses (07 R118). -/
theorem setLane_refused {l : Lane} {st : Status} (hp : pol.toNat ≤ 1) (hi : idl.toNat ≤ 2) (h : b.toNat = l.val)
    (hr : s.laneRefusal p l = some st) : setLane p b pol idl s = (s, plainAnswer st) := by
  unfold setLane
  rw [polarityOperand_of_le hp, idleOperand_of_le hi, laneOperand_of_val h]
  dsimp only
  rw [hr]

/-- SET_LANE of a lane that the judgement lets pass (07 R119). -/
theorem setLane_ok {l : Lane} (hp : pol.toNat ≤ 1) (hi : idl.toNat ≤ 2) (h : b.toNat = l.val)
    (hr : s.laneRefusal p l = none) :
    setLane p b pol idl s = (s.setLane l ((s.lane l).withAttributes pol idl), plainAnswer .ok) := by
  unfold setLane
  rw [polarityOperand_of_le hp, idleOperand_of_le hi, laneOperand_of_val h]
  dsimp only
  rw [hr]
  rfl

end

/-- SET_LANE in OPEN: the reply, on what the request leaves (07 R119). -/
theorem exec_setLane {p : Port} {seq : Seq} {b pol idl : Byte} {s t : State} {st : Status}
    (hf : Fresh p seq (.setLane b pol idl) s) (hs : (s.port p).session = .opened)
    (ha : setLane p b pol idl (s.taken p seq (.setLane b pol idl)) =
      (t.taken p seq (.setLane b pol idl), plainAnswer st)) :
    exec (.setLane p seq b pol idl) s = .next (t.answered p seq (.setLane b pol idl) (plainAnswer st)) :=
  exec_answered hf hs (by simp [requestName]) ha

/-- Settles O26: the attributes are read first, then the lane; its claimant and its list refuse, or both attributes are set. -/
theorem setLaneIsJudged : Obligations.SetLaneIsJudged := by
  intro p seq b pol idl s hf hs reply attributes
  refine ⟨fun h => exec_setLane hf hs (setLane_badRequest h), fun hp hi =>
    ⟨fun h => exec_setLane hf hs (setLane_badRange hp hi h), fun l h => ?_⟩⟩
  exact ⟨fun q hq hc => exec_setLane hf hs (setLane_refused hp hi h (State.laneRefusal_claimed hq hc)),
    fun hc hw => exec_setLane hf hs (setLane_refused hp hi h (State.laneRefusal_trackBusy hc hw)),
    fun hfree => exec_setLane (t := s.setLane l (attributes l)) hf hs (setLane_ok hp hi h (State.laneRefusal_none hfree))⟩

end Sys2Proof.Machine
end

section
/-! PROOFS. Edges: what an edge counts, carries and reports where no window reaches its limit (08 R123 to R125, R129, R130, R134, 07 R110). -/

namespace Sys2Proof.Machine

/-! ### One counted edge (08 R124, R125) -/

theorem Window.takesCount_iff {w : Window} {k : Sense} {level : Level} :
    w.takesCount k level = true ↔ w.track = senseTrack k ∧ w.state = .active ∧ w.counts level = true := by
  unfold Window.takesCount
  rw [Bool.and_eq_true, Bool.and_eq_true, decide_eq_true_eq, decide_eq_true_eq, and_assoc]

theorem Window.shape_of_counts {w : Window} {level : Level} (h : w.counts level = true) : ∃ e lim, w.shape = .tally e lim := by
  unfold Window.counts at h
  split at h
  · next e lim hs => exact ⟨e, lim, hs⟩
  · cases h

theorem TallyRun.countEdges_one {r : TallyRun} {limit : Option (BitVec 24)} {start epoch : Epoch}
    (h : r.lawful limit start epoch = true) (te : Epoch) : r.countEdges te limit 1 = r.counted te := by
  obtain ⟨hmax, _, hlimit, _⟩ := (r.lawful_iff limit start epoch).mp h
  rw [TallyRun.countEdges_of_room r te (fun l hl => hlimit l hl), if_neg Nat.one_ne_zero]
  have hcount : min (r.count + 1) tallyMax = if r.count < tallyMax then r.count + 1 else r.count := by
    split <;> omega
  have hsat : (tallyMax < r.count + 1) = (r.count = tallyMax) := propext (by omega)
  have hfirst : (r.firstEdge <|> some te) = some (r.firstEdge.getD te) := by cases r.firstEdge <;> rfl
  unfold TallyRun.counted
  simp only [hcount, hsat, hfirst]

theorem Window.countEdges_one {w : Window} {epoch : Epoch} (h : w.runLawful epoch = true) (te : Epoch) :
    w.countEdges te 1 = w.counted te := by
  unfold Window.runLawful at h
  unfold Window.countEdges Window.counted
  split at h
  · next hs hr => rw [hs, hr]
  · next hs hr =>
    rw [hs, hr]
    dsimp only
    rw [TallyRun.countEdges_one h]
  · next hs hr => rw [hs, hr]
  · next hs hr => rw [hs, hr]
  · next hs hr => rw [hs, hr]
  · cases h

/-- A lawful TALLY window stands at its limit after an edge exactly where it stood one below (08 R125 step 4). -/
theorem Window.limitReached_counted {w : Window} {epoch : Epoch} (h : w.runLawful epoch = true) (te : Epoch) :
    (w.counted te).limitReached = true ↔ ∃ n r, w.shape.limit = some n ∧ w.run = .tally r ∧ r.count + 1 = n := by
  rw [← Window.countEdges_one h te]
  unfold Window.limitReached
  rw [(w.countEdges_alike te 1).shape, Window.countEdges_one h te]
  unfold Window.runLawful at h
  unfold Window.counted
  cases hs : w.shape with
  | tally e lim =>
    cases hr : w.run with
    | tally r =>
      rw [hs, hr] at h
      obtain ⟨hmax, _, hlimit, _⟩ := (r.lawful_iff _ _ _).mp h
      cases lim with
      | none => simp [Shape.limit]
      | some l =>
        have hlt := hlimit l rfl
        have hl : l.toNat ≤ tallyMax := by have := l.isLt; unfold tallyMax; omega
        have hc : (r.counted te).count = r.count + 1 := if_pos (by omega)
        simp [Shape.limit, hc, eq_comm]
    | _ => rw [hs, hr] at h; cases h
  | _ => simp [Shape.limit]

theorem Window.counted_alike (w : Window) (te : Epoch) : w.Alike (w.counted te) := by
  unfold Window.counted
  split <;> rfl

theorem Window.counted_times (w : Window) (te : Epoch) : (w.counted te).stop = w.stop ∧ (w.counted te).state = w.state := by
  unfold Window.counted
  split <;> exact ⟨rfl, rfl⟩

/-! ### The counting window and the waiting one (08 R122, R134) -/

section
variable {s : State} {k : Sense} {level : Level} {w : Window}

/-- A window that an edge counts into is the one its track runs. -/
theorem Lists.running_of_takesCount (h : Lists s) (hw : w ∈ s.windows) (ht : w.takesCount k level = true) :
    s.running (senseTrack k) = some w := by
  obtain ⟨hk, ha, _⟩ := Window.takesCount_iff.mp ht
  exact h.track.active_running ((s.mem_trackList _ w).mpr ⟨hw, hk⟩) ha

theorem Lists.counting_eq (h : Lists s) (hr : s.running (senseTrack k) = some w) : (s.tally k).counting = some w.slot := by
  rw [(h.tallies k).1, hr]
  rfl

/-- An edge that qualifies for the counting window is counted, and the window's limit checked (08 R125). -/
theorem Lists.countEdge_counting (h : Lists s) (hw : w ∈ s.windows) (ht : w.takesCount k level = true) :
    s.countEdge k level = (s.updateWindow w.slot (fun v => v.countEdges s.epoch 1)).checkLimit w.slot := by
  obtain ⟨_, _, hc⟩ := Window.takesCount_iff.mp ht
  unfold State.countEdge
  rw [h.counting_eq (h.running_of_takesCount hw ht)]
  dsimp only
  rw [State.windowAt_eq h.slots hw]
  exact if_pos hc

/-- An edge in a handover hold is carried where it qualifies for the head that waits (08 R134). -/
theorem Lists.countEdge_hold (h : Lists s) (hh : s.head (senseTrack k) = some w) (hp : w.state = .pending)
    (hhold : (s.tally k).hold = some w.slot) : s.countEdge k level =
      if w.counts level then s.setTally k { s.tally k with carried := min ((s.tally k).carried + 1) tallyMax } else s := by
  have hcount : (s.tally k).counting = none := by
    rw [(h.tallies k).1, State.running_eq_none.mpr (fun v hv => by rw [hh] at hv; cases hv; exact hp)]
    rfl
  unfold State.countEdge
  rw [hcount, hhold]
  dsimp only
  rw [State.windowAt_eq h.slots (State.head_mem hh).1]

/-- An edge that no window counts and none waits for changes nothing (08 R130). -/
theorem Lists.countEdge_none (h : Lists s) (hn : ∀ w ∈ s.windows, w.takesCount k level = false)
    (hhold : (s.tally k).hold = none) : s.countEdge k level = s := by
  rcases s.countEdge_cases k level with e | ⟨i, w, hc, hw, hl, _⟩ | ⟨i, _, _, hh, _⟩
  · exact e
  · obtain ⟨hm, ha⟩ := State.running_mem (h.counting_spec hc hw)
    obtain ⟨hm, hk⟩ := (s.mem_trackList _ w).mp hm
    have := hn w hm
    rw [Window.takesCount_iff.mpr ⟨hk, ha, hl⟩] at this
    cases this
  · rw [hhold] at hh
    cases hh

end

theorem State.tallies_set_self (s : State) (k : Sense) : s.tallies.set k (s.tally k) = s.tallies :=
  vector_ext_fin (fun j => by
    rw [vector_get_set]
    split
    · next e => rw [← e]; rfl
    · rfl)

/-- The carried edges of a sense input after an edge (08 R134). -/
def State.carriedAfter (s : State) (k : Sense) (level : Level) : Nat :=
  if (s.tally k).hold.isSome && (s.head (senseTrack k)).any (fun w => w.counts level)
    then min ((s.tally k).carried + 1) tallyMax else (s.tally k).carried

theorem State.carriedAfter_of_no_hold {s : State} {k : Sense} (h : (s.tally k).hold = none) (level : Level) :
    s.carriedAfter k level = (s.tally k).carried := by
  unfold State.carriedAfter
  rw [h]
  rfl

theorem State.carriedAfter_of_hold {s : State} {k : Sense} {w : Window} {i : Slot} (h : (s.tally k).hold = some i)
    (hh : s.head (senseTrack k) = some w) (level : Level) :
    s.carriedAfter k level = if w.counts level then min ((s.tally k).carried + 1) tallyMax else (s.tally k).carried := by
  unfold State.carriedAfter
  rw [h, hh]
  rfl

/-- The part after the count of an edge that brings no window to its limit (08 R125, R130, R134). -/
def State.countedBelow (s : State) (k : Sense) (level : Level) : State := { s with
  windows := s.windows.map (fun w => if w.takesCount k level then w.counted s.epoch else w)
  tallies := s.tallies.set k { s.tally k with carried := s.carriedAfter k level } }

theorem State.countedBelow_of_carry {s : State} {k : Sense} {level : Level} (h : s.carriedAfter k level = (s.tally k).carried) :
    s.countedBelow k level =
      { s with windows := s.windows.map (fun w => if w.takesCount k level then w.counted s.epoch else w) } := by
  have e : s.tallies.set k { s.tally k with carried := s.carriedAfter k level } = s.tallies := by
    rw [h]
    exact s.tallies_set_self k
  unfold State.countedBelow
  rw [e]

theorem State.countedBelow_of_uncounted {s : State} {k : Sense} {level : Level}
    (h : ∀ w ∈ s.windows, w.takesCount k level = false) :
    s.countedBelow k level = s.setTally k { s.tally k with carried := s.carriedAfter k level } := by
  have hmap : s.windows.map (fun w => if w.takesCount k level then w.counted s.epoch else w) = s.windows :=
    (List.map_congr_left (fun w hw => if_neg (by rw [h w hw]; exact Bool.false_ne_true))).trans (List.map_id _)
  unfold State.countedBelow
  rw [hmap]
  rfl

/-- The counting window counts the edge, and no other record changes (08 R125). -/
theorem Laws.map_counting {s : State} (h : Laws s []) {k : Sense} {level : Level} {w : Window} (hw : w ∈ s.windows)
    (ht : w.takesCount k level = true) :
    s.windows.map (fun v => if v.slot = w.slot then v.countEdges s.epoch 1 else v) =
      s.windows.map (fun v => if v.takesCount k level then v.counted s.epoch else v) := by
  refine List.map_congr_left (fun v hv => ?_)
  by_cases e : v.slot = w.slot
  · obtain rfl := h.lists.slots.inj hv hw e
    rw [if_pos rfl, if_pos ht, Window.countEdges_one (h.runLawful hv)]
  · have hv' : ¬ v.takesCount k level = true := fun x => e (congrArg Window.slot (Option.some.inj
      ((h.lists.running_of_takesCount hv x).symm.trans (h.lists.running_of_takesCount hw ht))))
    rw [if_neg e, if_neg hv']

/-- The count of an edge that brings no window to its limit: into the counting window, or into the carried edges, or by none. -/
theorem Laws.countEdge_below {s : State} (h : Laws s []) {k : Sense} {level : Level}
    (hbelow : ∀ w ∈ s.windows, w.takesCount k level = true → (w.counted s.epoch).limitReached = false) :
    s.countEdge k level = s.countedBelow k level := by
  have hL := h.lists
  by_cases hex : ∃ w ∈ s.windows, w.takesCount k level = true
  · obtain ⟨w, hw, ht⟩ := hex
    have hhold := (hL.hold_of_running (hL.running_of_takesCount hw ht)).1
    rw [State.countedBelow_of_carry (State.carriedAfter_of_no_hold hhold level), hL.countEdge_counting hw ht,
      State.checkLimit_below, ← h.map_counting hw ht]
    · rfl
    · intro v hv
      obtain ⟨hv, hslot⟩ := State.windowAt_mem hv
      have hv : v ∈ s.windows.map (fun v => if v.slot = w.slot then v.countEdges s.epoch 1 else v) := hv
      obtain ⟨u, hu, rfl⟩ := List.mem_map.mp hv
      have e : u.slot = w.slot := by
        rw [← hslot]
        exact ((KeepsBookings.ite (fun v => v.countEdges_alike s.epoch 1) (fun v => v.slot = w.slot)) u).slot.symm
      obtain rfl := hL.slots.inj hu hw e
      rw [if_pos rfl, Window.countEdges_one (h.runLawful hu)]
      exact hbelow u hu ht
  · have hn : ∀ w ∈ s.windows, w.takesCount k level = false := fun w hw => by
      by_contra hc
      exact hex ⟨w, hw, by simpa using hc⟩
    rw [State.countedBelow_of_uncounted hn]
    rcases hL.hold_cases k with ⟨hhold, _⟩ | ⟨w, hh, hp, _, hhold⟩
    · rw [hL.countEdge_none hn hhold, State.carriedAfter_of_no_hold hhold]
      exact congrArg (fun ts => { s with tallies := ts }) (s.tallies_set_self k).symm
    · rw [hL.countEdge_hold hh hp hhold, State.carriedAfter_of_hold hhold hh]
      split
      · rfl
      · exact congrArg (fun ts => { s with tallies := ts }) (s.tallies_set_self k).symm

/-! ### The report (08 R129, 07 R110) -/

theorem Window.pulsed_alike (w : Window) (k : Sense) (level : Level) (te : Epoch) : w.Alike (w.pulsed k level te) := by
  unfold Window.pulsed
  split
  · exact w.withPulse_alike _
  · exact .refl w

theorem Window.pulsed_times (w : Window) (k : Sense) (level : Level) (te : Epoch) :
    (w.pulsed k level te).stop = w.stop ∧ (w.pulsed k level te).state = w.state := by
  unfold Window.pulsed
  split
  · exact w.withPulse_times _
  · exact ⟨rfl, rfl⟩

theorem Window.startsPulse_of_tally {w : Window} {e : EdgeKind} {lim : Option (BitVec 24)} (h : w.shape = .tally e lim)
    (k : Sense) (level : Level) : w.startsPulse k level = false := by
  by_contra hc
  obtain ⟨_, _, _, _, _, hs, _⟩ := Window.startsPulse_spec (by simpa using hc)
  rw [h] at hs
  cases hs

theorem Window.pulsed_of_not_starts {w : Window} {k : Sense} {level : Level} (h : w.startsPulse k level = false) (te : Epoch) :
    w.pulsed k level te = w := if_neg (by rw [h]; exact Bool.false_ne_true)

theorem Window.pulsed_of_pending {w : Window} (h : w.state = .pending) (k : Sense) (level : Level) (te : Epoch) :
    w.pulsed k level te = w := by
  refine Window.pulsed_of_not_starts ?_ te
  by_contra hc
  have := (Window.startsPulse_spec (by simpa using hc)).1
  rw [h] at this
  cases this

/-- Far from the top of the epoch a pulse ends its width after the edge (07 R110, 09 R139). -/
theorem State.pulseEndOf_of_far {s : State} (h : FarFromTop s) (w : Window) :
    s.pulseEndOf w = s.epoch + BitVec.ofNat 64 w.shape.width := by
  have hw : w.shape.width < 65536 := by
    unfold Shape.width
    split
    · next wd _ _ => exact wd.isLt
    · omega
  exact if_pos (by omega)

theorem State.pulsedLane_eq (s : State) (k : Sense) (level : Level) (l : Lane) :
    s.pulsedLane k level l = if s.pulseOn k level l then { s.lane l with drive := .active } else s.lane l := by
  unfold State.pulsedLane State.pulseOn
  cases s.running (laneTrack l) <;> rfl

/-- The report of an edge far from the top of the epoch. -/
theorem State.reportEdge_of_far {s : State} (h : FarFromTop s) (k : Sense) (level : Level) : s.reportEdge k level = { s with
    windows := s.windows.map (fun w => w.pulsed k level s.epoch)
    lanes := Vector.ofFn (s.pulsedLane k level) } := by
  unfold State.reportEdge Window.pulsed
  simp only [State.pulseEndOf_of_far h, ← State.pulsedLane_eq]

/-! ### SENSE_EDGE -/

/-- The part once it saw a level (08 R123). -/
def State.seeing (s : State) (k : Sense) (level : Level) : State := s.setTally k { s.tally k with seen := level }

theorem State.tally_seeing (s : State) (k : Sense) (level : Level) (j : Sense) :
    (s.seeing k level).tally j = if k = j then { s.tally k with seen := level } else s.tally j := State.tally_setTally s k j _

/-- A change of the seen level alone is read by no law. -/
theorem quiet_seeing (s : State) (k : Sense) (level : Level) : Quiet s (s.seeing k level) := by
  refine ⟨rfl, rfl, rfl, rfl, rfl, rfl, fun _ => rfl, fun j => ?_, fun j => ?_, fun j => ?_, id, fun _ => .refl _⟩
  all_goals
    rw [State.tally_seeing]
    split
    · next e => rw [← e]
    · rfl

theorem exec_senseEdge {s : State} {k : Sense} {level : Level} (hr : s.resetHeld = false) (hne : (s.tally k).seen ≠ level) :
    exec (.senseEdge k level) s = .next (s.takeEdge k level) :=
  if_neg (by simp [hr, hne])

/-- An edge that brings no window to its limit ends no bundle. -/
theorem Laws.endsBundle_below {s : State} (h : Laws s []) {k : Sense} {level : Level}
    (hbelow : ∀ w ∈ s.windows, w.takesCount k level = true → (w.counted s.epoch).limitReached = false) :
    s.endsBundle k level = false := by
  unfold State.endsBundle
  split
  · next w hw =>
    obtain ⟨i, hc, hi⟩ := Option.bind_eq_some_iff.mp hw
    obtain ⟨hm, ha⟩ := State.running_mem (h.lists.counting_spec hc hi)
    obtain ⟨hm, hk⟩ := (s.mem_trackList _ w).mp hm
    by_cases hl : w.counts level = true
    · rw [Window.countEdges_one (h.runLawful hm), hbelow w hm (Window.takesCount_iff.mpr ⟨hk, ha, hl⟩), Bool.and_false]
    · rw [Bool.eq_false_of_not_eq_true hl, Bool.and_false, Bool.false_and]
  · rfl

/-- Where no limit is in reach, an edge is counted and then reported; the order makes no difference (08 R129). -/
theorem Laws.takeEdge_below {s : State} (h : Laws s []) (hfar : FarFromTop s) {k : Sense} {level : Level}
    (hbelow : ∀ w ∈ s.windows, w.takesCount k level = true → (w.counted s.epoch).limitReached = false) :
    s.takeEdge k level = ((s.seeing k level).countEdge k level).reportEdge k level := by
  have hends := (h.quiet (quiet_seeing s k level)).endsBundle_below hbelow
  unfold State.takeEdge
  refine (if_pos (by omega)).trans (if_neg ?_)
  show ¬ (s.seeing k level).endsBundle k level = true
  rw [hends]
  exact Bool.false_ne_true

/-- Counted windows start no pulse, so a count leaves the report what it was. -/
theorem Window.startsPulse_counted (w : Window) (k : Sense) (level : Level) (te : Epoch) :
    (if w.takesCount k level then w.counted te else w).startsPulse k level = w.startsPulse k level := by
  split
  · next ht =>
    obtain ⟨_, _, hs⟩ := Window.shape_of_counts (Window.takesCount_iff.mp ht).2.2
    rw [Window.startsPulse_of_tally hs, Window.startsPulse_of_tally ((w.counted_alike te).shape.trans hs)]
  · rfl

theorem Window.pulsed_counted (w : Window) (k : Sense) (level : Level) (te : Epoch) :
    (if w.takesCount k level then w.counted te else w).pulsed k level te =
      if w.takesCount k level then w.counted te else w.pulsed k level te := by
  split
  · next ht =>
    obtain ⟨_, _, hs⟩ := Window.shape_of_counts (Window.takesCount_iff.mp ht).2.2
    exact Window.pulsed_of_not_starts (Window.startsPulse_of_tally ((w.counted_alike te).shape.trans hs) k level) te
  · rfl

theorem State.pulsedLane_countedBelow (s : State) (k : Sense) (level : Level) :
    (s.countedBelow k level).pulsedLane k level = s.pulsedLane k level := by
  obtain ⟨hkeeps, htimes⟩ := ite_keeps (fun w => w.counted_alike s.epoch) (fun w => w.counted_times s.epoch)
    (fun w => w.takesCount k level = true)
  funext l
  unfold State.pulsedLane
  rw [running_map (s := s) (t := s.countedBelow k level) rfl hkeeps (fun v => (htimes v).2), Option.any_map]
  simp only [Window.startsPulse_counted]
  rfl

/-- A count and its report together, below every limit. -/
theorem State.reportEdge_countedBelow {s : State} (h : FarFromTop s) (k : Sense) (level : Level) :
    (s.countedBelow k level).reportEdge k level = { s.countedBelow k level with
      windows := s.windows.map (fun w => if w.takesCount k level then w.counted s.epoch else w.pulsed k level s.epoch)
      lanes := Vector.ofFn (s.pulsedLane k level) } := by
  rw [State.reportEdge_of_far (s := s.countedBelow k level) h, State.pulsedLane_countedBelow]
  have hmap : (s.countedBelow k level).windows.map (fun w => w.pulsed k level s.epoch) =
      s.windows.map (fun w => if w.takesCount k level then w.counted s.epoch else w.pulsed k level s.epoch) :=
    List.map_map.trans (List.map_congr_left (fun w _ => w.pulsed_counted k level s.epoch))
  exact congrArg (fun ws => { s.countedBelow k level with windows := ws, lanes := Vector.ofFn (s.pulsedLane k level) }) hmap

/-- Settles O53: below every limit the count and the report touch different windows, so each is read off its own operation. -/
theorem edgesAreCountedAndReported : Obligations.EdgesAreCountedAndReported := by
  intro k level s
  refine ⟨fun h => if_pos (by simpa using h), fun hl hfar hr hne hlimit => ?_⟩
  obtain ⟨_, _, hLaws⟩ := (lawful_iff s).mp hl
  have hbelow : ∀ w ∈ s.windows, w.takesCount k level = true → (w.counted s.epoch).limitReached = false := fun w hw ht => by
    by_contra hc
    obtain ⟨n, r, hn, hrun, he⟩ := (Window.limitReached_counted (hLaws.runLawful hw) s.epoch).mp (by simpa using hc)
    exact hlimit w hw ht n r hn hrun he
  have htally : (s.seeing k level).tallies.set k
      { (s.seeing k level).tally k with carried := (s.seeing k level).carriedAfter k level } =
      s.tallies.set k { s.tally k with seen := level, carried := s.carriedAfter k level } := by
    unfold State.carriedAfter
    rw [State.tally_seeing, if_pos rfl]
    exact Vector.set_set ..
  rw [exec_senseEdge hr hne, hLaws.takeEdge_below hfar hbelow, (hLaws.quiet (quiet_seeing s k level)).countEdge_below hbelow,
    State.reportEdge_countedBelow (s := s.seeing k level) hfar]
  unfold State.countedBelow
  rw [htally]
  rfl

end Sys2Proof.Machine
end

section
/-! PROOFS. Ends at a limit: a window that a count brought to its limit retires with its whole bundle (08 R126, R127, 04 R69), and the bundle that its carried edges end as it starts (08 R134). -/

namespace Sys2Proof.Machine

/-! ### Windows that changed in place before they leave -/

section
variable {f : Window → Window}

theorem KeepsBookings.among_map (hf : KeepsBookings f) (v : Window) (ws : List Window) : v.among (ws.map f) = v.among ws := by
  unfold Window.among
  rw [List.any_map]
  exact congrArg ws.any (funext (fun w => by rw [Function.comp_apply, (hf w).slot]))

theorem KeepsBookings.among (hf : KeepsBookings f) (v : Window) (ws : List Window) : (f v).among ws = v.among ws := by
  unfold Window.among
  rw [(hf v).slot]

theorem KeepsBookings.sameUnit (hf : KeepsBookings f) (w v : Window) :
    Machine.sameUnit (f w) (f v) = Machine.sameUnit w v := by
  unfold Machine.sameUnit
  rw [(hf w).slot, (hf v).slot, (hf w).bundle, (hf v).bundle, (hf w).owner, (hf v).owner]

theorem KeepsBookings.unitOf_map (hf : KeepsBookings f) {s x : State} (hx : x.windows = s.windows.map f) (w : Window) :
    x.unitOf (f w) = (s.unitOf w).map f := by
  unfold State.unitOf
  rw [hx, List.filter_map]
  exact congrArg (List.map f) (List.filter_congr (fun v _ => hf.sameUnit w v))

theorem KeepsBookings.wholeOf_map (hf : KeepsBookings f) {s x : State} (hs : s.SlotsDistinct) (hx : x.windows = s.windows.map f)
    {w : Window} (hw : w ∈ s.windows) : x.wholeOf (f w) = (s.wholeOf w).map f := by
  have hxs : x.SlotsDistinct := by
    show (x.windows.map Window.slot).Nodup
    rw [hx, hf.map_slot]
    exact hs
  rw [← State.unitOf_eq_wholeOf hs hw, ← State.unitOf_eq_wholeOf hxs (by rw [hx]; exact List.mem_map_of_mem hw),
    hf.unitOf_map hx]

theorem KeepsBookings.retired_map (hf : KeepsBookings f) (u : PortUnit) (ws : List Window) (rs : List EventRecord) (e : Epoch) :
    u.retired (ws.map f) rs e = u.retired ws rs e := by
  have hb : u.bundlesWithout (ws.map f) = u.bundlesWithout ws := vector_ext_fin (fun b => by
    rw [bundlesWithout_get, bundlesWithout_get]
    simp only [List.mem_map, exists_exists_and_eq_and, (hf _).bundleNo])
  unfold PortUnit.retired
  rw [hb, List.length_map]

/-- A retirement reads of the windows that leave their bookings alone. -/
theorem Retired.of_map {s t : State} {ws : List Window} {p : Port} {rs : List EventRecord} (hf : KeepsBookings f)
    (h : Retired s t (ws.map f) p rs) : Retired s t ws p rs := by
  obtain ⟨⟨hwin, huse, hrefs, hlanes, htallies, hother, htime⟩, hport, hclaims⟩ := h
  rw [hf.retired_map] at hport
  rw [List.length_map] at hclaims
  refine ⟨⟨?_, huse, fun k q => ?_, hlanes, htallies, hother, htime⟩, hport, hclaims⟩
  · rw [hwin]
    exact List.filter_congr (fun v _ => by rw [hf.among_map])
  · rw [hrefs k q, List.filter_map, List.length_map]
    simp only [Function.comp_def, (hf _).shape]

/-- A change of windows that leave is not seen in those that stay. -/
theorem KeepsBookings.stay_map (hf : KeepsBookings f) {ws : List Window} (hid : ∀ v : Window, v.among ws = false → f v = v)
    (vs : List Window) : (vs.map f).filter (fun v => !v.among ws) = vs.filter (fun v => !v.among ws) := by
  rw [filter_map_of_keeps (fun v => by rw [hf.among])]
  refine (List.map_congr_left (fun v hv => hid v ?_)).trans (List.map_id _)
  simpa using (List.mem_filter.mp hv).2

end

/-- Of windows in slots of their own, one and the others. -/
theorem perm_cons_others {ws : List Window} (hn : (ws.map Window.slot).Nodup) {w : Window} (hw : w ∈ ws) :
    ws.Perm (w :: ws.filter (fun v => decide (v.slot ≠ w.slot))) := by
  have hnd : ws.Nodup := List.Nodup.of_map _ hn
  refine (List.perm_ext_iff_of_nodup hnd (List.nodup_cons.mpr ⟨by simp, hnd.filter _⟩)).mpr (fun v => ?_)
  rw [List.mem_cons, List.mem_filter, decide_eq_true_eq]
  constructor
  · intro hv
    by_cases e : v.slot = w.slot
    · exact .inl (List.inj_on_of_nodup_map hn hv hw e)
    · exact .inr ⟨hv, e⟩
  · rintro (rfl | ⟨hv, _⟩)
    · exact hw
    · exact hv

/-- A window on a track of none of those given is none of them. -/
theorem not_among_of_track {s : State} (hs : s.SlotsDistinct) {ws : List Window} (hin : ∀ w ∈ ws, w ∈ s.windows) {x : Track}
    (hx : ∀ w ∈ ws, w.track ≠ x) {v : Window} (hv : v ∈ s.trackList x) : v.among ws = false := by
  obtain ⟨hv, hvx⟩ := (s.mem_trackList x v).mp hv
  by_contra hc
  obtain ⟨w, hw, e⟩ := (Window.among_eq_true v ws).mp (by simpa using hc)
  exact hx w hw (by rw [hs.inj (hin w hw) hv e, hvx])

/-- A track that no window left keeps its list. -/
theorem trackList_without {s t : State} {ws : List Window} (ht : t.windows = s.windows.filter (fun v => !v.among ws)) {x : Track}
    (hx : ∀ v ∈ s.trackList x, v.among ws = false) : t.trackList x = s.trackList x := by
  unfold State.trackList at hx ⊢
  rw [ht, List.filter_comm]
  exact List.filter_eq_self.mpr (fun v hv => by rw [hx v hv]; rfl)

/-! ### The end at a limit (08 R126, R127) -/

theorem Window.tally_of_limitReached {w : Window} (h : w.limitReached = true) :
    ∃ e l r, w.shape = .tally e (some l) ∧ w.run = .tally r ∧ r.count = l.toNat := by
  unfold Window.limitReached at h
  split at h
  · next e l r hs hr => exact ⟨e, l, r, hs, hr, of_decide_eq_true h⟩
  · cases h

/-- A window posts at its end what `endRecords` lists, at its limit too. -/
theorem endingRecord_of_sound {epoch e : Epoch} {reason : Reason} {w : Window}
    (h : w.runLawful e = true ∨ w.limitReached = true) :
    (endingRecord epoch reason w).toList = (endRecords epoch reason w).map (fun r => (w.owner, r)) := by
  rcases h with h | h
  · exact endingRecord_eq h
  · obtain ⟨_, _, _, hs, hr, _⟩ := Window.tally_of_limitReached h
    rw [endingRecord_tally hs hr, endRecords_tally hs hr]
    rfl

/-- A port holds the windows that act with one of its windows (01 R11). -/
theorem Lawful.wholeOf_le_held {s : State} (h : Lawful s) {w : Window} (hw : w ∈ s.windows) :
    (s.wholeOf w).length ≤ (s.port w.owner).held := by
  unfold State.wholeOf
  cases w.bundle with
  | none => exact h.held_pos hw
  | some r => exact h.members_le_held _ _

/-- A window that stands at its limit retires with its whole bundle: it with LIMIT, the others with BUNDLE_LIMIT. Here `f` is what happened to the records of `s` in place before (08 R126, R127, 04 R69). -/
theorem checkLimit_retires {s x : State} {f : Window → Window} (hf : KeepsBookings f) (hx : x.windows = s.windows.map f)
    (hs : s.SlotsDistinct) (hL : Lists x) (hsound : ∀ v ∈ x.windows, v.runLawful x.epoch = true ∨ v.limitReached = true)
    {w : Window} (hw : w ∈ s.windows) (hlim : (f w).limitReached = true)
    (hheld : (s.wholeOf w).length ≤ (x.port w.owner).held) :
    ∃ rs : List EventRecord, rs.Perm (endRecords x.epoch .limit (f w) ++
        ((s.wholeOf w).filter (fun v => decide (v.slot ≠ w.slot))).flatMap (fun v => endRecords x.epoch .bundleLimit (f v))) ∧
      Retired x (x.checkLimit w.slot) (s.wholeOf w) w.owner rs := by
  obtain ⟨hin, hn, hmem⟩ := wholeOf_spec hs hw
  have hfw : f w ∈ x.windows := by rw [hx]; exact List.mem_map_of_mem hw
  have hne : (s.wholeOf w).map f ≠ [] := List.ne_nil_of_mem (List.mem_map_of_mem hmem)
  have hinx : ∀ v ∈ (s.wholeOf w).map f, v ∈ x.windows ∧ v.owner = w.owner := fun v hv => by
    obtain ⟨u, hu, rfl⟩ := List.mem_map.mp hv
    rw [hx]
    exact ⟨List.mem_map_of_mem (hin u hu).1, (hf u).owner.trans (hin u hu).2⟩
  have hcheck : x.checkLimit w.slot =
      x.retire (fun v => if v.slot = w.slot then .limit else .bundleLimit) ((s.wholeOf w).map f) := by
    unfold State.checkLimit
    rw [← (hf w).slot, State.windowAt_eq hL.slots hfw]
    dsimp only
    rw [if_pos hlim]
    unfold State.endByLimit
    rw [State.unitOf_eq_wholeOf hL.slots hfw, hf.wholeOf_map hs hx hw]
  obtain ⟨t, rs, hperm, he, hleft, hclaims, hport⟩ := retire_left hL (p := w.owner)
    (reason := fun v => if v.slot = w.slot then .limit else .bundleLimit) hne hinx (by rw [hf.map_slot]; exact hn)
    (fun v hv => by rw [← (hinx v hv).2]; exact endingRecord_of_sound (hsound v (hinx v hv).1))
  refine ⟨rs, hperm.trans ?_, hcheck ▸ he ▸ (retired_of_left hne (by rw [List.length_map]; exact hheld) hleft hclaims hport).of_map hf⟩
  rw [List.flatMap_map]
  refine ((perm_cons_others hn hmem).flatMap_right _).trans ?_
  rw [List.flatMap_cons, if_pos (hf w).slot]
  refine List.Perm.append_left _ (List.Perm.of_eq (List.flatMap_congr (fun v hv => ?_)))
  rw [if_neg (by rw [(hf v).slot]; simpa using (List.mem_filter.mp hv).2)]

/-! ### Carried edges that end a bundle as it starts (08 R134, 04 R66, R69) -/

/-- What the hand over of several windows makes of a record. -/
def State.handingAll (s : State) (ws : List Window) (v : Window) : Window :=
  if v.among ws then v.handed s.epoch (s.carriedFor v) else v

theorem State.handingAll_keeps (s : State) (ws : List Window) : KeepsBookings (s.handingAll ws) := by
  intro v
  unfold State.handingAll
  split
  · exact v.handed_alike _ _
  · exact .refl v

theorem State.handingAll_mem (s : State) {ws : List Window} {v : Window} (hv : v ∈ ws) :
    s.handingAll ws v = v.handed s.epoch (s.carriedFor v) := if_pos ((Window.among_eq_true v ws).mpr ⟨v, hv, rfl⟩)

theorem State.handingAll_other (s : State) {ws : List Window} {v : Window} (hv : v.among ws = false) :
    s.handingAll ws v = v := if_neg (by rw [hv]; exact Bool.false_ne_true)

/-- A Tally Unit without a window. -/
def TallyUnit.freed (u : TallyUnit) : TallyUnit := { u with counting := none, hold := none, carried := 0 }

/-- Windows of the part, the heads of tracks of their own, that wait and whose start is reached (04 R65). -/
structure State.Heads (s : State) (ws : List Window) : Prop where
  head : ∀ w ∈ ws, s.head w.track = some w
  pending : ∀ w ∈ ws, w.state = .pending
  due : ∀ w ∈ ws, w.start ≤ s.epoch
  tracks : (ws.map Window.track).Nodup

theorem State.Heads.mem {s : State} {ws : List Window} (h : s.Heads ws) {w : Window} (hw : w ∈ ws) : w ∈ s.windows :=
  (State.head_mem (h.head w hw)).1

/-- `x` is the part `s` once the windows `ws` of port `p` were handed over together and their starts told by `us`; no limit was checked yet (04 R66). -/
structure HandedOver (s x : State) (ws : List Window) (p : Port) (us : List EventRecord) : Prop where
  windows : x.windows = s.windows.map (s.handingAll ws)
  laws : Laws x (ws.map Window.slot)
  lane : ∀ l, { x.lane l with drive := .idle } = { s.lane l with drive := .idle }
  lane_other : ∀ l, (∀ w ∈ ws, w.track ≠ laneTrack l) → x.lane l = s.lane l
  tally : ∀ k, (x.tally k).freed = (s.tally k).freed
  tally_other : ∀ k, (∀ w ∈ ws, w.track ≠ senseTrack k) → x.tally k = s.tally k
  useCounts : x.useCounts = s.useCounts
  claimants : x.claimants = s.claimants
  trigRefs : x.trigRefs = s.trigRefs
  time : SameTimebase s x
  port_other : ∀ q, q ≠ p → x.port q = s.port q
  port : x.port p = (s.port p).appendAll us

/-- A joint start of windows of one port up to the checks of their limits (04 R66). -/
theorem State.Heads.handedOver {s : State} {ws : List Window} {p : Port} (h : s.Heads ws) (hl : Laws s [])
    (hown : ∀ w ∈ ws, w.owner = p) : ∃ (x : State) (us : List EventRecord), us.Perm (ws.flatMap (startRecords s.epoch)) ∧
      HandedOver s x ws p us ∧ s.startAll ws = ws.foldl (fun t w => t.checkLimit w.slot) x := by
  obtain ⟨rs, n, hperm, he⟩ := s.startAll_spec ws
  obtain ⟨hrecords, hnone⟩ := recordsFor_filterMap (p := p) (ws := ws) (f := startRecord s.epoch)
    (fun w hw => hown w hw ▸ startRecord_eq s.epoch w)
  obtain ⟨hclaims, hrefs, hports, huse⟩ := handOvers_rest ws s
  have hport : ∀ q, (ws.foldl State.handOver s).port q = s.port q := fun q => by unfold State.port; rw [hports]
  have hlane := fun l => handOvers_read (g := fun t => t.lane l) (f := fun e w d => { d with drive := w.driveAt e })
    (fun s w => lane_handOver s w l) ws (s := s) h.tracks
  have htally := fun k => handOvers_read (g := fun t => t.tally k)
    (f := fun _ w u => { u with counting := some w.slot, hold := none, carried := 0 })
    (fun s w => tally_handOver s w k) ws (s := s) h.tracks
  have hother : ∀ x, (∀ w ∈ ws, w.track ≠ x) → ws.find? (fun w => decide (w.track = x)) = none := fun x hx =>
    List.find?_eq_none.mpr (fun w hw e => hx w hw (of_decide_eq_true e))
  have hlaws : Laws (ws.foldl State.handOver s) (ws.map Window.slot) :=
    (hl.mono (fun _ _ hx => by cases hx)).handOvers ws
      (fun w hw => ⟨h.head w hw, h.pending w hw, h.due w hw, List.mem_map_of_mem hw⟩) h.tracks
  refine ⟨{ ws.foldl State.handOver s with
      ports := Vector.ofFn (fun q => ((ws.foldl State.handOver s).port q).appendAll (recordsFor q rs))
      freeCount := n }, recordsFor p rs, hrecords ▸ recordsFor_perm p hperm, ⟨?_, hlaws.quiet (quiet_ports rfl (fun q => ?_)), fun l => ?_,
    fun l hx => ?_, fun k => ?_, fun k hx => ?_, huse, hclaims, hrefs, ?_, fun q hq => ?_, ?_⟩, he⟩
  · exact windows_handOvers ws hl.lists.slots (fun w hw => h.mem hw) h.tracks
  · show PortUnit.Quiet _ (Vector.ofFn (fun q => ((ws.foldl State.handOver s).port q).appendAll (recordsFor q rs)))[q]
    rw [vector_ofFn_get]
    exact PortUnit.quiet_appendAll _ _
  · refine (congrArg (fun d : LaneDriver => { d with drive := .idle }) (hlane l)).trans ?_
    cases ws.find? (fun w => decide (w.track = laneTrack l)) <;> rfl
  · exact (hlane l).trans (by rw [hother _ hx]; rfl)
  · refine (congrArg TallyUnit.freed (htally k)).trans ?_
    cases ws.find? (fun w => decide (w.track = senseTrack k)) <;> rfl
  · exact (htally k).trans (by rw [hother _ hx]; rfl)
  · exact SameTimebase.foldl timebase_handOver ws s
  · refine (vector_ofFn_get _ q).trans ?_
    rw [hport, recordsFor_nil_of_perm hperm (hnone q hq)]
    rfl
  · exact (vector_ofFn_get _ p).trans (by rw [hport])

/-- Behind a head that waits at the epoch value no window is ACTIVE or starts now. -/
theorem Lists.not_busy_behind {s t : State} (h : Lists s) {x : Track} {w : Window} (hh : s.head x = some w)
    (hp : w.state = .pending) (he : t.epoch = s.epoch) (ht : ∀ v ∈ t.trackList x, v ∈ s.trackList x ∧ v ≠ w) : ¬ t.Busy x := by
  rintro ⟨v, hv, hc⟩
  obtain ⟨hv, hne⟩ := ht v hv
  obtain ⟨hstart, hpv⟩ := h.track.head hh hv hne
  rcases hc with hc | hc
  · rw [hpv] at hc
    cases hc
  · have hlen := (h.times w (State.head_mem hh).1).length
    have hle := (h.times w (State.head_mem hh).1).pending hp
    rw [hc, he, BitVec.le_def] at hstart
    rw [BitVec.lt_def] at hlen
    rw [BitVec.le_def] at hle
    omega

section
variable {s x t : State} {ws : List Window} {p : Port} {us rs : List EventRecord}

theorem HandedOver.stay (h : HandedOver s x ws p us) (ht : Retired x t ws p rs) :
    t.windows = s.windows.filter (fun v => !v.among ws) := by
  obtain ⟨⟨hwin, _⟩, _⟩ := ht
  rw [hwin, h.windows, (s.handingAll_keeps ws).stay_map (fun v hv => s.handingAll_other hv)]

theorem HandedOver.epoch_left (h : HandedOver s x ws p us) (ht : Retired x t ws p rs) : t.epoch = s.epoch := by
  obtain ⟨⟨_, _, _, _, _, _, htime⟩, _⟩ := ht
  exact htime.1.trans h.time.1

/-- The track of a window that was handed over and retired at once is not busy. -/
theorem HandedOver.not_busy (h : HandedOver s x ws p us) (ht : Retired x t ws p rs) (hs : Lists s) (hh : s.Heads ws)
    {w : Window} (hw : w ∈ ws) : ¬ t.Busy w.track := by
  refine hs.not_busy_behind (hh.head w hw) (hh.pending w hw) (h.epoch_left ht) (fun v hv => ?_)
  obtain ⟨hv, hvx⟩ := (t.mem_trackList _ v).mp hv
  rw [h.stay ht] at hv
  obtain ⟨hv, ha⟩ := List.mem_filter.mp hv
  refine ⟨(s.mem_trackList _ v).mpr ⟨hv, hvx⟩, fun e => ?_⟩
  rw [(Window.among_eq_true v ws).mpr ⟨w, hw, by rw [e]⟩] at ha
  cases ha

/-- The lanes of a bundle that starts and ends in one change. -/
theorem HandedOver.lane_left (h : HandedOver s x ws p us) (ht : Retired x t ws p rs) (hs : Lists s) (hh : s.Heads ws) (l : Lane) :
    t.lane l = if ws.any (fun v => decide (v.track = laneTrack l)) then { s.lane l with drive := .idle } else s.lane l := by
  obtain ⟨⟨_, _, _, hlanes, _⟩, _⟩ := id ht
  rw [hlanes l]
  split
  · next hx =>
    obtain ⟨w, hw, e⟩ := List.any_eq_true.mp hx
    rw [State.settledLane_of_not_busy (of_decide_eq_true e ▸ h.not_busy ht hs hh hw), h.lane]
  · next hx =>
    have hx : ∀ w ∈ ws, w.track ≠ laneTrack l := fun w hw e => hx (List.any_eq_true.mpr ⟨w, hw, decide_eq_true e⟩)
    have htrack := trackList_without (h.stay ht) (fun v hv => not_among_of_track hs.slots (fun w hw => hh.mem hw) hx hv)
    rw [h.lane_other l hx, settledLane_congr (State.head_congr htrack) (h.epoch_left ht), hs.settledLane_self]

/-- The Tally Units of a bundle that starts and ends in one change. -/
theorem HandedOver.tally_left (h : HandedOver s x ws p us) (ht : Retired x t ws p rs) (hs : Lists s) (hh : s.Heads ws)
    (k : Sense) : t.tally k = if ws.any (fun v => decide (v.track = senseTrack k)) then (s.tally k).freed else s.tally k := by
  obtain ⟨⟨hwin, _, _, _, htallies, _⟩, _⟩ := id ht
  rw [htallies k]
  split
  · next hx =>
    obtain ⟨w, hw, e⟩ := List.any_eq_true.mp hx
    have hk : w.track = senseTrack k := of_decide_eq_true e
    have hkeeps := s.handingAll_keeps ws
    have hactive : (s.handingAll ws w).state = .active := by
      rw [s.handingAll_mem hw]
      exact (w.handed_times _ _).2
    have hrun : x.running (senseTrack k) = some (s.handingAll ws w) :=
      h.laws.lists.track.active_running ((x.mem_trackList _ _).mpr
        ⟨by rw [h.windows]; exact List.mem_map_of_mem (hh.mem hw), (hkeeps w).track.trans hk⟩) hactive
    have hgone : (s.handingAll ws w).slot ∉ (t.trackList (senseTrack k)).map Window.slot := fun hm => by
      obtain ⟨v, hv, ev⟩ := List.mem_map.mp hm
      have hv := ((t.mem_trackList _ v).mp hv).1
      rw [hwin] at hv
      have ha := (List.mem_filter.mp hv).2
      rw [(Window.among_eq_true v ws).mpr ⟨w, hw, (ev.trans (hkeeps w).slot).symm⟩] at ha
      cases ha
    have hnext : (t.head (senseTrack k)).filter (fun v => decide (v.start = x.epoch)) = none := by
      rw [Option.filter_eq_none_iff]
      intro v hv hstart
      refine h.not_busy ht hs hh hw ⟨v, by rw [hk]; exact List.mem_of_mem_head? hv, .inr ?_⟩
      rw [h.epoch_left ht, ← h.time.1]
      exact of_decide_eq_true hstart
    rw [settledTally_running_gone hrun hgone, hnext]
    exact h.tally k
  · next hx =>
    have hx : ∀ w ∈ ws, w.track ≠ senseTrack k := fun w hw e => hx (List.any_eq_true.mpr ⟨w, hw, decide_eq_true e⟩)
    have hsame : t.trackList (senseTrack k) = x.trackList (senseTrack k) := trackList_without hwin (fun v hv => by
      rw [trackList_map h.windows (s.handingAll_keeps ws)] at hv
      obtain ⟨u, hu, rfl⟩ := List.mem_map.mp hv
      rw [(s.handingAll_keeps ws).among]
      exact not_among_of_track hs.slots (fun w hw => hh.mem hw) hx hu)
    rw [settledTally_same hsame, h.tally_other k hx]

end

/-- Changes of a bundle record that goes with a member of its bundle leave no trace (04 R66, R69). -/
theorem PortUnit.retired_setBundle (u : PortUnit) {ws : List Window} {b : BundleNo} (h : ∃ w ∈ ws, w.bundleNo = some b)
    (r : Option BundleRecord) (rs : List EventRecord) (epoch : Epoch) :
    ({ u with bundles := u.bundles.set b r } : PortUnit).retired ws rs epoch = u.retired ws rs epoch := by
  rw [← PortUnit.retired_freed u h, ← PortUnit.retired_freed _ h]
  simp only [Vector.set_set]

/-- A port with a waiting window is not CLOSING (03 R54, 10 R152). -/
theorem Lawful.endsWith_of_pending {s : State} (h : Lawful s) {w : Window} (hw : w ∈ s.windows) (hp : w.state = .pending) (n : Nat) :
    (s.port w.owner).endsWith n = false := by
  obtain ⟨_, _, hLaws⟩ := (lawful_iff s).mp h
  unfold PortUnit.endsWith
  rw [decide_eq_false (fun hc => ?_), Bool.false_and]
  have := hLaws.closing w hw hc
  rw [hp] at this
  cases this

theorem State.wholeOf_of_bundleNo {s : State} {w : Window} {b : BundleNo} (h : w.bundleNo = some b) :
    s.wholeOf w = s.members w.owner b := by
  obtain ⟨r, hr, rfl⟩ := Option.map_eq_some_iff.mp h
  unfold State.wholeOf
  rw [hr]

/-- The leader's ending record: its count at its limit, both edge epochs those of the start (08 R128, R134). -/
theorem endRecords_handed {w : Window} {e : EdgeKind} {l : BitVec 24} {epoch : Epoch} {n : Nat} (hs : w.shape = .tally e (some l))
    (hr : w.run = w.shape.firstRun) (hl : 1 ≤ l.toNat) (hle : l.toNat ≤ n) (reason : Reason) :
    (w.handed epoch n).limitReached = true ∧ endRecords epoch reason (w.handed epoch n) =
      [.tally w.handle w.tag epoch reason l.toNat false (some epoch) (some epoch)] := by
  have hrun := Window.handed_limit (epoch := epoch) hs hr hl hle
  have halike := w.handed_alike epoch n
  have hshape := halike.shape.trans hs
  have htag : (w.handed epoch n).tag = w.tag := by rw [halike]
  refine ⟨?_, ?_⟩
  · unfold Window.limitReached
    rw [hshape, hrun]
    exact decide_eq_true rfl
  · rw [endRecords_tally hshape hrun, halike.handle, htag]

theorem Shape.limit_of_not_hasLimit {sh : Shape} (h : sh.hasLimit = false) (n : Nat) : sh.limit ≠ some n := by
  unfold Shape.limit
  split
  · cases h
  · exact fun x => by cases x

/-- A leader with carried edges at its limit ends its bundle in the change that starts it (08 R134, 04 R69). -/
theorem startAll_retires {s : State} {w : Window} {others : List Window} {e : EdgeKind} {l : BitVec 24} (hLaws : Laws s [])
    (hheads : s.Heads (w :: others)) (hwhole : s.wholeOf w = w :: others)
    (hheld : (w :: others).length ≤ (s.port w.owner).held) (hshape : w.shape = .tally e (some l)) (hle : l.toNat ≤ s.carriedFor w) :
    ∃ (x : State) (us rs : List EventRecord), us.Perm ((w :: others).flatMap (startRecords s.epoch)) ∧
      rs.Perm (.tally w.handle w.tag s.epoch .limit l.toNat false (some s.epoch) (some s.epoch) ::
        others.flatMap (fun v => endRecords s.epoch .bundleLimit (v.handed s.epoch (s.carriedFor v)))) ∧
      HandedOver s x (w :: others) w.owner us ∧ Retired x (s.startAll (w :: others)) (w :: others) w.owner rs := by
  have hw := hheads.mem List.mem_cons_self
  have hmem := (wholeOf_spec hLaws.lists.slots hw).1
  rw [hwhole] at hmem
  have hother : ∀ v ∈ others, v.slot ≠ w.slot := fun v hv hslot => by
    have hn := hheads.tracks
    rw [List.map_cons, List.nodup_cons] at hn
    exact hn.1 (hLaws.lists.slots.inj (hheads.mem (List.mem_cons_of_mem _ hv)) hw hslot ▸ List.mem_map_of_mem hv)
  obtain ⟨x, us, hus, hx, hstart⟩ := hheads.handedOver hLaws (fun v hv => (hmem v hv).2)
  have hsound := hLaws.sound w hw
  have hrange : 1 ≤ l.toNat := by
    have := hsound.range
    rw [hshape] at this
    exact of_decide_eq_true this
  obtain ⟨hlim, hend⟩ := endRecords_handed (epoch := s.epoch) hshape (hsound.first (hheads.pending w List.mem_cons_self)) hrange hle
    .limit
  have hfw := s.handingAll_mem (List.mem_cons_self (a := w) (l := others))
  obtain ⟨rs, hrs, hret⟩ := checkLimit_retires (s.handingAll_keeps (w :: others)) hx.windows hLaws.lists.slots hx.laws.lists
    (fun v hv => (hx.laws.sound v hv).run.imp id And.right) hw (by rw [hfw]; exact hlim)
    (by rw [hwhole, hx.port, (PortUnit.quiet_appendAll us _).held]; exact hheld)
  rw [hwhole] at hret
  have hdone : others.foldl (fun t v => t.checkLimit v.slot) (x.checkLimit w.slot) = x.checkLimit w.slot :=
    checkLimits_below others (fun v hv u hu hslot => by
      rw [hx.stay hret, List.mem_filter, (Window.among_eq_true u _).mpr ⟨v, List.mem_cons_of_mem _ hv, hslot.symm⟩] at hu
      cases hu.2)
  refine ⟨x, us, rs, hus, hrs.trans (List.Perm.of_eq ?_), hx, ?_⟩
  · rw [hwhole, hfw, hx.time.1, hend, List.filter_cons, if_neg (by simp), List.filter_eq_self.mpr (fun v hv => by simpa using hother v hv)]
    refine congrArg (List.cons _) (List.flatMap_congr (fun v hv => ?_))
    rw [s.handingAll_mem (List.mem_cons_of_mem _ hv)]
  · rw [hstart, List.foldl_cons, hdone]
    exact hret

/-- Settles O50: the members are handed over and told, the leader's limit ends them all, and the other checks find no window. -/
theorem carriedEdgesEndABundle : Obligations.CarriedEdgesEndABundle := by
  intro p b r w others n s hl hr hp hs hh hm hn hle
  obtain ⟨_, _, _, htracks, hall, _, htail⟩ := (r.lawful_iff b _).mp (hl.bundle hr)
  obtain ⟨_, _, hLaws⟩ := (lawful_iff s).mp hl
  have hheld := hl.members_le_held p b
  have hexec := exec_bundleJointStart hr hp hs hh
  have hmem := fun v => (s.mem_members p b v).mp
  rw [hm] at htracks hall hh htail hmem hheld hexec
  obtain ⟨hw, rfl, hwb⟩ := hmem w List.mem_cons_self
  have hpend : ∀ v ∈ w :: others, v.state = .pending := fun v hv => (hall v hv).2.2.trans hp
  obtain ⟨e, l, hshape, rfl⟩ : ∃ e l, w.shape = .tally e (some l) ∧ n = l.toNat := by
    unfold Shape.limit at hn
    split at hn
    · next e l hshape => exact ⟨e, l, hshape, (Option.some.inj hn).symm⟩
    · cases hn
  have hstarted : ∀ v ∈ others, v.handed s.epoch (s.carriedFor v) = v.started s.epoch (s.carriedFor v) := fun v hv =>
    (hl.handed_below (hmem v (List.mem_cons_of_mem _ hv)).1 (hpend v (List.mem_cons_of_mem _ hv))
      (fun m hlim => absurd hlim (Shape.limit_of_not_hasLimit (htail v hv) m))).1
  have hfreed : ∃ v ∈ w :: others, v.bundleNo = some b := ⟨w, List.mem_cons_self, hwb⟩
  -- the part once its bundle record is ACTIVE
  generalize hy : s.setBundle w.owner b (some { r with state := .active }) = y at hexec
  have hport : ∀ q, y.port q = if w.owner = q then { s.port w.owner with
      bundles := (s.port w.owner).bundles.set b (some { r with state := .active }) } else s.port q := fun q => by
    rw [← hy]
    exact State.port_setPort s w.owner q _
  have hLy : Laws y [] := hy ▸ hLaws.setBundle w.owner b _
  have hheads : y.Heads (w :: others) := by
    subst hy
    exact ⟨hh, hpend, fun v hv => (hall v hv).1 ▸ hs, htracks⟩
  obtain ⟨x, starts, ends, hstarts, hends, hx, hret⟩ := startAll_retires hLy hheads
    (by subst hy; exact (State.wholeOf_of_bundleNo hwb).trans hm) (by rw [hport, if_pos rfl]; exact hheld) hshape
    (by subst hy; exact hle)
  have hlane := hx.lane_left hret hLy.lists hheads
  have htally := hx.tally_left hret hLy.lists hheads
  have hstay := hx.stay hret
  obtain ⟨⟨_, huse, hrefs, _, _, hother, htime⟩, hown, hclaims⟩ := hret
  have hendsWith : (x.port w.owner).endsWith (w :: others).length = false := by
    rw [← hl.endsWith_of_pending hw (hpend w List.mem_cons_self) (w :: others).length, hx.port, hport, if_pos rfl,
      PortUnit.appendAll_eq]
    rfl
  subst hy
  refine ⟨_, starts, ends, hexec, hstarts, hends.trans (List.Perm.of_eq ?_), hstay, hlane, htally, huse.trans hx.useCounts,
    vector_ext_fin (fun i => ?_), fun k q => ?_, hx.time.trans htime, fun q hq => ?_, ?_⟩
  · exact congrArg (List.cons _) (List.flatMap_congr (fun v hv => by rw [← hstarted v hv]; rfl))
  · refine (hclaims i).trans ?_
    rw [hendsWith, if_neg (fun x => Bool.false_ne_true x.1), State.claimant_congr hx.claimants]
    rfl
  · rw [hrefs k q, State.refs_congr hx.trigRefs]
    rfl
  · rw [hother q hq, hx.port_other q hq, hport, if_neg (fun e => hq e.symm)]
  · rw [hown, hx.port, hx.time.1, PortUnit.appendAll_retired, hport, if_pos rfl, PortUnit.retired_setBundle _ hfreed]
    rfl

end Sys2Proof.Machine
end

section
/-! PROOFS. SENSE_EDGE at the limit: the counting window retires with its whole bundle, and the edge reaches the lanes, in either order (08 R125 to R129, 04 R69, 07 R110). -/

namespace Sys2Proof.Machine

/-! ### The count that reaches the limit (08 R125, R126) -/

section
variable {f : Window → Window}

/-- What Tally Units settle into does not depend on what happened in place to ACTIVE windows before (08 R134). -/
theorem settledTally_map (hf : KeepsBookings f) {s x t : State} (hx : x.windows = s.windows.map f)
    (hst : ∀ v, (f v).state = v.state) (hid : ∀ v ∈ s.windows, v.state = .pending → f v = v) (he : x.epoch = s.epoch) {k : Sense}
    (htally : x.tally k = s.tally k) : settledTally x t k = settledTally s t k := by
  unfold settledTally
  rw [running_map hx hf hst, htally, he]
  cases hr : s.running (senseTrack k) with
  | some w => rw [Option.map_some]; dsimp only; rw [(hf w).slot]
  | none =>
    have hhead : x.head (senseTrack k) = s.head (senseTrack k) := by
      rw [head_map hx hf]
      cases hh : s.head (senseTrack k) with
      | none => rfl
      | some v => exact congrArg some (hid v (State.head_mem hh).1 (State.running_eq_none.mp hr v hh))
    rw [Option.map_none, hhead]

/-- Windows that retired after ACTIVE ones of them changed in place retired. -/
theorem Retired.of_changed (hf : KeepsBookings f) {s x t : State} {ws : List Window} {p : Port} {rs : List EventRecord}
    (hx : x = { s with windows := s.windows.map f }) (hst : ∀ v, (f v).state = v.state)
    (hid : ∀ v ∈ s.windows, v.state = .pending → f v = v) (hstay : ∀ v : Window, v.among ws = false → f v = v)
    (h : Retired x t ws p rs) : Retired s t ws p rs := by
  subst hx
  obtain ⟨⟨hwin, huse, hrefs, hlanes, htallies, hother, htime⟩, hport, hclaims⟩ := h
  exact ⟨⟨hwin.trans (hf.stay_map hstay s.windows), huse, hrefs, hlanes,
    fun k => (htallies k).trans (settledTally_map (x := { s with windows := s.windows.map f }) hf rfl hst hid rfl rfl), hother, htime⟩, hport, hclaims⟩

end

/-- The count that reaches a limit: neither saturated nor without its first edge (08 R125). -/
theorem endRecords_counted {w : Window} {epoch : Epoch} {n : Nat} {r : TallyRun} (h : w.runLawful epoch = true)
    (hlimit : w.shape.limit = some n) (hrun : w.run = .tally r) (hn : r.count + 1 = n) (te : Epoch) (reason : Reason) :
    endRecords te reason (w.counted te) =
      [.tally w.handle w.tag te reason n false (some (r.firstEdge.getD te)) (some te)] := by
  unfold Shape.limit at hlimit
  split at hlimit
  · next e l hs =>
    cases hlimit
    unfold Window.runLawful at h
    rw [hs, hrun] at h
    obtain ⟨_, hsat, _⟩ := (r.lawful_iff _ _ _).mp h
    have hmax : r.count < tallyMax := by have := l.isLt; unfold tallyMax; omega
    have hcounted : r.counted te =
        { count := l.toNat, saturated := false, firstEdge := some (r.firstEdge.getD te), lastEdge := some te } := by
      have hunsat : r.saturated = false := by
        by_contra hc
        have := hsat (by simpa using hc)
        omega
      unfold TallyRun.counted
      rw [if_pos hmax, hn, hunsat, decide_eq_false (by omega)]
      rfl
    have hw : w.counted te = { w with run := .tally (r.counted te) } := by
      unfold Window.counted
      rw [hrun]
    rw [hw, endRecords_tally (w := { w with run := .tally (r.counted te) }) hs rfl, hcounted]
    rfl
  · cases hlimit

/-- What one edge counted into a window makes of a record. -/
def State.countingIn (s : State) (w v : Window) : Window := if v.slot = w.slot then v.countEdges s.epoch 1 else v

theorem State.countingIn_keeps (s : State) (w : Window) :
    KeepsBookings (s.countingIn w) ∧ ∀ v, (s.countingIn w v).stop = v.stop ∧ (s.countingIn w v).state = v.state :=
  ite_keeps (fun v => v.countEdges_alike s.epoch 1) (fun v => v.countEdges_times s.epoch 1) (fun v => v.slot = w.slot)

theorem State.countingIn_self {s : State} {w : Window} {epoch : Epoch} (h : w.runLawful epoch = true) :
    s.countingIn w w = w.counted s.epoch := (if_pos rfl).trans (Window.countEdges_one h s.epoch)

theorem State.countingIn_other {s : State} {w v : Window} (h : v.slot ≠ w.slot) : s.countingIn w v = v := if_neg h

/-- A count that brings the counting window to its limit retires it with its whole bundle (08 R126, R127, 04 R69). -/
theorem countEdge_retires {s : State} (h : Laws s []) {k : Sense} {level : Level} {w : Window} {n : Nat} {r : TallyRun}
    (hw : w ∈ s.windows) (ht : w.takesCount k level = true) (hlimit : w.shape.limit = some n) (hrun : w.run = .tally r)
    (hn : r.count + 1 = n) (hheld : (s.wholeOf w).length ≤ (s.port w.owner).held) :
    ∃ rs : List EventRecord, rs.Perm (.tally w.handle w.tag s.epoch .limit n false (some (r.firstEdge.getD s.epoch)) (some s.epoch) ::
        ((s.wholeOf w).filter (fun v => decide (v.slot ≠ w.slot))).flatMap (endRecords s.epoch .bundleLimit)) ∧
      Retired s (s.countEdge k level) (s.wholeOf w) w.owner rs := by
  have hslots := h.lists.slots
  have hlaw := h.runLawful hw
  obtain ⟨hkeeps, htimes⟩ := s.countingIn_keeps w
  have hself := s.countingIn_self hlaw
  have hlim : (s.countingIn w w).limitReached = true := by
    rw [hself]
    exact (Window.limitReached_counted hlaw s.epoch).mpr ⟨n, r, hlimit, hrun, hn⟩
  have hsound : ∀ v ∈ s.windows.map (s.countingIn w), v.runLawful s.epoch = true ∨ v.limitReached = true := fun v hv => by
    obtain ⟨u, hu, rfl⟩ := List.mem_map.mp hv
    by_cases e : u.slot = w.slot
    · rw [hslots.inj hu hw e]
      exact .inr hlim
    · rw [State.countingIn_other e]
      exact .inl (h.runLawful hu)
  have hlists : Lists (s.updateWindow w.slot (fun v => v.countEdges s.epoch 1)) :=
    h.lists.updateRun (fun v => v.countEdges_alike _ _) (fun v => v.countEdges_times _ _) (fun v => v.countEdges_driveAt _ _ _)
  obtain ⟨rs, hrs, hret⟩ := checkLimit_retires hkeeps rfl hslots hlists hsound hw hlim hheld
  have hrs := hself ▸ hrs
  rw [State.updateWindow_epoch, endRecords_counted hlaw hlimit hrun hn] at hrs
  refine ⟨rs, hrs.trans (List.Perm.of_eq (congrArg (List.cons _) (List.flatMap_congr (fun v hv => ?_)))), ?_⟩
  · rw [State.countingIn_other (of_decide_eq_true (List.mem_filter.mp hv).2)]
  · rw [h.lists.countEdge_counting hw ht]
    refine hret.of_changed hkeeps rfl (fun v => (htimes v).2) (fun v hv hp => State.countingIn_other (fun e => ?_))
      (fun v hv => State.countingIn_other (fun e => ?_))
    · have ha := (Window.takesCount_iff.mp ht).2.1
      rw [← hslots.inj hv hw e, hp] at ha
      cases ha
    · rw [(Window.among_eq_true v _).mpr ⟨w, (wholeOf_spec hslots hw).2.2, e.symm⟩] at hv
      cases hv

/-! ### The report to the lanes, before or after (08 R129, 07 R110) -/

theorem pulsed_keeps (k : Sense) (level : Level) (te : Epoch) : KeepsBookings (fun w => w.pulsed k level te) :=
  fun w => w.pulsed_alike k level te

theorem windows_reportEdge_of_far {s : State} (h : FarFromTop s) (k : Sense) (level : Level) :
    (s.reportEdge k level).windows = s.windows.map (fun w => w.pulsed k level s.epoch) := by rw [State.reportEdge_of_far h]

theorem lane_reportEdge_of_far {s : State} (h : FarFromTop s) (k : Sense) (level : Level) (l : Lane) :
    (s.reportEdge k level).lane l = s.pulsedLane k level l := by
  rw [State.reportEdge_of_far h]
  exact vector_ofFn_get _ l

theorem Window.pulsed_of_sense {w : Window} {j : Sense} (hk : kindFits w.track w.shape = true) (hw : w.track = senseTrack j)
    (k : Sense) (level : Level) (te : Epoch) : w.pulsed k level te = w := by
  obtain ⟨e, lim, hs⟩ := isTally_of_sense (hw ▸ hk)
  exact Window.pulsed_of_not_starts (Window.startsPulse_of_tally hs k level) te

/-- What Tally Units settle into is read from their own tracks. -/
theorem settledTally_of_trackList {s t u : State} {k : Sense} (h : u.trackList (senseTrack k) = t.trackList (senseTrack k)) :
    settledTally s u k = settledTally s t k := by
  unfold settledTally
  rw [State.head_congr h, h]

theorem settledTally_seeing (s t : State) (k j : Sense) (level : Level) : settledTally (s.seeing k level) t j =
    if j = k then { settledTally s t j with seen := level } else settledTally s t j := by
  have hrun : (s.seeing k level).running (senseTrack j) = s.running (senseTrack j) := rfl
  have hhead : (s.seeing k level).head (senseTrack j) = s.head (senseTrack j) := rfl
  unfold settledTally
  rw [hrun, hhead, State.tally_seeing]
  by_cases e : j = k
  · subst e
    rw [if_pos rfl, if_pos rfl]
    split <;> split <;> rfl
  · rw [if_neg e, if_neg (fun x => e x.symm)]
    rfl

/-- What an edge at the limit of `w` leaves, `reported` where the lanes saw it before the count (08 R125 to R129): the obligation's words, for the state `t` and the ending records `rs`. -/
abbrev EndsAtLimit (k : Sense) (level : Level) (w : Window) (n : Nat) (r : TallyRun) (s t : State) (rs : List EventRecord)
    (reported : Bool) : Prop :=
  rs.Perm (.tally w.handle w.tag s.epoch .limit n false (some (r.firstEdge.getD s.epoch)) (some s.epoch) ::
    ((s.wholeOf w).filter (fun v => decide (v.slot ≠ w.slot))).flatMap (fun v =>
      endRecords s.epoch .bundleLimit (if reported then v.pulsed k level s.epoch else v))) ∧
  t.windows = (s.windows.filter (fun v => !v.among (s.wholeOf w))).map (fun v => v.pulsed k level s.epoch) ∧
  t.useCounts = s.useCounts ∧
  (∀ j q, t.refs j q = s.refs j q -
    (if q = w.owner then ((s.wholeOf w).filter (fun v => decide (v.shape.source = some j))).length else 0)) ∧
  (∀ l, t.lane l = t.settledLane
    (if reported || !((s.wholeOf w).any (fun v => decide (v.track = laneTrack l))) then s.pulsedLane k level l else s.lane l) l) ∧
  (∀ j, t.tally j = if j = k then { settledTally s t j with seen := level } else settledTally s t j) ∧
  (∀ q, q ≠ w.owner → t.port q = s.port q) ∧ SameTimebase s t ∧
  t.port w.owner = (s.port w.owner).retired (s.wholeOf w) rs s.epoch ∧
  ClaimsReleased s t w.owner ((s.port w.owner).endsWith (s.wholeOf w).length)

/-- The window `w` counts an edge that brings it to its limit. -/
structure AtLimit (k : Sense) (level : Level) (w : Window) (n : Nat) (r : TallyRun) (s : State) : Prop where
  mem : w ∈ s.windows
  takes : w.takesCount k level = true
  limit : w.shape.limit = some n
  run : w.run = .tally r
  next : r.count + 1 = n

section
variable {k : Sense} {level : Level} {w : Window} {n : Nat} {r : TallyRun} {s : State}

/-- The lanes saw the edge before the count. -/
theorem AtLimit.reported_first (hc : AtLimit k level w n r s) (hl : Lawful s) (hfar : FarFromTop s) :
    ∃ rs, EndsAtLimit k level w n r s (((s.seeing k level).reportEdge k level).countEdge k level) rs true := by
  obtain ⟨_, _, hLaws⟩ := (lawful_iff s).mp hl
  obtain ⟨hw, ht, hlimit, hrun, hn⟩ := hc
  have hkeeps := pulsed_keeps k level s.epoch
  have hpw : w.pulsed k level s.epoch = w :=
    Window.pulsed_of_sense (hLaws.sound w hw).kind (Window.takesCount_iff.mp ht).1 k level s.epoch
  have hLy := (hLaws.quiet (quiet_seeing s k level)).reportEdge hfar k level
  have hyw : ((s.seeing k level).reportEdge k level).windows = s.windows.map (fun w => w.pulsed k level s.epoch) :=
    windows_reportEdge_of_far (s := s.seeing k level) hfar k level
  have hlane : ∀ l, ((s.seeing k level).reportEdge k level).lane l = s.pulsedLane k level l :=
    fun l => lane_reportEdge_of_far (s := s.seeing k level) hfar k level l
  -- the part once the lanes saw the edge
  generalize hy : (s.seeing k level).reportEdge k level = y at hLy hyw hlane
  have hwhole : y.wholeOf w = (s.wholeOf w).map (fun w => w.pulsed k level s.epoch) := by
    rw [← hkeeps.wholeOf_map hLaws.lists.slots hyw hw, hpw]
  obtain ⟨rs, hrs, hret⟩ := countEdge_retires hLy (by rw [hyw, ← hpw]; exact List.mem_map_of_mem hw) ht hlimit hrun hn (by
    rw [hwhole, List.length_map, ← hy]
    exact hl.wholeOf_le_held hw)
  rw [hwhole] at hrs hret
  obtain ⟨⟨hwin, huse, hrefs, hlanes, htallies, hother, htime⟩, hport, hclaims⟩ := hret.of_map hkeeps
  have htally : ∀ t j, settledTally y t j = settledTally (s.seeing k level) t j := fun t j =>
    settledTally_map (s := s.seeing k level) hkeeps hyw (fun v => (v.pulsed_times k level s.epoch).2)
      (fun v _ hv => Window.pulsed_of_pending hv k level s.epoch) (hy ▸ rfl) (hy ▸ rfl)
  subst hy
  refine ⟨rs, hrs.trans (List.Perm.of_eq (congrArg (List.cons _) ?_)), ?_, huse, hrefs, fun l => ?_, fun j => ?_, hother, htime,
    hport, hclaims⟩
  · rw [filter_map_of_keeps (fun v => by rw [(hkeeps v).slot]), List.flatMap_map]
    rfl
  · rw [hwin, hyw, filter_map_of_keeps (fun v => by rw [hkeeps.among])]
  · rw [hlanes l, hlane l]
    rfl
  · rw [htallies j, htally, settledTally_seeing]

/-- What lanes settle into does not depend on what happened in place before. -/
theorem settledLane_map {f : Window → Window} (hf : KeepsBookings f) {s t : State} (ht : t.windows = s.windows.map f)
    (hst : ∀ v, (f v).state = v.state) (he : t.epoch = s.epoch) (base : LaneDriver) (l : Lane) :
    t.settledLane base l = s.settledLane base l := by
  unfold State.settledLane
  rw [head_map ht hf, he]
  cases s.head (laneTrack l) with
  | none => rfl
  | some v =>
    rw [Option.map_some]
    dsimp only
    rw [hst, (hf v).start]

/-- A track whose ACTIVE window left runs none. -/
theorem Left.running_eq_none {s t : State} {ws : List Window} {p : Port} (h : Left s t ws p) (hs : Lists s) {x : Track} {v : Window}
    (hv : v ∈ ws) (hr : s.running x = some v) : t.running x = none := by
  obtain ⟨hwin, huse, _, hlanes, htallies, _, htime⟩ := h
  have hthin : Thinned s t := ⟨⟨_, hwin⟩, htime.1, huse, hlanes, htallies⟩
  refine hthin.running_eq_none_of_gone hs hr (fun hm => ?_)
  obtain ⟨u, hu, e⟩ := List.mem_map.mp hm
  have hu := ((t.mem_trackList _ u).mp hu).1
  rw [hwin, List.mem_filter, (Window.among_eq_true u ws).mpr ⟨v, hv, e.symm⟩] at hu
  cases hu.2

/-- A lane none of whose windows left shows the report as if none had. -/
theorem Left.pulsedLane_same {s t : State} {ws : List Window} {p : Port} (h : Left s t ws p) (hs : Lists s)
    (hin : ∀ v ∈ ws, v ∈ s.windows) {l : Lane} (hl : ∀ v ∈ ws, v.track ≠ laneTrack l) (k : Sense) (level : Level) :
    t.pulsedLane k level l = s.pulsedLane k level l := by
  obtain ⟨hwin, _, _, hlanes, _, _, htime⟩ := h
  have hhead := State.head_congr (trackList_without hwin (fun v hv => not_among_of_track hs.slots hin hl hv))
  have hrun : t.running (laneTrack l) = s.running (laneTrack l) := by
    unfold State.running
    rw [hhead]
  unfold State.pulsedLane
  rw [hrun, hlanes l, settledLane_congr hhead htime.1, hs.settledLane_self]

/-- The windows that act together are in one state (04 R58). -/
theorem Lawful.wholeOf_state {s : State} (h : Lawful s) {w v : Window} (hw : w ∈ s.windows) (hv : v ∈ s.wholeOf w) :
    v.state = w.state := by
  obtain ⟨_, hR, _⟩ := (lawful_iff s).mp h
  obtain ⟨_, _, hB⟩ := (recordLaws_iff s).mp hR
  unfold State.wholeOf at hv
  cases hb : w.bundle with
  | none =>
    rw [hb] at hv
    rw [List.mem_singleton.mp hv]
  | some ref =>
    rw [hb] at hv
    have hwm : w ∈ s.members w.owner ref.number := (s.mem_members _ _ w).mpr ⟨hw, rfl, by unfold Window.bundleNo; rw [hb]; rfl⟩
    have hok := (hB w.owner).bundles ref.number
    rw [← State.members_eq] at hok
    obtain ⟨rec, _, hrec⟩ := hok.of_mem hwm
    obtain ⟨_, _, _, _, hall, _⟩ := (rec.lawful_iff _ _).mp hrec
    exact (hall v hv).2.2.trans (hall w hwm).2.2.symm

/-- The lanes after an edge that was counted first: those of the windows that retired did not see it. -/
theorem Left.lane_reported {s t : State} {ws : List Window} {p : Port} (h : Left s t ws p) (hs : Lists s) (hfar : FarFromTop t)
    (hin : ∀ v ∈ ws, v ∈ s.windows ∧ v.state = .active) {k : Sense} {level : Level} (ht : Lists (t.reportEdge k level)) (l : Lane) :
    (t.reportEdge k level).lane l = (t.reportEdge k level).settledLane
      (if !(ws.any (fun v => decide (v.track = laneTrack l))) then s.pulsedLane k level l else s.lane l) l := by
  have hlane := lane_reportEdge_of_far hfar k level l
  by_cases hx : ∃ v ∈ ws, v.track = laneTrack l
  · obtain ⟨v, hv, hvl⟩ := hx
    have hidle := h.running_eq_none hs hv (hs.track.active_running ((s.mem_trackList _ v).mpr ⟨(hin v hv).1, hvl⟩) (hin v hv).2)
    have hstill : t.pulsedLane k level l = t.lane l := by
      unfold State.pulsedLane
      rw [hidle]
      rfl
    obtain ⟨_, _, _, hlanes, _⟩ := h
    rw [List.any_eq_true.mpr ⟨v, hv, decide_eq_true hvl⟩, hlane, hstill, hlanes l]
    exact (settledLane_map (pulsed_keeps k level t.epoch) (windows_reportEdge_of_far hfar k level)
      (fun v => (v.pulsed_times k level t.epoch).2) rfl _ l).symm
  · have hx : ∀ v ∈ ws, v.track ≠ laneTrack l := fun v hv e => hx ⟨v, hv, e⟩
    have hany : ws.any (fun v => decide (v.track = laneTrack l)) = false := List.any_eq_false.mpr (fun v hv => by simpa using hx v hv)
    rw [hany, ← h.pulsedLane_same hs (fun v hv => (hin v hv).1) hx, ← hlane]
    exact (ht.settledLane_self l).symm

/-- The lanes saw the edge after the count. -/
theorem AtLimit.counted_first (hc : AtLimit k level w n r s) (hl : Lawful s) (hfar : FarFromTop s) :
    ∃ rs, EndsAtLimit k level w n r s (((s.seeing k level).countEdge k level).reportEdge k level) rs false := by
  obtain ⟨_, _, hLaws⟩ := (lawful_iff s).mp hl
  obtain ⟨hw, ht, hlimit, hrun, hn⟩ := hc
  have hLu := hLaws.quiet (quiet_seeing s k level)
  obtain ⟨rs, hrs, hret⟩ := countEdge_retires hLu hw ht hlimit hrun hn (hl.wholeOf_le_held hw)
  have hLt := hLu.countEdge k level
  generalize (s.seeing k level).countEdge k level = t at hret hLt
  obtain ⟨hleft, hport, hclaims⟩ := hret
  obtain ⟨hwin, huse, hrefs, _, htallies, hother, htime⟩ := id hleft
  have hep : t.epoch = s.epoch := htime.1
  have hfart : FarFromTop t := by unfold FarFromTop; rw [hep]; exact hfar
  have hlane := hleft.lane_reported hLu.lists hfart (fun v hv => ⟨((wholeOf_spec hLaws.lists.slots hw).1 v hv).1,
    (hl.wholeOf_state hw hv).trans (Window.takesCount_iff.mp ht).2.1⟩) (hLt.reportEdge hfart k level).lists
  have hsense : ∀ j, (t.reportEdge k level).trackList (senseTrack j) = t.trackList (senseTrack j) := fun j => by
    rw [trackList_map (windows_reportEdge_of_far hfart k level) (pulsed_keeps k level t.epoch)]
    refine (List.map_congr_left (fun v hv => ?_)).trans (List.map_id _)
    obtain ⟨hv, hvj⟩ := (t.mem_trackList _ v).mp hv
    exact Window.pulsed_of_sense (hLt.sound v hv).kind hvj k level t.epoch
  refine ⟨rs, hrs, ?_, huse, hrefs, hlane, fun j => ?_, hother, htime, hport, hclaims⟩
  · rw [windows_reportEdge_of_far hfart, hwin, hep]
    rfl
  · exact (htallies j).trans ((settledTally_of_trackList (hsense j)).symm.trans (settledTally_seeing s _ k j level))

end

/-- Settles O54: whichever comes first of the count and the report, the window or its bundle retires and the edge reaches the lanes. -/
theorem theLimitEndsTheWindowOrItsBundle : Obligations.TheLimitEndsTheWindowOrItsBundle := by
  intro k level w n r s hl hfar hr hne hw ht hlimit hrun hn ws
  have hc : AtLimit k level w n r s := ⟨hw, ht, hlimit, hrun, hn⟩
  obtain ⟨m, _, rfl, e | e⟩ := takeEdge_phases s k level
  · obtain ⟨rs, h⟩ := hc.reported_first hl hfar
    exact ⟨_, rs, true, (exec_senseEdge hr hne).trans (congrArg _ e), h⟩
  · obtain ⟨rs, h⟩ := hc.counted_first hl hfar
    exact ⟨_, rs, false, (exec_senseEdge hr hne).trans (congrArg _ e), h⟩

end Sys2Proof.Machine
end

section
/-! PROOFS. The timebase: what passes on an empty queue, the tick, the freeze state, the reports of READ_EPOCH and QUERY_POOL, and which commands move the epoch (09 R138 to R144, 10 R155, R161, 07 R106). -/

namespace Sys2Proof.Machine

/-! ### FREEZE (09 R140, R141) -/

/-- Settles O43: the freeze state decides, and only a change of it is told. -/
theorem freezeChangesFanOut : Obligations.FreezeChangesFanOut := by
  intro s hr told
  have taken : ¬ s.resetHeld = true := by simp [hr]
  have assert : exec .freezeAssert s = if s.freeze = .running then
      .next ({ s with freeze := .held, progress := 0 }.fanOut (.freezeOn s.epoch)) else .next s := if_neg taken
  have release : exec .freezeRelease s = if s.freeze = .held then
      .next ({ s with freeze := .running, progress := 0 }.fanOut (.freezeOff s.epoch)) else .next s := if_neg taken
  refine ⟨fun h => assert.trans (if_pos h), fun h => release.trans (if_pos h), fun h => assert.trans (if_neg ?_),
    fun h => release.trans (if_neg ?_)⟩
  · simp [h]
  · simp [h]

/-! ### TICK (09 R139) -/

theorem State.tickCompletes_iff {s : State} : s.tickCompletes = true ↔
    s.resetHeld = false ∧ s.freeze = .running ∧ s.divider.periods ≤ s.progress + 1 := by
  simp [State.tickCompletes, and_assoc]

/-- A tick that completes where nothing is due is taken with its REFCLK period (09 R139, 10 R155). -/
theorem exec_tick_taken {s : State} (hc : s.tickCompletes = true) (hd : s.dueCommands = []) :
    exec .tick s = .next s.takeTick.countTimers := by
  refine if_pos ?_
  rw [hc, hd]
  rfl

/-- TICK has no effect where the REFCLK period completes no tick (09 R139). -/
theorem exec_tick_idle {s : State} (hc : s.tickCompletes = false) : exec .tick s = .next s := by
  refine if_neg ?_
  rw [hc]
  exact Bool.false_ne_true

/-- Below the top of its range the epoch rises by one (09 R139). -/
theorem epochPlus_one {draw reader : Nat} {e : Epoch} (h : e.toNat + 1 < 2 ^ 64) : epochPlus draw reader e 1 = e + 1 := if_pos h

/-- A tick below the top of the epoch, which draws no free value (09 R139). -/
theorem takeTick_below {s : State} (h : s.epoch.toNat + 1 < 2 ^ 64) :
    s.takeTick = State.refreshLanes { s with epoch := s.epoch + 1, progress := 0 } := by
  unfold State.takeTick
  rw [epochPlus_one h]
  exact if_pos h

/-- Settles O44: the tick is taken, and each lane is computed anew at the next epoch value. -/
theorem tickRaisesTheEpoch : Obligations.TickRaisesTheEpoch := by
  intro s hr hf hp hd htop
  rw [exec_tick_taken (State.tickCompletes_iff.mpr ⟨hr, hf, hp⟩) hd, takeTick_below htop]
  rfl

/-! ### The empty queue -/

/-- What the part does by itself is one of the due events, with a draw or without (log entry 6). -/
theorem autonomous_of_due {s : State} (h : s.dueCommands ≠ []) :
    ∃ c ∈ s.dueCommands, ∃ n, autonomous s = some (c, { s with freeCount := n }) := by
  unfold autonomous
  cases hd : s.dueCommands with
  | nil => exact absurd hd h
  | cons c cs =>
    cases cs with
    | nil => exact ⟨c, List.mem_singleton_self c, s.freeCount, rfl⟩
    | cons c' cs =>
      have hlt : Config.dueChoice s.freeCount % (cs.length + 2) < (c :: c' :: cs).length :=
        Nat.mod_lt _ (Nat.succ_pos _)
      refine ⟨_, ?_, s.freeCount + 1, rfl⟩
      rw [List.getD_eq_getElem _ _ hlt]
      exact List.getElem_mem hlt

theorem step_of_due {s : State} {c : Instr} {t : State} (hq : s.pending = []) (h : autonomous s = some (c, t)) :
    step s = exec c t := by
  unfold step
  rw [hq]
  dsimp only
  rw [h]

theorem step_of_idle {s : State} (hq : s.pending = []) (hd : s.dueCommands = []) : step s = .next (refclkPeriod s) := by
  have hnone : autonomous s = none := by
    unfold autonomous
    rw [hd]
  unfold step
  rw [hq]
  dsimp only
  rw [hnone]

section
variable {s : State}

/-- While RESETn is asserted nothing is counted (09 R138). -/
theorem refclkPeriod_reset (hr : s.resetHeld = true) : refclkPeriod s = s := if_pos hr

/-- The REFCLK period that completes a tick takes it (09 R139). -/
theorem refclkPeriod_tick (hc : s.tickCompletes = true) : refclkPeriod s = s.takeTick.countTimers := by
  obtain ⟨hr, _, _⟩ := State.tickCompletes_iff.mp hc
  unfold refclkPeriod
  rw [if_neg (by simp [hr]), if_pos hc]

/-- A REFCLK period short of a tick counts towards it while RUNNING (09 R139). -/
theorem refclkPeriod_running (hr : s.resetHeld = false) (hf : s.freeze = .running) (hp : s.progress + 1 < s.divider.periods) :
    refclkPeriod s = State.countTimers { s with progress := s.progress + 1 } := by
  have hc : ¬ s.tickCompletes = true := fun h => by
    obtain ⟨_, _, hle⟩ := State.tickCompletes_iff.mp h
    omega
  unfold refclkPeriod
  rw [if_neg (by simp [hr]), if_neg hc, if_pos hf]

/-- In a hold no tick completes (09 R143). -/
theorem State.tickCompletes_held (hf : s.freeze = .held) : s.tickCompletes = false := by
  simp [State.tickCompletes, hf]

/-- A REFCLK period in a hold counts the silence timers alone (09 R143, 10 R155). -/
theorem refclkPeriod_held (hr : s.resetHeld = false) (hf : s.freeze = .held) : refclkPeriod s = s.countTimers := by
  unfold refclkPeriod
  rw [if_neg (by simp [hr]), if_neg (by simp [State.tickCompletes_held hf]), if_neg (by simp [hf])]

end

/-- Settles O3: a due event is chosen, or the four cases of a REFCLK period remain. -/
theorem emptyQueueTakesAnEventOrAPeriod : Obligations.EmptyQueueTakesAnEventOrAPeriod := by
  intro s hq
  refine ⟨fun h => ?_, fun hd hr => ?_, fun hd hr => ⟨fun hf hp => ?_, fun hf hp => ?_, fun hf => ?_⟩⟩
  · obtain ⟨c, hc, n, ha⟩ := autonomous_of_due h
    exact ⟨c, hc, n, step_of_due hq ha⟩
  · rw [step_of_idle hq hd, refclkPeriod_reset hr]
  · have hc := State.tickCompletes_iff.mpr ⟨hr, hf, hp⟩
    rw [step_of_idle hq hd, refclkPeriod_tick hc, exec_tick_taken hc hd]
  · rw [step_of_idle hq hd, refclkPeriod_running hr hf hp]
    rfl
  · rw [step_of_idle hq hd, refclkPeriod_held hr hf]
    rfl

/-! ### READ_EPOCH and QUERY_POOL (09 R144, 10 R161) -/

/-- The free records, with the four held counts written out (10 R161). -/
theorem State.freeRecords_eq (s : State) :
    s.freeRecords = 192 - ((s.port 0).held + (s.port 1).held + (s.port 2).held + (s.port 3).held) := by
  unfold State.freeRecords
  rw [show List.finRange 4 = [0, 1, 2, 3] from rfl]
  simp [poolSize, Nat.add_assoc]

/-- The free bundle records of a port are those its numbers find empty (10 R161). -/
theorem PortUnit.freeBundles_eq (u : PortUnit) :
    u.freeBundles = ((List.finRange 8).filter (fun b => decide (u.bundles[b] = none))).length := by
  have hlist : u.bundles.toList = (List.finRange 8).map (fun b => u.bundles[b]) := by
    refine List.ext_getElem (by simp) (fun i _ _ => ?_)
    simp
  unfold PortUnit.freeBundles
  rw [hlist, List.filter_map, List.length_map]
  refine congrArg List.length (List.filter_congr (fun b _ => ?_))
  rw [Function.comp_apply]
  cases u.bundles[b] <;> rfl

/-- The report of the pool reads nothing of the link (10 R161). -/
theorem queryPool_taken (s : State) (p : Port) (seq : Seq) (r : Request) :
    queryPool p (s.taken p seq r) = (s.taken p seq r, okAnswer (.pool
      (192 - ((s.port 0).held + (s.port 1).held + (s.port 2).held + (s.port 3).held))
      ((s.port 0).quota + (s.port 1).quota + (s.port 2).quota + (s.port 3).quota)
      (s.port p).session (s.port p).held (s.port p).quota
      ((List.finRange 8).filter (fun b => decide (s.bundle p b = none))).length)) := by
  have hbooked : ∀ q, ((s.taken p seq r).port q).quota = (s.port q).quota ∧ ((s.taken p seq r).port q).held = (s.port q).held := by
    intro q
    obtain ⟨_, hquota, hheld, _⟩ := s.taken_session p seq r q
    exact ⟨hquota, hheld⟩
  obtain ⟨hsession, _, _, hbundles⟩ := s.taken_session p seq r p
  unfold queryPool
  simp only [State.freeRecords_eq, State.quotasInUse_eq, PortUnit.freeBundles_eq, hbooked, hsession, hbundles]
  rfl

/-- Settles O22: both pass their gate in every session state, and their reports read nothing that the taking of the frame touches. -/
theorem epochAndPoolAreReported : Obligations.EpochAndPoolAreReported := by
  intro p seq s
  refine ⟨fun hf => (exec_rowOf p seq .readEpoch s).trans (congrArg _ (requestCommand_unchanged hf rfl rfl)),
    fun hf => (exec_rowOf p seq .queryPool s).trans (congrArg _ (requestCommand_unchanged hf rfl ?_))⟩
  exact queryPool_taken s p seq .queryPool

/-! ### Requests leave the timebase (09 R139) -/

theorem timebase_setPort (s : State) (p : Port) (u : PortUnit) : SameTimebase s (s.setPort p u) := ⟨rfl, rfl, rfl, rfl, rfl, rfl⟩

theorem timebase_reloadTimer (s : State) (p : Port) : SameTimebase s (s.reloadTimer p) := by
  rw [State.reloadTimer_eq]
  exact timebase_setPort s p _

theorem timebase_openSession (p : Port) (q : Byte) (l : BitVec 16) (s : State) : SameTimebase s (openSession p q l s).1 := by
  unfold openSession
  dsimp only
  split
  · exact .refl s
  · split
    · exact .refl s
    · exact timebase_setPort s p _

theorem timebase_claim (p : Port) (b : Byte) (s : State) : SameTimebase s (claim p b s).1 := by
  unfold claim
  split
  · exact .refl s
  · split
    · split <;> exact .refl s
    · split
      · exact .refl s
      · exact ⟨rfl, rfl, rfl, rfl, rfl, rfl⟩

theorem timebase_release (p : Port) (b : Byte) (s : State) : SameTimebase s (release p b s).1 := by
  unfold release
  split
  · exact .refl s
  · split
    · exact ⟨rfl, rfl, rfl, rfl, rfl, rfl⟩
    · exact .refl s

theorem timebase_setLane (p : Port) (l pol i : Byte) (s : State) : SameTimebase s (setLane p l pol i s).1 := by
  unfold setLane
  split
  · split
    · exact .refl s
    · split
      · exact .refl s
      · exact ⟨rfl, rfl, rfl, rfl, rfl, rfl⟩
  · exact .refl s

theorem timebase_reserve (p : Port) (b : Booking) (d : Descriptor) (s : State) : SameTimebase s (reserve p b d s).1 := by
  unfold reserve
  split
  · exact .refl s
  · dsimp only
    split
    · exact (timebase_displace s p _ _ b.start b.stop).trans (timebase_insertWindow _ _)
    · exact .refl s

theorem timebase_reserveBundle (p : Port) (b : Booking) (ds : List Descriptor) (s : State) :
    SameTimebase s (reserveBundle p b ds s).1 := by
  cases hj : judgeBundle p b ds s with
  | error a =>
    rw [reserveBundle_refused hj]
    exact .refl s
  | ok r =>
    rw [reserveBundle_ok hj]
    exact (timebase_displace s p _ _ b.start b.stop).trans (SameTimebase.foldl timebase_insertWindow _ _)

theorem timebase_cancel (p : Port) (h : Handle) (s : State) : SameTimebase s (cancel p h s).1 := by
  unfold cancel
  split
  · exact .refl s
  · dsimp only
    split
    · exact timebase_leaveAll s _
    · exact timebase_retire s _ _

theorem timebase_amendEnd (p : Port) (h : Handle) (e : Epoch) (s : State) : SameTimebase s (amendEnd p h e s).1 := by
  unfold amendEnd
  split
  · exact .refl s
  · split
    · exact .refl s
    · split
      · exact .refl s
      · exact (timebase_setStops s _ e).trans (timebase_refreshLanesOf _ _)

theorem timebase_flush (p : Port) (b : Byte) (s : State) : SameTimebase s (flush p b s).1 := by
  unfold flush
  split
  · exact .refl s
  · exact timebase_leaveAll s _

/-- CLOSE GRACEFUL where its gate lets it through: refused in CLOSING, carried out in OPEN (10 R150, R151). -/
theorem timebase_closeGraceful_gated {p : Port} {s : State} (hg : sessionGate .close (s.port p).session = none) :
    SameTimebase s (closeGraceful p s).1 := by
  cases hs : (s.port p).session with
  | opened => exact timebase_closeGraceful hs
  | closing =>
    unfold closeGraceful
    rw [if_pos hs]
    exact .refl s
  | down => rw [hs] at hg; cases hg
  | lapsed => rw [hs] at hg; cases hg

theorem timebase_answerRequest {p : Port} {r : Request} {s : State}
    (hg : sessionGate (requestName r) (s.port p).session = none) : SameTimebase s (answerRequest p r s).1 := by
  cases r with
  | openSession q l => exact timebase_openSession p q l s
  | closeGraceful => exact timebase_closeGraceful_gated hg
  | closeAbrupt => exact (timebase_teardown s p).trans (timebase_sessionDown _ p)
  | readEpoch => exact .refl s
  | queryPool => exact .refl s
  | claim t => exact timebase_claim p t s
  | release t => exact timebase_release p t s
  | queryTrack t =>
    show SameTimebase s (queryTrack t s).1
    rw [queryTrack_state]
    exact .refl s
  | setLane l pol i => exact timebase_setLane p l pol i s
  | reserve b d => exact timebase_reserve p b d s
  | reserveBundle b ds => exact timebase_reserveBundle p b ds s
  | cancel h => exact timebase_cancel p h s
  | amendEnd h e => exact timebase_amendEnd p h e s
  | flush t => exact timebase_flush p t s
  | queryWindow h =>
    show SameTimebase s (queryWindow p h s).1
    rw [queryWindow_state]
    exact .refl s

theorem timebase_answerFrame (p : Port) {f : Frame} (s : State) (hf : f.Fits) : SameTimebase s (answerFrame p f s).1 := by
  unfold answerFrame
  split
  · exact .refl s
  · next n hn =>
    split
    · exact .refl s
    · next hg =>
      split
      · exact .refl s
      · next r hr => exact timebase_answerRequest (by rw [hf n r hn hr]; exact hg)

theorem timebase_retryFrame (p : Port) (s : State) : SameTimebase s (retryFrame p s) := by
  unfold retryFrame
  split
  · split
    · exact timebase_setPort s p _
    · exact .refl s
  · exact timebase_setPort s p _

theorem timebase_judgeFrame (p : Port) {f : Frame} (s : State) (hf : f.Fits) : SameTimebase s (judgeFrame p f s) := by
  have hreload := timebase_reloadTimer s p
  unfold judgeFrame
  dsimp only
  split
  · exact hreload.trans (timebase_retryFrame p _)
  · split
    · exact hreload.trans (timebase_setPort _ p _)
    · exact (hreload.trans (timebase_setPort _ p _)).trans ((timebase_answerFrame p _ hf).trans (timebase_setPort _ p _))

theorem timebase_requestCommand (p : Port) (seq : Seq) (r : Request) (s : State) : SameTimebase s (requestCommand p seq r s) := by
  unfold requestCommand
  split
  · exact timebase_judgeFrame p s (Frame.fits_ofRequest seq r)
  · exact .refl s

theorem timebase_judgeInbound (p : Port) (bs : List Byte) (s : State) : SameTimebase s (judgeInbound p bs s) := by
  unfold judgeInbound
  split
  · exact .refl s
  · exact timebase_reloadTimer s p
  · exact .refl s
  · unfold badFrame
    split
    · exact timebase_setPort s p _
    · exact timebase_setPort s p _
  · next f hf => exact timebase_judgeFrame p s (fits_readInbound hf)

theorem timebase_endTransaction (p : Port) (received : List Level) (s : State) : SameTimebase s (endTransaction p received s) := by
  unfold endTransaction
  split
  · exact .refl s
  · exact (timebase_setPort s p _).trans (timebase_judgeInbound p _ _)

/-! ### The commands that move the epoch (09 R138, R139) -/

/-- TICK and the two edges of RESETn. -/
def movesEpoch : Instr → Bool
  | .tick | .resetnAssert | .resetnRelease .. => true
  | _ => false

/-- A command on `s` answers a state of the same epoch value. -/
def EpochKept (s : State) (o : StepOutcome) : Prop := ∃ t, o = .next t ∧ t.epoch = s.epoch

theorem EpochKept.idle (s : State) : EpochKept s (.next s) := ⟨s, rfl, rfl⟩

theorem EpochKept.of_timebase {s t : State} (h : SameTimebase s t) : EpochKept s (.next t) := ⟨t, rfl, h.1⟩

theorem EpochKept.of_quiet {s t : State} (h : Quiet s t) : EpochKept s (.next t) := ⟨t, rfl, h.epoch⟩

theorem epochKept_transactionBegin (p : Port) (s : State) : EpochKept s (execTransactionBegin p s) := by
  unfold execTransactionBegin
  split
  · exact .of_timebase (timebase_setPort s p _)
  · exact .idle s

theorem epochKept_transactionEnd (p : Port) (received : List Level) (s : State) :
    EpochKept s (execTransactionEnd p received s) := by
  unfold execTransactionEnd
  split
  · exact .of_timebase (timebase_endTransaction p received s)
  · exact .idle s

theorem epochKept_portResetAssert (p : Port) (s : State) : EpochKept s (execPortResetAssert p s) := by
  unfold execPortResetAssert
  split
  · exact .idle s
  · refine .of_timebase (.trans ?_ (timebase_setPort _ p _))
    split
    · exact timebase_lapse s p .portReset
    · exact .refl s

theorem epochKept_freezeAssert (s : State) : EpochKept s (execFreezeAssert s) := by
  unfold execFreezeAssert
  split
  · exact .idle s
  · split
    · exact .of_quiet (quiet_freeze s _ _)
    · exact .idle s

theorem epochKept_freezeRelease (s : State) : EpochKept s (execFreezeRelease s) := by
  unfold execFreezeRelease
  split
  · exact .idle s
  · split
    · exact .of_quiet (quiet_freeze s _ _)
    · exact .idle s

theorem epochKept_senseEdge (k : Sense) (level : Level) (s : State) : EpochKept s (execSenseEdge k level s) := by
  unfold execSenseEdge
  split
  · exact .idle s
  · exact .of_timebase (timebase_takeEdge s k level)

theorem epochKept_silenceTimerExpiry (p : Port) (s : State) : EpochKept s (execSilenceTimerExpiry p s) := by
  unfold execSilenceTimerExpiry
  split
  · exact .of_timebase (timebase_lapse s p .silence)
  · exact .idle s

theorem epochKept_windowStart (x : Track) (s : State) : EpochKept s (execWindowStart x s) := by
  unfold execWindowStart
  split
  · exact .of_timebase (timebase_startAll s _)
  · exact .idle s

theorem epochKept_windowEndDue (x : Track) (s : State) : EpochKept s (execWindowEndDue x s) := by
  unfold execWindowEndDue
  split
  · exact .of_timebase (timebase_retire s _ _)
  · exact .idle s

theorem epochKept_bundleJointStart (p : Port) (b : BundleNo) (s : State) : EpochKept s (execBundleJointStart p b s) := by
  unfold execBundleJointStart
  split
  · exact .of_timebase (timebase_startAll (s.setBundle p b _) _)
  · exact .idle s

theorem epochKept_bundleJointEnd (p : Port) (b : BundleNo) (s : State) : EpochKept s (execBundleJointEnd p b s) := by
  unfold execBundleJointEnd
  split
  · exact .of_timebase (timebase_retire (s.setBundle p b none) _ _)
  · exact .idle s

theorem epochKept_pulseEnd (l : Lane) (s : State) : EpochKept s (execPulseEnd l s) := by
  unfold execPulseEnd
  split
  · exact ⟨_, rfl, rfl⟩
  · exact .idle s

/-- Every command but TICK and the edges of RESETn keeps the epoch (09 R139). -/
theorem exec_keeps_epoch {c : Instr} (s : State) (hc : movesEpoch c = false) : EpochKept s (exec c s) := by
  have row : ∀ p seq r, EpochKept s (exec (rowOf p seq r) s) := fun p seq r => by
    rw [exec_rowOf]
    exact .of_timebase (timebase_requestCommand p seq r s)
  cases c with
  | tick | resetnAssert | resetnRelease => cases hc
  | openSession p seq q l => exact row p seq (.openSession q l)
  | closeGraceful p seq => exact row p seq .closeGraceful
  | closeAbrupt p seq => exact row p seq .closeAbrupt
  | readEpoch p seq => exact row p seq .readEpoch
  | queryPool p seq => exact row p seq .queryPool
  | claim p seq t => exact row p seq (.claim t)
  | release p seq t => exact row p seq (.release t)
  | queryTrack p seq t => exact row p seq (.queryTrack t)
  | setLane p seq l pol i => exact row p seq (.setLane l pol i)
  | reserve p seq b d => exact row p seq (.reserve b d)
  | reserveBundle p seq b ds => exact row p seq (.reserveBundle b ds)
  | cancel p seq h => exact row p seq (.cancel h)
  | amendEnd p seq h e => exact row p seq (.amendEnd h e)
  | flush p seq t => exact row p seq (.flush t)
  | queryWindow p seq h => exact row p seq (.queryWindow h)
  | transactionBegin p => exact epochKept_transactionBegin p s
  | transactionEnd p received => exact epochKept_transactionEnd p received s
  | portResetAssert p => exact epochKept_portResetAssert p s
  | portResetRelease p => exact .of_timebase (timebase_setPort s p _)
  | freezeAssert => exact epochKept_freezeAssert s
  | freezeRelease => exact epochKept_freezeRelease s
  | senseEdge k level => exact epochKept_senseEdge k level s
  | silenceTimerExpiry p => exact epochKept_silenceTimerExpiry p s
  | windowStart x => exact epochKept_windowStart x s
  | windowEndDue x => exact epochKept_windowEndDue x s
  | bundleJointStart p b => exact epochKept_bundleJointStart p b s
  | bundleJointEnd p b => exact epochKept_bundleJointEnd p b s
  | pulseEnd l => exact epochKept_pulseEnd l s

/-- A TICK that moved the epoch was taken while RUNNING, and below the top raised it by one (09 R139). -/
theorem epoch_moved_by_tick {s t : State} (h : exec .tick s = .next t) (hne : t.epoch ≠ s.epoch) :
    s.freeze = .running ∧ (s.epoch.toNat + 1 < 2 ^ 64 → t.epoch = s.epoch + 1) := by
  by_cases taken : (s.tickCompletes && s.dueCommands.isEmpty) = true
  · obtain ⟨hc, hd⟩ := Bool.and_eq_true_iff.mp taken
    obtain ⟨_, hf, _⟩ := State.tickCompletes_iff.mp hc
    rw [exec_tick_taken hc (List.isEmpty_iff.mp hd)] at h
    cases h
    obtain ⟨_, _, _, _, _, _, hepoch, _⟩ := takeTick_rest s
    exact ⟨hf, fun htop => hepoch.trans (epochPlus_one htop)⟩
  · have idle : exec .tick s = .next s := if_neg taken
    rw [idle] at h
    cases h
    exact absurd rfl hne

/-- A release of RESETn that moved the epoch was taken, and left it at 0 (09 R138). -/
theorem epoch_moved_by_release {tdiv1 tdiv0 freeze : Level} {sense : Byte} {s t : State}
    (h : exec (.resetnRelease tdiv1 tdiv0 freeze sense) s = .next t) (hne : t.epoch ≠ s.epoch) : t.epoch = 0 := by
  have h : execResetnRelease tdiv1 tdiv0 freeze sense s = .next t := h
  unfold execResetnRelease at h
  split at h
  · cases h
    rfl
  · cases h
    exact absurd rfl hne

/-- Settles O45: in a hold no tick completes; every command but TICK and the edges of RESETn keeps the epoch. -/
theorem epochChangesByTickAndReset : Obligations.EpochChangesByTickAndReset := by
  refine ⟨fun s hf => exec_tick_idle (State.tickCompletes_held hf), fun c s t h hne => ?_⟩
  by_cases hc : movesEpoch c = false
  · obtain ⟨t', ht, he⟩ := exec_keeps_epoch s hc
    rw [ht] at h
    cases h
    exact absurd he hne
  cases c with
  | tick => exact .inl ⟨rfl, epoch_moved_by_tick h hne⟩
  | resetnAssert =>
    cases h
    exact .inr ⟨.inl rfl, rfl⟩
  | resetnRelease tdiv1 tdiv0 freeze sense =>
    exact .inr ⟨.inr ⟨tdiv1, tdiv0, freeze, sense, rfl⟩, epoch_moved_by_release h hne⟩
  | _ => exact absurd rfl hc

end Sys2Proof.Machine
end

section
/-! PROOFS. Sessions: what each session state refuses, how OPEN is judged, and how CLOSE, a silence and a port reset end a session (10 R146 to R159, 12 R178). -/

namespace Sys2Proof.Machine

/-! ### The session gate (10 R146) -/

theorem PortUnit.inSession_iff (u : PortUnit) : u.inSession = true ↔ u.session = .opened ∨ u.session = .closing := by
  simp [PortUnit.inSession]

/-- A port without a session answers OPEN and the three reports only (10 R146). -/
theorem sessionGate_noSession {n : RequestName} {st : SessionState} (h : st = .down ∨ st = .lapsed)
    (hn : n ∉ [RequestName.openSession, .readEpoch, .queryPool, .queryTrack]) : sessionGate n st = some .noSession := by
  cases n with
  | openSession | readEpoch | queryPool | queryTrack => simp at hn
  | _ => rcases h with rfl | rfl <;> rfl

/-- A CLOSING session lets CLOSE and the reports through (10 R146, R150). -/
theorem sessionGate_closing {n : RequestName} (hn : n ∉ [RequestName.close, .readEpoch, .queryPool, .queryTrack, .queryWindow]) :
    sessionGate n .closing = some .closing := by
  cases n with
  | close | readEpoch | queryPool | queryTrack | queryWindow => simp at hn
  | _ => rfl

/-- What a refusal at the gate carries (12 R183). -/
theorem gateRefusal_eq (n : RequestName) (st : Status) : gateRefusal n st =
    { status := st, results := if n = .reserveBundle then .member none none else .none } := by
  unfold gateRefusal
  split <;> rfl

/-- CLOSE GRACEFUL passes its gate in CLOSING, and is refused there by its owning block (10 R150). -/
theorem closeGraceful_closing {p : Port} {s : State} (h : (s.port p).session = .closing) :
    closeGraceful p s = (s, plainAnswer .closing) := if_pos h

/-- A request refused at the gate: the reply is the whole of its effect (10 R146). -/
theorem exec_gate_refused {p : Port} {seq : Seq} {r : Request} {s : State} {st : Status} (hf : Fresh p seq r s)
    (hg : sessionGate (requestName r) (s.port p).session = some st) :
    exec (rowOf p seq r) s = .next (s.answered p seq r
      { status := st, results := if requestName r = .reserveBundle then .member none none else .none }) := by
  rw [exec_rowOf, requestCommand_gate hf hg, gateRefusal_eq]

/-- Settles O16: each refusal is the session gate's, but that of CLOSE GRACEFUL in CLOSING, which is its owning block's. -/
theorem sessionStateRefusesRequests : Obligations.SessionStateRefusesRequests := by
  intro p seq r s hf refuse
  refine ⟨fun hs hr => exec_gate_refused hf (sessionGate_noSession hs hr), fun hs hr => ?_, fun hs hr => ?_⟩
  · rcases hr with hr | rfl
    · exact exec_gate_refused hf (hs ▸ sessionGate_closing hr)
    · have hclosing := (s.taken_session p seq .closeGraceful p).1.trans hs
      exact (exec_rowOf p seq .closeGraceful s).trans
        (congrArg _ (requestCommand_unchanged hf (by rw [hs]; rfl) (closeGraceful_closing hclosing)))
  · exact exec_gate_refused hf (by rw [hr, hs]; rfl)

/-! ### OPEN (10 R147, R148) -/

/-- A request that is taken and passes its gate: the reply fills the slot of what the owning block does (12 R175). -/
theorem exec_passed {p : Port} {seq : Seq} {r : Request} {s t : State} {a : Answer} (hf : Fresh p seq r s)
    (hg : sessionGate (requestName r) (s.port p).session = none) (ha : answerRequest p r (s.taken p seq r) = (t, a)) :
    exec (rowOf p seq r) s = .next (t.fillSlot p seq (requestName r).code a) := by
  rw [exec_rowOf, requestCommand_fresh hf, answerFrame_passed, ha]
  rw [(s.taken_session p seq r p).1]
  exact hg

theorem quotasInUse_taken (s : State) (p : Port) (seq : Seq) (r : Request) : (s.taken p seq r).quotasInUse = s.quotasInUse :=
  State.quotasInUse_congr (fun q => (s.taken_session p seq r q).2.1)

/-- Quota and silence limit of an OPEN lie in their ranges (10 R147 step 4). -/
abbrev OpenInRange (quota : Byte) (silence : BitVec 16) : Prop :=
  1 ≤ quota.toNat ∧ quota.toNat ≤ 192 ∧ 1 ≤ silence.toNat ∧ silence.toNat ≤ 4095

/-- A Port Unit whose session was granted (10 R148). -/
def PortUnit.granted (u : PortUnit) (quota silence : Nat) : PortUnit :=
  { u with
    session := .opened
    quota := quota
    held := 0
    silenceLimit := some silence
    silenceTimer := some (silence * silenceUnit)
    bundles := Vector.replicate 8 none }

section
variable {p : Port} {quota : Byte} {silence : BitVec 16} {s : State}

theorem openSession_badRange (h : ¬ OpenInRange quota silence) : openSession p quota silence s = (s, plainAnswer .badRange) :=
  if_pos (by omega)

theorem openSession_noQuota (h : OpenInRange quota silence) (hq : 192 < s.quotasInUse + quota.toNat) :
    openSession p quota silence s = (s, { status := .noQuota, results := .quotaAvailable (192 - s.quotasInUse) }) :=
  (if_neg (by omega)).trans (if_pos hq)

theorem openSession_granted (h : OpenInRange quota silence) (hq : s.quotasInUse + quota.toNat ≤ 192) :
    openSession p quota silence s = (s.setPort p ((s.port p).granted quota.toNat silence.toNat),
      okAnswer (.opened s.epoch s.freeze quota.toNat silence.toNat)) :=
  (if_neg (by omega)).trans (if_neg (not_lt.mpr hq))

end

/-- A session granted on the state in which the request is judged is one granted on the state that it met, with the reply. -/
theorem granted_fillSlot (s : State) (p : Port) (seq : Seq) (r : Request) (quota silence : Nat) (a : Answer) :
    ((s.taken p seq r).setPort p (((s.taken p seq r).port p).granted quota silence)).fillSlot p seq (requestName r).code a =
      (s.setPort p ((s.port p).granted quota silence)).answered p seq r a := by
  unfold State.fillSlot State.answered
  rw [State.port_setPort, if_pos rfl, State.port_setPort, if_pos rfl, State.port_taken, if_pos rfl, State.setPort_setPort]
  unfold State.taken
  rw [State.setPort_setPort]
  exact (State.setPort_setPort _ _ _ _).symm

/-- Settles O17: the ranges, then the quotas in use decide, which the taking of the frame leaves as they are. -/
theorem openIsJudged : Obligations.OpenIsJudged := by
  intro p seq quota silence s hf hs range
  have hgate : sessionGate .openSession (s.port p).session = none := by
    rcases hs with hs | hs <;> rw [hs] <;> rfl
  have hrow := exec_rowOf p seq (.openSession quota silence) s
  have hsum := quotasInUse_taken s p seq (.openSession quota silence)
  refine ⟨fun hr => hrow.trans (congrArg _ (requestCommand_unchanged hf hgate (openSession_badRange hr))), fun hr hq => ?_,
    fun hr hq => ?_⟩
  · have hrefused := openSession_noQuota (p := p) hr (hsum ▸ hq)
    rw [hsum] at hrefused
    exact hrow.trans (congrArg _ (requestCommand_unchanged hf hgate hrefused))
  · exact (exec_passed hf hgate (openSession_granted hr (hsum ▸ hq))).trans (congrArg _ (granted_fillSlot s p seq _ _ _ _))

/-! ### What a session leaves -/

/-- The reply to a CLOSE stands in the unit that the session ended in: the timer is stopped, whatever the frame reloaded (10 R154, R155). -/
theorem closedDown_answered (u : PortUnit) (seq : Seq) (r : Request) (a : Answer) (timer : Option Nat) (epoch : Epoch) :
    { ({ u with silenceTimer := timer, identity := some (seq, crc (frameBody seq r)) } : PortUnit).closedDown epoch with
      replySlot := some { seq, code := (requestName r).code, answer := a, retry := false, overrun := false } } =
      (u.closedDown epoch).answered seq r a := by
  unfold PortUnit.answered PortUnit.closedDown PortUnit.append
  dsimp only
  split <;> rfl

theorem State.port_sessionDown (s : State) (p : Port) : (s.sessionDown p).port p = (s.port p).closedDown s.epoch := by
  rw [State.sessionDown_eq]
  exact (vector_get_set _ _ _ _).trans (if_pos rfl)

/-- The end of a session in DOWN releases its claims (10 R152, R154). -/
theorem claimsReleased_sessionDown {s t : State} (p : Port) (h : t.claimants = s.claimants) :
    ClaimsReleased s (t.sessionDown p) p true := fun x => by
  rw [State.sessionDown_eq]
  show (t.releaseClaims p).claimant x = _
  rw [State.claimant_releaseClaims, State.claimant_congr h]
  simp

/-- A teardown takes every window of the port from the lists, and with them all its trigger references (10 R153). -/
theorem teardown_left {s : State} (h : Lists s) (hr : ReferenceLaw s) (p : Port) : Left s (s.teardown p) (s.owned p) p := by
  have hth := teardown_thinned h p
  refine ⟨?_, hth.useCounts, fun k q => ?_, hth.lanes, hth.tallies, fun q hq => ?_, timebase_teardown s p⟩
  · rw [windows_teardown]
    refine List.filter_congr (fun v hv => ?_)
    rw [State.owned, among_filter h.slots _ hv, decide_not]
  · rw [refs_teardown, hr k q]
    by_cases e : q = p
    · subst e
      rw [if_pos rfl, if_pos rfl]
      exact (Nat.sub_self _).symm
    · rw [if_neg (fun x => e x.symm), if_neg e, Nat.sub_zero]
  · rw [port_teardown, if_neg (fun x => hq x.symm)]

theorem Lawful.references {s : State} (h : Lawful s) : ReferenceLaw s := by
  obtain ⟨_, _, ⟨_, _, hr, _, _⟩, _⟩ := h
  exact hr

/-! ### CLOSE (10 R150 to R154) -/

/-- A CLOSE passes its gate with a session OPEN or CLOSING (10 R150). -/
theorem sessionGate_close {u : PortUnit} (h : u.inSession = true) : sessionGate .close u.session = none := by
  rcases u.inSession_iff.mp h with hs | hs <;> rw [hs] <;> rfl

/-- The windows of a port are its PENDING and its ACTIVE ones. -/
theorem length_owned (s : State) (p : Port) : (s.owned p).length =
    ((s.owned p).filter (fun w => decide (w.state = .pending))).length +
      ((s.owned p).filter (fun w => decide (w.state = .active))).length := by
  have hactive : ∀ w : Window, decide (w.state = .active) = !decide (w.state = .pending) := fun w => by
    cases w.state <;> rfl
  have hle := List.length_filter_le (fun w : Window => decide (w.state = .pending)) (s.owned p)
  simp only [hactive]
  rw [length_filter_not]
  omega

/-- What the PENDING windows of a port leave behind (10 R151 step 1). -/
theorem pendingOf_left {s : State} (h : Lists s) (p : Port) :
    Left s (s.leaveAll (s.pendingOf p)) (s.pendingOf p) p ∧ (s.leaveAll (s.pendingOf p)).claimants = s.claimants ∧
      (s.leaveAll (s.pendingOf p)).port p = { s.port p with
        held := (s.port p).held - (s.pendingOf p).length, bundles := (s.port p).bundlesWithout (s.pendingOf p) } :=
  leaveAll_left h ⟨s.ports, s.freeCount, rfl⟩ (fun w hw => (s.mem_owned p w).mp (List.mem_filter.mp hw).1)
    (h.slots.sublist ((List.filter_sublist.trans List.filter_sublist).map _)) (fun _ _ => rfl)

/-- CLOSE GRACEFUL in OPEN with no window left once the PENDING ones are gone (10 R151 step 2). -/
theorem closeGraceful_ends {s : State} {p : Port} (hs : (s.port p).session = .opened)
    (h : ((s.leaveAll (s.pendingOf p)).port p).held = 0) : closeGraceful p s =
      ((s.leaveAll (s.pendingOf p)).sessionDown p, okAnswer (.closedGraceful .down (s.pendingOf p).length 0)) :=
  (if_neg (by rw [hs]; simp)).trans (if_pos h)

/-- CLOSE GRACEFUL in OPEN with windows left, all of them ACTIVE (10 R151 step 3). -/
theorem closeGraceful_goes_on {s : State} {p : Port} (hs : (s.port p).session = .opened)
    (h : ((s.leaveAll (s.pendingOf p)).port p).held ≠ 0) : closeGraceful p s =
      ((s.leaveAll (s.pendingOf p)).setPort p { (s.leaveAll (s.pendingOf p)).port p with session := .closing },
        okAnswer (.closedGraceful .closing (s.pendingOf p).length ((s.leaveAll (s.pendingOf p)).port p).held)) :=
  (if_neg (by rw [hs]; simp)).trans (if_neg h)

/-- The silence timer of a session that becomes CLOSING is reloaded as before (10 R155). -/
theorem PortUnit.reloadedTimer_closing {u : PortUnit} (h : u.session = .opened) :
    ({ u with session := .closing } : PortUnit).reloadedTimer = u.reloadedTimer := by
  unfold PortUnit.reloadedTimer PortUnit.inSession
  rw [h]
  rfl

/-- Settles O18: the PENDING windows leave a state that differs in the port's link; the held count that stays is that of the ACTIVE ones, and decides. -/
theorem closeGracefulRemovesPendingWindows : Obligations.CloseGracefulRemovesPendingWindows := by
  intro p seq s hl hf hs removed running u
  obtain ⟨_, _, ⟨_, ⟨_, hheld⟩, _⟩, _⟩ := id hl
  have hcount : (s.port p).held - ((s.taken p seq .closeGraceful).pendingOf p).length = running.length := by
    show (s.port p).held - removed.length = running.length
    have hlen : (s.owned p).length = removed.length + running.length := length_owned s p
    have := (hheld p).1
    omega
  have hgate : sessionGate .close (s.port p).session = none := by rw [hs]; rfl
  have hopen := (s.taken_session p seq .closeGraceful p).1.trans hs
  obtain ⟨hleft, hclaims, hport⟩ := pendingOf_left (lists_taken hl.lists p seq .closeGraceful) p
  rw [State.port_taken, if_pos rfl, hcount] at hport
  have hstays := congrArg PortUnit.held hport
  by_cases hrun : running = []
  · have hnone := hstays.trans (List.length_eq_zero_iff.mpr hrun)
    refine ⟨_, exec_passed (r := .closeGraceful) hf hgate (closeGraceful_ends hopen hnone),
      (Left.of_taken hleft).sessionDown.fillSlot _ _ _, ?_, fun _ => ?_, fun hne => absurd hrun hne⟩
    · rw [hrun]
      exact claimsReleased_sessionDown p hclaims
    · rw [State.port_fillSlot, State.port_sessionDown, hport, (timebase_leaveAll _ _).1]
      exact closedDown_answered u seq .closeGraceful _ _ _
  · have hsome := fun e => hrun (List.eq_nil_of_length_eq_zero (hstays.symm.trans e))
    refine ⟨_, exec_passed (r := .closeGraceful) hf hgate (closeGraceful_goes_on hopen hsome),
      ((Left.of_taken hleft).setPort _).fillSlot _ _ _, fun x => ?_, fun e => absurd e hrun, fun _ => ?_⟩
    · rw [if_neg (fun e => hrun (List.isEmpty_iff.mp e.1))]
      exact State.claimant_congr hclaims x
    · rw [State.port_fillSlot, State.port_setPort, if_pos rfl, hport]
      unfold PortUnit.answered
      rw [PortUnit.reloadedTimer_closing (show u.session = .opened from hs)]
      rfl

/-- Settles O19: the teardown takes all windows of the port, and the session ends in DOWN. -/
theorem closeAbruptTearsDownTheSession : Obligations.CloseAbruptTearsDownTheSession := by
  intro p seq s hl hf hs
  have hleft := teardown_left (lists_taken hl.lists p seq .closeAbrupt) hl.references p
  refine ⟨_, exec_passed (r := .closeAbrupt) hf (sessionGate_close hs) rfl, (Left.of_taken hleft).sessionDown.fillSlot _ _ _,
    claimsReleased_sessionDown p (claimants_teardown _ p), ?_⟩
  rw [State.port_fillSlot, State.port_sessionDown, port_teardown, if_pos rfl, State.port_taken, if_pos rfl,
    (timebase_teardown _ p).1]
  exact closedDown_answered { s.port p with held := 0, bundles := Vector.replicate 8 none } seq .closeAbrupt _ _ _

/-! ### Lapses (10 R156 to R158) -/

theorem State.port_lapse (s : State) (p : Port) (cause : LapseCause) :
    (s.lapse p cause).port p = (s.port p).lapsed s.epoch cause := by
  obtain ⟨_, _, e⟩ := s.lapse_spec p cause
  rw [e]
  exact (vector_get_set _ _ _ _).trans (if_pos rfl)

/-- A lapse takes every window of the port from the lists (10 R158). -/
theorem lapse_left {s : State} (h : Lists s) (hr : ReferenceLaw s) (p : Port) (cause : LapseCause) :
    Left s (s.lapse p cause) (s.owned p) p :=
  Left.setPort (t := (s.teardown p).releaseClaims p) (teardown_left h hr p) _

/-- A lapse releases the claims of the port (10 R158). -/
theorem claimsReleased_lapse (s : State) (p : Port) (cause : LapseCause) : ClaimsReleased s (s.lapse p cause) p true := fun x => by
  show ((s.teardown p).releaseClaims p).claimant x = _
  rw [State.claimant_releaseClaims, State.claimant_congr (claimants_teardown s p)]
  simp

/-- A silence timer runs only while the session is OPEN or CLOSING (10 R146). -/
theorem PortUnit.inSession_of_timer {u : PortUnit} {n : Nat} (h : u.sessionLawful = true) (ht : u.silenceTimer = some n) :
    u.inSession = true := by
  by_contra hi
  rw [Bool.not_eq_true] at hi
  unfold PortUnit.sessionLawful at h
  rw [hi, ht] at h
  cases hlimit : u.silenceLimit <;> rw [hlimit] at h <;> cases h

/-- Settles O20: a timer that stands at 0 is that of a session, so its expiry is due. -/
theorem silenceExpiryLapsesTheSession : Obligations.SilenceExpiryLapsesTheSession := by
  intro p s hl hr ht
  obtain ⟨_, _, ⟨⟨hlaw, _⟩, _⟩, _⟩ := id hl
  have hdue : (s.expiryDue p && !s.resetHeld) = true := by
    rw [hr, Bool.not_false, Bool.and_true]
    exact Bool.and_eq_true_iff.mpr ⟨PortUnit.inSession_of_timer (hlaw p) ht, decide_eq_true ht⟩
  exact ⟨_, if_pos hdue, lapse_left hl.lists hl.references p .silence, claimsReleased_lapse s p .silence, s.port_lapse p .silence⟩

/-! ### PORT_RESET (10 R157, 12 R178) -/

/-- PORT_RESET_ASSERT on a port with a session (10 R157). -/
theorem exec_portResetAssert_inSession {s : State} {p : Port} (hr : (s.port p).resetHeld = false)
    (hs : (s.port p).inSession = true) : exec (.portResetAssert p) s =
      .next ((s.lapse p .portReset).setPort p ((s.lapse p .portReset).port p).linkReset) := by
  show execPortResetAssert p s = _
  unfold execPortResetAssert
  rw [if_neg (by simp [hr]), if_pos ((s.port p).inSession_iff.mp hs)]

/-- PORT_RESET_ASSERT on a port without a session (12 R178). -/
theorem exec_portResetAssert_rest {s : State} {p : Port} (hr : (s.port p).resetHeld = false)
    (hs : (s.port p).inSession = false) : exec (.portResetAssert p) s = .next (s.setPort p (s.port p).linkReset) := by
  have hrest : ¬ ((s.port p).session = .opened ∨ (s.port p).session = .closing) := fun e => by
    rw [(s.port p).inSession_iff.mpr e] at hs
    cases hs
  show execPortResetAssert p s = _
  unfold execPortResetAssert
  rw [if_neg (by simp [hr]), if_neg hrest]

/-- Settles O21: the session state decides whether the port lapses; the link is cleared in either case. -/
theorem portResetClearsTheLink : Obligations.PortResetClearsTheLink := by
  intro p s
  refine ⟨rfl, fun hr => if_pos hr, fun hl hr hs => ?_, fun hr hs => exec_portResetAssert_rest hr hs⟩
  refine ⟨_, exec_portResetAssert_inSession hr hs, (lapse_left hl.lists hl.references p .portReset).setPort _,
    claimsReleased_lapse s p .portReset, ?_⟩
  rw [State.port_setPort, if_pos rfl, State.port_lapse]
  rfl

end Sys2Proof.Machine
end

section
/-! PROOFS. The session values and the sum of the quotas: no operation unsettles a port's session values, and only OPEN raises a quota (10 R146, 01 R11). -/

namespace Sys2Proof.Machine

/-! ### One Port Unit -/

/-- A change of a Port Unit that leaves its session values in order and does not raise its quota. -/
structure PortUnit.KeepsSession (u v : PortUnit) : Prop where
  lawful : u.sessionLawful = true → v.sessionLawful = true
  quota : v.quota ≤ u.quota

theorem PortUnit.KeepsSession.refl (u : PortUnit) : u.KeepsSession u := ⟨id, le_rfl⟩

theorem PortUnit.KeepsSession.trans {u v x : PortUnit} (h : u.KeepsSession v) (h' : v.KeepsSession x) : u.KeepsSession x :=
  ⟨h'.lawful ∘ h.lawful, h'.quota.trans h.quota⟩

theorem PortUnit.Quiet.keepsSession {u v : PortUnit} (h : u.Quiet v) : u.KeepsSession v := ⟨h.lawful, h.quota.le⟩

/-- No session value speaks of held counts or bundle records (10 R146). -/
theorem PortUnit.keepsSession_records (u : PortUnit) (n : Nat) (bs : Vector (Option BundleRecord) 8) :
    u.KeepsSession { u with held := n, bundles := bs } := ⟨id, le_rfl⟩

/-- A session that ends in DOWN leaves no value behind (10 R152, R154). -/
theorem PortUnit.keepsSession_closedDown (u : PortUnit) (epoch : Epoch) : u.KeepsSession (u.closedDown epoch) :=
  PortUnit.KeepsSession.trans
    (v := { u with session := .down, quota := 0, silenceLimit := none, silenceTimer := none })
    ⟨fun _ => rfl, Nat.zero_le _⟩ (PortUnit.quiet_append _ _).keepsSession

/-- A lapse leaves no session value behind (10 R158). -/
theorem PortUnit.keepsSession_lapsed (u : PortUnit) (epoch : Epoch) (cause : LapseCause) : u.KeepsSession (u.lapsed epoch cause) :=
  ⟨fun _ => rfl, Nat.zero_le _⟩

/-- An OPEN session that becomes CLOSING keeps its values (10 R151). -/
theorem PortUnit.keepsSession_closing {u : PortUnit} (h : u.session = .opened) : u.KeepsSession { u with session := .closing } := by
  refine ⟨fun hl => ?_, le_rfl⟩
  unfold PortUnit.sessionLawful PortUnit.inSession at hl ⊢
  rw [h] at hl
  exact hl

/-! ### Every port at once -/

/-- A change of the part under which every port keeps its session values in order and raises no quota. -/
def KeepsSessions (s t : State) : Prop := ∀ p, (s.port p).KeepsSession (t.port p)

theorem KeepsSessions.refl (s : State) : KeepsSessions s s := fun _ => .refl _

theorem KeepsSessions.trans {s t u : State} (h : KeepsSessions s t) (h' : KeepsSessions t u) : KeepsSessions s u :=
  fun p => (h p).trans (h' p)

/-- An operation repeated over a list keeps the sessions where it keeps them once. -/
theorem KeepsSessions.foldl {α : Type} {g : State → α → State} (hg : ∀ s a, KeepsSessions s (g s a)) (l : List α) :
    ∀ s, KeepsSessions s (l.foldl g s) := by
  induction l with
  | nil => exact KeepsSessions.refl
  | cons a l ih => exact fun s => (hg s a).trans (ih _)

theorem Quiet.keepsSessions {s t : State} (h : Quiet s t) : KeepsSessions s t := fun p => (h.port p).keepsSession

theorem KeepsSessions.of_ports {s t : State} (h : t.ports = s.ports) : KeepsSessions s t := fun p => by
  unfold State.port
  rw [h]
  exact .refl _

/-- A change that reaches one Port Unit, as a field of the state. -/
theorem KeepsSessions.of_set {s t : State} {p : Port} {u : PortUnit} (h : t.ports = s.ports.set p u)
    (hu : (s.port p).KeepsSession u) : KeepsSessions s t := fun q => by
  have e : t.port q = if p = q then u else s.port q := by
    unfold State.port
    rw [h]
    exact vector_get_set s.ports p q u
  rw [e]
  split
  · next hpq => exact hpq ▸ hu
  · exact .refl _

/-- The law follows the ports: values in order stay so, and quotas that no port raises still fit the pool. -/
theorem KeepsSessions.sessionLaw {s t : State} (h : KeepsSessions s t) (hs : SessionLaw s) : SessionLaw t := by
  obtain ⟨hlaw, hsum⟩ := hs
  refine ⟨fun p => (h p).lawful (hlaw p), le_trans ?_ hsum⟩
  have h0 := (h 0).quota
  have h1 := (h 1).quota
  have h2 := (h 2).quota
  have h3 := (h 3).quota
  rw [s.quotasInUse_eq, t.quotasInUse_eq]
  omega

/-! ### The shared operations -/

theorem keepsSessions_leaveAll (s : State) (ws : List Window) : KeepsSessions s (s.leaveAll ws) := fun p => by
  rw [port_leaveAll_eq]
  exact PortUnit.keepsSession_records _ _ _

theorem keepsSessions_sessionDown (s : State) (p : Port) : KeepsSessions s (s.sessionDown p) := by
  rw [State.sessionDown_eq]
  exact .of_set rfl (PortUnit.keepsSession_closedDown _ _)

theorem keepsSessions_teardown (s : State) (p : Port) : KeepsSessions s (s.teardown p) := by
  obtain ⟨_, _, e⟩ := s.teardown_spec p
  rw [e]
  exact .of_set rfl (PortUnit.keepsSession_records _ _ _)

theorem keepsSessions_lapse (s : State) (p : Port) (cause : LapseCause) : KeepsSessions s (s.lapse p cause) := by
  obtain ⟨_, _, e⟩ := s.lapse_spec p cause
  rw [e]
  exact .of_set rfl (PortUnit.keepsSession_lapsed _ _ _)

theorem keepsSessions_endIfClosed (s : State) (p : Port) : KeepsSessions s (s.endIfClosed p) := by
  rcases s.endIfClosed_cases p with ⟨_, _, e⟩ | ⟨_, e⟩ <;> rw [e]
  · exact keepsSessions_sessionDown s p
  · exact .refl s

theorem keepsSessions_retire (s : State) (reason : Window → Reason) (ws : List Window) : KeepsSessions s (s.retire reason ws) := by
  have h := (quiet_postUnordered s (ws.filterMap (fun w => endingRecord s.epoch (reason w) w))).keepsSessions.trans
    (keepsSessions_leaveAll _ ws)
  cases ws with
  | nil => exact h
  | cons w ws => exact h.trans (keepsSessions_endIfClosed _ w.owner)

theorem keepsSessions_checkLimit (s : State) (i : Slot) : KeepsSessions s (s.checkLimit i) := by
  rcases s.checkLimit_cases i with e | ⟨w, _, _, e⟩ <;> rw [e]
  · exact .refl s
  · exact keepsSessions_retire _ _ _

theorem keepsSessions_handOver (s : State) (w : Window) : KeepsSessions s (s.handOver w) := by
  obtain ⟨_, _, _, e⟩ := s.handOver_spec w
  rw [e]
  exact .of_ports rfl

theorem keepsSessions_startAll (s : State) (ws : List Window) : KeepsSessions s (s.startAll ws) :=
  ((KeepsSessions.foldl keepsSessions_handOver ws s).trans (quiet_postUnordered _ _).keepsSessions).trans
    (KeepsSessions.foldl (fun t w => keepsSessions_checkLimit t w.slot) ws _)

theorem keepsSessions_setBundle (s : State) (p : Port) (b : BundleNo) (r : Option BundleRecord) :
    KeepsSessions s (s.setBundle p b r) := .of_set rfl (PortUnit.keepsSession_records _ _ _)

theorem keepsSessions_setStops (s : State) (ws : List Window) (stop : Epoch) : KeepsSessions s (s.setStops ws stop) := fun p => by
  rw [State.port_setStops]
  exact PortUnit.keepsSession_records _ _ _

theorem keepsSessions_refreshLanesOf (s : State) (ws : List Window) : KeepsSessions s (s.refreshLanesOf ws) := by
  obtain ⟨_, e⟩ := State.refreshLanesOf_spec ws s
  rw [e]
  exact .of_ports rfl

theorem keepsSessions_displace (s : State) (p : Port) (priority : Fin 4) (tracks : List Track) (start stop : Epoch) :
    KeepsSessions s (s.displace p priority tracks start stop) :=
  ((quiet_postUnordered _ _).keepsSessions.trans (keepsSessions_leaveAll _ _)).trans (keepsSessions_setStops _ _ _)

theorem keepsSessions_insertWindow (s : State) (w : Window) : KeepsSessions s (s.insertWindow w) := by
  rw [State.insertWindow_eq]
  exact .of_set rfl (PortUnit.keepsSession_records _ _ _)

theorem keepsSessions_bookedBundle (s : State) (p : Port) (b : Booking) (ms : List Member) (n : BundleNo) :
    KeepsSessions s (s.bookedBundle p b ms n) :=
  (KeepsSessions.foldl keepsSessions_insertWindow _ s).trans (keepsSessions_setBundle _ p n _)

theorem keepsSessions_countEdge (s : State) (k : Sense) (level : Level) : KeepsSessions s (s.countEdge k level) := by
  rcases s.countEdge_cases k level with e | ⟨i, _, _, _, _, e⟩ | ⟨_, _, _, _, _, _, e⟩ <;> rw [e]
  · exact .refl s
  · exact KeepsSessions.trans (t := s.updateWindow i (fun v => v.countEdges s.epoch 1)) (.of_ports rfl)
      (keepsSessions_checkLimit _ i)
  · exact .of_ports rfl

theorem keepsSessions_reportEdge (s : State) (k : Sense) (level : Level) : KeepsSessions s (s.reportEdge k level) := .of_ports rfl

theorem keepsSessions_takeEdge (s : State) (k : Sense) (level : Level) : KeepsSessions s (s.takeEdge k level) := by
  obtain ⟨_, seen, hseen, e⟩ := takeEdge_phases s k level
  have h0 : KeepsSessions s seen := hseen ▸ .of_ports rfl
  rcases e with e | e <;> rw [e]
  · exact h0.trans ((keepsSessions_reportEdge seen k level).trans (keepsSessions_countEdge _ k level))
  · exact h0.trans ((keepsSessions_countEdge seen k level).trans (keepsSessions_reportEdge _ k level))

theorem keepsSessions_closeGraceful {s : State} {p : Port} (hs : (s.port p).session = .opened) :
    KeepsSessions s (closeGraceful p s).1 := by
  have hl := keepsSessions_leaveAll s (s.pendingOf p)
  rcases closeGraceful_opened hs with ⟨_, e⟩ | ⟨_, e⟩ <;> rw [e]
  · exact hl.trans (keepsSessions_sessionDown _ p)
  · exact hl.trans (.of_set rfl (PortUnit.keepsSession_closing ((session_leaveAll s _ p).trans hs)))

/-! ### Steps -/

/-- OPEN on a port without a session: its own values are in range, and the quotas in use leave room for its quota (10 R147, R148). -/
theorem SessionLaw.opens {s : State} {p : Port} {u : PortUnit} (h : SessionLaw s) (hi : (s.port p).inSession = false)
    (hu : u.sessionLawful = true) (hsum : s.quotasInUse + u.quota ≤ poolSize) : SessionLaw (s.setPort p u) := by
  obtain ⟨hlaw, _⟩ := h
  refine ⟨fun q => ?_, ?_⟩
  · rw [State.port_setPort]
    split
    · exact hu
    · exact hlaw q
  · have e := State.quotasInUse_change (s := s) (t := s.setPort p u) p
      (fun q hq => by rw [State.port_setPort, if_neg (fun x => hq x.symm)])
    rw [State.port_setPort, if_pos rfl, PortUnit.quota_of_rest (hlaw p) hi] at e
    omega

/-- RESETn leaves no session (01 R19). -/
theorem sessionLaw_cleared (s : State) : SessionLaw s.cleared := (recordLaws_cleared s).1

/-- Every operation keeps the law of the sessions: OPEN by its checks, RESETn by clearing, the others port by port. -/
theorem Op.sessionLaw {s t : State} (o : Op s t) (h : SessionLaw s) : SessionLaw t := by
  cases o with
  | none => exact h
  | opens p q l hs hq hl hl' hsum =>
    refine h.opens hs ?_ hsum
    have : q ≤ poolSize := by omega
    simp [PortUnit.sessionLawful, PortUnit.inSession, hq, hl, hl', this]
  | closes p hs => exact (keepsSessions_closeGraceful hs).sessionLaw h
  | closesAbruptly p => exact ((keepsSessions_teardown s p).trans (keepsSessions_sessionDown _ p)).sessionLaw h
  | lapses p cause => exact (keepsSessions_lapse s p cause).sessionLaw h
  | claims p x => exact h
  | releases p x => exact h
  | books p b d m i =>
    exact ((keepsSessions_displace s p m.priority [m.track] b.start b.stop).trans (keepsSessions_insertWindow _ _)).sessionLaw h
  | booksBundle p b ds ms n hs hj =>
    rw [reserveBundle_ok hj]
    exact ((keepsSessions_displace s p _ _ b.start b.stop).trans (keepsSessions_bookedBundle _ p b ms n)).sessionLaw h
  | removes w => exact (keepsSessions_leaveAll s _).sessionLaw h
  | flushes p target => exact (keepsSessions_leaveAll s _).sessionLaw h
  | cancels w => exact (keepsSessions_retire s _ _).sessionLaw h
  | amends w e => exact ((keepsSessions_setStops s _ e).trans (keepsSessions_refreshLanesOf _ _)).sessionLaw h
  | starts x w => exact (keepsSessions_startAll s _).sessionLaw h
  | ends x w => exact (keepsSessions_retire s _ _).sessionLaw h
  | startsTogether p b => exact ((keepsSessions_setBundle s p b _).trans (keepsSessions_startAll _ _)).sessionLaw h
  | endsTogether p b => exact ((keepsSessions_setBundle s p b Option.none).trans (keepsSessions_retire _ _ _)).sessionLaw h
  | endsPulse l w => exact h
  | edge k level => exact (keepsSessions_takeEdge s k level).sessionLaw h
  | tick =>
    obtain ⟨_, _, _, hports, _⟩ := takeTick_rest s
    exact (KeepsSessions.of_ports hports).sessionLaw h
  | resets => exact sessionLaw_cleared s

theorem Does.sessionLaw {s t : State} (d : Does s t) (h : SessionLaw s) : SessionLaw t := by
  obtain ⟨_, _, hbefore, o, hbehind⟩ := d
  exact hbehind.keepsSessions.sessionLaw (o.sessionLaw (hbefore.keepsSessions.sessionLaw h))

/-- Settles O58: a step is at most one operation between quiet changes, and each of the three keeps the law. -/
theorem stepsKeepTheSessionLaw : Obligations.StepsKeepTheSessionLaw := by
  intro s t h hs
  obtain ⟨rest, n, d⟩ := step_does hs
  exact d.sessionLaw (s := { s with pending := rest, freeCount := n }) h

end Sys2Proof.Machine
end

section
/-! PROOFS. The law of the event queues: records are appended to a queue or counted as lost, a LOST record goes in only where one left, and a lapse or RESETn leaves at most one record (11 R162 to R166). -/

namespace Sys2Proof.Machine

/-! ### One queue -/

/-- A queue of at most one record, with nothing lost (10 R158, 01 R19). -/
theorem PortUnit.queueLawful_short {u : PortUnit} (hq : u.queue.length ≤ 1) (hl : u.lost = 0) : u.QueueLawful := by
  have depth : queueDepth = 32 := rfl
  unfold PortUnit.QueueLawful
  omega

/-! ### The shared operations -/

theorem Quiet.queueLaw {s t : State} (h : Quiet s t) (hs : QueueLaw s) : QueueLaw t := fun p => (h.port p).queue (hs p)

/-- One Port Unit replaced, as a field of the state. -/
theorem QueueLaw.of_set {s t : State} {p : Port} {u : PortUnit} (h : QueueLaw s) (ht : t.ports = s.ports.set p u)
    (hu : u.QueueLawful) : QueueLaw t := fun q => by
  have e : t.port q = if p = q then u else s.port q := by
    unfold State.port
    rw [ht]
    exact vector_get_set s.ports p q u
  rw [e]
  split
  · exact hu
  · exact h q

theorem QueueLaw.leaveAll {s : State} (h : QueueLaw s) (ws : List Window) : QueueLaw (s.leaveAll ws) :=
  fun p => queueLawful_leaveAll ws (h p)

/-- CLOSED is appended like any other record (10 R152). -/
theorem QueueLaw.sessionDown {s : State} (h : QueueLaw s) (p : Port) : QueueLaw (s.sessionDown p) := by
  rw [State.sessionDown_eq]
  exact h.of_set rfl (PortUnit.append_queueLawful _ _ (h p))

theorem QueueLaw.teardown {s : State} (h : QueueLaw s) (p : Port) : QueueLaw (s.teardown p) := by
  obtain ⟨_, _, e⟩ := s.teardown_spec p
  rw [e]
  exact h.of_set rfl (h p)

/-- A lapse leaves its LAPSED record alone in the queue (10 R158). -/
theorem QueueLaw.lapse {s : State} (h : QueueLaw s) (p : Port) (cause : LapseCause) : QueueLaw (s.lapse p cause) := by
  obtain ⟨_, _, e⟩ := s.lapse_spec p cause
  rw [e]
  exact h.of_set rfl (PortUnit.queueLawful_short le_rfl rfl)

theorem QueueLaw.endIfClosed {s : State} (h : QueueLaw s) (p : Port) : QueueLaw (s.endIfClosed p) := by
  rcases s.endIfClosed_cases p with ⟨_, _, e⟩ | ⟨_, e⟩ <;> rw [e]
  · exact h.sessionDown p
  · exact h

theorem QueueLaw.retire {s : State} (h : QueueLaw s) (reason : Window → Reason) (ws : List Window) :
    QueueLaw (s.retire reason ws) := by
  have left := ((quiet_postUnordered s (ws.filterMap (fun w => endingRecord s.epoch (reason w) w))).queueLaw h).leaveAll ws
  cases ws with
  | nil => exact left
  | cons w ws => exact left.endIfClosed w.owner

theorem QueueLaw.checkLimit {s : State} (h : QueueLaw s) (i : Slot) : QueueLaw (s.checkLimit i) := by
  rcases s.checkLimit_cases i with e | ⟨w, _, _, e⟩ <;> rw [e]
  · exact h
  · exact h.retire _ _

theorem QueueLaw.handOver {s : State} (h : QueueLaw s) (w : Window) : QueueLaw (s.handOver w) := by
  obtain ⟨_, _, _, e⟩ := s.handOver_spec w
  rw [e]
  exact h

theorem QueueLaw.startAll {s : State} (h : QueueLaw s) (ws : List Window) : QueueLaw (s.startAll ws) := by
  have handed : QueueLaw (ws.foldl State.handOver s) := ws.foldlRecOn _ h (fun _ ht w _ => QueueLaw.handOver ht w)
  exact ws.foldlRecOn _ ((quiet_postUnordered _ _).queueLaw handed) (fun _ ht w _ => QueueLaw.checkLimit ht w.slot)

theorem QueueLaw.setBundle {s : State} (h : QueueLaw s) (p : Port) (b : BundleNo) (r : Option BundleRecord) :
    QueueLaw (s.setBundle p b r) := h.of_set rfl (h p)

theorem QueueLaw.setStops {s : State} (h : QueueLaw s) (ws : List Window) (stop : Epoch) : QueueLaw (s.setStops ws stop) :=
  fun p => by
    rw [State.port_setStops]
    exact h p

theorem QueueLaw.displace {s : State} (h : QueueLaw s) (p : Port) (priority : Fin 4) (tracks : List Track) (start stop : Epoch) :
    QueueLaw (s.displace p priority tracks start stop) :=
  (((quiet_postUnordered _ _).queueLaw h).leaveAll _).setStops _ _

theorem QueueLaw.insertWindow {s : State} (h : QueueLaw s) (w : Window) : QueueLaw (s.insertWindow w) := by
  rw [State.insertWindow_eq]
  exact h.of_set rfl (h w.owner)

theorem QueueLaw.bookedBundle {s : State} (h : QueueLaw s) (p : Port) (b : Booking) (ms : List Member) (n : BundleNo) :
    QueueLaw (s.bookedBundle p b ms n) :=
  QueueLaw.setBundle (List.foldlRecOn _ _ h (fun _ ht w _ => QueueLaw.insertWindow ht w)) p n _

theorem QueueLaw.countEdge {s : State} (h : QueueLaw s) (k : Sense) (level : Level) : QueueLaw (s.countEdge k level) := by
  rcases s.countEdge_cases k level with e | ⟨i, _, _, _, _, e⟩ | ⟨_, _, _, _, _, _, e⟩ <;> rw [e]
  · exact h
  · exact QueueLaw.checkLimit (s := s.updateWindow i (fun v => v.countEdges s.epoch 1)) h i
  · exact h

theorem QueueLaw.takeEdge {s : State} (h : QueueLaw s) (k : Sense) (level : Level) : QueueLaw (s.takeEdge k level) := by
  obtain ⟨_, seen, hseen, e⟩ := takeEdge_phases s k level
  have hs : QueueLaw seen := hseen ▸ h
  rcases e with e | e <;> rw [e]
  · exact QueueLaw.countEdge (s := seen.reportEdge k level) hs k level
  · exact hs.countEdge k level

theorem QueueLaw.closeGraceful {s : State} (h : QueueLaw s) {p : Port} (hs : (s.port p).session = .opened) :
    QueueLaw (closeGraceful p s).1 := by
  have left := h.leaveAll (s.pendingOf p)
  rcases closeGraceful_opened hs with ⟨_, e⟩ | ⟨_, e⟩ <;> rw [e]
  · exact left.sessionDown p
  · exact left.of_set rfl (left p)

/-- RESETn empties every queue (01 R19). -/
theorem queueLaw_cleared (s : State) : QueueLaw s.cleared := fun p => by
  rw [resets_port]
  exact PortUnit.queueLawful_short (Nat.zero_le _) rfl

/-! ### Steps -/

/-- Every operation keeps the law: those of the timeline post and remove, RESETn clears, and the others reach no queue. -/
theorem Op.queueLaw {s t : State} (o : Op s t) (h : QueueLaw s) : QueueLaw t := by
  cases o with
  | none => exact h
  | opens p => exact h.of_set rfl (h p)
  | closes p hs => exact h.closeGraceful hs
  | closesAbruptly p => exact (h.teardown p).sessionDown p
  | lapses p cause => exact h.lapse p cause
  | claims => exact h
  | releases => exact h
  | books p b d m => exact (h.displace p m.priority [m.track] b.start b.stop).insertWindow _
  | booksBundle p b ds ms n hs hj =>
    rw [reserveBundle_ok hj]
    exact (h.displace p _ _ b.start b.stop).bookedBundle p b ms n
  | removes => exact h.leaveAll _
  | flushes => exact h.leaveAll _
  | cancels => exact h.retire _ _
  | amends w e =>
    obtain ⟨_, refreshed⟩ := State.refreshLanesOf_spec (s.unitOf w) (s.setStops (s.unitOf w) e)
    rw [refreshed]
    exact h.setStops _ e
  | starts => exact h.startAll _
  | ends => exact h.retire _ _
  | startsTogether p b => exact (h.setBundle p b _).startAll _
  | endsTogether p b => exact (h.setBundle p b Option.none).retire _ _
  | endsPulse => exact h
  | edge k level => exact h.takeEdge k level
  | tick =>
    obtain ⟨_, _, _, hports, _⟩ := takeTick_rest s
    unfold QueueLaw State.port
    rw [hports]
    exact h
  | resets => exact queueLaw_cleared s

theorem Does.queueLaw {s t : State} (d : Does s t) (h : QueueLaw s) : QueueLaw t := by
  obtain ⟨_, _, hbefore, o, hbehind⟩ := d
  exact hbehind.queueLaw (o.queueLaw (hbefore.queueLaw h))

/-- Settles O57: a step is at most one operation between quiet changes, and each of the three keeps the law. -/
theorem stepsKeepTheQueueLaw : Obligations.StepsKeepTheQueueLaw := by
  intro s t h hs
  obtain ⟨rest, n, d⟩ := step_does hs
  exact d.queueLaw (s := { s with pending := rest, freeCount := n }) h

/-- Settles O55: the pin is low while the queue is not empty, whatever else the state holds. -/
theorem attentionFollowsTheQueue : Obligations.AttentionFollowsTheQueue := by
  intro s p
  unfold State.attention
  cases (s.port p).queue with
  | nil => simp
  | cons e es => simp

end Sys2Proof.Machine
end

section
/-! PROOFS. The end of a transaction: the item chosen at its selection is settled, and what was clocked in is judged on the state so settled (12 R173 to R175). -/

namespace Sys2Proof.Machine

/-! ### The settling of the item -/

/-- What the end of a transaction leaves of its Port Unit before the inbound frame is judged: the item is settled where its frame was fully clocked and no lapse cleared it (12 R174, 10 R159). -/
def PortUnit.deselected (u : PortUnit) (x : Transaction) (bytes : List Byte) : PortUnit :=
  if !x.cleared && decide (x.item.frame.length ≤ bytes.length) then { u with transaction := none }.settle x.item
  else { u with transaction := none }

theorem PortUnit.deselected_unsettled (u : PortUnit) {x : Transaction} {bytes : List Byte}
    (h : x.cleared = true ∨ ¬ x.item.frame.length ≤ bytes.length) : u.deselected x bytes = { u with transaction := none } := by
  unfold PortUnit.deselected
  rcases h with h | h <;> simp [h]

theorem PortUnit.deselected_settled (u : PortUnit) {x : Transaction} {bytes : List Byte} (hc : x.cleared = false)
    (hl : x.item.frame.length ≤ bytes.length) : u.deselected x bytes = { u with transaction := none }.settle x.item := by
  unfold PortUnit.deselected
  simp [hc, hl]

/-- A transaction with an IDLE frame in which bytes were exchanged already. -/
def idleTransaction (earlier : List Byte) : Transaction := { item := .idle, cleared := false, exchanged := earlier }

/-- An IDLE frame settles nothing (12 R174). -/
theorem PortUnit.deselected_idle (u : PortUnit) (earlier bytes : List Byte) :
    u.deselected (idleTransaction earlier) bytes = { u with transaction := none } := ite_self _

/-- The head leaves the queue; where that leaves 31 records, a lost count above 0 becomes the LOST record behind them (11 R165, R166). -/
theorem PortUnit.consume_cons {u : PortUnit} {e : EventRecord} {es : List EventRecord} (h : u.queue = e :: es) :
    u.consume = { u with
      queue := if es.length = 31 ∧ 0 < u.lost then es ++ [.lost u.lost] else es
      lost := if es.length = 31 then 0 else u.lost } := by
  have depth : queueDepth - 1 = 31 := rfl
  unfold PortUnit.consume
  rw [h, List.tail_cons, depth]
  by_cases full : es.length = 31
  · by_cases lost : 0 < u.lost
    · simp [full, lost]
    · have kept : u.lost = 0 := by omega
      simp [full, kept]
  · simp [full]

/-! ### The judgement of what was clocked in -/

section
variable {p : Port} {x : Transaction} {received : List Level} {s : State}

theorem exec_transactionEnd (hs : s.inService p = true) (ht : (s.port p).transaction = some x) :
    exec (.transactionEnd p received) s = .next (judgeInbound p (x.exchanged ++ wholeBytes received)
      (s.setPort p ((s.port p).deselected x (x.exchanged ++ wholeBytes received)))) := by
  have ended : exec (.transactionEnd p received) s = .next (endTransaction p received s) := if_pos hs
  rw [ended]
  unfold endTransaction
  rw [ht]
  rfl

/-- A byte 0 of 0x00 is a NOP (12 R175). -/
theorem readInbound_nop {bs : List Byte} (h : bs.head? = some 0x00) : readInbound bs = .nop := by
  obtain ⟨rest, rfl⟩ := List.head?_eq_some_iff.mp h
  rfl

/-- A transaction whose item is settled into `u` ends as one behind an IDLE frame on `u` (12 R174, R175). -/
theorem endsAs_of_deselected {u : PortUnit} (hs : s.inService p = true) (ht : (s.port p).transaction = some x)
    (hr : u.resetHeld = (s.port p).resetHeld)
    (hu : (s.port p).deselected x (x.exchanged ++ wholeBytes received) = { u with transaction := none }) :
    EndsAs p x.exchanged received s u := by
  have ended := exec_transactionEnd (received := received) hs ht
  rw [hu] at ended
  refine ⟨?_, fun nop => ?_⟩
  · have port : (s.setPort p { u with transaction := some (idleTransaction x.exchanged) }).port p =
        { u with transaction := some (idleTransaction x.exchanged) } := by
      rw [State.port_setPort, if_pos rfl]
    have service : (s.setPort p { u with transaction := some (idleTransaction x.exchanged) }).inService p = true := by
      unfold State.inService at hs ⊢
      rw [port]
      exact hr ▸ hs
    have behind := exec_transactionEnd (received := received) service (by rw [port])
    rw [port, PortUnit.deselected_idle, State.setPort_setPort] at behind
    exact ended.trans behind.symm
  · rw [ended]
    unfold judgeInbound
    rw [readInbound_nop nop]
    dsimp only
    rw [State.reloadTimer_eq, State.port_setPort, if_pos rfl, State.setPort_setPort]
    rfl

end

/-- Settles O10: a record fully clocked is consumed, any other leaves its Port Unit as it stands, and the rest is judged behind it. -/
theorem transactionEndConsumesARecord : Obligations.TransactionEndConsumesARecord := by
  intro p e cleared earlier received s hs ht clocked
  refine ⟨fun es hq hc hl => ?_, fun h => ?_⟩
  · have consumed := PortUnit.consume_cons (u := { s.port p with transaction := none }) hq
    have settled := (s.port p).deselected_settled (x := { item := .event e, cleared, exchanged := earlier }) hc hl
    exact endsAs_of_deselected hs ht rfl (settled.trans consumed)
  · exact endsAs_of_deselected hs ht rfl (PortUnit.deselected_unsettled _ h)

end Sys2Proof.Machine
end

section
/-! PROOFS. The frames of the link as their bytes: the CRC at the end of each, inbound requests read back, outbound frames field by field, member descriptors read (12 R175, R179 to R184). -/

namespace Sys2Proof.Machine

/-! ### Inbound frames (12 R175, R180) -/

/-- The request frame that byte 1, the code and the operand bytes spell, with the CRC given (12 R175, R180). -/
def Frame.ofBytes (b1 code : Byte) (operands : List Byte) (crc : Byte) : Frame where
  seq := b1.extractLsb' 4 4
  crc := crc
  code := code
  name := RequestName.ofCode code
  request := (RequestName.ofCode code).bind (fun n => readOperands n operands)

section
variable {b0 b1 : Byte} {rest : List Byte}

/-- A nonzero byte 0 outside 3 to 126, or a CRC that differs (12 R175). -/
theorem readInbound_bad (h0 : b0 ≠ 0x00)
    (h : b0.toNat < 3 ∨ 126 < b0.toNat ∨ (b0.toNat < (b0 :: b1 :: rest).length ∧
      crc ((b0 :: b1 :: rest).take b0.toNat) ≠ (b0 :: b1 :: rest).getD b0.toNat 0)) :
    readInbound (b0 :: b1 :: rest) = .bad (b1.extractLsb' 4 4) := by
  refine (if_neg h0).trans ?_
  by_cases range : b0.toNat < 3 ∨ 126 < b0.toNat
  · exact if_pos range
  · obtain ⟨length, differs⟩ : _ ∧ _ := by simpa only [← or_assoc, range, false_or] using h
    have whole : ¬ (b1 :: rest).length < b0.toNat := by simp only [List.length_cons] at length ⊢; omega
    exact (if_neg range).trans ((if_neg whole).trans (if_pos differs))

/-- Fewer than L + 1 bytes (12 R175). -/
theorem readInbound_incomplete (h3 : 3 ≤ b0.toNat) (hm : b0.toNat ≤ 126) (hl : (b1 :: rest).length < b0.toNat) :
    readInbound (b0 :: b1 :: rest) = .incomplete := by
  have nonzero : b0 ≠ 0x00 := by rintro rfl; simp at h3
  exact (if_neg nonzero).trans ((if_neg (by omega)).trans (if_pos hl))

/-- Byte 0 in range and enough bytes, the CRC as it must be: a well-formed request frame (12 R175). -/
theorem readInbound_wellFormed {body : List Byte} (h3 : 3 ≤ b0.toNat) (hm : b0.toNat ≤ 126)
    (hl : b0.toNat ≤ (b1 :: rest).length) (hb : (b0 :: b1 :: rest).take b0.toNat = body)
    (hc : (b0 :: b1 :: rest).getD b0.toNat 0 = crc body) :
    readInbound (b0 :: b1 :: rest) = .request (Frame.ofBytes b1 (body.getD 2 0) (body.drop 3) (crc body)) := by
  have nonzero : b0 ≠ 0x00 := by rintro rfl; simp at h3
  subst hb
  refine (if_neg nonzero).trans ((if_neg (by omega)).trans ((if_neg (by omega)).trans ((if_neg (not_not.mpr hc.symm)).trans ?_)))
  rw [← hc]
  rfl

end

/-- A body whose length byte counts it and stands in range, with its CRC behind it, is a request frame, whatever follows (12 R175). -/
theorem readInbound_body {b0 b1 code : Byte} {operands : List Byte} (hl : b0.toNat = 3 + operands.length)
    (hm : b0.toNat ≤ 126) (rest : List Byte) :
    let body := b0 :: b1 :: code :: operands
    readInbound (body ++ crc body :: rest) = .request (Frame.ofBytes b1 code operands (crc body)) := by
  intro body
  have length : body.length = b0.toNat := by simp only [body, List.length_cons]; omega
  have cut : (body ++ crc body :: rest).take b0.toNat = body := length ▸ List.take_left
  have last : (body ++ crc body :: rest).getD b0.toNat 0 = crc body := by
    simp [List.getD_eq_getElem?_getD, ← length]
  have whole : b0.toNat ≤ (b1 :: (code :: operands ++ crc body :: rest)).length := by
    simp only [List.length_append, List.length_cons]
    omega
  exact readInbound_wellFormed (by omega) hm whole cut last

/-- A frame read as a request ends its body with the body's CRC (12 R175, R179). -/
theorem crc_of_readInbound {bs : List Byte} {f : Frame} (h : readInbound bs = .request f) :
    ∃ body rest : List Byte, bs = body ++ crc body :: rest ∧ f.crc = crc body := by
  have request : bs.head? ≠ some 0x00 := by
    intro nop
    rw [readInbound_nop nop] at h
    cases h
  match bs, h with
  | [], h => cases h
  | [b0], h => cases (if_neg (fun h0 => request (congrArg some h0))).symm.trans h
  | b0 :: b1 :: tail, h =>
    have h0 : b0 ≠ 0x00 := fun h0 => request (congrArg some h0)
    by_cases range : b0.toNat < 3 ∨ 126 < b0.toNat
    · rw [readInbound_bad h0 (range.imp_right .inl)] at h
      cases h
    by_cases short : (b1 :: tail).length < b0.toNat
    · rw [readInbound_incomplete (by omega) (by omega) short] at h
      cases h
    have inside : b0.toNat < (b0 :: b1 :: tail).length := by simp only [List.length_cons] at short ⊢; omega
    by_cases differs : crc ((b0 :: b1 :: tail).take b0.toNat) ≠ (b0 :: b1 :: tail).getD b0.toNat 0
    · rw [readInbound_bad h0 (.inr (.inr ⟨inside, differs⟩))] at h
      cases h
    have last := (not_not.mp differs).symm
    rw [readInbound_wellFormed (by omega) (by omega) (by omega) rfl last] at h
    cases h
    refine ⟨(b0 :: b1 :: tail).take b0.toNat, (b0 :: b1 :: tail).drop (b0.toNat + 1), ?_, rfl⟩
    rw [← last, List.getD_eq_getElem _ _ inside, List.cons_getElem_drop_succ, List.take_append_drop]

/-! ### The CRC (12 R179) -/

/-- The CRC as the manual words it: each byte is XORed in, then the register is shifted eight times. -/
theorem crc_append_fold (bs : List Byte) (b : Byte) : crc (bs ++ [b]) =
    (List.range 8).foldl (fun (r : Byte) _ => if r.msb = true then (r <<< 1) ^^^ 0x07 else r <<< 1) (crc bs ^^^ b) :=
  crc_append_singleton bs b

/-- An outbound frame ends with the CRC of the bytes before it (12 R182). -/
theorem OutboundItem.frame_ends (x : OutboundItem) : ∃ body : List Byte, x.frame = body ++ [crc body] := by
  obtain ⟨inner, framed⟩ := x.frame_eq
  exact ⟨_, framed⟩

/-- Settles O4: the register byte by byte, and the CRC at the end of every frame made and of every frame taken. -/
theorem crcEndsEveryFrame : Obligations.CrcEndsEveryFrame :=
  ⟨crc_nil, crc_append_fold, by decide, by decide, by decide, OutboundItem.frame_ends, fun _ _ => crc_of_readInbound,
    fun _ => readInbound_nop rfl⟩

/-! ### Requests read back (12 R180) -/

/-- The operands of a request that a frame can carry are at most 123 bytes (12 R175, R180). -/
theorem operandBytes_length_le {r : Request} (h : r.wellFormed = true) : (operandBytes r).length ≤ 123 := by
  cases r with
  | reserveBundle b ds =>
    have members : ds.length ≤ 10 := of_decide_eq_true h
    simp only [operandBytes, List.length_append, List.length_cons, bookingBytes_length, descriptors_length]
    omega
  | _ => simp [operandBytes]

theorem readOperands_of_wellFormed {r : Request} (h : r.wellFormed = true) :
    readOperands (requestName r) (operandBytes r) = some r := by
  refine readOperands_operandBytes r (fun b ds e => ?_)
  subst e
  have members : ds.length ≤ 10 := of_decide_eq_true h
  omega

/-- The frame of a request as it is judged, with any low four bits of byte 1 (12 R180). -/
def Frame.withLow (seq : Seq) (low : BitVec 4) (r : Request) : Frame :=
  { seq, crc := Machine.crc (bodyWithLow seq low r), code := (requestName r).code, name := some (requestName r), request := some r }

theorem seq_of_byte1 (seq : Seq) (low : BitVec 4) : (seq ++ low).extractLsb' 4 4 = seq := by
  ext i hi
  rw [BitVec.getElem_extractLsb', BitVec.getLsbD_append, if_neg (by omega), Nat.add_sub_cancel_left]
  exact BitVec.getLsbD_eq_getElem hi

theorem Frame.ofBytes_request {r : Request} (h : r.wellFormed = true) (seq : Seq) (low : BitVec 4) :
    Frame.ofBytes (seq ++ low) (requestName r).code (operandBytes r) (Machine.crc (bodyWithLow seq low r)) =
      Frame.withLow seq low r := by
  unfold Frame.ofBytes Frame.withLow
  rw [seq_of_byte1, RequestName.ofCode_code, Option.bind_some, readOperands_of_wellFormed h]

/-- A request that a frame carries is read back from it, whatever the low four bits of byte 1 and the bytes behind it (12 R175, R180). -/
theorem readInbound_bodyWithLow {r : Request} (h : r.wellFormed = true) (seq : Seq) (low : BitVec 4) (rest : List Byte) :
    readInbound (bodyWithLow seq low r ++ crc (bodyWithLow seq low r) :: rest) = .request (Frame.withLow seq low r) := by
  have short := operandBytes_length_le h
  have counted : (BitVec.ofNat 8 (3 + (operandBytes r).length)).toNat = 3 + (operandBytes r).length :=
    byteOf_toNat (by omega)
  rw [← Frame.ofBytes_request h]
  exact readInbound_body counted (by omega) rest

/-- Settles O5: the request row's frame is the one whose low four bits are 0. -/
theorem requestFramesReadBack : Obligations.RequestFramesReadBack :=
  fun seq _ h => ⟨readInbound_bodyWithLow h seq 0 [], readInbound_bodyWithLow h seq⟩

/-! ### Outbound frames (12 R182 to R184) -/

/-- A frame with its length byte spelled out (12 R182). -/
theorem frameOf_spelled {inner : List Byte} {l : Nat} (h : inner.length + 1 = l) :
    (frameOf inner).length = l + 1 ∧ frameOf inner = BitVec.ofNat 8 l :: inner ++ [crc (BitVec.ofNat 8 l :: inner)] := by
  subst h
  exact ⟨frameOf_length inner, rfl⟩

/-- RETRY stands in bit 0 of the reply flags, OVERRUN in bit 1 (12 R182). -/
theorem Reply.flags_eq (r : Reply) : r.flags = BitVec.ofNat 8 (flagsNumber [r.retry, r.overrun]) := by
  unfold Reply.flags
  cases r.retry <;> cases r.overrun <;> rfl

theorem Reply.frame_spelled (r : Reply) :
    let results := (resultFields r.answer.results).flatMap fieldBytes
    let body := BitVec.ofNat 8 (4 + results.length + 1) :: ((0x1 : BitVec 4) ++ r.seq) :: r.code :: r.answer.status.code ::
      BitVec.ofNat 8 (flagsNumber [r.retry, r.overrun]) :: results
    r.frame.length = 4 + results.length + 2 ∧ r.frame = body ++ [crc body] := by
  intro results body
  unfold Reply.frame
  rw [Results.bytes_eq_fields, Reply.flags_eq]
  exact frameOf_spelled (congrArg (· + 1) List.length_append)

/-- The record kind of an event record and the length byte of its frame (12 R184). -/
def EventRecord.kindAndLength : EventRecord → Byte × Nat
  | .start .. => (0x01, 15)
  | .ended .. => (0x02, 18)
  | .tally .. => (0x03, 36)
  | .bumped .. | .truncated .. => (0x04, 25)
  | .closed .. => (0x08, 11)
  | .lapsed .. => (0x09, 12)
  | .freezeOn .. => (0x0A, 11)
  | .freezeOff .. => (0x0B, 11)
  | .lost .. => (0x0F, 4)

/-- An event record is its kind and its fields, one after another (12 R184). -/
theorem EventRecord.bytes_eq_fields (e : EventRecord) :
    e.bytes = e.kindAndLength.1 :: (recordFields e).flatMap fieldBytes := by
  cases e with
  | ended h t e r p =>
    cases r <;> cases p <;> simp [EventRecord.bytes, recordFields, EventRecord.kindAndLength, fieldBytes_word16, fieldBytes_epoch,
      fieldBytes_one, Reason.code, reasonNumber, flagBit, flagsNumber, byteOf]
  | tally h t e r n sat a b =>
    simp only [EventRecord.bytes, recordFields, List.flatMap_cons, List.flatMap_nil, fieldBytes_optionalEpoch]
    cases r <;> cases sat <;> cases a <;> simp [EventRecord.kindAndLength, fieldBytes_word16, fieldBytes_epoch,
      fieldBytes_one, fieldBytes_three, Reason.code, reasonNumber, tallyFlags, flagBit, flagsNumber, byteOf]
  | lapsed e c =>
    cases c <;> simp [EventRecord.bytes, recordFields, EventRecord.kindAndLength, fieldBytes_epoch, fieldBytes_one,
      LapseCause.code, byteOf]
  | _ =>
    simp [EventRecord.bytes, recordFields, EventRecord.kindAndLength, fieldBytes_word16, fieldBytes_epoch, fieldBytes_one,
      fieldBytes_zero_epoch, byteOf]

/-- The frame of an event record is two bytes longer than its kind and fields (12 R182, R184). -/
theorem EventRecord.bytes_length (e : EventRecord) : e.bytes.length + 2 = e.kindAndLength.2 := by
  cases e <;> rfl

theorem EventRecord.frame_spelled (e : EventRecord) :
    let body := BitVec.ofNat 8 e.kindAndLength.2 :: 0x20 :: e.kindAndLength.1 :: (recordFields e).flatMap fieldBytes
    e.frame.length = e.kindAndLength.2 + 1 ∧ e.frame = body ++ [crc body] := by
  intro body
  unfold EventRecord.frame
  have length := e.bytes_length
  rw [EventRecord.bytes_eq_fields] at length ⊢
  exact frameOf_spelled (by simp only [List.length_cons] at length ⊢; omega)

/-- Settles O7: each frame is its fields behind their length byte, with the CRC at the end. -/
theorem eventFramesHaveTheirLengths : Obligations.EventFramesHaveTheirLengths := by
  refine ⟨fun e => ?_, Reply.frame_spelled, rfl, by decide, by decide⟩
  have spelled := e.frame_spelled
  cases e <;> exact spelled

/-! ### Member descriptors (12 R181) -/

theorem append_bytes16 (x : BitVec 16) : x.extractLsb' 8 8 ++ x.extractLsb' 0 8 = x := word16_bytes x

theorem append_bytes24 (x : BitVec 24) : x.extractLsb' 16 8 ++ x.extractLsb' 8 8 ++ x.extractLsb' 0 8 = x := by
  ext i hi
  simp only [BitVec.getElem_append, BitVec.getElem_extractLsb']
  repeat' split
  all_goals
    rw [← BitVec.getLsbD_eq_getElem hi]
    congr 1
    omega

/-- The code of an edge kind (12 R181). -/
def EdgeKind.code : EdgeKind → Byte
  | .rise => 0x01
  | .fall => 0x02
  | .both => 0x03

/-- The descriptor of a shape on a track, laid out by the table (12 R181). -/
def Shape.laidOut (track : Byte) : Shape → Descriptor
  | .steady => ⟨track, 0x01, 0, 0, 0, 0, 0, 0, 0, 0⟩
  | .train P D => ⟨track, 0x02, P.extractLsb' 8 8, P.extractLsb' 0 8, D.extractLsb' 8 8, D.extractLsb' 0 8, 0, 0, 0, 0⟩
  | .toggle I l => ⟨track, 0x03, I.extractLsb' 8 8, I.extractLsb' 0 8, if l = .active then 0x01 else 0x00, 0, 0, 0, 0, 0⟩
  | .triggered k e W N =>
    ⟨track, 0x04, BitVec.ofNat 8 k.val, e.code, W.extractLsb' 8 8, W.extractLsb' 0 8, N, 0, 0, 0⟩
  | .tally e none => ⟨track, 0x08, e.code, 0x00, 0, 0, 0, 0, 0, 0⟩
  | .tally e (some l) =>
    ⟨track, 0x08, e.code, 0x01, l.extractLsb' 16 8, l.extractLsb' 8 8, l.extractLsb' 0 8, 0, 0, 0⟩

/-- A shape with its parameters as sent. -/
def Shape.draft : Shape → Draft
  | .steady => .steady
  | .train P D => .train P D
  | .toggle I l => .toggle I l
  | .triggered k e W N => .triggered (BitVec.ofNat 8 k.val) e W N
  | .tally e l => .tally e l

theorem Shape.laidOut_track (track : Byte) (sh : Shape) : (sh.laidOut track).track = track := by
  rcases sh with _ | _ | _ | _ | ⟨_, _ | _⟩ <;> rfl

/-- The form of a descriptor laid out by the table is good, and it is read with its parameters (02 R25 part 1). -/
theorem descriptorForm_laidOut (track : Byte) (sh : Shape) : descriptorForm (sh.laidOut track) = some sh.draft := by
  match sh with
  | .steady => rfl
  | .train P D => exact congrArg₂ (fun p d => some (Draft.train p d)) (append_bytes16 P) (append_bytes16 D)
  | .toggle I l => cases l <;> exact congrArg (fun i => some (Draft.toggle i _)) (append_bytes16 I)
  | .triggered k e W N => cases e <;> exact congrArg (fun w => some (Draft.triggered _ _ w N)) (append_bytes16 W)
  | .tally e none => cases e <;> rfl
  | .tally e (some l) => cases e <;> exact congrArg (fun x => some (Draft.tally _ (some x))) (append_bytes24 l)

/-- Parameters within their ranges make the shape again (02 R25 part 2, 01 R6). -/
theorem Shape.ranged_draft {sh : Shape} (h : sh.inRange = true) : sh.draft.ranged = some sh := by
  match sh with
  | .steady => rfl
  | .train _ _ => exact if_pos (of_decide_eq_true h)
  | .toggle _ _ => exact if_pos (of_decide_eq_true h)
  | .triggered k _ _ _ =>
    have source : (BitVec.ofNat 8 k.val).toNat = k.val := byteOf_toNat (by omega)
    simp only [Shape.inRange, Bool.and_eq_true, decide_eq_true_eq] at h
    simp only [Shape.draft, Draft.ranged, source, k.isLt, h, and_self, dite_true, if_true]
  | .tally _ none => rfl
  | .tally _ (some _) => exact if_pos (of_decide_eq_true h)

theorem priorityOperand_of_val {b : Byte} {pr : Fin 4} (h : b.toNat = pr.val) : priorityOperand b = some pr := by
  unfold priorityOperand
  rw [dif_pos (h ▸ pr.isLt)]
  exact congrArg some (Fin.ext h)

/-- A shape in range on a track of its kind is read from its descriptor as the member it spells (12 R181, 02 R25). -/
theorem judgeMember_laidOut {b : Booking} {pr : Fin 4} {t : Track} {sh : Shape} (hp : b.priority.toNat = pr.val)
    (hn : b.notify.toNat ≤ 3) (hk : kindFits t sh = true) (hr : sh.inRange = true) :
    judgeMember b (sh.laidOut (BitVec.ofNat 8 t.val)) = .ok
      { track := t, shape := sh, priority := pr, noteStart := b.notify.getLsbD 0, noteEnd := b.notify.getLsbD 1 } := by
  have flags : notifyFlags b.notify = some (b.notify.getLsbD 0, b.notify.getLsbD 1) := if_pos (by omega)
  have track : trackOperand (sh.laidOut (BitVec.ofNat 8 t.val)).track = some t := by
    rw [sh.laidOut_track]
    exact trackOperand_of_val (byteOf_toNat (by omega))
  exact (judgeMember_ranged flags (descriptorForm_laidOut _ sh) track (priorityOperand_of_val hp) (Shape.ranged_draft hr)).trans
    (if_pos hk)

/-- Settles O29: a laid out descriptor passes the three parts of the judgement. -/
theorem memberDescriptorsAreRead : Obligations.MemberDescriptorsAreRead := by
  intro b pr t sh hp hn hk hr edgeCode tb d
  have read := judgeMember_laidOut hp hn hk hr
  rcases sh with _ | _ | _ | _ | ⟨e, _ | l⟩ <;> exact read

end Sys2Proof.Machine
end

section
/-! PROOFS. A transaction on the port link: the item chosen at its begin, and at its end the judgement of the inbound frame: retry, overrun, taken, refused, bad or discarded (12 R173 to R178). -/

namespace Sys2Proof.Machine

/-! ### The judgement of a request frame (12 R175 to R177) -/

/-- The reply slot behind a retry: the reply in it, a BAD_FRAME reply with OVERRUN set, or the retained reply with RETRY set (12 R176). -/
def PortUnit.retriedSlot (u : PortUnit) : Option Reply :=
  match u.replySlot with
  | some x => if x.answer.status = .badFrame then some { x with overrun := true } else some x
  | none => u.retained.map (fun x => { x with retry := true, overrun := false })

section
variable {p : Port} {f : Frame} {s : State} {u : PortUnit}

theorem State.reloadTimer_setPort :
    (s.setPort p u).reloadTimer p = s.setPort p { u with silenceTimer := u.reloadedTimer } := by
  rw [State.reloadTimer_eq, State.port_setPort, if_pos rfl, State.setPort_setPort]

theorem State.setOverrun_setPort {x : Reply} (h : u.replySlot = some x) :
    (s.setPort p u).setOverrun p = s.setPort p { u with replySlot := some { x with overrun := true } } := by
  unfold State.setOverrun
  rw [State.port_setPort, if_pos rfl, State.setPort_setPort, h]
  rfl

theorem State.fillSlot_setPort (seq : Seq) (code : Byte) (a : Answer) : (s.setPort p u).fillSlot p seq code a =
    s.setPort p { u with replySlot := some { seq, code, answer := a, retry := false, overrun := false } } := by
  unfold State.fillSlot
  rw [State.port_setPort, if_pos rfl, State.setPort_setPort]

theorem State.setIdentity_setPort :
    (s.setPort p u).setIdentity p f = s.setPort p { u with identity := some (f.seq, f.crc) } := by
  unfold State.setIdentity
  rw [State.port_setPort, if_pos rfl, State.setPort_setPort]

theorem retryFrame_setPort : retryFrame p (s.setPort p u) = s.setPort p { u with replySlot := u.retriedSlot } := by
  unfold retryFrame PortUnit.retriedSlot
  rw [State.port_setPort, if_pos rfl]
  cases slot : u.replySlot with
  | none => exact State.setPort_setPort ..
  | some x =>
    dsimp only
    split
    · exact State.setOverrun_setPort slot
    · rw [← slot]

/-- The three cases of a request frame, on the unit with its timer reloaded (12 R175 to R177). -/
theorem judgeFrame_setPort : judgeFrame p f (s.setPort p u) =
    if u.identity = some (f.seq, f.crc) then retryFrame p (s.setPort p { u with silenceTimer := u.reloadedTimer })
    else if u.replySlot.isSome = true then (s.setPort p { u with silenceTimer := u.reloadedTimer }).setOverrun p
    else takeFrame p f (s.setPort p { u with silenceTimer := u.reloadedTimer }) := by
  unfold judgeFrame
  dsimp only
  rw [State.reloadTimer_setPort, State.port_setPort, if_pos rfl]

/-- A retry: the timer reloaded, the slot answered from what the port holds (12 R176). -/
theorem judgeFrame_retry (hi : u.identity = some (f.seq, f.crc)) : judgeFrame p f (s.setPort p u) =
    s.setPort p { u with silenceTimer := u.reloadedTimer, replySlot := u.retriedSlot } := by
  rw [judgeFrame_setPort, if_pos hi, retryFrame_setPort]
  rfl

/-- An overrun: the timer reloaded, OVERRUN set on the reply in the slot (12 R177). -/
theorem judgeFrame_overrun {x : Reply} (hi : u.identity ≠ some (f.seq, f.crc)) (hx : u.replySlot = some x) :
    judgeFrame p f (s.setPort p u) =
      s.setPort p { u with silenceTimer := u.reloadedTimer, replySlot := some { x with overrun := true } } := by
  rw [judgeFrame_setPort, if_neg hi, if_pos (hx ▸ rfl)]
  exact State.setOverrun_setPort hx

/-- Neither: the frame is taken, the timer reloaded (12 R175). -/
theorem judgeFrame_taken (hi : u.identity ≠ some (f.seq, f.crc)) (hx : u.replySlot = none) :
    judgeFrame p f (s.setPort p u) = takeFrame p f (s.setPort p { u with silenceTimer := u.reloadedTimer }) := by
  rw [judgeFrame_setPort, if_neg hi, if_neg (by simp [hx])]

/-- A frame taken whose answer changes nothing: the identity and the reply are the whole of its effect (12 R175). -/
theorem takeFrame_unchanged {a : Answer}
    (ha : ∀ t : State, (t.port p).session = u.session → answerFrame p f t = (t, a)) : takeFrame p f (s.setPort p u) =
      s.setPort p { u with
        identity := some (f.seq, f.crc)
        replySlot := some { seq := f.seq, code := f.code, answer := a, retry := false, overrun := false } } := by
  have session : (((s.setPort p u).setIdentity p f).port p).session = u.session := by
    rw [State.setIdentity_setPort, State.port_setPort, if_pos rfl]
  unfold takeFrame
  rw [ha _ session, State.setIdentity_setPort, State.fillSlot_setPort]

/-- A bad frame at an empty slot leaves a BAD_FRAME reply in it (12 R175). -/
theorem badFrame_empty {seq : Seq} (hx : u.replySlot = none) : badFrame p seq (s.setPort p u) =
    s.setPort p { u with
      replySlot := some { seq, code := 0x00, answer := plainAnswer .badFrame, retry := false, overrun := false } } := by
  unfold badFrame
  rw [State.port_setPort, if_pos rfl, if_neg (by simp [hx]), State.fillSlot_setPort]

/-- A bad frame sets OVERRUN on a reply in the slot (12 R175). -/
theorem badFrame_full {seq : Seq} {x : Reply} (hx : u.replySlot = some x) :
    badFrame p seq (s.setPort p u) = s.setPort p { u with replySlot := some { x with overrun := true } } := by
  unfold badFrame
  rw [State.port_setPort, if_pos rfl, if_pos (hx ▸ rfl), State.setOverrun_setPort hx]

theorem State.inService_setPort (h : u.resetHeld = (s.port p).resetHeld) :
    (s.setPort p u).inService p = s.inService p := by
  unfold State.inService
  rw [State.port_setPort, if_pos rfl, h, State.setPort_resetHeld]

end

/-! ### Request rows (12 R176 to R178) -/

/-- A request row at a port in service is its frame judged there. -/
theorem exec_rowOf_inService {p : Port} {s : State} (hs : s.inService p = true) (seq : Seq) (r : Request) :
    exec (rowOf p seq r) s = .next (judgeFrame p (Frame.ofRequest seq r) s) :=
  (exec_rowOf p seq r s).trans (congrArg _ (if_pos hs))

/-- Settles O14: the row is judged as its frame, first against the request identity, then against the slot. -/
theorem retriesAndOverrunsAreNotExecuted : Obligations.RetriesAndOverrunsAreNotExecuted := by
  intro p seq r s hs
  have judged := exec_rowOf_inService hs seq r
  refine ⟨fun hi => ?_, fun x hi hx => ?_⟩
  · have retried := judgeFrame_retry (p := p) (f := Frame.ofRequest seq r) (s := s) hi
    rw [State.setPort_self] at retried
    exact judged.trans (congrArg Host.Outcome.next retried)
  · have overrun := judgeFrame_overrun (p := p) (f := Frame.ofRequest seq r) (s := s) hi hx
    rw [State.setPort_self] at overrun
    exact judged.trans (congrArg Host.Outcome.next overrun)

/-- Settles O15: each of the three rows asks first whether the port is in service. -/
theorem portsOutOfServiceTakeNothing : Obligations.PortsOutOfServiceTakeNothing := by
  intro p seq r received s held
  have out : s.inService p = false := by
    unfold State.inService
    rcases held with h | h <;> simp [h]
  have shut : ¬ s.inService p = true := by simp [out]
  refine ⟨(exec_rowOf p seq r s).trans (congrArg _ (if_neg shut)), if_neg ?_, if_neg shut⟩
  simp [out]

/-! ### The begin of a transaction (12 R173) -/

theorem levelOf_eq_high (b : Bool) : levelOf b = .high ↔ b = true := by
  cases b <;> simp [levelOf]

/-- A transaction in progress shows its item's frame bit by bit, each byte most significant bit first, and zeros behind it (12 R173). -/
theorem State.sdo_of_transaction {s : State} {p : Port} {x : Transaction} (h : (s.port p).transaction = some x) (clocks : Nat) :
    s.sdo p clocks = if (x.item.frame.getD (clocks / 8) 0x00).getLsbD (7 - clocks % 8) = true then .high else .low := by
  have bit : clocks % 8 < 8 := Nat.mod_lt _ (by decide)
  unfold State.sdo
  rw [h]
  dsimp only
  unfold Transaction.sdoBit Transaction.sdoByte
  simp only [levelOf_eq_high, BitVec.getMsbD, bit, decide_true, Bool.true_and]

theorem PortUnit.choose_reply {u : PortUnit} {r : Reply} (h : u.replySlot = some r) : u.choose = .reply r := by
  unfold PortUnit.choose
  rw [h]

theorem PortUnit.choose_event {u : PortUnit} {e : EventRecord} {es : List EventRecord} (h : u.replySlot = none)
    (hq : u.queue = e :: es) : u.choose = .event e := by
  unfold PortUnit.choose
  rw [h, hq]

theorem PortUnit.choose_idle {u : PortUnit} (h : u.replySlot = none) (hq : u.queue = []) : u.choose = .idle := by
  unfold PortUnit.choose
  rw [h, hq]

/-- Settles O8: the item is the port's choice, and PnSDO shows its frame. -/
theorem transactionBeginChoosesTheItem : Obligations.TransactionBeginChoosesTheItem := by
  intro p s hs ht
  have begun : exec (.transactionBegin p) s = .next (s.setPort p { s.port p with
      transaction := some { item := (s.port p).choose, cleared := false, exchanged := [] } }) := if_pos (by simp [hs, ht])
  refine ⟨fun clocks => by unfold State.sdo; rw [ht], (s.port p).choose, _, begun, rfl, fun _ => PortUnit.choose_reply,
    fun _ _ => PortUnit.choose_event, PortUnit.choose_idle, fun clocks => ?_⟩
  exact State.sdo_of_transaction (x := { item := (s.port p).choose, cleared := false, exchanged := [] })
    (by rw [State.port_setPort, if_pos rfl]) clocks

/-! ### The end of a transaction (12 R173 to R175) -/

/-- Settles O9: a reply fully clocked leaves the slot, any other leaves its Port Unit as it stands, and the rest is judged behind it. -/
theorem transactionEndSettlesAReply : Obligations.TransactionEndSettlesAReply := by
  intro p chosen cleared earlier received s hs ht clocked
  refine ⟨fun r hr hc hl => ?_, fun h => ?_⟩
  · have settled := (s.port p).deselected_settled (x := { item := .reply chosen, cleared, exchanged := earlier }) hc hl
    refine endsAs_of_deselected hs ht rfl (settled.trans ?_)
    unfold PortUnit.settle
    dsimp only
    rw [hr]
  · exact endsAs_of_deselected hs ht rfl (PortUnit.deselected_unsettled _ h)

section
variable {p : Port} {cleared : Bool} {s : State}

theorem judgeInbound_request {bs : List Byte} {f : Frame} (h : readInbound bs = .request f) :
    judgeInbound p bs s = judgeFrame p f s := by
  unfold judgeInbound
  rw [h]

theorem judgeInbound_bad {bs : List Byte} {seq : Seq} (h : readInbound bs = .bad seq) :
    judgeInbound p bs s = badFrame p seq s := by
  unfold judgeInbound
  rw [h]

/-- Behind an IDLE frame, cleared by a lapse or not, nothing is settled: what was clocked in is judged (12 R174, R175). -/
theorem exec_transactionEnd_idle (hs : s.inService p = true)
    (ht : (s.port p).transaction = some { item := .idle, cleared, exchanged := [] }) (received : List Level) :
    exec (.transactionEnd p received) s =
      .next (judgeInbound p (wholeBytes received) (s.setPort p { s.port p with transaction := none })) := by
  have unsettled : (s.port p).deselected { item := .idle, cleared, exchanged := [] } (wholeBytes received) =
      { s.port p with transaction := none } := ite_self _
  have ended := exec_transactionEnd (received := received) hs ht
  rw [List.nil_append, unsettled] at ended
  exact ended

/-- A request frame clocked in behind an IDLE frame is judged at its port (12 R175). -/
theorem exec_transactionEnd_request {body : List Byte} {f : Frame} {fill : List Level} (hs : s.inService p = true)
    (ht : (s.port p).transaction = some { item := .idle, cleared, exchanged := [] })
    (hf : readInbound (body ++ crc body :: wholeBytes fill) = .request f) :
    exec (.transactionEnd p ((body ++ [crc body]).flatMap bitLevels ++ fill)) s =
      .next (judgeFrame p f (s.setPort p { s.port p with transaction := none })) := by
  rw [exec_transactionEnd_idle hs ht, wholeBytes_flatMap_append, List.append_assoc, List.singleton_append,
    judgeInbound_request hf]

/-- A request frame that is taken behind an IDLE frame and whose answer changes nothing: timer, identity and reply are the whole of its effect (12 R175). -/
theorem exec_transactionEnd_answered {body : List Byte} {f : Frame} {fill : List Level} {a : Answer} (hs : s.inService p = true)
    (ht : (s.port p).transaction = some { item := .idle, cleared, exchanged := [] })
    (hf : readInbound (body ++ crc body :: wholeBytes fill) = .request f)
    (hi : (s.port p).identity ≠ some (f.seq, f.crc)) (hx : (s.port p).replySlot = none)
    (ha : ∀ t : State, (t.port p).session = (s.port p).session → answerFrame p f t = (t, a)) :
    exec (.transactionEnd p ((body ++ [crc body]).flatMap bitLevels ++ fill)) s = .next (s.setPort p { s.port p with
      transaction := none
      silenceTimer := (s.port p).reloadedTimer
      identity := some (f.seq, f.crc)
      replySlot := some { seq := f.seq, code := f.code, answer := a, retry := false, overrun := false } }) := by
  have taken := judgeFrame_taken (p := p) (s := s) (u := { s.port p with transaction := none }) hi hx
  exact (exec_transactionEnd_request hs ht hf).trans
    (congrArg Host.Outcome.next (taken.trans (takeFrame_unchanged (u := { s.port p with
      transaction := none, silenceTimer := (s.port p).reloadedTimer }) ha)))

end

/-- Settles O6: the frame is read back as its request, and judged as the row's frame is. -/
theorem requestRowIsItsFrame : Obligations.RequestRowIsItsFrame := by
  intro p seq low r cleared fill s hr hs ht body frame reloaded clocked
  have judged : clocked = .next (judgeFrame p frame (s.setPort p { s.port p with transaction := none })) :=
    exec_transactionEnd_request hs ht (readInbound_bodyWithLow hr seq low _)
  rw [judged]
  refine ⟨fun h0 => ?_, fun hi => congrArg _ (judgeFrame_retry hi), fun hi x hx => congrArg _ (judgeFrame_overrun hi hx),
    fun hi hx => congrArg _ (judgeFrame_taken hi hx)⟩
  subst h0
  have service : (s.setPort p { s.port p with transaction := none }).inService p = true :=
    (State.inService_setPort (u := { s.port p with transaction := none }) rfl).trans hs
  exact (exec_rowOf_inService service seq r).symm

/-- Settles O11: the frame is read as bad, and its judgement is that of the slot it meets. -/
theorem badFramesAreAnswered : Obligations.BadFramesAreAnswered := by
  intro p b0 b1 rest cleared cut s hs hcut ht h0 hbad
  rw [exec_transactionEnd_idle hs ht, wholeBytes_flatMap_cut _ hcut, judgeInbound_bad (readInbound_bad h0 hbad)]
  cases slot : (s.port p).replySlot with
  | none => exact congrArg _ (badFrame_empty slot)
  | some x => exact congrArg _ (badFrame_full slot)

/-- What is no whole frame is read as none or as incomplete (12 R175). -/
theorem judgeInbound_short {p : Port} {received : List Byte} {s : State}
    (h : received = [] ∨ (∃ b0 : Byte, b0 ≠ 0x00 ∧ received = [b0]) ∨
      ∃ (b0 b1 : Byte) (rest : List Byte), received = b0 :: b1 :: rest ∧ 3 ≤ b0.toNat ∧ b0.toNat ≤ 126 ∧
        received.length < b0.toNat + 1) : judgeInbound p received s = s := by
  unfold judgeInbound
  rcases h with rfl | ⟨b0, h0, rfl⟩ | ⟨b0, b1, rest, rfl, h3, hm, hl⟩
  · rfl
  · have read : readInbound [b0] = .incomplete := if_neg h0
    rw [read]
  · rw [readInbound_incomplete h3 hm (Nat.lt_of_succ_lt_succ hl)]

/-- Settles O12: the transaction ends, and nothing is judged. -/
theorem incompleteFramesAreDiscarded : Obligations.IncompleteFramesAreDiscarded := by
  intro p received cleared cut s hs hcut ht hshort
  rw [exec_transactionEnd_idle hs ht, wholeBytes_flatMap_cut _ hcut, judgeInbound_short hshort]
  rfl

/-! ### Frames that cannot be carried out (12 R175, R180) -/

/-- The common operands are the first 20 bytes (12 R180). -/
theorem readBooking_front {bs rest : List Byte} {b : Booking} (h : readBooking bs = some (b, rest)) :
    ∃ front : List Byte, front.length = 20 ∧ bs = front ++ rest := by
  unfold readBooking at h
  split at h
  · cases h
    exact ⟨[_, _, _, _, _, _, _, _, _, _, _, _, _, _, _, _, _, _, _, _], rfl, rfl⟩
  · cases h

/-- A member descriptor takes ten bytes (12 R181). -/
theorem readDescriptors_length {n : Nat} {bs : List Byte} {ds : List Descriptor} (h : readDescriptors n bs = some ds) :
    bs.length = 10 * n := by
  induction n, bs using readDescriptors.induct generalizing ds with
  | case1 => rfl
  | case2 n _ _ _ _ _ _ _ _ _ _ rest ih =>
    obtain ⟨_, read, _⟩ := Option.map_eq_some_iff.mp h
    simp only [List.length_cons, ih read]
    omega
  | case3 => simp_all [readDescriptors]

theorem readOperands_reserve {bs : List Byte} {r : Request} (h : readOperands .reserve bs = some r) :
    ∃ b rest d, readBooking bs = some (b, rest) ∧ readDescriptors 1 rest = some [d] := by
  replace h : (match readBooking bs with
    | some (b, rest) =>
      match readDescriptors 1 rest with
      | some [d] => some (Request.reserve b d)
      | _ => none
    | none => none) = some r := h
  split at h
  next b rest booked =>
    split at h
    next d read => exact ⟨b, rest, d, booked, read⟩
    · cases h
  · cases h

theorem readOperands_reserveBundle {bs : List Byte} {r : Request} (h : readOperands .reserveBundle bs = some r) :
    ∃ b count rest ds, readBooking bs = some (b, count :: rest) ∧ readDescriptors count.toNat rest = some ds := by
  replace h : (match readBooking bs with
    | some (b, n :: rest) => (readDescriptors n.toNat rest).map (fun ds => Request.reserveBundle b ds)
    | _ => none) = some r := h
  split at h
  next b count rest booked =>
    obtain ⟨ds, read, _⟩ := Option.map_eq_some_iff.mp h
    exact ⟨b, count, rest, ds, booked, read⟩
  · cases h

/-- Operands that are read fit their code (12 R180). -/
theorem misfits_of_readOperands {n : RequestName} {bs : List Byte} {r : Request} (h : readOperands n bs = some r) :
    misfits n bs = false := by
  cases n with
  | reserve =>
    obtain ⟨b, rest, d, booked, read⟩ := readOperands_reserve h
    obtain ⟨front, length, rfl⟩ := readBooking_front booked
    have member := readDescriptors_length read
    simp [misfits, length, member]
  | reserveBundle =>
    obtain ⟨b, count, rest, ds, booked, read⟩ := readOperands_reserveBundle h
    obtain ⟨front, length, rfl⟩ := readBooking_front booked
    have members := readDescriptors_length read
    have counted : (front ++ count :: rest).getD 20 0 = count := by simp [List.getD_eq_getElem?_getD, ← length]
    simp only [misfits, counted, List.length_append, List.length_cons, length, members, Bool.or_eq_false_iff,
      decide_eq_false_iff_not]
    omega
  | close =>
    rcases bs with _ | ⟨m, _ | ⟨_, _⟩⟩
    · cases h
    · by_cases graceful : m = 0x01
      · rw [graceful]; rfl
      by_cases abrupt : m = 0x02
      · rw [abrupt]; rfl
      · have unread : readOperands .close [m] = none := (if_neg graceful).trans (if_neg abrupt)
        cases unread.symm.trans h
    · cases h
  | amendEnd =>
    rcases bs with _ | ⟨_, _ | ⟨_, _ | ⟨_, _ | ⟨_, _ | ⟨_, _ | ⟨_, _ | ⟨_, _ | ⟨_, _ | ⟨_, _ | ⟨_, _ | ⟨_, _⟩⟩⟩⟩⟩⟩⟩⟩⟩⟩⟩ <;>
      cases h
    rfl
  | _ =>
    rcases bs with _ | ⟨_, _ | ⟨_, _ | ⟨_, _ | ⟨_, _⟩⟩⟩⟩ <;> cases h
    rfl

theorem readOperands_misfits {n : RequestName} {operands : List Byte} (h : misfits n operands = true) :
    readOperands n operands = none := by
  cases read : readOperands n operands with
  | none => rfl
  | some r => rw [misfits_of_readOperands read] at h; cases h

/-- A code that names no request (12 R175). -/
theorem answerFrame_unknown {p : Port} {f : Frame} {s : State} (h : f.name = none) :
    answerFrame p f s = (s, plainAnswer .badRequest) := by
  unfold answerFrame
  rw [h]

/-- Operands that cannot be read: the session check refuses first, else the form (12 R175, R180). -/
theorem answerFrame_misfit {p : Port} {f : Frame} {s : State} {n : RequestName} (hn : f.name = some n)
    (hr : f.request = none) :
    answerFrame p f s = (s, gateRefusal n ((sessionGate n (s.port p).session).getD .badRequest)) := by
  unfold answerFrame
  rw [hn, hr]
  dsimp only
  cases sessionGate n (s.port p).session <;> rfl

section
variable {n : RequestName} {st : SessionState}

theorem sessionGate_getD_noSession (h : st = .down ∨ st = .lapsed) : (sessionGate n st).getD .badRequest =
    if n ∈ [RequestName.openSession, .readEpoch, .queryPool, .queryTrack] then .badRequest else .noSession := by
  rcases h with rfl | rfl <;> cases n <;> rfl

theorem sessionGate_getD_closing (h : st = .closing) : (sessionGate n st).getD .badRequest =
    if n ∈ [RequestName.close, .queryWindow, .readEpoch, .queryPool, .queryTrack] then .badRequest else .closing := by
  subst h
  cases n <;> rfl

theorem sessionGate_getD_opened (h : st = .opened) : (sessionGate n st).getD .badRequest =
    if n = .openSession then .sessionOpen else .badRequest := by
  subst h
  cases n <;> rfl

end

/-- Settles O13: the frame is taken, its name or its operands are none, and the answer changes nothing. -/
theorem unknownCodesAreBadRequests : Obligations.UnknownCodesAreBadRequests := by
  intro p b1 code operands cleared fill s hs ht hx hlen body hi answered
  have counted : (BitVec.ofNat 8 (3 + operands.length)).toNat = 3 + operands.length := byteOf_toNat (by omega)
  have read := readInbound_body (b1 := b1) (code := code) counted (by omega) (wholeBytes fill)
  have refused : ∀ a : Answer, (∀ t : State, (t.port p).session = (s.port p).session →
      answerFrame p (Frame.ofBytes b1 code operands (crc body)) t = (t, a)) → answered a.status a.results :=
    fun a ha => exec_transactionEnd_answered hs ht read hi hx ha
  refine ⟨fun unknown => refused _ (fun t _ => answerFrame_unknown (RequestName.ofCode_none unknown)), ?_⟩
  intro n hn hmis results always
  subst hn
  have misfit : ∀ st, (sessionGate n (s.port p).session).getD .badRequest = st → answered st results := by
    rintro _ rfl
    refine refused { status := _, results } (fun t session => ?_)
    have unread : (Frame.ofBytes b1 n.code operands (crc body)).request = none := by
      unfold Frame.ofBytes
      rw [RequestName.ofCode_code, Option.bind_some, readOperands_misfits hmis]
    rw [answerFrame_misfit n.ofCode_code unread, session, gateRefusal_eq]
    rfl
  exact ⟨fun h => misfit _ (sessionGate_getD_noSession h), fun h => misfit _ (sessionGate_getD_closing h),
    fun h => misfit _ (sessionGate_getD_opened h)⟩

end Sys2Proof.Machine
end
